-- ==== Sys2Proof/Word.lean ====
section
/-! DEFINITION. The word and byte types (00_scope.md rule R10: a register value is an unsigned bit vector of its
stated width). -/
namespace Sys2Proof

/-- A 32-bit word: a register, an address, a program word (R7 `AW` = 32, R200). -/
abbrev Word := BitVec 32

/-- One byte of memory (R80). -/
abbrev Byte := BitVec 8


end Sys2Proof
end

