-- ==== Sys2Proof/Syntax.lean ====
section
/-! DEFINITION. The syntax of the instructions: one constructor of `Instr` for each row of spec/opcode_table.json
(91 rows: 30_encoding.md rules R201 to R208), with the small types of their operands. -/
namespace Sys2Proof

/-- A DMA block, `b` of rule R11. `NBLK` = 2 (R7). -/
inductive Blk where
  | dma1 | dma2
  deriving DecidableEq, Repr, Inhabited

/-- A channel, `x` of rule R11. `NCH` = 7 (R7). -/
inductive Ch where
  | c1 | c2 | c3 | c4 | c5 | c6 | c7
  deriving DecidableEq, Repr, Inhabited

/-- The event operand of LISTEN and UNLISTEN (R205). -/
inductive Event where
  | tc | ht | te
  deriving DecidableEq, Repr, Inhabited

/-- The flag operand of CLEAR_FLAG (R205). -/
inductive Flag where
  | tc | ht | te | gif
  deriving DecidableEq, Repr, Inhabited

/-- A register of a block's window (R202). -/
inductive Reg where
  | isr | ifcr | ccr (x : Ch) | cndtr (x : Ch) | cpar (x : Ch) | cmar (x : Ch) | cselr
  deriving DecidableEq, Repr

/-- The instructions: BUS reads and writes (R201, R202), then the CMD operations (R203, R208).
`b` is the block, `x` the channel, `v` the value written. -/
inductive Instr where
  | rdIsr (b : Blk)
  | rdIfcr (b : Blk)
  | rdCcr1 (b : Blk)
  | rdCndtr1 (b : Blk)
  | rdCpar1 (b : Blk)
  | rdCmar1 (b : Blk)
  | rdCcr2 (b : Blk)
  | rdCndtr2 (b : Blk)
  | rdCpar2 (b : Blk)
  | rdCmar2 (b : Blk)
  | rdCcr3 (b : Blk)
  | rdCndtr3 (b : Blk)
  | rdCpar3 (b : Blk)
  | rdCmar3 (b : Blk)
  | rdCcr4 (b : Blk)
  | rdCndtr4 (b : Blk)
  | rdCpar4 (b : Blk)
  | rdCmar4 (b : Blk)
  | rdCcr5 (b : Blk)
  | rdCndtr5 (b : Blk)
  | rdCpar5 (b : Blk)
  | rdCmar5 (b : Blk)
  | rdCcr6 (b : Blk)
  | rdCndtr6 (b : Blk)
  | rdCpar6 (b : Blk)
  | rdCmar6 (b : Blk)
  | rdCcr7 (b : Blk)
  | rdCndtr7 (b : Blk)
  | rdCpar7 (b : Blk)
  | rdCmar7 (b : Blk)
  | rdCselr (b : Blk)
  | wrIsr (b : Blk) (v : Word)
  | wrIfcr (b : Blk) (v : Word)
  | wrCcr1 (b : Blk) (v : Word)
  | wrCndtr1 (b : Blk) (v : Word)
  | wrCpar1 (b : Blk) (v : Word)
  | wrCmar1 (b : Blk) (v : Word)
  | wrCcr2 (b : Blk) (v : Word)
  | wrCndtr2 (b : Blk) (v : Word)
  | wrCpar2 (b : Blk) (v : Word)
  | wrCmar2 (b : Blk) (v : Word)
  | wrCcr3 (b : Blk) (v : Word)
  | wrCndtr3 (b : Blk) (v : Word)
  | wrCpar3 (b : Blk) (v : Word)
  | wrCmar3 (b : Blk) (v : Word)
  | wrCcr4 (b : Blk) (v : Word)
  | wrCndtr4 (b : Blk) (v : Word)
  | wrCpar4 (b : Blk) (v : Word)
  | wrCmar4 (b : Blk) (v : Word)
  | wrCcr5 (b : Blk) (v : Word)
  | wrCndtr5 (b : Blk) (v : Word)
  | wrCpar5 (b : Blk) (v : Word)
  | wrCmar5 (b : Blk) (v : Word)
  | wrCcr6 (b : Blk) (v : Word)
  | wrCndtr6 (b : Blk) (v : Word)
  | wrCpar6 (b : Blk) (v : Word)
  | wrCmar6 (b : Blk) (v : Word)
  | wrCcr7 (b : Blk) (v : Word)
  | wrCndtr7 (b : Blk) (v : Word)
  | wrCpar7 (b : Blk) (v : Word)
  | wrCmar7 (b : Blk) (v : Word)
  | wrCselr (b : Blk) (v : Word)
  | split (b : Blk)
  | listen (b : Blk) (x : Ch) (ev : Event)
  | unlisten (b : Blk) (x : Ch) (ev : Event)
  | status (b : Blk) (x : Ch)
  | clearFlags (b : Blk) (x : Ch)
  | clearFlag (b : Blk) (x : Ch) (which : Flag)
  | remaining (b : Blk) (x : Ch)
  | selectRequest (b : Blk) (x : Ch) (imm : BitVec 16)
  | setPaddr (b : Blk) (x : Ch) (paddr : Word)
  | setMaddr (b : Blk) (x : Ch) (maddr : Word)
  | setCount (b : Blk) (x : Ch) (count : BitVec 16)
  | configure (b : Blk) (x : Ch) (imm : BitVec 16)
  | start (b : Blk) (x : Ch)
  | stop (b : Blk) (x : Ch)
  | getPaddr (b : Blk) (x : Ch)
  | getMaddr (b : Blk) (x : Ch)
  | circRead (b : Blk) (x : Ch) (size pl : BitVec 2) (h : BitVec 16) (base paddr : Word)
  | readableHalf (b : Blk) (x : Ch)
  | peek (b : Blk) (x : Ch)
  | partialPeek (b : Blk) (x : Ch)
  | answerIsr (b : Blk) (x : Ch)
  | readExact (b : Blk) (x : Ch) (size pl : BitVec 2) (n : BitVec 16) (base paddr payload : Word)
  | writeAll (b : Blk) (x : Ch) (size pl : BitVec 2) (n : BitVec 16) (base paddr payload : Word)
  | isDone (b : Blk) (x : Ch)
  | wait (b : Blk) (x : Ch)
  | terminate (b : Blk) (x : Ch)
  | xpeek (b : Blk) (x : Ch)
  | restart (b : Blk) (x : Ch)
  | fence
  deriving DecidableEq, Repr

end Sys2Proof
end

