-- ==== Sys2Proof/WellFormed.lean ====
section
/-! DEFINITION. Which instructions are well formed: the operand values that 30_encoding.md rules R205 and R206 call
reserved or require to be 0 are not. (Block, channel, event and flag operands are closed types, so that no other
value exists.) -/
namespace Sys2Proof

/-- SELECT_REQUEST: `imm[15:4]` must be 0 (R206, R407). -/
def requestImmOk (imm : BitVec 16) : Bool := imm.extractLsb' 4 12 == 0#12

/-- CONFIGURE: `imm[15:11]` must be 0 (R206, R411). -/
def configImmOk (imm : BitVec 16) : Bool := imm.extractLsb' 11 5 == 0#5

/-- CIRC_READ, READ_EXACT, WRITE_ALL: size code 3 is reserved (R205). -/
def sizeCodeOk (size : BitVec 2) : Bool := size != 3#2

/-- The well-formed instructions. -/
def Instr.wellFormed : Instr → Bool
  | .rdIsr _ | .rdIfcr _ | .rdCcr1 _ | .rdCndtr1 _ | .rdCpar1 _ | .rdCmar1 _ | .rdCcr2 _ | .rdCndtr2 _ |
    .rdCpar2 _ | .rdCmar2 _ | .rdCcr3 _ | .rdCndtr3 _ | .rdCpar3 _ | .rdCmar3 _ | .rdCcr4 _ | .rdCndtr4 _ |
    .rdCpar4 _ | .rdCmar4 _ | .rdCcr5 _ | .rdCndtr5 _ | .rdCpar5 _ | .rdCmar5 _ | .rdCcr6 _ | .rdCndtr6 _ |
    .rdCpar6 _ | .rdCmar6 _ | .rdCcr7 _ | .rdCndtr7 _ | .rdCpar7 _ | .rdCmar7 _ | .rdCselr _ | .wrIsr _ _ |
    .wrIfcr _ _ | .wrCcr1 _ _ | .wrCndtr1 _ _ | .wrCpar1 _ _ | .wrCmar1 _ _ | .wrCcr2 _ _ | .wrCndtr2 _ _ |
    .wrCpar2 _ _ | .wrCmar2 _ _ | .wrCcr3 _ _ | .wrCndtr3 _ _ | .wrCpar3 _ _ | .wrCmar3 _ _ | .wrCcr4 _ _ |
    .wrCndtr4 _ _ | .wrCpar4 _ _ | .wrCmar4 _ _ | .wrCcr5 _ _ | .wrCndtr5 _ _ | .wrCpar5 _ _ | .wrCmar5 _ _ |
    .wrCcr6 _ _ | .wrCndtr6 _ _ | .wrCpar6 _ _ | .wrCmar6 _ _ | .wrCcr7 _ _ | .wrCndtr7 _ _ | .wrCpar7 _ _ |
    .wrCmar7 _ _ | .wrCselr _ _ | .split _ | .listen _ _ _ | .unlisten _ _ _ | .status _ _ | .clearFlags _ _ |
    .clearFlag _ _ _ | .remaining _ _ | .setPaddr _ _ _ | .setMaddr _ _ _ | .setCount _ _ _ | .start _ _ |
    .stop _ _ | .getPaddr _ _ | .getMaddr _ _ | .readableHalf _ _ | .peek _ _ | .partialPeek _ _ | .answerIsr _ _ |
    .isDone _ _ | .wait _ _ | .terminate _ _ | .xpeek _ _ | .restart _ _ | .fence => true
  | .selectRequest _ _ imm => requestImmOk imm
  | .configure _ _ imm => configImmOk imm
  | .circRead _ _ size _ _ _ _ => sizeCodeOk size
  | .readExact _ _ size _ _ _ _ _ => sizeCodeOk size
  | .writeAll _ _ size _ _ _ _ _ => sizeCodeOk size

end Sys2Proof
end

