-- ==== Sys2Proof/Decode.lean ====
section
/-! DEFINITION. The decoder, total on any list of words and of bytes, rejecting by name (30_encoding.md rules R200 to
R211), and after it the encoder, written from the same tables. -/
namespace Sys2Proof

/-- Why a head word is refused (R209). Every one of them is the refusal IllegalEncoding (R606). -/
inductive DecodeError where
  /-- no head word is left -/
  | noHead
  /-- class `0b10` or `0b11` -/
  | reservedClass
  /-- a BUS word with bits 29:10 nonzero -/
  | busZeroField
  /-- a BUS word with `off[1:0]` nonzero -/
  | misalignedOffset
  /-- a BUS word whose offset is reserved (R202, R267) -/
  | reservedOffset
  /-- a CMD word whose op is not in rule R208 -/
  | unassignedOp
  /-- `ch` outside 1..7 where a channel is needed, or nonzero for SPLIT and FENCE -/
  | badChannel
  /-- `blk` nonzero for FENCE -/
  | badBlock
  /-- a `sel` value rule R205 calls reserved or requires to be 0 -/
  | badSel
  /-- an `imm` value rule R206 requires to be 0 -/
  | badImm
  /-- the operand words run past the end of the program -/
  | missingOperands
  deriving DecidableEq, Repr

/-- What decoding answers: an instruction and the words after it, or a rejection by name. -/
abbrev Decoded := Except DecodeError (Instr × List Word)

/-! ## The fields (R201, R203) -/

/-- Bits 31:30, the class (R200). -/
def wordClass (w : Word) : BitVec 2 := w.extractLsb' 30 2
/-- BUS bits 29:10, the zero field. -/
def busZero (w : Word) : BitVec 20 := w.extractLsb' 10 20
/-- BUS bit 9, the block. -/
def busBlk (w : Word) : BitVec 1 := w.extractLsb' 9 1
/-- BUS bit 8, W. -/
def busW (w : Word) : BitVec 1 := w.extractLsb' 8 1
/-- BUS bits 7:0, the register offset. -/
def busOff (w : Word) : BitVec 8 := w.extractLsb' 0 8
/-- CMD bits 29:24, the operation code. -/
def cmdOp (w : Word) : BitVec 6 := w.extractLsb' 24 6
/-- CMD bits 23:21, the channel number. -/
def cmdCh (w : Word) : BitVec 3 := w.extractLsb' 21 3
/-- CMD bit 20, the block. -/
def cmdBlk (w : Word) : BitVec 1 := w.extractLsb' 20 1
/-- CMD bits 19:16, the selector. -/
def cmdSel (w : Word) : BitVec 4 := w.extractLsb' 16 4
/-- CMD bits 15:0, the immediate. -/
def cmdImm (w : Word) : BitVec 16 := w.extractLsb' 0 16

/-- The block a blk bit selects: 0 block 1, 1 block 2 (R201, R203). -/
def blkOf (v : BitVec 1) : Blk := if v = 1#1 then .dma2 else .dma1

/-- The channel of a `ch` field, none for 0 (R203, R209). -/
def chOf (v : BitVec 3) : Option Ch :=
  match v.toNat with
  | 1 => some .c1
  | 2 => some .c2
  | 3 => some .c3
  | 4 => some .c4
  | 5 => some .c5
  | 6 => some .c6
  | 7 => some .c7
  | _ => none

/-- Register selection (R202): the register at an offset, none where the offset is reserved. -/
def regOfOff (off : BitVec 8) : Option Reg :=
  match off.toNat with
  | 0x00 => some .isr
  | 0x04 => some .ifcr
  | 0x08 => some (.ccr .c1)
  | 0x0C => some (.cndtr .c1)
  | 0x10 => some (.cpar .c1)
  | 0x14 => some (.cmar .c1)
  | 0x1C => some (.ccr .c2)
  | 0x20 => some (.cndtr .c2)
  | 0x24 => some (.cpar .c2)
  | 0x28 => some (.cmar .c2)
  | 0x30 => some (.ccr .c3)
  | 0x34 => some (.cndtr .c3)
  | 0x38 => some (.cpar .c3)
  | 0x3C => some (.cmar .c3)
  | 0x44 => some (.ccr .c4)
  | 0x48 => some (.cndtr .c4)
  | 0x4C => some (.cpar .c4)
  | 0x50 => some (.cmar .c4)
  | 0x58 => some (.ccr .c5)
  | 0x5C => some (.cndtr .c5)
  | 0x60 => some (.cpar .c5)
  | 0x64 => some (.cmar .c5)
  | 0x6C => some (.ccr .c6)
  | 0x70 => some (.cndtr .c6)
  | 0x74 => some (.cpar .c6)
  | 0x78 => some (.cmar .c6)
  | 0x80 => some (.ccr .c7)
  | 0x84 => some (.cndtr .c7)
  | 0x88 => some (.cpar .c7)
  | 0x8C => some (.cmar .c7)
  | 0xA8 => some .cselr
  | _ => none

/-- The BUS read of a register (R208: one instruction per register and direction). -/
def readInstr (b : Blk) : Reg → Instr
  | .isr => .rdIsr b
  | .ifcr => .rdIfcr b
  | .ccr .c1 => .rdCcr1 b
  | .cndtr .c1 => .rdCndtr1 b
  | .cpar .c1 => .rdCpar1 b
  | .cmar .c1 => .rdCmar1 b
  | .ccr .c2 => .rdCcr2 b
  | .cndtr .c2 => .rdCndtr2 b
  | .cpar .c2 => .rdCpar2 b
  | .cmar .c2 => .rdCmar2 b
  | .ccr .c3 => .rdCcr3 b
  | .cndtr .c3 => .rdCndtr3 b
  | .cpar .c3 => .rdCpar3 b
  | .cmar .c3 => .rdCmar3 b
  | .ccr .c4 => .rdCcr4 b
  | .cndtr .c4 => .rdCndtr4 b
  | .cpar .c4 => .rdCpar4 b
  | .cmar .c4 => .rdCmar4 b
  | .ccr .c5 => .rdCcr5 b
  | .cndtr .c5 => .rdCndtr5 b
  | .cpar .c5 => .rdCpar5 b
  | .cmar .c5 => .rdCmar5 b
  | .ccr .c6 => .rdCcr6 b
  | .cndtr .c6 => .rdCndtr6 b
  | .cpar .c6 => .rdCpar6 b
  | .cmar .c6 => .rdCmar6 b
  | .ccr .c7 => .rdCcr7 b
  | .cndtr .c7 => .rdCndtr7 b
  | .cpar .c7 => .rdCpar7 b
  | .cmar .c7 => .rdCmar7 b
  | .cselr => .rdCselr b

/-- The BUS write of a register. -/
def writeInstr (b : Blk) (v : Word) : Reg → Instr
  | .isr => .wrIsr b v
  | .ifcr => .wrIfcr b v
  | .ccr .c1 => .wrCcr1 b v
  | .cndtr .c1 => .wrCndtr1 b v
  | .cpar .c1 => .wrCpar1 b v
  | .cmar .c1 => .wrCmar1 b v
  | .ccr .c2 => .wrCcr2 b v
  | .cndtr .c2 => .wrCndtr2 b v
  | .cpar .c2 => .wrCpar2 b v
  | .cmar .c2 => .wrCmar2 b v
  | .ccr .c3 => .wrCcr3 b v
  | .cndtr .c3 => .wrCndtr3 b v
  | .cpar .c3 => .wrCpar3 b v
  | .cmar .c3 => .wrCmar3 b v
  | .ccr .c4 => .wrCcr4 b v
  | .cndtr .c4 => .wrCndtr4 b v
  | .cpar .c4 => .wrCpar4 b v
  | .cmar .c4 => .wrCmar4 b v
  | .ccr .c5 => .wrCcr5 b v
  | .cndtr .c5 => .wrCndtr5 b v
  | .cpar .c5 => .wrCpar5 b v
  | .cmar .c5 => .wrCmar5 b v
  | .ccr .c6 => .wrCcr6 b v
  | .cndtr .c6 => .wrCndtr6 b v
  | .cpar .c6 => .wrCpar6 b v
  | .cmar .c6 => .wrCmar6 b v
  | .ccr .c7 => .wrCcr7 b v
  | .cndtr .c7 => .wrCndtr7 b v
  | .cpar .c7 => .wrCpar7 b v
  | .cmar .c7 => .wrCmar7 b v
  | .cselr => .wrCselr b v

/-! ## The checks of R209, each before what follows it -/

/-- The op needs a channel. -/
def needCh (ch : BitVec 3) (k : Ch → Decoded) : Decoded :=
  match chOf ch with
  | some x => k x
  | none => .error .badChannel

/-- The op needs `ch` = 0. -/
def zeroCh (ch : BitVec 3) (k : Decoded) : Decoded := if ch = 0#3 then k else .error .badChannel

/-- The op needs `sel` = 0. -/
def zeroSel (sel : BitVec 4) (k : Decoded) : Decoded := if sel = 0#4 then k else .error .badSel

/-- The op needs `imm` = 0. -/
def zeroImm (imm : BitVec 16) (k : Decoded) : Decoded := if imm = 0#16 then k else .error .badImm

/-- LISTEN, UNLISTEN: `sel` is an event (R205). -/
def needEvent (sel : BitVec 4) (k : Event → Decoded) : Decoded :=
  match sel.toNat with
  | 0 => k .tc
  | 1 => k .ht
  | 2 => k .te
  | _ => .error .badSel

/-- CLEAR_FLAG: `sel` is a flag (R205). -/
def needFlag (sel : BitVec 4) (k : Flag → Decoded) : Decoded :=
  match sel.toNat with
  | 0 => k .tc
  | 1 => k .ht
  | 2 => k .te
  | 3 => k .gif
  | _ => .error .badSel

/-- Entry operations: `sel[1:0]` is the size code, `sel[3:2]` the priority (R205). -/
def needSize (sel : BitVec 4) (k : BitVec 2 → BitVec 2 → Decoded) : Decoded :=
  if sizeCodeOk (sel.extractLsb' 0 2) then k (sel.extractLsb' 0 2) (sel.extractLsb' 2 2) else .error .badSel

/-- `imm` passes a check of R206. -/
def needImm (ok : Bool) (k : Decoded) : Decoded := if ok then k else .error .badImm

/-- One operand word. -/
def take1 (k : Word → List Word → Decoded) : List Word → Decoded
  | v :: rest => k v rest
  | [] => .error .missingOperands

/-- Two operand words. -/
def take2 (k : Word → Word → List Word → Decoded) : List Word → Decoded
  | v1 :: v2 :: rest => k v1 v2 rest
  | _ => .error .missingOperands

/-- Three operand words. -/
def take3 (k : Word → Word → Word → List Word → Decoded) : List Word → Decoded
  | v1 :: v2 :: v3 :: rest => k v1 v2 v3 rest
  | _ => .error .missingOperands

/-- An op on a channel with no selector, no immediate and no operand words. -/
def plainOp (w : Word) (rest : List Word) (mk : Blk → Ch → Instr) : Decoded :=
  needCh (cmdCh w) fun x => zeroSel (cmdSel w) <| zeroImm (cmdImm w) <| .ok (mk (blkOf (cmdBlk w)) x, rest)

/-! ## Decoding -/

/-- A BUS word (R201, R202, R209). -/
def decodeBus (w : Word) (rest : List Word) : Decoded :=
  if busZero w ≠ 0#20 then .error .busZeroField
  else if (busOff w).extractLsb' 0 2 ≠ 0#2 then .error .misalignedOffset
  else match regOfOff (busOff w) with
    | none => .error .reservedOffset
    | some r =>
      if busW w = 0#1 then .ok (readInstr (blkOf (busBlk w)) r, rest)
      else take1 (fun v rest => .ok (writeInstr (blkOf (busBlk w)) v r, rest)) rest

/-- A CMD word (R203, R205, R206, R208, R209). -/
def decodeCmd (w : Word) (rest : List Word) : Decoded :=
  let b := blkOf (cmdBlk w)
  let sel := cmdSel w
  let imm := cmdImm w
  match (cmdOp w).toNat with
  | 0x00 => zeroCh (cmdCh w) <| zeroSel sel <| zeroImm imm <| .ok (.split b, rest)
  | 0x01 => needCh (cmdCh w) fun x => needEvent sel fun ev => zeroImm imm <| .ok (.listen b x ev, rest)
  | 0x02 => needCh (cmdCh w) fun x => needEvent sel fun ev => zeroImm imm <| .ok (.unlisten b x ev, rest)
  | 0x03 => plainOp w rest .status
  | 0x04 => plainOp w rest .clearFlags
  | 0x05 => needCh (cmdCh w) fun x => needFlag sel fun f => zeroImm imm <| .ok (.clearFlag b x f, rest)
  | 0x06 => plainOp w rest .remaining
  | 0x07 => needCh (cmdCh w) fun x => zeroSel sel <| needImm (requestImmOk imm) <| .ok (.selectRequest b x imm, rest)
  | 0x08 => needCh (cmdCh w) fun x => zeroSel sel <| zeroImm imm <|
      take1 (fun a rest => .ok (.setPaddr b x a, rest)) rest
  | 0x09 => needCh (cmdCh w) fun x => zeroSel sel <| zeroImm imm <|
      take1 (fun a rest => .ok (.setMaddr b x a, rest)) rest
  | 0x0A => needCh (cmdCh w) fun x => zeroSel sel <| .ok (.setCount b x imm, rest)
  | 0x0B => needCh (cmdCh w) fun x => zeroSel sel <| needImm (configImmOk imm) <| .ok (.configure b x imm, rest)
  | 0x0C => plainOp w rest .start
  | 0x0D => plainOp w rest .stop
  | 0x0E => plainOp w rest .getPaddr
  | 0x0F => plainOp w rest .getMaddr
  | 0x10 => needCh (cmdCh w) fun x => needSize sel fun s pl =>
      take2 (fun base paddr rest => .ok (.circRead b x s pl imm base paddr, rest)) rest
  | 0x11 => plainOp w rest .readableHalf
  | 0x12 => plainOp w rest .peek
  | 0x13 => plainOp w rest .partialPeek
  | 0x14 => plainOp w rest .answerIsr
  | 0x20 => needCh (cmdCh w) fun x => needSize sel fun s pl =>
      take3 (fun base paddr payload rest => .ok (.readExact b x s pl imm base paddr payload, rest)) rest
  | 0x21 => needCh (cmdCh w) fun x => needSize sel fun s pl =>
      take3 (fun base paddr payload rest => .ok (.writeAll b x s pl imm base paddr payload, rest)) rest
  | 0x22 => plainOp w rest .isDone
  | 0x23 => plainOp w rest .wait
  | 0x24 => plainOp w rest .terminate
  | 0x25 => plainOp w rest .xpeek
  | 0x26 => plainOp w rest .restart
  | 0x3F => zeroCh (cmdCh w) <| zeroSel sel <| zeroImm imm <|
      if cmdBlk w = 0#1 then .ok (.fence, rest) else .error .badBlock
  | _ => .error .unassignedOp

/-- The instruction at the head of a program and the words after it (R200, R211). -/
def decode : List Word → Decoded
  | [] => .error .noHead
  | w :: rest =>
    if wordClass w = 0#2 then decodeBus w rest
    else if wordClass w = 1#2 then decodeCmd w rest
    else .error .reservedClass

/-- The words that bytes stand for, little-endian (R152, R200). Bytes that fill no whole word are no word. -/
def wordsOfBytes : List Byte → List Word
  | b0 :: b1 :: b2 :: b3 :: rest => (b3 ++ b2 ++ b1 ++ b0) :: wordsOfBytes rest
  | _ => []

/-- The instruction at the head of a program that stands in memory as bytes. -/
def decodeBytes (bytes : List Byte) : Decoded := decode (wordsOfBytes bytes)

/-- The words of an opcode-table word: its bits numbered from the least significant bit of the first word, the bits
from `nbits` up being 0, up to the longest instruction (4 words, R211). -/
def tableWords (nbits w : Nat) : List Word :=
  let v := w % 2 ^ nbits
  [BitVec.ofNat 32 v, BitVec.ofNat 32 (v / 2 ^ 32), BitVec.ofNat 32 (v / 2 ^ 64), BitVec.ofNat 32 (v / 2 ^ 96)]

/-- What the decoder reads from an opcode-table word. -/
def decodeTableWord (nbits w : Nat) : Option Instr :=
  match decode (tableWords nbits w) with
  | .ok (i, _) => some i
  | .error _ => none

/-! ## Encoding (R201, R203, R208) -/

/-- The blk bit of a block. -/
def Blk.bit : Blk → BitVec 1
  | .dma1 => 0#1
  | .dma2 => 1#1

/-- The `ch` field of a channel. -/
def Ch.bits : Ch → BitVec 3
  | .c1 => 1#3
  | .c2 => 2#3
  | .c3 => 3#3
  | .c4 => 4#3
  | .c5 => 5#3
  | .c6 => 6#3
  | .c7 => 7#3

/-- The `sel` field of an event (R205). -/
def Event.sel : Event → BitVec 4
  | .tc => 0#4
  | .ht => 1#4
  | .te => 2#4

/-- The `sel` field of a flag (R205). -/
def Flag.sel : Flag → BitVec 4
  | .tc => 0#4
  | .ht => 1#4
  | .te => 2#4
  | .gif => 3#4

/-- The offset of a register (R202). -/
def Reg.off : Reg → BitVec 8
  | .isr => 0x00#8
  | .ifcr => 0x04#8
  | .ccr .c1 => 0x08#8
  | .cndtr .c1 => 0x0C#8
  | .cpar .c1 => 0x10#8
  | .cmar .c1 => 0x14#8
  | .ccr .c2 => 0x1C#8
  | .cndtr .c2 => 0x20#8
  | .cpar .c2 => 0x24#8
  | .cmar .c2 => 0x28#8
  | .ccr .c3 => 0x30#8
  | .cndtr .c3 => 0x34#8
  | .cpar .c3 => 0x38#8
  | .cmar .c3 => 0x3C#8
  | .ccr .c4 => 0x44#8
  | .cndtr .c4 => 0x48#8
  | .cpar .c4 => 0x4C#8
  | .cmar .c4 => 0x50#8
  | .ccr .c5 => 0x58#8
  | .cndtr .c5 => 0x5C#8
  | .cpar .c5 => 0x60#8
  | .cmar .c5 => 0x64#8
  | .ccr .c6 => 0x6C#8
  | .cndtr .c6 => 0x70#8
  | .cpar .c6 => 0x74#8
  | .cmar .c6 => 0x78#8
  | .ccr .c7 => 0x80#8
  | .cndtr .c7 => 0x84#8
  | .cpar .c7 => 0x88#8
  | .cmar .c7 => 0x8C#8
  | .cselr => 0xA8#8

/-- The head word of a BUS instruction (R201). -/
def busHead (b : Blk) (write : BitVec 1) (r : Reg) : Word := 0#2 ++ 0#20 ++ b.bit ++ write ++ r.off

/-- The head word of a CMD instruction (R203). -/
def cmdHead (op : BitVec 6) (ch : BitVec 3) (blk : BitVec 1) (sel : BitVec 4) (imm : BitVec 16) : Word :=
  1#2 ++ op ++ ch ++ blk ++ sel ++ imm

/-- The words of a BUS read. -/
def encodeRead (b : Blk) (r : Reg) : List Word := [busHead b 0#1 r]

/-- The words of a BUS write. -/
def encodeWrite (b : Blk) (v : Word) (r : Reg) : List Word := [busHead b 1#1 r, v]

/-- The words of an instruction. -/
def encode : Instr → List Word
  | .rdIsr b => encodeRead b .isr
  | .rdIfcr b => encodeRead b .ifcr
  | .rdCcr1 b => encodeRead b (.ccr .c1)
  | .rdCndtr1 b => encodeRead b (.cndtr .c1)
  | .rdCpar1 b => encodeRead b (.cpar .c1)
  | .rdCmar1 b => encodeRead b (.cmar .c1)
  | .rdCcr2 b => encodeRead b (.ccr .c2)
  | .rdCndtr2 b => encodeRead b (.cndtr .c2)
  | .rdCpar2 b => encodeRead b (.cpar .c2)
  | .rdCmar2 b => encodeRead b (.cmar .c2)
  | .rdCcr3 b => encodeRead b (.ccr .c3)
  | .rdCndtr3 b => encodeRead b (.cndtr .c3)
  | .rdCpar3 b => encodeRead b (.cpar .c3)
  | .rdCmar3 b => encodeRead b (.cmar .c3)
  | .rdCcr4 b => encodeRead b (.ccr .c4)
  | .rdCndtr4 b => encodeRead b (.cndtr .c4)
  | .rdCpar4 b => encodeRead b (.cpar .c4)
  | .rdCmar4 b => encodeRead b (.cmar .c4)
  | .rdCcr5 b => encodeRead b (.ccr .c5)
  | .rdCndtr5 b => encodeRead b (.cndtr .c5)
  | .rdCpar5 b => encodeRead b (.cpar .c5)
  | .rdCmar5 b => encodeRead b (.cmar .c5)
  | .rdCcr6 b => encodeRead b (.ccr .c6)
  | .rdCndtr6 b => encodeRead b (.cndtr .c6)
  | .rdCpar6 b => encodeRead b (.cpar .c6)
  | .rdCmar6 b => encodeRead b (.cmar .c6)
  | .rdCcr7 b => encodeRead b (.ccr .c7)
  | .rdCndtr7 b => encodeRead b (.cndtr .c7)
  | .rdCpar7 b => encodeRead b (.cpar .c7)
  | .rdCmar7 b => encodeRead b (.cmar .c7)
  | .rdCselr b => encodeRead b .cselr
  | .wrIsr b v => encodeWrite b v .isr
  | .wrIfcr b v => encodeWrite b v .ifcr
  | .wrCcr1 b v => encodeWrite b v (.ccr .c1)
  | .wrCndtr1 b v => encodeWrite b v (.cndtr .c1)
  | .wrCpar1 b v => encodeWrite b v (.cpar .c1)
  | .wrCmar1 b v => encodeWrite b v (.cmar .c1)
  | .wrCcr2 b v => encodeWrite b v (.ccr .c2)
  | .wrCndtr2 b v => encodeWrite b v (.cndtr .c2)
  | .wrCpar2 b v => encodeWrite b v (.cpar .c2)
  | .wrCmar2 b v => encodeWrite b v (.cmar .c2)
  | .wrCcr3 b v => encodeWrite b v (.ccr .c3)
  | .wrCndtr3 b v => encodeWrite b v (.cndtr .c3)
  | .wrCpar3 b v => encodeWrite b v (.cpar .c3)
  | .wrCmar3 b v => encodeWrite b v (.cmar .c3)
  | .wrCcr4 b v => encodeWrite b v (.ccr .c4)
  | .wrCndtr4 b v => encodeWrite b v (.cndtr .c4)
  | .wrCpar4 b v => encodeWrite b v (.cpar .c4)
  | .wrCmar4 b v => encodeWrite b v (.cmar .c4)
  | .wrCcr5 b v => encodeWrite b v (.ccr .c5)
  | .wrCndtr5 b v => encodeWrite b v (.cndtr .c5)
  | .wrCpar5 b v => encodeWrite b v (.cpar .c5)
  | .wrCmar5 b v => encodeWrite b v (.cmar .c5)
  | .wrCcr6 b v => encodeWrite b v (.ccr .c6)
  | .wrCndtr6 b v => encodeWrite b v (.cndtr .c6)
  | .wrCpar6 b v => encodeWrite b v (.cpar .c6)
  | .wrCmar6 b v => encodeWrite b v (.cmar .c6)
  | .wrCcr7 b v => encodeWrite b v (.ccr .c7)
  | .wrCndtr7 b v => encodeWrite b v (.cndtr .c7)
  | .wrCpar7 b v => encodeWrite b v (.cpar .c7)
  | .wrCmar7 b v => encodeWrite b v (.cmar .c7)
  | .wrCselr b v => encodeWrite b v .cselr
  | .split b => [cmdHead 0x00#6 0#3 b.bit 0#4 0#16]
  | .listen b x ev => [cmdHead 0x01#6 x.bits b.bit ev.sel 0#16]
  | .unlisten b x ev => [cmdHead 0x02#6 x.bits b.bit ev.sel 0#16]
  | .status b x => [cmdHead 0x03#6 x.bits b.bit 0#4 0#16]
  | .clearFlags b x => [cmdHead 0x04#6 x.bits b.bit 0#4 0#16]
  | .clearFlag b x which => [cmdHead 0x05#6 x.bits b.bit which.sel 0#16]
  | .remaining b x => [cmdHead 0x06#6 x.bits b.bit 0#4 0#16]
  | .selectRequest b x imm => [cmdHead 0x07#6 x.bits b.bit 0#4 imm]
  | .setPaddr b x paddr => [cmdHead 0x08#6 x.bits b.bit 0#4 0#16, paddr]
  | .setMaddr b x maddr => [cmdHead 0x09#6 x.bits b.bit 0#4 0#16, maddr]
  | .setCount b x count => [cmdHead 0x0A#6 x.bits b.bit 0#4 count]
  | .configure b x imm => [cmdHead 0x0B#6 x.bits b.bit 0#4 imm]
  | .start b x => [cmdHead 0x0C#6 x.bits b.bit 0#4 0#16]
  | .stop b x => [cmdHead 0x0D#6 x.bits b.bit 0#4 0#16]
  | .getPaddr b x => [cmdHead 0x0E#6 x.bits b.bit 0#4 0#16]
  | .getMaddr b x => [cmdHead 0x0F#6 x.bits b.bit 0#4 0#16]
  | .circRead b x size pl h base paddr => [cmdHead 0x10#6 x.bits b.bit (pl ++ size) h, base, paddr]
  | .readableHalf b x => [cmdHead 0x11#6 x.bits b.bit 0#4 0#16]
  | .peek b x => [cmdHead 0x12#6 x.bits b.bit 0#4 0#16]
  | .partialPeek b x => [cmdHead 0x13#6 x.bits b.bit 0#4 0#16]
  | .answerIsr b x => [cmdHead 0x14#6 x.bits b.bit 0#4 0#16]
  | .readExact b x size pl n base paddr payload => [cmdHead 0x20#6 x.bits b.bit (pl ++ size) n, base, paddr, payload]
  | .writeAll b x size pl n base paddr payload => [cmdHead 0x21#6 x.bits b.bit (pl ++ size) n, base, paddr, payload]
  | .isDone b x => [cmdHead 0x22#6 x.bits b.bit 0#4 0#16]
  | .wait b x => [cmdHead 0x23#6 x.bits b.bit 0#4 0#16]
  | .terminate b x => [cmdHead 0x24#6 x.bits b.bit 0#4 0#16]
  | .xpeek b x => [cmdHead 0x25#6 x.bits b.bit 0#4 0#16]
  | .restart b x => [cmdHead 0x26#6 x.bits b.bit 0#4 0#16]
  | .fence => [cmdHead 0x3F#6 0#3 0#1 0#4 0#16]

end Sys2Proof
end

