-- ==== Sys2Proof/Config.lean ====
section
/-! DEFINITION. What is fixed for the machine (00_scope.md rule R7) and the FREE VALUES: constants without a body, of
which nothing can be proved. A parameter the spec leaves OPEN (R7, R703) and a draw of the environment (R12, R96) is
such a constant unless the state gives it as data (`Platform`, `Env` of Machine/State.lean). -/
namespace Sys2Proof

/-- `HT_ODD` of rule R7: which half point an odd count has (R360, decision D16). -/
inductive HtOdd where
  | low | high
  deriving DecidableEq, Repr, Inhabited

/-- The element sizes, `ESIZES` of rule R7. -/
inductive ESize where
  | b1 | b2 | b4
  deriving DecidableEq, Repr, Inhabited

/-- Who takes the next atomic step (R160), with what the environment draws for that step.
`element`: the transfer engine (b, x) is offered an element step while exactly the peripheral requests in `lines` are
asserted (R92, R352, R373). `stopDone`: it is offered the stop-completion step (R364). `load`, `store`: the
controller's program itself accesses memory between two instructions (R80, R150, R162, R163). -/
inductive Turn where
  | controller
  | element (b : Blk) (x : Ch) (lines : List Nat)
  | stopDone (b : Blk) (x : Ch)
  | load (a : Word) (size : ESize)
  | store (a : Word) (size : ESize) (v : Word)
  deriving DecidableEq, Repr, Inhabited

/-- What a consumer function does next (R458): read element `k` of its half, succeed (`l` is the number of elements
it says it consumed, which only PARTIAL_PEEK uses; `v` its opaque value), or fail. -/
inductive ConsumerAct where
  | read (k : Nat)
  | done (l : Nat) (v : Word)
  | fail
  deriving DecidableEq, Repr, Inhabited

namespace Config

/-- Bus base address of a block's register window (`BASE` of R7, R158, decision D1). -/
def base : Blk → Word
  | .dma1 => 0x40020000#32
  | .dma2 => 0x40020400#32

/-- Length in bytes of a register window, `0x00 .. 0xAB` (R80). -/
def windowBytes : Nat := 0xAC

/-- FREE VALUE: who steps at the n-th draw (R160, R370). -/
opaque freeTurn : Nat → Turn

/-- FREE VALUE: what a consumer function does at the n-th draw (R458, decision D28). -/
opaque freeAct : Nat → ConsumerAct

/-- FREE VALUE: the word of the n-th value draw: a peripheral's data (R358), a read without a fence (R162, R163). -/
opaque freeValue : Nat → Word

/-- FREE VALUE: the launch memory, a parameter of the model (R100, R700, R703). -/
opaque launchByte : Nat → Byte

/-- OPEN parameter `MEM_ADMIT(a, n)` (R7, decision D17). -/
opaque memAdmit : Word → Nat → Bool

/-- OPEN parameter `PERIPH_ADMIT(a, n)` (R7, decision D17). -/
opaque periphAdmit : Word → Nat → Bool

/-- OPEN parameter `LEGAL_ENDPOINT(b, x, code, paddr)` (R9, decision D39). -/
opaque legalEndpoint : Blk → Ch → BitVec 4 → Word → Bool

/-- OPEN parameter `REQ_MAP(b, x, code)`: the number of the peripheral request a code selects (R373, decision D18). -/
opaque reqMap : Blk → Ch → BitVec 4 → Nat

/-- OPEN parameter `HT_ODD` (R7, R360, decision D16). -/
opaque htOdd : HtOdd

end Config

end Sys2Proof
end

