-- ==== Sys2Proof/Machine/State.lean ====
section
/-! DEFINITION. The state of the machine as plain data (10_state.md rules R50 to R101): the block registers, the hidden
engine state, the wrapper's state with its sequencer, memory, the marks, and the fields that hold the program, the
launch parameters and the environment's announced choices. -/
namespace Sys2Proof.Machine
open Sys2Proof

/-! ## Tables by block and channel -/

/-- One value for each channel of a block. -/
structure ByCh (α : Type) where
  c1 : α
  c2 : α
  c3 : α
  c4 : α
  c5 : α
  c6 : α
  c7 : α
  deriving DecidableEq, Repr

/-- One value for each block. -/
structure ByBlk (α : Type) where
  dma1 : α
  dma2 : α
  deriving DecidableEq, Repr

/-! ## Block registers (R53 to R63) -/

/-- `CCR[b][x]` (R56): EN, the interrupt enables (bit 0 TCIE, 1 HTIE, 2 TEIE) and CCR bits 14:4 (bit 0 DIR, 1 CIRC,
2 PINC, 3 MINC, 5:4 PSIZE, 7:6 MSIZE, 9:8 PL, 10 MEM2MEM). The three parts are what a CCR write treats apart (R256). -/
structure Ccr where
  en : Bool
  ie : BitVec 3
  cfg : BitVec 11
  deriving DecidableEq, Repr

/-- The registers and flags of one channel: CCR (R56), NDT (R58), CPAR (R59), CMAR (R60), its field of CSELR (R61),
and its flags (R63). ISR, IFCR and CSELR are views of these. -/
structure ChanRegs where
  ccr : Ccr
  ndt : BitVec 16
  cpar : Word
  cmar : Word
  cxs : BitVec 4
  tcif : Bool
  htif : Bool
  teif : Bool
  deriving DecidableEq, Repr

/-! ## Hidden engine state (R64 to R66) -/

/-- `eng[b][x]`: the current addresses (R64), the reload count (R65), the stop in progress (R66); `unseen`: the byte
addresses whose last controller write this engine need not see, because no FENCE stood between the write and the
enable (R163). -/
structure Engine where
  curPa : Word
  curMa : Word
  ndtReload : BitVec 16
  stopping : Bool
  unseen : List Nat
  deriving DecidableEq, Repr

/-! ## Wrapper state (R70 to R77) -/

/-- A half of a CircBuffer (R450). -/
inductive Half where
  | first | second
  deriving DecidableEq, Repr

/-- The CircBuffer record (R72). `disturbed`: the byte addresses of its buffer that the controller's program stored to
while it was live; what the object then sees there is any value (R75, 93_implementation_defined.md row 35). -/
structure CircRec where
  base : Word
  h : Nat
  esize : ESize
  readableHalf : Half
  consumedOffset : Nat
  disturbed : List Nat
  deriving DecidableEq, Repr

/-- The mode of a Transfer (R74, R508). -/
inductive XferMode where
  | memDest | memSrc
  deriving DecidableEq, Repr

/-- The Transfer record (R74). `disturbed` is that of the CircBuffer record. -/
structure XferRec where
  mode : XferMode
  base : Word
  n : Nat
  esize : ESize
  paddr : Word
  payload : Word
  disturbed : List Nat
  deriving DecidableEq, Repr

/-- `ctl.owner[b][x]` (R70) with the record of the object that owns the channel (R72, R74). -/
inductive Owner where
  | unsplit
  | handle
  | circ (cb : CircRec)
  | xfer (t : XferRec)
  deriving DecidableEq, Repr

/-- The labels of the micro-steps after the first of each operation, with the operation's local variables
(R52, R77). A label's name is that of the pseudocode in 42_channel.md to 45_channelset.md. -/
inductive Label where
  /-- LISTEN, UNLISTEN: L2 -/
  | l2 (c : Word)
  /-- SELECT_REQUEST: Q2 -/
  | q2 (s : Word)
  /-- CONFIGURE, STOP: K2 -/
  | k2 (c : Word)
  /-- STOP: K3, K4 -/
  | k3 | k4
  /-- START: E2 to E5 -/
  | e2 (c : Word) | e3 (c : Word) | e4 | e5
  /-- CIRC_READ, READ_EXACT, WRITE_ALL: A2 to A9 -/
  | a2 (c : Word) | a3 (c : Word) | a4 (c : Word) | a5 (c : Word) | a6 (c : Word) | a7 (c : Word) | a8 | a9
  /-- READABLE_HALF, PEEK: H2, the flip to a half -/
  | h2 (r : Half)
  /-- PEEK: P2 to P4 (the half handed over, the window's first element, the consumer's outcome) -/
  | p2 (r : Half) | p3 (r : Half) (lo : Nat) | p4 (out : Option Word)
  /-- PARTIAL_PEEK: R2 to R4 (the half, the window's bounds, the consumer's count and value) -/
  | r2 (w : Half) (hi : Nat) | r3 (w : Half) (lo hi : Nat) | r4 (l : Nat) (v : Word)
  /-- WAIT: W1 to W6 -/
  | w1 | w2 | w3 | w4 (c : Word) | w5 | w6
  /-- TERMINATE: T2 to T4 -/
  | t2 (c : Word) | t3 (e : Bool) | t4
  /-- XPEEK: X2 -/
  | x2 (written : Nat)
  /-- RESTART: S2 to S10 -/
  | s2 (c : Word) | s3 | s4 (c2 : Word) | s5 (c2 : Word) | s6 (c2 : Word) (written : Nat)
  | s7 (c2 : Word) (written : Nat) | s8 (c2 : Word) (written : Nat) | s9 (written : Nat) | s10 (written : Nat)
  /-- SPLIT: Z1 to Z3 of a channel -/
  | z1 (x : Ch) | z2 (x : Ch) | z3 (x : Ch)
  deriving DecidableEq, Repr

/-- The controller sequencer `ctl.seq` (R52): `Idle`, or `Busy(op, step)`; the operation is kept with its operands. -/
inductive Seq where
  | idle
  | busy (op : Instr) (label : Label)
  deriving DecidableEq, Repr

/-- The error codes of result errors (R601). -/
inductive ErrCode where
  | overrun | bufferError
  deriving DecidableEq, Repr

/-- What an operation returns to the controller (R13, R207 and the `return` of each rule). A window is the elements
`lo .. hi-1` counted from a base address. -/
inductive Result where
  /-- a BUS write returns nothing -/
  | nothing
  /-- a BUS read's register value -/
  | word (v : Word)
  /-- `Ok(())` -/
  | unit
  /-- STATUS: the four flags -/
  | flags (halfComplete complete error global : Bool)
  /-- REMAINING -/
  | count (n : BitVec 16)
  /-- GET_PADDR, GET_MADDR -/
  | address (a : Word)
  /-- IS_DONE -/
  | done (v : Bool)
  /-- READABLE_HALF -/
  | half (r : Half)
  /-- PEEK, PARTIAL_PEEK: the consumer's opaque value -/
  | value (v : Word)
  /-- `Err(e)` -/
  | err (e : ErrCode)
  /-- SPLIT: the ChannelSet of a block -/
  | channelSet (b : Blk)
  /-- CIRC_READ -/
  | circBuffer (b : Blk) (x : Ch)
  /-- READ_EXACT, WRITE_ALL -/
  | transfer (b : Blk) (x : Ch)
  /-- WAIT: the buffer, the Channel and the payload -/
  | released (base : Word) (n : Nat) (esize : ESize) (b : Blk) (x : Ch) (payload : Word)
  /-- XPEEK: a window -/
  | window (base : Word) (esize : ESize) (lo hi : Nat)
  /-- RESTART: `Ok(None)` -/
  | noData
  /-- RESTART: `Ok(Some(window))` -/
  | someWindow (base : Word) (esize : ESize) (lo hi : Nat)
  deriving DecidableEq, Repr

/-! ## Marks (R76, R605, R606) -/

/-- The fault reasons with the values R605 says are recorded. -/
inductive FaultReason where
  | partialPeekBounds (consumedOffset rem hi : Nat)
  | consumeOverflow (l consumedOffset hi : Nat)
  | countBeyondLength (rem n : Nat)
  deriving DecidableEq, Repr

/-- `marks.fault`: the reason, the operation and (b, x) (R605). -/
structure FaultMark where
  reason : FaultReason
  op : Instr
  b : Blk
  x : Ch
  deriving DecidableEq, Repr

/-- The refusal reasons (R606). -/
inductive RefuseReason where
  | illegalEncoding | clockOff | notOwner | enableWhileStopping | reservedSize | sizeMismatch | mem2mem | misaligned
  | addrWriteWhileEnabled | memNotAdmitted | illegalEndpoint | badLength | channelBusy | wrongMode | alreadySplit
  deriving DecidableEq, Repr

/-! ## Memory, peripheral events, launch parameters, environment -/

/-- Memory (R80): addresses strictly rising and below 2^32, each with the byte last written there. An address that is
not listed holds the launch memory's byte, which is no known value. -/
abbrev Memory := List Host.Cell

/-- A peripheral-side access of an engine (R166). -/
structure PeriphEvent where
  b : Blk
  x : Ch
  write : Bool
  addr : Word
  size : Nat
  value : Word
  deriving DecidableEq, Repr

/-- A range of byte addresses. -/
structure Region where
  base : Nat
  bytes : Nat
  deriving DecidableEq, Repr

/-- An entry of `LEGAL_ENDPOINT` (R9). -/
structure Endpoint where
  b : Blk
  x : Ch
  code : BitVec 4
  paddr : Word
  deriving DecidableEq, Repr

/-- An entry of `REQ_MAP` (R373): the number of the peripheral request that a code selects. -/
structure ReqEntry where
  b : Blk
  x : Ch
  code : BitVec 4
  line : Nat
  deriving DecidableEq, Repr

/-- The launch parameters (R7, R703). `none`: left open, the parameter is the constant of Config without a body. -/
structure Platform where
  memAdmit : Option (List Region)
  periphAdmit : Option (List Region)
  legalEndpoint : Option (List Endpoint)
  reqMap : Option (List ReqEntry)
  htOdd : Option HtOdd
  deriving DecidableEq, Repr

/-- The environment's choices (R96): those announced as data, first one next; where a list is empty the choice is the
free value of Config for the counter `drawn`, which then advances. -/
structure Env where
  turns : List Turn
  acts : List ConsumerAct
  values : List Word
  drawn : Nat
  deriving DecidableEq, Repr

/-! ## The state -/

/-- The machine's state (R50). -/
structure State where
  /-- `blk[b].clk_en` (R53) -/
  clkEn : ByBlk Bool
  /-- the registers of each channel (R54 to R63) -/
  chan : ByBlk (ByCh ChanRegs)
  /-- `eng[b][x]` (R64 to R66) -/
  eng : ByBlk (ByCh Engine)
  /-- `ctl.owner[b][x]` and the records (R70, R72, R74) -/
  owner : ByBlk (ByCh Owner)
  /-- `ctl.split_done[b]` (R71) -/
  splitDone : ByBlk Bool
  /-- `ctl.seq` (R77) -/
  seq : Seq
  /-- `marks.fault` (R76) -/
  fault : Option FaultMark
  /-- `marks.refused` (R76) -/
  refused : Option RefuseReason
  /-- `mem` (R80) -/
  mem : Memory
  /-- the peripheral-side accesses, in order (R166) -/
  periphLog : List PeriphEvent
  /-- a flag or count was read since the last FENCE (R162) -/
  unfencedRead : Bool
  /-- the byte addresses the controller wrote since the last FENCE (R163) -/
  unfencedWrites : List Nat
  /-- the result of the last operation that returned (R95, R207) -/
  result : Option Result
  /-- the value of the controller's last memory read (R458) -/
  loaded : Option Word
  /-- the words of the program not yet taken (R200, R726) -/
  prog : List Word
  /-- the launch parameters (R703) -/
  plat : Platform
  /-- the environment (R96) -/
  env : Env
  deriving DecidableEq, Repr

/-- How a controller turn stops for good after a fault. -/
inductive Fault where
  /-- Raised by every controller turn, and by every instruction, in a state whose `marks.fault` is set: "A state with
  either mark set has no further controller step" (R76, R605). Safe: the machine stops. -/
  | marked (m : FaultMark)
  deriving DecidableEq, Repr

/-- Why an instruction has no meaning here. -/
inductive Refusal where
  /-- Raised by an arm of `exec` whose instruction has no meaning yet. Safe. -/
  | notModelled (mnemonic : String)
  /-- Raised by every controller turn, and by every instruction, in a state whose `marks.refused` is set: no further
  controller step (R76, R606). Safe. -/
  | marked (r : RefuseReason)
  /-- Raised by `exec` of an instruction while the sequencer is busy with another one: "An operation starts only when
  `ctl.seq = Idle`" (R52, R400). `step` never asks for it. Safe. -/
  | sequencerBusy
  /-- Raised by `exec` when the sequencer stands at a label that the operation does not have: no run reaches such a
  state (R52 gives it no step). Safe. -/
  | strayLabel
  deriving DecidableEq, Repr

/-! ## Reset (R100, R101, R700) -/

/-- The same value for every channel. -/
def ByCh.all {α : Type} (v : α) : ByCh α := ⟨v, v, v, v, v, v, v⟩

/-- The same value for every channel of every block. -/
def ByBlk.all {α : Type} (v : α) : ByBlk α := ⟨v, v⟩

/-- A channel's registers after reset: all 0 (R100). -/
def ChanRegs.reset : ChanRegs :=
  { ccr := ⟨false, 0#3, 0#11⟩, ndt := 0#16, cpar := 0#32, cmar := 0#32, cxs := 0#4,
    tcif := false, htif := false, teif := false }

/-- An engine after reset: all 0, not stopping (R100). -/
def Engine.reset : Engine := { curPa := 0#32, curMa := 0#32, ndtReload := 0#16, stopping := false, unseen := [] }

/-- The launch parameters all left open (log entry 6, DESIGN CHOICE). -/
def Platform.unknown : Platform := ⟨none, none, none, none, none⟩

/-- The environment with nothing announced (log entry 2, DESIGN CHOICE). -/
def Env.reset : Env := { turns := [], acts := [], values := [], drawn := 0 }

/-- The machine right after power-on reset: registers, gates and engines as R100, the wrapper as R101, memory with
nothing listed (R700). The model's own fields are log entries 2, 4, 6, 10, 13, 14 and 18 (DESIGN CHOICE). -/
def State.reset : State :=
  { clkEn := .all false, chan := .all (.all .reset), eng := .all (.all .reset), owner := .all (.all .unsplit),
    splitDone := .all false, seq := .idle, fault := none, refused := none, mem := [], periphLog := [],
    unfencedRead := false, unfencedWrites := [], result := none, loaded := none, prog := [],
    plat := .unknown, env := .reset }

end Sys2Proof.Machine
end

