-- ==== Sys2Proof/Machine/Operands.lean ====
section
/-! DEFINITION. Operand assembly: size codes, the CCR fields and its 32-bit view, the configuration words the entry
operations write, element addresses and windows (10_state.md R56, R57; 30_encoding.md R205, R206; 43 R450, R455). -/
namespace Sys2Proof

/-! ## Channels, events and flags as numbers -/

/-- The number of a channel, 1..7. -/
def Ch.num : Ch → Nat
  | .c1 => 1
  | .c2 => 2
  | .c3 => 3
  | .c4 => 4
  | .c5 => 5
  | .c6 => 6
  | .c7 => 7

/-- `g = 4*(x-1)`: the first bit of a channel's group in ISR, IFCR and CSELR (R54, R55, R61). -/
def Ch.group (x : Ch) : Nat := 4 * (x.num - 1)

/-- The channel after this one, none after channel 7 (the loop of R550). -/
def Ch.next : Ch → Option Ch
  | .c1 => some .c2
  | .c2 => some .c3
  | .c3 => some .c4
  | .c4 => some .c5
  | .c5 => some .c6
  | .c6 => some .c7
  | .c7 => none

/-- Bit k of CCR that an event enables: TC 1, HT 2, TE 3 (R401). -/
def Event.ieBit : Event → Nat
  | .tc => 1
  | .ht => 2
  | .te => 3

/-- Bit k of a channel's IFCR group that a flag names: TC 1, HT 2, TE 3, GIF 0 (R405). -/
def Flag.bit : Flag → Nat
  | .tc => 1
  | .ht => 2
  | .te => 3
  | .gif => 0

/-! ## Element sizes (R7, R57, R205) -/

/-- Bytes of an element size. -/
def ESize.bytes : ESize → Nat
  | .b1 => 1
  | .b2 => 2
  | .b4 => 4

/-- The element size of a size code; code 3 is reserved (R57, R205). -/
def esizeOf (code : BitVec 2) : Option ESize :=
  match code.toNat with
  | 0 => some .b1
  | 1 => some .b2
  | 2 => some .b4
  | _ => none

end Sys2Proof

namespace Sys2Proof.Machine
open Sys2Proof

/-! ## Tables -/

/-- The entry of a channel. -/
def ByCh.get {α : Type} (t : ByCh α) : Ch → α
  | .c1 => t.c1
  | .c2 => t.c2
  | .c3 => t.c3
  | .c4 => t.c4
  | .c5 => t.c5
  | .c6 => t.c6
  | .c7 => t.c7

/-- The table with one channel's entry replaced. -/
def ByCh.set {α : Type} (t : ByCh α) (x : Ch) (v : α) : ByCh α :=
  match x with
  | .c1 => { t with c1 := v }
  | .c2 => { t with c2 := v }
  | .c3 => { t with c3 := v }
  | .c4 => { t with c4 := v }
  | .c5 => { t with c5 := v }
  | .c6 => { t with c6 := v }
  | .c7 => { t with c7 := v }

/-- The table built channel by channel. -/
def ByCh.ofFn {α : Type} (f : Ch → α) : ByCh α := ⟨f .c1, f .c2, f .c3, f .c4, f .c5, f .c6, f .c7⟩

/-- The entry of a block. -/
def ByBlk.get {α : Type} (t : ByBlk α) : Blk → α
  | .dma1 => t.dma1
  | .dma2 => t.dma2

/-- The table with one block's entry replaced. -/
def ByBlk.set {α : Type} (t : ByBlk α) (b : Blk) (v : α) : ByBlk α :=
  match b with
  | .dma1 => { t with dma1 := v }
  | .dma2 => { t with dma2 := v }

/-- The table built block by block. -/
def ByBlk.ofFn {α : Type} (f : Blk → α) : ByBlk α := ⟨f .dma1, f .dma2⟩

/-! ## The CCR fields (R56, R57) -/

/-- CCR.DIR: 0 peripheral to memory, 1 memory to peripheral. -/
def Ccr.dir (c : Ccr) : Bool := c.cfg.getLsbD 0
/-- CCR.CIRC: circular mode. -/
def Ccr.circ (c : Ccr) : Bool := c.cfg.getLsbD 1
/-- CCR.PINC: the peripheral address advances. -/
def Ccr.pinc (c : Ccr) : Bool := c.cfg.getLsbD 2
/-- CCR.MINC: the memory address advances. -/
def Ccr.minc (c : Ccr) : Bool := c.cfg.getLsbD 3
/-- CCR.PSIZE, a size code. -/
def Ccr.psize (c : Ccr) : BitVec 2 := c.cfg.extractLsb' 4 2
/-- CCR.MSIZE, a size code. -/
def Ccr.msize (c : Ccr) : BitVec 2 := c.cfg.extractLsb' 6 2
/-- CCR.PL, the priority, stored and read back only (R370). -/
def Ccr.pl (c : Ccr) : BitVec 2 := c.cfg.extractLsb' 8 2
/-- CCR.MEM2MEM (R268). -/
def Ccr.mem2mem (c : Ccr) : Bool := c.cfg.getLsbD 10
/-- CCR.TCIE. -/
def Ccr.tcie (c : Ccr) : Bool := c.ie.getLsbD 0
/-- CCR.HTIE. -/
def Ccr.htie (c : Ccr) : Bool := c.ie.getLsbD 1
/-- CCR.TEIE. -/
def Ccr.teie (c : Ccr) : Bool := c.ie.getLsbD 2

/-- The bytes of an element: `2^PSIZE` (R257, R353). -/
def Ccr.elemBytes (c : Ccr) : Nat := 2 ^ c.psize.toNat

/-- The 32-bit value of CCR: bits 31:15 read 0 (R255, R269). -/
def Ccr.toWord (c : Ccr) : Word := (0#17 ++ c.cfg ++ c.ie ++ BitVec.ofBool c.en : BitVec 32)

/-- Bits 3:1 of a CCR value. -/
def ieOf (v : Word) : BitVec 3 := v.extractLsb' 1 3

/-- Bits 14:4 of a CCR value. -/
def cfgOf (v : Word) : BitVec 11 := v.extractLsb' 4 11

/-- Bit 0 of a CCR value. -/
def enOf (v : Word) : Bool := v.getLsbD 0

/-- A word with only bit k set: `1 << k`. -/
def bitWord (k : Nat) : Word := 1#32 <<< k

/-- `c` with bit k set to 1. -/
def setBit (c : Word) (k : Nat) : Word := c ||| bitWord k

/-- `c` with bit k set to 0. -/
def clearBit (c : Word) (k : Nat) : Word := c &&& ~~~ bitWord k

/-- CONFIGURE's write value: `(c and not 0x0000_7FF0) or (cfg << 4)` with cfg = imm[10:0] (R411). -/
def configureWord (c : Word) (imm : BitVec 16) : Word :=
  (c &&& ~~~ 0x00007FF0#32) ||| ((imm.extractLsb' 0 11).setWidth 32 <<< 4)

/-- The `cfg` of an entry operation: MEM2MEM 0, PL, MSIZE = PSIZE = s, MINC 1, PINC 0, CIRC, DIR (R451, R501, R502). -/
def entryCfg (pl s : BitVec 2) (circ dir : Bool) : BitVec 11 :=
  0#1 ++ pl ++ s ++ s ++ 1#1 ++ 0#1 ++ BitVec.ofBool circ ++ BitVec.ofBool dir

/-- `(cfg << 4) or (c and 0x0000_000E)`: the interrupt enables kept, EN = 0 (A5 of R451, R501). -/
def entryWord (cfg : BitVec 11) (c : Word) : Word := (cfg.setWidth 32 <<< 4) ||| (c &&& 0x0000000E#32)

/-- CSELR with a channel's field replaced: Q2 of R407. -/
def selectWord (s : Word) (x : Ch) (code : BitVec 4) : Word :=
  (s &&& ~~~ (0xF#32 <<< x.group)) ||| (code.setWidth 32 <<< x.group)

/-! ## CircBuffer arithmetic (R450, R455, R456) -/

/-- The other half (R450). -/
def Half.other : Half → Half
  | .first => .second
  | .second => .first

/-- The number of elements before a half: 0 for First, h for Second (R450). -/
def Half.start (r : Half) (h : Nat) : Nat :=
  match r with
  | .first => 0
  | .second => h

/-- The IFCR bit of a half's completion flag: HTIF (g+2) for First, TCIF (g+1) for Second (R452). -/
def Half.flagBit : Half → Nat
  | .first => 2
  | .second => 1

/-- `end = h - (rem mod h)`, the exposed end of the half being filled (R455, R456). -/
def partialEnd (h rem : Nat) : Nat := h - rem % h

/-- The address of element i of a buffer: `base + i*esize` modulo 2^32 (R14, R450, R500). -/
def elemAddr (base : Word) (i : Nat) (esize : ESize) : Word := base + BitVec.ofNat 32 (i * esize.bytes)

/-- The address of element k of a half (R450). -/
def halfElemAddr (cb : CircRec) (r : Half) (k : Nat) : Word := elemAddr cb.base (r.start cb.h + k) cb.esize

/-- Whether an address is a multiple of the element size (R153). -/
def aligned (a : Word) (n : Nat) : Bool := a.toNat % n == 0

end Sys2Proof.Machine
end

