-- ==== Sys2Proof/Machine/Flags.lean ====
section
/-! DEFINITION. The flag computations: the ISR view and GIF (R54, R63, R251), the effect of an IFCR write (R254), the
half point (R360), the interrupt output (R372), the CSELR view (R265). -/
namespace Sys2Proof.Machine
open Sys2Proof

/-- GIF: the OR of the channel's flags (R63, decision D9). -/
def ChanRegs.gif (r : ChanRegs) : Bool := r.tcif || r.htif || r.teif

/-- A channel's 4-bit group of ISR: bit 0 GIF, 1 TCIF, 2 HTIF, 3 TEIF (R54). -/
def ChanRegs.isrGroup (r : ChanRegs) : BitVec 4 :=
  BitVec.ofBool r.teif ++ BitVec.ofBool r.htif ++ BitVec.ofBool r.tcif ++ BitVec.ofBool r.gif

/-- A word made of a 4-bit group for each channel, channel x at bits 4(x-1)+3 : 4(x-1); bits 31:28 are 0. -/
def groupsWord (f : Ch → BitVec 4) : Word :=
  (0#4 ++ f .c7 ++ f .c6 ++ f .c5 ++ f .c4 ++ f .c3 ++ f .c2 ++ f .c1 : BitVec 32)

/-- The 32-bit value of ISR (R251). -/
def isrWord (t : ByCh ChanRegs) : Word := groupsWord fun x => (t.get x).isrGroup

/-- The 32-bit value of CSELR (R265). -/
def cselrWord (t : ByCh ChanRegs) : Word := groupsWord fun x => (t.get x).cxs

/-- Channel x's 4-bit group of a word. -/
def groupOf (v : Word) (x : Ch) : BitVec 4 := v.extractLsb' x.group 4

/-- What a channel's group of an IFCR write clears: bit 0 all flags, 1 TCIF, 2 HTIF, 3 TEIF (R254). -/
def ChanRegs.clearFlags (r : ChanRegs) (g : BitVec 4) : ChanRegs :=
  { r with
    tcif := r.tcif && !(g.getLsbD 0 || g.getLsbD 1)
    htif := r.htif && !(g.getLsbD 0 || g.getLsbD 2)
    teif := r.teif && !(g.getLsbD 0 || g.getLsbD 3) }

/-- `half_point(N)` (R360). -/
def halfPoint (odd : HtOdd) (n : Nat) : Nat :=
  if n % 2 = 0 then n / 2
  else match odd with
    | .low => n / 2
    | .high => (n + 1) / 2

/-- The interrupt request output of a channel (R372). -/
def ChanRegs.irq (r : ChanRegs) : Bool :=
  (r.tcif && r.ccr.tcie) || (r.htif && r.ccr.htie) || (r.teif && r.ccr.teie)

end Sys2Proof.Machine
end

