-- ==== Sys2Proof/Machine/Ops.lean ====
section
/-! DEFINITION. The named operations every meaning is written over: accessors, the marks (what a fault and a refusal do,
R605, R606), the sequencer (R52), the environment's draws (R96), memory (R80, R150 to R153, R162, R163), the fence
(R164), and one register transaction with the enable and disable of a channel (40_register_interface.md). -/
namespace Sys2Proof.Machine
open Sys2Proof

/-- The outcome of one micro-step. -/
abbrev Out := Host.Outcome State Fault Refusal

/-! ## Accessors -/

/-- `blk[b].clk_en` (R53). -/
def State.clk (s : State) (b : Blk) : Bool := s.clkEn.get b

/-- The registers of channel x of block b. -/
def State.regs (s : State) (b : Blk) (x : Ch) : ChanRegs := (s.chan.get b).get x

/-- The state with a channel's registers replaced. -/
def State.setRegs (s : State) (b : Blk) (x : Ch) (r : ChanRegs) : State :=
  { s with chan := s.chan.set b ((s.chan.get b).set x r) }

/-- `eng[b][x]`. -/
def State.engine (s : State) (b : Blk) (x : Ch) : Engine := (s.eng.get b).get x

/-- The state with a channel's hidden engine state replaced. -/
def State.setEngine (s : State) (b : Blk) (x : Ch) (e : Engine) : State :=
  { s with eng := s.eng.set b ((s.eng.get b).set x e) }

/-- `ctl.owner[b][x]`. -/
def State.holder (s : State) (b : Blk) (x : Ch) : Owner := (s.owner.get b).get x

/-- The state with a channel's owner replaced. -/
def State.setHolder (s : State) (b : Blk) (x : Ch) (o : Owner) : State :=
  { s with owner := s.owner.set b ((s.owner.get b).set x o) }

/-- `irq[b][x]` (R93, R372). -/
def State.irq (s : State) (b : Blk) (x : Ch) : Bool := (s.regs b x).irq

/-! ## Marks: what a fault and a refusal do. The block has no trap entry and no trap return (R611, R612). -/

/-- Codes of the fault reasons (R605). -/
def FaultReason.code : FaultReason → Nat
  | .partialPeekBounds _ _ _ => 1
  | .consumeOverflow _ _ _ => 2
  | .countBeyondLength _ _ => 3

/-- Codes of the refusal reasons (R606). -/
def RefuseReason.code : RefuseReason → Nat
  | .illegalEncoding => 1
  | .clockOff => 2
  | .notOwner => 3
  | .enableWhileStopping => 4
  | .reservedSize => 5
  | .sizeMismatch => 6
  | .mem2mem => 7
  | .misaligned => 8
  | .addrWriteWhileEnabled => 9
  | .memNotAdmitted => 10
  | .illegalEndpoint => 11
  | .badLength => 12
  | .channelBusy => 13
  | .wrongMode => 14
  | .alreadySplit => 15

/-- Codes of the result errors (R601). -/
def ErrCode.code : ErrCode → Nat
  | .overrun => 1
  | .bufferError => 2

/-- `refuse(r)`: sets `marks.refused`; nothing after it is done (R76, R606, R610). -/
def State.refuse (s : State) (r : RefuseReason) : State := { s with refused := some r }

/-- `fault(reason)`: sets `marks.fault` with what R605 says is recorded. -/
def State.takeFault (s : State) (reason : FaultReason) (op : Instr) (b : Blk) (x : Ch) : State :=
  { s with fault := some ⟨reason, op, b, x⟩ }

/-- The micro-step that refuses. -/
def refuseOp (s : State) (r : RefuseReason) : Out := .next (s.refuse r)

/-- A check of R606: go on where it holds, refuse otherwise. -/
def check (ok : Bool) (r : RefuseReason) (s : State) (k : Out) : Out := if ok then k else refuseOp s r

/-- A state with either mark set has no further controller step (R76). -/
def live (s : State) (k : Out) : Out :=
  match s.fault, s.refused with
  | some m, _ => .fault (.marked m)
  | none, some r => .refused (.marked r)
  | none, none => k

/-! ## The sequencer (R52, R77) -/

/-- The next micro-step of `op` is the one at `label`. -/
def State.goto (s : State) (op : Instr) (label : Label) : State := { s with seq := .busy op label }

/-- The operation returns: `ctl.seq` is Idle again and the result goes to the controller (R13, R95). -/
def State.ret (s : State) (r : Result) : State := { s with seq := .idle, result := some r }

/-- Go on at a label. -/
def goOn (s : State) (op : Instr) (label : Label) : Out := .next (s.goto op label)

/-- Return a result. -/
def retOp (s : State) (r : Result) : Out := .next (s.ret r)

/-- One controller micro-step of `op`: its first one when the sequencer is Idle, the one at the label when it is busy
with `op`. -/
def sequenced (op : Instr) (s : State) (start : Out) (resume : Label → Out) : Out :=
  live s <|
    match s.seq with
    | .idle => start
    | .busy op' label => if op' = op then resume label else .refused .sequencerBusy

/-- An operation of one micro-step. -/
def single (op : Instr) (s : State) (start : Out) : Out := sequenced op s start fun _ => .refused .strayLabel

/-! ## The environment's draws (R12, R96) -/

/-- Who steps next. -/
def State.drawTurn (s : State) : Turn × State :=
  match s.env.turns with
  | t :: ts => (t, { s with env := { s.env with turns := ts } })
  | [] => (Config.freeTurn s.env.drawn, { s with env := { s.env with drawn := s.env.drawn + 1 } })

/-- What the consumer function does next. -/
def State.drawAct (s : State) : ConsumerAct × State :=
  match s.env.acts with
  | a :: as => (a, { s with env := { s.env with acts := as } })
  | [] => (Config.freeAct s.env.drawn, { s with env := { s.env with drawn := s.env.drawn + 1 } })

/-- `draw`: a word of the environment's choice. -/
def State.drawValue (s : State) : Word × State :=
  match s.env.values with
  | v :: vs => (v, { s with env := { s.env with values := vs } })
  | [] => (Config.freeValue s.env.drawn, { s with env := { s.env with drawn := s.env.drawn + 1 } })

/-- The low n bytes of a word, the others 0. -/
def lowBytes (n : Nat) (v : Word) : Word := (v.setWidth (8 * n)).setWidth 32

/-! ## Launch parameters (R7, R703) -/

/-- A region holds the n bytes from a. -/
def Region.holds (r : Region) (a : Word) (n : Nat) : Bool :=
  decide (r.base ≤ a.toNat) && decide (a.toNat + n ≤ r.base + r.bytes)

/-- The n bytes from a touch a block's register window, which only register transactions reach (R80). -/
def touchesWindow (a : Word) (n : Nat) : Bool :=
  [Blk.dma1, Blk.dma2].any fun b =>
    decide (a.toNat < (Config.base b).toNat + Config.windowBytes) && decide ((Config.base b).toNat < a.toNat + n)

/-- `MEM_ADMIT(a, n)` (R151). -/
def State.memAdmit (s : State) (a : Word) (n : Nat) : Bool :=
  !touchesWindow a n &&
    match s.plat.memAdmit with
    | some rs => rs.any fun r => r.holds a n
    | none => Config.memAdmit a n

/-- `PERIPH_ADMIT(a, n)` (R80). -/
def State.periphAdmit (s : State) (a : Word) (n : Nat) : Bool :=
  !touchesWindow a n &&
    match s.plat.periphAdmit with
    | some rs => rs.any fun r => r.holds a n
    | none => Config.periphAdmit a n

/-- `LEGAL_ENDPOINT(b, x, code, paddr)` (R9). -/
def State.legalEndpoint (s : State) (b : Blk) (x : Ch) (code : BitVec 4) (paddr : Word) : Bool :=
  match s.plat.legalEndpoint with
  | some es => es.any fun e => decide (e = ⟨b, x, code, paddr⟩)
  | none => Config.legalEndpoint b x code paddr

/-- `REQ_MAP(b, x, code)`: the request line a code selects, if the table has one (R373). -/
def State.reqMap (s : State) (b : Blk) (x : Ch) (code : BitVec 4) : Option Nat :=
  match s.plat.reqMap with
  | some es => (es.find? fun e => decide (e.b = b ∧ e.x = x ∧ e.code = code)).map (·.line)
  | none => some (Config.reqMap b x code)

/-- `HT_ODD` (R360). -/
def State.htOdd (s : State) : HtOdd := s.plat.htOdd.getD Config.htOdd

/-- `req[b][x]` while exactly the requests in `lines` are asserted (R92, R373). -/
def State.request (s : State) (b : Blk) (x : Ch) (lines : List Nat) : Bool :=
  match s.reqMap b x (s.regs b x).cxs with
  | some line => decide (line ∈ lines)
  | none => false

/-! ## Memory (R80, R152) -/

/-- The byte last written at an address, none where nothing was. -/
def Memory.lookup : Memory → Nat → Option Byte
  | [], _ => none
  | (k, v) :: m, a => if k = a then some v else Memory.lookup m a

/-- The memory with a byte written: the list stays in rising order. -/
def Memory.write : Memory → Nat → Byte → Memory
  | [], a, v => [(a, v)]
  | (k, w) :: m, a, v =>
    if a < k then (a, v) :: (k, w) :: m
    else if a = k then (a, v) :: m
    else (k, w) :: Memory.write m a v

/-- Every address of the list is above `lo` and the addresses rise. -/
def Memory.risesFrom : Memory → Nat → Bool
  | [], _ => true
  | (k, _) :: m, lo => decide (lo ≤ k) && Memory.risesFrom m (k + 1)

/-- The canonical form: addresses strictly rising, all below 2^32. (No entry can equal what an unlisted address
holds, since an unlisted address holds no value the list could name.) -/
def Memory.wf (m : Memory) : Bool := m.risesFrom 0 && m.all fun c => decide (c.1 < 2 ^ 32)

/-- A byte of memory; an unlisted address holds the launch memory's byte (R100, R703). -/
def Memory.byteAt (m : Memory) (a : Nat) : Byte := (m.lookup a).getD (Config.launchByte a)

/-- `MemRead(a, n)`: little-endian, byte a in bits 7:0 (R152). -/
def memRead (m : Memory) (a : Word) : Nat → Word
  | 0 => 0#32
  | n + 1 => (m.byteAt a.toNat).setWidth 32 ||| (memRead m (a + 1#32) n <<< 8)

/-- `MemWrite(a, n, v)`: little-endian (R152). -/
def memWrite (m : Memory) (a : Word) : Nat → Word → Memory
  | 0, _ => m
  | n + 1, v => memWrite (m.write a.toNat (v.setWidth 8)) (a + 1#32) n (v >>> 8)

/-- The byte addresses of an n-byte access at a. -/
def byteAddrs (a : Word) (n : Nat) : List Nat := (List.range n).map fun k => (a + BitVec.ofNat 32 k).toNat

/-- All elements i < n of a buffer are admitted (R451, R501). -/
def allAdmitted (s : State) (base : Word) (esize : ESize) : Nat → Bool
  | 0 => true
  | n + 1 => s.memAdmit (elemAddr base n esize) esize.bytes && allAdmitted s base esize n

/-! ## The controller's own accesses and the fence (R150, R151, R162 to R164) -/

/-- `fence`: what came before it is ordered before what comes after it (R164, R415). -/
def State.fence (s : State) : State := { s with unfencedRead := false, unfencedWrites := [] }

/-- The n bytes from a touch one of the addresses. -/
def touches (a : Word) (n : Nat) (addrs : List Nat) : Bool := (byteAddrs a n).any fun k => decide (k ∈ addrs)

/-- Address k is one of the `bytes` bytes from `base`, modulo 2^32 (R14, R450, R500). -/
def inBuffer (base : Word) (bytes k : Nat) : Bool := decide ((BitVec.ofNat 32 k - base).toNat < bytes)

/-- The bytes of a live object's buffer that the controller's program stored to (R75). -/
def Owner.disturbed : Owner → List Nat
  | .circ cb => cb.disturbed
  | .xfer t => t.disturbed
  | .unsplit => []
  | .handle => []

/-- The owner after the controller's program stored to `addrs`: a live object notes those of its own buffer (R75, R450,
R500). -/
def Owner.disturb (addrs : List Nat) : Owner → Owner
  | .circ cb =>
    .circ { cb with disturbed := cb.disturbed ++ addrs.filter (inBuffer cb.base (2 * cb.h * cb.esize.bytes)) }
  | .xfer t => .xfer { t with disturbed := t.disturbed ++ addrs.filter (inBuffer t.base (t.n * t.esize.bytes)) }
  | .unsplit => .unsplit
  | .handle => .handle

/-- What is disturbed in any live object's buffer. -/
def State.disturbed (s : State) : List Nat :=
  [Blk.dma1, .dma2].flatMap fun b => [Ch.c1, .c2, .c3, .c4, .c5, .c6, .c7].flatMap fun x => (s.holder b x).disturbed

/-- A controller memory read: refused where not aligned (R153) or not admitted (R151); after a flag or count read with
no FENCE between, or at a byte of `anyValue`, the value is a draw (R162, R75). Of an access that is neither aligned nor
admitted the misalignment is recorded: the spec gives an order only for the entry operations (log entry 15, DESIGN
CHOICE). -/
def ctlLoad (anyValue : List Nat) (a : Word) (size : ESize) (s : State) : Except State State :=
  if !aligned a size.bytes then .error (s.refuse .misaligned)
  else if !s.memAdmit a size.bytes then .error (s.refuse .memNotAdmitted)
  else if s.unfencedRead || touches a size.bytes anyValue then
    let (v, s1) := s.drawValue
    .ok { s1 with loaded := some (lowBytes size.bytes v) }
  else .ok { s with loaded := some (memRead s.mem a size.bytes) }

/-- The bookkeeping of a controller write of the bytes `addrs`: unfenced until the next FENCE (R163), and noted by the
live objects whose buffers it touches (R75, 93_implementation_defined.md row 35). -/
def noteStore (addrs : List Nat) (s : State) : State :=
  { s with
    unfencedWrites := s.unfencedWrites ++ addrs
    owner := .ofFn fun b => .ofFn fun x => (s.holder b x).disturb addrs }

/-- A controller memory write (R150, R151, R153, R163); the order of the two checks is that of `ctlLoad` (log entry 15,
DESIGN CHOICE). -/
def ctlStore (a : Word) (size : ESize) (v : Word) (s : State) : Except State State :=
  if !aligned a size.bytes then .error (s.refuse .misaligned)
  else if !s.memAdmit a size.bytes then .error (s.refuse .memNotAdmitted)
  else .ok (noteStore (byteAddrs a size.bytes) { s with mem := memWrite s.mem a size.bytes v })

/-! ## Register transactions (R250 to R269) -/

/-- No transaction with the clock off (R250, R53). -/
def clocked {α : Type} (b : Blk) (s : State) (k : Except State α) : Except State α :=
  if s.clk b then k else .error (s.refuse .clockOff)

/-- The value a register reads as (R251, R253, R255, R259, R261, R263, R265). -/
def regValue (s : State) (b : Blk) : Reg → Word
  | .isr => isrWord (s.chan.get b)
  | .ifcr => 0#32
  | .ccr x => (s.regs b x).ccr.toWord
  | .cndtr x => (s.regs b x).ndt.setWidth 32
  | .cpar x => (s.regs b x).cpar
  | .cmar x => (s.regs b x).cmar
  | .cselr => cselrWord (s.chan.get b)

/-- A read of this register is a flag or count observation (R162). -/
def Reg.observes : Reg → Bool
  | .isr => true
  | .cndtr _ => true
  | _ => false

/-- `RD`: one register read (R155, R250). An error is the state with the refusal's mark. -/
def rdReg (b : Blk) (r : Reg) (s : State) : Except State (Word × State) :=
  clocked b s (.ok (regValue s b r, { s with unfencedRead := s.unfencedRead || Reg.observes r }))

/-- `WR IFCR` (R254): every channel's flags named by its group are cleared. -/
def State.wrIfcr (s : State) (b : Blk) (v : Word) : State :=
  { s with chan := s.chan.set b (.ofFn fun x => (s.regs b x).clearFlags (groupOf v x)) }

/-- `WR CSELR` (R266): every channel's request code is replaced. -/
def State.wrCselr (s : State) (b : Blk) (v : Word) : State :=
  { s with chan := s.chan.set b (.ofFn fun x => { s.regs b x with cxs := groupOf v x }) }

/-- `enable(x)`, the EN 0 to 1 edge (R257). The engine need not see the controller's unfenced writes (R163). -/
def enable (b : Blk) (x : Ch) (s : State) : Except State State :=
  let r := s.regs b x
  if r.ccr.psize = 3#2 ∨ r.ccr.msize = 3#2 then .error (s.refuse .reservedSize)
  else if r.ccr.psize ≠ r.ccr.msize then .error (s.refuse .sizeMismatch)
  else if r.ccr.mem2mem then .error (s.refuse .mem2mem)
  else if !(aligned r.cpar r.ccr.elemBytes && aligned r.cmar r.ccr.elemBytes) then .error (s.refuse .misaligned)
  else .ok <|
    (s.setRegs b x { r with ccr := { r.ccr with en := true } }).setEngine b x
      { curPa := r.cpar, curMa := r.cmar, ndtReload := r.ndt, stopping := false, unseen := s.unfencedWrites }

/-- `disable(x)`, the EN 1 to 0 request (R258). -/
def disable (b : Blk) (x : Ch) (s : State) : State :=
  let r := s.regs b x
  if r.ndt = 0#16 then s.setRegs b x { r with ccr := { r.ccr with en := false } }
  else s.setEngine b x { s.engine b x with stopping := true }

/-- The field update of a CCR write: the interrupt enables always, bits 14:4 only while EN = 0 (R256, D10). -/
def Ccr.update (c : Ccr) (v : Word) : Ccr :=
  { c with ie := ieOf v, cfg := if c.en then c.cfg else cfgOf v }

/-- `WR CCRx` (R256). -/
def wrCcr (b : Blk) (x : Ch) (v : Word) (s : State) : Except State State :=
  let r := s.regs b x
  let stopping := (s.engine b x).stopping
  if r.ccr.en && stopping && enOf v then .error (s.refuse .enableWhileStopping)
  else
    let s1 := s.setRegs b x { r with ccr := r.ccr.update v }
    if !r.ccr.en && enOf v then enable b x s1
    else if r.ccr.en && !enOf v && !stopping then .ok (disable b x s1)
    else .ok s1

/-- `WR CNDTRx`: taken only while EN = 0 (R260). -/
def State.wrCndtr (s : State) (b : Blk) (x : Ch) (v : Word) : State :=
  let r := s.regs b x
  if r.ccr.en then s else s.setRegs b x { r with ndt := v.setWidth 16 }

/-- `WR CPARx` (R262). -/
def wrCpar (b : Blk) (x : Ch) (v : Word) (s : State) : Except State State :=
  let r := s.regs b x
  if r.ccr.en then .error (s.refuse .addrWriteWhileEnabled) else .ok (s.setRegs b x { r with cpar := v })

/-- `WR CMARx` (R264). -/
def wrCmar (b : Blk) (x : Ch) (v : Word) (s : State) : Except State State :=
  let r := s.regs b x
  if r.ccr.en then .error (s.refuse .addrWriteWhileEnabled) else .ok (s.setRegs b x { r with cmar := v })

/-- `WR`: one register write (R155, R250). A write to ISR has no effect (R252). -/
def wrReg (b : Blk) (r : Reg) (v : Word) (s : State) : Except State State :=
  clocked b s <|
    match r with
    | .isr => .ok s
    | .ifcr => .ok (s.wrIfcr b v)
    | .ccr x => wrCcr b x v s
    | .cndtr x => .ok (s.wrCndtr b x v)
    | .cpar x => wrCpar b x v s
    | .cmar x => wrCmar b x v s
    | .cselr => .ok (s.wrCselr b v)

/-- Go on with a read's value; a refused transaction ends the micro-step with its mark. -/
def onRead (t : Except State (Word × State)) (k : Word → State → Out) : Out :=
  match t with
  | .ok (v, s) => k v s
  | .error s => .next s

/-- Go on after a write or a memory access; a refused one ends the micro-step with its mark. -/
def onDone (t : Except State State) (k : State → Out) : Out :=
  match t with
  | .ok s => k s
  | .error s => .next s

/-! ## Ownership (R70, R400, R459, R500) -/

/-- A Channel operation needs the handle (R400). -/
def needHandle (b : Blk) (x : Ch) (s : State) (k : Out) : Out :=
  match s.holder b x with
  | .handle => k
  | _ => refuseOp s .notOwner

/-- A CircBuffer operation needs the CircBuffer (R459). -/
def needCirc (b : Blk) (x : Ch) (s : State) (k : CircRec → Out) : Out :=
  match s.holder b x with
  | .circ cb => k cb
  | _ => refuseOp s .notOwner

/-- A Transfer operation needs the Transfer (R500). -/
def needXfer (b : Blk) (x : Ch) (s : State) (k : XferRec → Out) : Out :=
  match s.holder b x with
  | .xfer t => k t
  | _ => refuseOp s .notOwner

end Sys2Proof.Machine
end

