-- ==== Sys2Proof/Machine/Bus.lean ====
section
/-! DEFINITION. The BUS instructions (40_register_interface.md): one register transaction each, R250 to R269. They need
no handle (R250, decision D43). -/
namespace Sys2Proof.Machine
open Sys2Proof

/-- A BUS read: the register's value is the result. -/
def busRead (op : Instr) (b : Blk) (r : Reg) (s : State) : Out :=
  single op s <| onRead (rdReg b r s) fun v s1 => retOp s1 (.word v)

/-- A BUS write: no result. -/
def busWrite (op : Instr) (b : Blk) (r : Reg) (v : Word) (s : State) : Out :=
  single op s <| onDone (wrReg b r v s) fun s1 => retOp s1 .nothing

/-- `RD ISR` (R251). -/
def execRdIsr (b : Blk) (s : State) : Out := busRead (.rdIsr b) b .isr s

/-- `RD IFCR` (R253). -/
def execRdIfcr (b : Blk) (s : State) : Out := busRead (.rdIfcr b) b .ifcr s

/-- `RD CCR1` (R255). -/
def execRdCcr1 (b : Blk) (s : State) : Out := busRead (.rdCcr1 b) b (.ccr .c1) s

/-- `RD CNDTR1` (R259). -/
def execRdCndtr1 (b : Blk) (s : State) : Out := busRead (.rdCndtr1 b) b (.cndtr .c1) s

/-- `RD CPAR1` (R261). -/
def execRdCpar1 (b : Blk) (s : State) : Out := busRead (.rdCpar1 b) b (.cpar .c1) s

/-- `RD CMAR1` (R263). -/
def execRdCmar1 (b : Blk) (s : State) : Out := busRead (.rdCmar1 b) b (.cmar .c1) s

/-- `RD CCR2` (R255). -/
def execRdCcr2 (b : Blk) (s : State) : Out := busRead (.rdCcr2 b) b (.ccr .c2) s

/-- `RD CNDTR2` (R259). -/
def execRdCndtr2 (b : Blk) (s : State) : Out := busRead (.rdCndtr2 b) b (.cndtr .c2) s

/-- `RD CPAR2` (R261). -/
def execRdCpar2 (b : Blk) (s : State) : Out := busRead (.rdCpar2 b) b (.cpar .c2) s

/-- `RD CMAR2` (R263). -/
def execRdCmar2 (b : Blk) (s : State) : Out := busRead (.rdCmar2 b) b (.cmar .c2) s

/-- `RD CCR3` (R255). -/
def execRdCcr3 (b : Blk) (s : State) : Out := busRead (.rdCcr3 b) b (.ccr .c3) s

/-- `RD CNDTR3` (R259). -/
def execRdCndtr3 (b : Blk) (s : State) : Out := busRead (.rdCndtr3 b) b (.cndtr .c3) s

/-- `RD CPAR3` (R261). -/
def execRdCpar3 (b : Blk) (s : State) : Out := busRead (.rdCpar3 b) b (.cpar .c3) s

/-- `RD CMAR3` (R263). -/
def execRdCmar3 (b : Blk) (s : State) : Out := busRead (.rdCmar3 b) b (.cmar .c3) s

/-- `RD CCR4` (R255). -/
def execRdCcr4 (b : Blk) (s : State) : Out := busRead (.rdCcr4 b) b (.ccr .c4) s

/-- `RD CNDTR4` (R259). -/
def execRdCndtr4 (b : Blk) (s : State) : Out := busRead (.rdCndtr4 b) b (.cndtr .c4) s

/-- `RD CPAR4` (R261). -/
def execRdCpar4 (b : Blk) (s : State) : Out := busRead (.rdCpar4 b) b (.cpar .c4) s

/-- `RD CMAR4` (R263). -/
def execRdCmar4 (b : Blk) (s : State) : Out := busRead (.rdCmar4 b) b (.cmar .c4) s

/-- `RD CCR5` (R255). -/
def execRdCcr5 (b : Blk) (s : State) : Out := busRead (.rdCcr5 b) b (.ccr .c5) s

/-- `RD CNDTR5` (R259). -/
def execRdCndtr5 (b : Blk) (s : State) : Out := busRead (.rdCndtr5 b) b (.cndtr .c5) s

/-- `RD CPAR5` (R261). -/
def execRdCpar5 (b : Blk) (s : State) : Out := busRead (.rdCpar5 b) b (.cpar .c5) s

/-- `RD CMAR5` (R263). -/
def execRdCmar5 (b : Blk) (s : State) : Out := busRead (.rdCmar5 b) b (.cmar .c5) s

/-- `RD CCR6` (R255). -/
def execRdCcr6 (b : Blk) (s : State) : Out := busRead (.rdCcr6 b) b (.ccr .c6) s

/-- `RD CNDTR6` (R259). -/
def execRdCndtr6 (b : Blk) (s : State) : Out := busRead (.rdCndtr6 b) b (.cndtr .c6) s

/-- `RD CPAR6` (R261). -/
def execRdCpar6 (b : Blk) (s : State) : Out := busRead (.rdCpar6 b) b (.cpar .c6) s

/-- `RD CMAR6` (R263). -/
def execRdCmar6 (b : Blk) (s : State) : Out := busRead (.rdCmar6 b) b (.cmar .c6) s

/-- `RD CCR7` (R255). -/
def execRdCcr7 (b : Blk) (s : State) : Out := busRead (.rdCcr7 b) b (.ccr .c7) s

/-- `RD CNDTR7` (R259). -/
def execRdCndtr7 (b : Blk) (s : State) : Out := busRead (.rdCndtr7 b) b (.cndtr .c7) s

/-- `RD CPAR7` (R261). -/
def execRdCpar7 (b : Blk) (s : State) : Out := busRead (.rdCpar7 b) b (.cpar .c7) s

/-- `RD CMAR7` (R263). -/
def execRdCmar7 (b : Blk) (s : State) : Out := busRead (.rdCmar7 b) b (.cmar .c7) s

/-- `RD CSELR` (R265). -/
def execRdCselr (b : Blk) (s : State) : Out := busRead (.rdCselr b) b .cselr s

/-- `WR ISR` (R252). -/
def execWrIsr (b : Blk) (v : Word) (s : State) : Out := busWrite (.wrIsr b v) b .isr v s

/-- `WR IFCR` (R254). -/
def execWrIfcr (b : Blk) (v : Word) (s : State) : Out := busWrite (.wrIfcr b v) b .ifcr v s

/-- `WR CCR1` (R256). -/
def execWrCcr1 (b : Blk) (v : Word) (s : State) : Out := busWrite (.wrCcr1 b v) b (.ccr .c1) v s

/-- `WR CNDTR1` (R260). -/
def execWrCndtr1 (b : Blk) (v : Word) (s : State) : Out := busWrite (.wrCndtr1 b v) b (.cndtr .c1) v s

/-- `WR CPAR1` (R262). -/
def execWrCpar1 (b : Blk) (v : Word) (s : State) : Out := busWrite (.wrCpar1 b v) b (.cpar .c1) v s

/-- `WR CMAR1` (R264). -/
def execWrCmar1 (b : Blk) (v : Word) (s : State) : Out := busWrite (.wrCmar1 b v) b (.cmar .c1) v s

/-- `WR CCR2` (R256). -/
def execWrCcr2 (b : Blk) (v : Word) (s : State) : Out := busWrite (.wrCcr2 b v) b (.ccr .c2) v s

/-- `WR CNDTR2` (R260). -/
def execWrCndtr2 (b : Blk) (v : Word) (s : State) : Out := busWrite (.wrCndtr2 b v) b (.cndtr .c2) v s

/-- `WR CPAR2` (R262). -/
def execWrCpar2 (b : Blk) (v : Word) (s : State) : Out := busWrite (.wrCpar2 b v) b (.cpar .c2) v s

/-- `WR CMAR2` (R264). -/
def execWrCmar2 (b : Blk) (v : Word) (s : State) : Out := busWrite (.wrCmar2 b v) b (.cmar .c2) v s

/-- `WR CCR3` (R256). -/
def execWrCcr3 (b : Blk) (v : Word) (s : State) : Out := busWrite (.wrCcr3 b v) b (.ccr .c3) v s

/-- `WR CNDTR3` (R260). -/
def execWrCndtr3 (b : Blk) (v : Word) (s : State) : Out := busWrite (.wrCndtr3 b v) b (.cndtr .c3) v s

/-- `WR CPAR3` (R262). -/
def execWrCpar3 (b : Blk) (v : Word) (s : State) : Out := busWrite (.wrCpar3 b v) b (.cpar .c3) v s

/-- `WR CMAR3` (R264). -/
def execWrCmar3 (b : Blk) (v : Word) (s : State) : Out := busWrite (.wrCmar3 b v) b (.cmar .c3) v s

/-- `WR CCR4` (R256). -/
def execWrCcr4 (b : Blk) (v : Word) (s : State) : Out := busWrite (.wrCcr4 b v) b (.ccr .c4) v s

/-- `WR CNDTR4` (R260). -/
def execWrCndtr4 (b : Blk) (v : Word) (s : State) : Out := busWrite (.wrCndtr4 b v) b (.cndtr .c4) v s

/-- `WR CPAR4` (R262). -/
def execWrCpar4 (b : Blk) (v : Word) (s : State) : Out := busWrite (.wrCpar4 b v) b (.cpar .c4) v s

/-- `WR CMAR4` (R264). -/
def execWrCmar4 (b : Blk) (v : Word) (s : State) : Out := busWrite (.wrCmar4 b v) b (.cmar .c4) v s

/-- `WR CCR5` (R256). -/
def execWrCcr5 (b : Blk) (v : Word) (s : State) : Out := busWrite (.wrCcr5 b v) b (.ccr .c5) v s

/-- `WR CNDTR5` (R260). -/
def execWrCndtr5 (b : Blk) (v : Word) (s : State) : Out := busWrite (.wrCndtr5 b v) b (.cndtr .c5) v s

/-- `WR CPAR5` (R262). -/
def execWrCpar5 (b : Blk) (v : Word) (s : State) : Out := busWrite (.wrCpar5 b v) b (.cpar .c5) v s

/-- `WR CMAR5` (R264). -/
def execWrCmar5 (b : Blk) (v : Word) (s : State) : Out := busWrite (.wrCmar5 b v) b (.cmar .c5) v s

/-- `WR CCR6` (R256). -/
def execWrCcr6 (b : Blk) (v : Word) (s : State) : Out := busWrite (.wrCcr6 b v) b (.ccr .c6) v s

/-- `WR CNDTR6` (R260). -/
def execWrCndtr6 (b : Blk) (v : Word) (s : State) : Out := busWrite (.wrCndtr6 b v) b (.cndtr .c6) v s

/-- `WR CPAR6` (R262). -/
def execWrCpar6 (b : Blk) (v : Word) (s : State) : Out := busWrite (.wrCpar6 b v) b (.cpar .c6) v s

/-- `WR CMAR6` (R264). -/
def execWrCmar6 (b : Blk) (v : Word) (s : State) : Out := busWrite (.wrCmar6 b v) b (.cmar .c6) v s

/-- `WR CCR7` (R256). -/
def execWrCcr7 (b : Blk) (v : Word) (s : State) : Out := busWrite (.wrCcr7 b v) b (.ccr .c7) v s

/-- `WR CNDTR7` (R260). -/
def execWrCndtr7 (b : Blk) (v : Word) (s : State) : Out := busWrite (.wrCndtr7 b v) b (.cndtr .c7) v s

/-- `WR CPAR7` (R262). -/
def execWrCpar7 (b : Blk) (v : Word) (s : State) : Out := busWrite (.wrCpar7 b v) b (.cpar .c7) v s

/-- `WR CMAR7` (R264). -/
def execWrCmar7 (b : Blk) (v : Word) (s : State) : Out := busWrite (.wrCmar7 b v) b (.cmar .c7) v s

/-- `WR CSELR` (R266). -/
def execWrCselr (b : Blk) (v : Word) (s : State) : Out := busWrite (.wrCselr b v) b .cselr v s

end Sys2Proof.Machine
end

