-- ==== Sys2Proof/Machine/Channel.lean ====
section
/-! DEFINITION. The Channel operations and the fence (42_channel.md). Each meaning is one micro-step of its rule's
pseudocode: the one at the sequencer's label. A line without a label belongs to the labelled line before it, the checks
to the first one (42_channel.md, introduction). -/
namespace Sys2Proof.Machine
open Sys2Proof

/-! ## Shared shapes -/

/-- An operation that reads one register and returns a function of its value. -/
def readOp (op : Instr) (b : Blk) (x : Ch) (r : Reg) (res : Word → Result) (s : State) : Out :=
  single op s <| needHandle b x s <| onRead (rdReg b r s) fun v s1 => retOp s1 (res v)

/-- An operation that writes one register and returns `Ok(())`. -/
def writeOp (op : Instr) (b : Blk) (x : Ch) (r : Reg) (v : Word) (s : State) : Out :=
  single op s <| needHandle b x s <| onDone (wrReg b r v s) fun s1 => retOp s1 .unit

/-- The last micro-step of a read-modify-write: WR CCRx, then `Ok(())`. -/
def wrCcrRet (b : Blk) (x : Ch) (v : Word) (s : State) : Out :=
  onDone (wrReg b (.ccr x) v s) fun s1 => retOp s1 .unit

/-- A micro-step `WR CCRx` that goes on at a label. -/
def wrCcrThen (op : Instr) (b : Blk) (x : Ch) (v : Word) (label : Label) (s : State) : Out :=
  onDone (wrReg b (.ccr x) v s) fun s1 => goOn s1 op label

/-- A micro-step `RD CCRx; spin until EN = e`: on at a label, or still at `here` (R12, R52). -/
def spinEn (op : Instr) (b : Blk) (x : Ch) (e : Bool) (here : Label) (next : Word → Label) (s : State) : Out :=
  onRead (rdReg b (.ccr x) s) fun c2 s1 => goOn s1 op (if enOf c2 = e then next c2 else here)

/-! ## Interrupt enables -/

/-- `LISTEN` (R401). -/
def execListen (b : Blk) (x : Ch) (ev : Event) (s : State) : Out :=
  let op : Instr := .listen b x ev
  sequenced op s
    (needHandle b x s <| onRead (rdReg b (.ccr x) s) fun c s1 => goOn s1 op (.l2 c))
    fun
      | .l2 c => wrCcrRet b x (setBit c ev.ieBit) s
      | _ => .refused .strayLabel

/-- `UNLISTEN` (R402). -/
def execUnlisten (b : Blk) (x : Ch) (ev : Event) (s : State) : Out :=
  let op : Instr := .unlisten b x ev
  sequenced op s
    (needHandle b x s <| onRead (rdReg b (.ccr x) s) fun c s1 => goOn s1 op (.l2 c))
    fun
      | .l2 c => wrCcrRet b x (clearBit c ev.ieBit) s
      | _ => .refused .strayLabel

/-! ## Status and flags -/

/-- `STATUS` (R403). -/
def execStatus (b : Blk) (x : Ch) (s : State) : Out :=
  readOp (.status b x) b x .isr
    (fun v => .flags (v.getLsbD (x.group + 2)) (v.getLsbD (x.group + 1)) (v.getLsbD (x.group + 3)) (v.getLsbD x.group)) s

/-- `CLEAR_FLAGS` (R404): WR IFCR, 0xF << g. -/
def execClearFlags (b : Blk) (x : Ch) (s : State) : Out :=
  writeOp (.clearFlags b x) b x .ifcr (0xF#32 <<< x.group) s

/-- `CLEAR_FLAG` (R405): WR IFCR, 1 << (g + k). -/
def execClearFlag (b : Blk) (x : Ch) (which : Flag) (s : State) : Out :=
  writeOp (.clearFlag b x which) b x .ifcr (bitWord (x.group + which.bit)) s

/-! ## Count and addresses -/

/-- `REMAINING` (R406). -/
def execRemaining (b : Blk) (x : Ch) (s : State) : Out :=
  readOp (.remaining b x) b x (.cndtr x) (fun v => .count (v.setWidth 16)) s

/-- `SELECT_REQUEST` (R407). -/
def execSelectRequest (b : Blk) (x : Ch) (imm : BitVec 16) (s : State) : Out :=
  let op : Instr := .selectRequest b x imm
  sequenced op s
    (check (requestImmOk imm) .illegalEncoding s <| needHandle b x s <|
      onRead (rdReg b .cselr s) fun v s1 => goOn s1 op (.q2 v))
    fun
      | .q2 v => onDone (wrReg b .cselr (selectWord v x (imm.setWidth 4)) s) fun s1 => retOp s1 .unit
      | _ => .refused .strayLabel

/-- `SET_PADDR` (R408). -/
def execSetPaddr (b : Blk) (x : Ch) (paddr : Word) (s : State) : Out :=
  writeOp (.setPaddr b x paddr) b x (.cpar x) paddr s

/-- `SET_MADDR` (R409). -/
def execSetMaddr (b : Blk) (x : Ch) (maddr : Word) (s : State) : Out :=
  writeOp (.setMaddr b x maddr) b x (.cmar x) maddr s

/-- `SET_COUNT` (R410). -/
def execSetCount (b : Blk) (x : Ch) (count : BitVec 16) (s : State) : Out :=
  writeOp (.setCount b x count) b x (.cndtr x) (count.setWidth 32) s

/-- `GET_PADDR` (R416). -/
def execGetPaddr (b : Blk) (x : Ch) (s : State) : Out := readOp (.getPaddr b x) b x (.cpar x) .address s

/-- `GET_MADDR` (R417). -/
def execGetMaddr (b : Blk) (x : Ch) (s : State) : Out := readOp (.getMaddr b x) b x (.cmar x) .address s

/-! ## Configuration and enable -/

/-- `CONFIGURE` (R411). -/
def execConfigure (b : Blk) (x : Ch) (imm : BitVec 16) (s : State) : Out :=
  let op : Instr := .configure b x imm
  sequenced op s
    (check (configImmOk imm) .illegalEncoding s <| needHandle b x s <|
      onRead (rdReg b (.ccr x) s) fun c s1 => goOn s1 op (.k2 c))
    fun
      | .k2 c => wrCcrRet b x (configureWord c imm) s
      | _ => .refused .strayLabel

/-- `START` (R412). The spin at E4 goes on for ever where a transfer error has cleared EN after E3, as R412 says and
R721 (e) does not; it never waits for a request, whatever R721 (c) says (log entry 32, DEDUCED). -/
def execStart (b : Blk) (x : Ch) (s : State) : Out :=
  let op : Instr := .start b x
  sequenced op s
    (needHandle b x s <| onRead (rdReg b (.ccr x) s) fun c s1 => goOn s1 op (.e2 c))
    fun
      | .e2 c => goOn s.fence op (.e3 c)
      | .e3 c => wrCcrThen op b x (setBit c 0) .e4 s
      | .e4 => spinEn op b x true .e4 (fun _ => .e5) s
      | .e5 => retOp s.fence .unit
      | _ => .refused .strayLabel

/-- `STOP` (R413). -/
def execStop (b : Blk) (x : Ch) (s : State) : Out :=
  let op : Instr := .stop b x
  sequenced op s
    (needHandle b x s <| onRead (rdReg b (.ccr x) s) fun c s1 => goOn s1 op (.k2 c))
    fun
      | .k2 c => wrCcrThen op b x (clearBit c 0) .k3 s
      | .k3 => spinEn op b x false .k3 (fun _ => .k4) s
      | .k4 => retOp s.fence .unit
      | _ => .refused .strayLabel

/-! ## The fence -/

/-- `FENCE` (R415). No ownership requirement. -/
def execFence (s : State) : Out := single .fence s <| retOp s.fence .unit

end Sys2Proof.Machine
end

