-- ==== Sys2Proof/Machine/ChannelSet.lean ====
section
/-! DEFINITION. The ChannelSet allocator: SPLIT (45_channelset.md R550 to R552). -/
namespace Sys2Proof.Machine
open Sys2Proof

/-- Z0: the clock gate on (R550, R53). -/
def clockOn (b : Blk) (s : State) : State := { s with clkEn := s.clkEn.set b true }

/-- The end of SPLIT: one handle for each channel of the block (R550, R551). -/
def handOut (b : Blk) (s : State) : State :=
  { s with splitDone := s.splitDone.set b true, owner := s.owner.set b (.all .handle) }

/-- `SPLIT` (R550). -/
def execSplit (b : Blk) (s : State) : Out :=
  let op : Instr := .split b
  sequenced op s
    (check (!s.splitDone.get b) .alreadySplit s <| goOn (clockOn b s) op (.z1 .c1))
    fun
      | .z1 x => wrCcrThen op b x 0#32 (.z2 x) s
      | .z2 x => spinEn op b x false (.z2 x) (fun _ => .z3 x) s
      | .z3 x => onDone (wrReg b (.ccr x) 0#32 s) fun s1 =>
          match x.next with
          | some y => goOn s1 op (.z1 y)
          | none => retOp (handOut b s1) (.channelSet b)
      | _ => .refused .strayLabel

end Sys2Proof.Machine
end

