-- ==== Sys2Proof/Machine/CircBuffer.lean ====
section
/-! DEFINITION. The circular-capture entry, with what the three entry operations share, and the CircBuffer operations
(43_circbuffer.md). -/
namespace Sys2Proof.Machine
open Sys2Proof

/-! ## The arming sequence A1 to A9 of the entry operations (R451, R501, R502) -/

/-- The checks of an entry operation after ownership and length, then A1: alignment, admission of the `len` elements,
the endpoint; the channel must not be enabled. -/
def armStart (op : Instr) (b : Blk) (x : Ch) (es : ESize) (len : Nat) (base paddr : Word) (s : State) : Out :=
  check (aligned base es.bytes && aligned paddr es.bytes) .misaligned s <|
  check (allAdmitted s base es len) .memNotAdmitted s <|
  check (s.legalEndpoint b x (s.regs b x).cxs paddr) .illegalEndpoint s <|
  onRead (rdReg b (.ccr x) s) fun c s1 =>
    if enOf c then refuseOp s1 .channelBusy else goOn s1 op (.a2 c)

/-- The micro-steps A2 to A9; `own` is the owner at the end, `res` the result. The spin at A8 goes on for ever where a
transfer error has cleared EN after A7: R721 (e) says it never hangs, R12 and the pseudocode give it no other end (log
entry 32, DEDUCED). -/
def armResume (op : Instr) (b : Blk) (x : Ch) (base paddr : Word) (count : BitVec 16) (cfg : BitVec 11) (own : Owner)
    (res : Result) (s : State) : Label → Out
  | .a2 c => onDone (wrReg b (.cpar x) paddr s) fun s1 => goOn s1 op (.a3 c)
  | .a3 c => onDone (wrReg b (.cmar x) base s) fun s1 => goOn s1 op (.a4 c)
  | .a4 c => onDone (wrReg b (.cndtr x) (count.setWidth 32) s) fun s1 => goOn s1 op (.a5 c)
  | .a5 c => wrCcrThen op b x (entryWord cfg c) (.a6 c) s
  | .a6 c => goOn s.fence op (.a7 c)
  | .a7 c => wrCcrThen op b x (setBit (entryWord cfg c) 0) .a8 s
  | .a8 => spinEn op b x true .a8 (fun _ => .a9) s
  | .a9 => retOp (s.fence.setHolder b x own) res
  | _ => .refused .strayLabel

/-- `CIRC_READ` (R451). -/
def execCircRead (b : Blk) (x : Ch) (size pl : BitVec 2) (h : BitVec 16) (base paddr : Word) (s : State) : Out :=
  let op : Instr := .circRead b x size pl h base paddr
  match esizeOf size with
  | none => single op s <| refuseOp s .illegalEncoding
  | some es =>
    sequenced op s
      (needHandle b x s <|
        check (decide (h ≠ 0#16) && decide (2 * h.toNat ≤ 0xFFFF)) .badLength s <|
        armStart op b x es (2 * h.toNat) base paddr s)
      (armResume op b x base paddr (BitVec.ofNat 16 (2 * h.toNat)) (entryCfg pl size true false)
        (.circ ⟨base, h.toNat, es, .second, 0, []⟩) (.circBuffer b x) s)

/-! ## Which half is readable (R452, R453) -/

/-- What H1 decides. -/
inductive HalfChoice where
  | overrun
  | keep (r : Half)
  | flip (r : Half)
  deriving DecidableEq, Repr

/-- The decision of READABLE_HALF from the recorded half and the flags read at H1 (R452, R453). -/
def halfChoice (recorded : Half) (ht tc : Bool) : HalfChoice :=
  if ht && tc then .overrun
  else match recorded with
    | .first => if tc then .flip .second else .keep .first
    | .second => if ht then .flip .first else .keep .second

/-- H1: read ISR and decide (R452). -/
def halfRead (b : Blk) (x : Ch) (cb : CircRec) (s : State) (k : HalfChoice → State → Out) : Out :=
  onRead (rdReg b .isr s) fun v s1 =>
    k (halfChoice cb.readableHalf (v.getLsbD (x.group + 2)) (v.getLsbD (x.group + 1))) s1

/-- H2: clear the completed half's flag and flip the recorded half (R452). -/
def halfFlip (b : Blk) (x : Ch) (cb : CircRec) (r : Half) (s : State) (k : State → Out) : Out :=
  onDone (wrReg b .ifcr (bitWord (x.group + r.flagBit)) s) fun s1 =>
    k (s1.setHolder b x (.circ { cb with readableHalf := r }))

/-- `READABLE_HALF` (R452). -/
def execReadableHalf (b : Blk) (x : Ch) (s : State) : Out :=
  let op : Instr := .readableHalf b x
  sequenced op s
    (needCirc b x s fun cb => halfRead b x cb s fun
      | .overrun, s1 => retOp s1 (.err .overrun)
      | .keep r, s1 => retOp s1 (.half r)
      | .flip r, s1 => goOn s1 op (.h2 r))
    fun
      | .h2 r => needCirc b x s fun cb => halfFlip b x cb r s fun s1 => retOp s1 (.half r)
      | _ => .refused .strayLabel

/-! ## Consuming a half (R454, R455, R458) -/

/-- One action of the consumer function on the window of elements `lo .. hi-1` of a half: a read inside the window is
a controller memory read (it reads nothing outside), an outcome goes on. A byte of the buffer that the program disturbed
reads as any value (R75). -/
def consume (op : Instr) (here : Label) (cb : CircRec) (r : Half) (lo hi : Nat) (s : State)
    (k : Option (Nat × Word) → State → Out) : Out :=
  match s.drawAct with
  | (.read i, s1) =>
    if lo ≤ i ∧ i < hi then onDone (ctlLoad cb.disturbed (halfElemAddr cb r i) cb.esize s1) fun s2 => goOn s2 op here
    else goOn s1 op here
  | (.done l v, s1) => k (some (l, v)) s1
  | (.fail, s1) => k none s1

/-- `PEEK` (R454). -/
def execPeek (b : Blk) (x : Ch) (s : State) : Out :=
  let op : Instr := .peek b x
  sequenced op s
    (needCirc b x s fun cb => halfRead b x cb s fun
      | .overrun, s1 => retOp s1 (.err .overrun)
      | .keep r, s1 => goOn s1 op (.p2 r)
      | .flip r, s1 => goOn s1 op (.h2 r))
    fun
      | .h2 r => needCirc b x s fun cb => halfFlip b x cb r s fun s1 => goOn s1 op (.p2 r)
      | .p2 r => needCirc b x s fun cb => goOn s.fence op (.p3 r cb.consumedOffset)
      | .p3 r lo => needCirc b x s fun cb =>
          consume op (.p3 r lo) cb r lo cb.h s fun out s1 => goOn s1 op (.p4 (out.map (·.2)))
      | .p4 out => needCirc b x s fun cb =>
          retOp (s.setHolder b x (.circ { cb with consumedOffset := 0 }))
            (match out with
              | some v => .value v
              | none => .err .bufferError)
      | _ => .refused .strayLabel

/-- `PARTIAL_PEEK` (R455, R456). -/
def execPartialPeek (b : Blk) (x : Ch) (s : State) : Out :=
  let op : Instr := .partialPeek b x
  sequenced op s
    (needCirc b x s fun cb => onRead (rdReg b (.cndtr x) s) fun v s1 =>
      let rem := (v.setWidth 16).toNat
      let hi := partialEnd cb.h rem
      if cb.consumedOffset > hi then .next (s1.takeFault (.partialPeekBounds cb.consumedOffset rem hi) op b x)
      else goOn s1 op (.r2 cb.readableHalf.other hi))
    fun
      | .r2 w hi => needCirc b x s fun cb => goOn s.fence op (.r3 w cb.consumedOffset hi)
      | .r3 w lo hi => needCirc b x s fun cb =>
          consume op (.r3 w lo hi) cb w lo hi s fun
            | none, s1 => retOp s1 (.err .bufferError)
            | some (l, v), s1 =>
              if l > hi - cb.consumedOffset then .next (s1.takeFault (.consumeOverflow l cb.consumedOffset hi) op b x)
              else goOn s1 op (.r4 l v)
      | .r4 l v => needCirc b x s fun cb =>
          retOp (s.setHolder b x (.circ { cb with consumedOffset := cb.consumedOffset + l })) (.value v)
      | _ => .refused .strayLabel

/-- `ANSWER_ISR` (R457): WR IFCR, 1 << g. -/
def execAnswerIsr (b : Blk) (x : Ch) (s : State) : Out :=
  single (.answerIsr b x) s <| needCirc b x s fun _ =>
    onDone (wrReg b .ifcr (bitWord x.group) s) fun s1 => retOp s1 .unit

end Sys2Proof.Machine
end

