-- ==== Sys2Proof/Machine/Transfer.lean ====
section
/-! DEFINITION. The one-shot entries and the Transfer operations (44_transfer.md). -/
namespace Sys2Proof.Machine
open Sys2Proof

/-! ## Entries (R501, R502) -/

/-- What READ_EXACT and WRITE_ALL share: the arming sequence with a one-shot configuration. -/
def armOneShot (op : Instr) (b : Blk) (x : Ch) (size pl : BitVec 2) (n : BitVec 16) (base paddr payload : Word)
    (mode : XferMode) (s : State) : Out :=
  match esizeOf size with
  | none => single op s <| refuseOp s .illegalEncoding
  | some es =>
    sequenced op s
      (needHandle b x s <| armStart op b x es n.toNat base paddr s)
      (armResume op b x base paddr n (entryCfg pl size false (mode == .memSrc))
        (.xfer ⟨mode, base, n.toNat, es, paddr, payload, []⟩) (.transfer b x) s)

/-- `READ_EXACT` (R501): DIR = 0. -/
def execReadExact (b : Blk) (x : Ch) (size pl : BitVec 2) (n : BitVec 16) (base paddr payload : Word) (s : State) : Out :=
  armOneShot (.readExact b x size pl n base paddr payload) b x size pl n base paddr payload .memDest s

/-- `WRITE_ALL` (R502): DIR = 1. -/
def execWriteAll (b : Blk) (x : Ch) (size pl : BitVec 2) (n : BitVec 16) (base paddr payload : Word) (s : State) : Out :=
  armOneShot (.writeAll b x size pl n base paddr payload) b x size pl n base paddr payload .memSrc s

/-! ## Completion (R503, R504, R505) -/

/-- `IS_DONE` (R503). -/
def execIsDone (b : Blk) (x : Ch) (s : State) : Out :=
  single (.isDone b x) s <| needXfer b x s fun _ =>
    onRead (rdReg b .isr s) fun v s1 => retOp s1 (.done (v.getLsbD (x.group + 1)))

/-- W1: RD ISR; spin until TCIF (R504). -/
def waitPoll (op : Instr) (b : Blk) (x : Ch) (s : State) : Out :=
  onRead (rdReg b .isr s) fun v s1 => goOn s1 op (if v.getLsbD (x.group + 1) then .w2 else .w1)

/-- `WAIT` (R504). -/
def execWait (b : Blk) (x : Ch) (s : State) : Out :=
  let op : Instr := .wait b x
  sequenced op s
    (needXfer b x s fun _ => waitPoll op b x s)
    fun
      | .w1 => waitPoll op b x s
      | .w2 => onDone (wrReg b .ifcr (bitWord (x.group + 1)) s) fun s1 => goOn s1 op .w3
      | .w3 => onRead (rdReg b (.ccr x) s) fun c s1 => goOn s1 op (.w4 c)
      | .w4 c => wrCcrThen op b x (clearBit c 0) .w5 s
      | .w5 => spinEn op b x false .w5 (fun _ => .w6) s
      | .w6 => needXfer b x s fun t =>
          retOp (s.fence.setHolder b x .handle) (.released t.base t.n t.esize b x t.payload)
      | _ => .refused .strayLabel

/-- `TERMINATE` (R505): toggles EN. There is no fence before its enabling write at T2: R505's pseudocode and R214 have
none, while decision D33 says that every operation that enables a channel fences before the write; the model follows
the pseudocode (log entry 31, DEDUCED), so an unfenced controller write stays unseen by the engine it enables. -/
def execTerminate (b : Blk) (x : Ch) (s : State) : Out :=
  let op : Instr := .terminate b x
  sequenced op s
    (needXfer b x s fun _ => onRead (rdReg b (.ccr x) s) fun c s1 => goOn s1 op (.t2 c))
    fun
      | .t2 c =>
          wrCcrThen op b x (if enOf c then clearBit c 0 else setBit c 0) (.t3 (!enOf c)) s
      | .t3 e => spinEn op b x e (.t3 e) (fun _ => .t4) s
      | .t4 => retOp s.fence .unit
      | _ => .refused .strayLabel

/-! ## Continuous destinations (R506, R507) -/

/-- The count read of X1 and S5: how many elements were written, or the fault (R506, R507, R605). -/
def readWritten (op : Instr) (b : Blk) (x : Ch) (t : XferRec) (s : State) (k : Nat → State → Out) : Out :=
  onRead (rdReg b (.cndtr x) s) fun v s1 =>
    let rem := (v.setWidth 16).toNat
    if rem > t.n then .next (s1.takeFault (.countBeyondLength rem t.n) op b x) else k (t.n - rem) s1

/-- `XPEEK` (R506). -/
def execXpeek (b : Blk) (x : Ch) (s : State) : Out :=
  let op : Instr := .xpeek b x
  sequenced op s
    (needXfer b x s fun t =>
      check (t.mode == .memDest) .wrongMode s <|
      readWritten op b x t s fun written s1 => goOn s1 op (.x2 written))
    fun
      | .x2 written => needXfer b x s fun t => retOp s.fence (.window t.base t.esize 0 written)
      | _ => .refused .strayLabel

/-- `RESTART` (R507). -/
def execRestart (b : Blk) (x : Ch) (s : State) : Out :=
  let op : Instr := .restart b x
  sequenced op s
    (needXfer b x s fun t =>
      check (t.mode == .memDest) .wrongMode s <|
      onRead (rdReg b (.ccr x) s) fun c s1 => goOn s1 op (.s2 c))
    fun
      | .s2 c => wrCcrThen op b x (clearBit c 0) .s3 s
      | .s3 => spinEn op b x false .s3 .s4 s
      | .s4 c2 => goOn s.fence op (.s5 c2)
      | .s5 c2 => needXfer b x s fun t => readWritten op b x t s fun written s1 => goOn s1 op (.s6 c2 written)
      | .s6 c2 written => needXfer b x s fun t =>
          onDone (wrReg b (.cndtr x) (BitVec.ofNat 32 t.n) s) fun s1 => goOn s1 op (.s7 c2 written)
      | .s7 c2 written => goOn s.fence op (.s8 c2 written)
      | .s8 c2 written => wrCcrThen op b x (setBit c2 0) (.s9 written) s
      | .s9 written => spinEn op b x true (.s9 written) (fun _ => .s10 written) s
      | .s10 written => needXfer b x s fun t =>
          retOp s.fence (if written = 0 then .noData else .someWindow t.base t.esize 0 written)
      | _ => .refused .strayLabel

end Sys2Proof.Machine
end

