-- ==== Sys2Proof/Machine/Dispatch.lean ====
section
/-! DEFINITION. One arm per instruction: its meaning, one controller micro-step. -/
namespace Sys2Proof.Machine
open Sys2Proof

def exec (i : Instr) (s : State) : Host.Outcome State Fault Refusal :=
  match i with
  | .rdIsr b => Sys2Proof.Machine.execRdIsr b s
  | .rdIfcr b => Sys2Proof.Machine.execRdIfcr b s
  | .rdCcr1 b => Sys2Proof.Machine.execRdCcr1 b s
  | .rdCndtr1 b => Sys2Proof.Machine.execRdCndtr1 b s
  | .rdCpar1 b => Sys2Proof.Machine.execRdCpar1 b s
  | .rdCmar1 b => Sys2Proof.Machine.execRdCmar1 b s
  | .rdCcr2 b => Sys2Proof.Machine.execRdCcr2 b s
  | .rdCndtr2 b => Sys2Proof.Machine.execRdCndtr2 b s
  | .rdCpar2 b => Sys2Proof.Machine.execRdCpar2 b s
  | .rdCmar2 b => Sys2Proof.Machine.execRdCmar2 b s
  | .rdCcr3 b => Sys2Proof.Machine.execRdCcr3 b s
  | .rdCndtr3 b => Sys2Proof.Machine.execRdCndtr3 b s
  | .rdCpar3 b => Sys2Proof.Machine.execRdCpar3 b s
  | .rdCmar3 b => Sys2Proof.Machine.execRdCmar3 b s
  | .rdCcr4 b => Sys2Proof.Machine.execRdCcr4 b s
  | .rdCndtr4 b => Sys2Proof.Machine.execRdCndtr4 b s
  | .rdCpar4 b => Sys2Proof.Machine.execRdCpar4 b s
  | .rdCmar4 b => Sys2Proof.Machine.execRdCmar4 b s
  | .rdCcr5 b => Sys2Proof.Machine.execRdCcr5 b s
  | .rdCndtr5 b => Sys2Proof.Machine.execRdCndtr5 b s
  | .rdCpar5 b => Sys2Proof.Machine.execRdCpar5 b s
  | .rdCmar5 b => Sys2Proof.Machine.execRdCmar5 b s
  | .rdCcr6 b => Sys2Proof.Machine.execRdCcr6 b s
  | .rdCndtr6 b => Sys2Proof.Machine.execRdCndtr6 b s
  | .rdCpar6 b => Sys2Proof.Machine.execRdCpar6 b s
  | .rdCmar6 b => Sys2Proof.Machine.execRdCmar6 b s
  | .rdCcr7 b => Sys2Proof.Machine.execRdCcr7 b s
  | .rdCndtr7 b => Sys2Proof.Machine.execRdCndtr7 b s
  | .rdCpar7 b => Sys2Proof.Machine.execRdCpar7 b s
  | .rdCmar7 b => Sys2Proof.Machine.execRdCmar7 b s
  | .rdCselr b => Sys2Proof.Machine.execRdCselr b s
  | .wrIsr b v => Sys2Proof.Machine.execWrIsr b v s
  | .wrIfcr b v => Sys2Proof.Machine.execWrIfcr b v s
  | .wrCcr1 b v => Sys2Proof.Machine.execWrCcr1 b v s
  | .wrCndtr1 b v => Sys2Proof.Machine.execWrCndtr1 b v s
  | .wrCpar1 b v => Sys2Proof.Machine.execWrCpar1 b v s
  | .wrCmar1 b v => Sys2Proof.Machine.execWrCmar1 b v s
  | .wrCcr2 b v => Sys2Proof.Machine.execWrCcr2 b v s
  | .wrCndtr2 b v => Sys2Proof.Machine.execWrCndtr2 b v s
  | .wrCpar2 b v => Sys2Proof.Machine.execWrCpar2 b v s
  | .wrCmar2 b v => Sys2Proof.Machine.execWrCmar2 b v s
  | .wrCcr3 b v => Sys2Proof.Machine.execWrCcr3 b v s
  | .wrCndtr3 b v => Sys2Proof.Machine.execWrCndtr3 b v s
  | .wrCpar3 b v => Sys2Proof.Machine.execWrCpar3 b v s
  | .wrCmar3 b v => Sys2Proof.Machine.execWrCmar3 b v s
  | .wrCcr4 b v => Sys2Proof.Machine.execWrCcr4 b v s
  | .wrCndtr4 b v => Sys2Proof.Machine.execWrCndtr4 b v s
  | .wrCpar4 b v => Sys2Proof.Machine.execWrCpar4 b v s
  | .wrCmar4 b v => Sys2Proof.Machine.execWrCmar4 b v s
  | .wrCcr5 b v => Sys2Proof.Machine.execWrCcr5 b v s
  | .wrCndtr5 b v => Sys2Proof.Machine.execWrCndtr5 b v s
  | .wrCpar5 b v => Sys2Proof.Machine.execWrCpar5 b v s
  | .wrCmar5 b v => Sys2Proof.Machine.execWrCmar5 b v s
  | .wrCcr6 b v => Sys2Proof.Machine.execWrCcr6 b v s
  | .wrCndtr6 b v => Sys2Proof.Machine.execWrCndtr6 b v s
  | .wrCpar6 b v => Sys2Proof.Machine.execWrCpar6 b v s
  | .wrCmar6 b v => Sys2Proof.Machine.execWrCmar6 b v s
  | .wrCcr7 b v => Sys2Proof.Machine.execWrCcr7 b v s
  | .wrCndtr7 b v => Sys2Proof.Machine.execWrCndtr7 b v s
  | .wrCpar7 b v => Sys2Proof.Machine.execWrCpar7 b v s
  | .wrCmar7 b v => Sys2Proof.Machine.execWrCmar7 b v s
  | .wrCselr b v => Sys2Proof.Machine.execWrCselr b v s
  | .split b => Sys2Proof.Machine.execSplit b s
  | .listen b x ev => Sys2Proof.Machine.execListen b x ev s
  | .unlisten b x ev => Sys2Proof.Machine.execUnlisten b x ev s
  | .status b x => Sys2Proof.Machine.execStatus b x s
  | .clearFlags b x => Sys2Proof.Machine.execClearFlags b x s
  | .clearFlag b x which => Sys2Proof.Machine.execClearFlag b x which s
  | .remaining b x => Sys2Proof.Machine.execRemaining b x s
  | .selectRequest b x imm => Sys2Proof.Machine.execSelectRequest b x imm s
  | .setPaddr b x paddr => Sys2Proof.Machine.execSetPaddr b x paddr s
  | .setMaddr b x maddr => Sys2Proof.Machine.execSetMaddr b x maddr s
  | .setCount b x count => Sys2Proof.Machine.execSetCount b x count s
  | .configure b x imm => Sys2Proof.Machine.execConfigure b x imm s
  | .start b x => Sys2Proof.Machine.execStart b x s
  | .stop b x => Sys2Proof.Machine.execStop b x s
  | .getPaddr b x => Sys2Proof.Machine.execGetPaddr b x s
  | .getMaddr b x => Sys2Proof.Machine.execGetMaddr b x s
  | .circRead b x size pl h base paddr => Sys2Proof.Machine.execCircRead b x size pl h base paddr s
  | .readableHalf b x => Sys2Proof.Machine.execReadableHalf b x s
  | .peek b x => Sys2Proof.Machine.execPeek b x s
  | .partialPeek b x => Sys2Proof.Machine.execPartialPeek b x s
  | .answerIsr b x => Sys2Proof.Machine.execAnswerIsr b x s
  | .readExact b x size pl n base paddr payload => Sys2Proof.Machine.execReadExact b x size pl n base paddr payload s
  | .writeAll b x size pl n base paddr payload => Sys2Proof.Machine.execWriteAll b x size pl n base paddr payload s
  | .isDone b x => Sys2Proof.Machine.execIsDone b x s
  | .wait b x => Sys2Proof.Machine.execWait b x s
  | .terminate b x => Sys2Proof.Machine.execTerminate b x s
  | .xpeek b x => Sys2Proof.Machine.execXpeek b x s
  | .restart b x => Sys2Proof.Machine.execRestart b x s
  | .fence => Sys2Proof.Machine.execFence s

end Sys2Proof.Machine
end

