-- ==== Sys2Proof/Machine/Engine.lean ====
section
/-! DEFINITION. The steps of a transfer engine (41_engine.md): the element step (R352 to R362, R365) and the
stop-completion step (R364). An engine is no instruction: `step` gives it its turns. -/
namespace Sys2Proof.Machine
open Sys2Proof

/-- When the element step is enabled (R352), the requests in `lines` being asserted. -/
def elementEnabled (b : Blk) (x : Ch) (lines : List Nat) (s : State) : Bool :=
  s.clk b && (s.regs b x).ccr.en && decide ((s.regs b x).ndt ≠ 0#16) && s.request b x lines

/-- Both accesses of an element of n bytes are admitted (R353). -/
def accessOk (b : Blk) (x : Ch) (n : Nat) (s : State) : Bool :=
  s.periphAdmit (s.engine b x).curPa n && s.memAdmit (s.engine b x).curMa n

/-- `transfer_error()` (R356). -/
def transferError (b : Blk) (x : Ch) (s : State) : State :=
  let r := s.regs b x
  (s.setRegs b x { r with teif := true, ccr := { r.ccr with en := false } }).setEngine b x
    { s.engine b x with stopping := false }

/-- `PeriphRead(a, n)`: the environment draws the value, the access is recorded (R166, R358). -/
def periphRead (b : Blk) (x : Ch) (a : Word) (n : Nat) (s : State) : Word × State :=
  let (v, s1) := s.drawValue
  (lowBytes n v, { s1 with periphLog := s1.periphLog ++ [⟨b, x, false, a, n, lowBytes n v⟩] })

/-- `PeriphWrite(a, n, v)`: recorded for the environment (R166, R355). -/
def periphWrite (b : Blk) (x : Ch) (a : Word) (n : Nat) (v : Word) (s : State) : State :=
  { s with periphLog := s.periphLog ++ [⟨b, x, true, a, n, lowBytes n v⟩] }

/-- An engine's memory read: a location whose controller write the engine need not see (R163), or that the program
disturbed in the live buffer of the engine's object (R75, 93_implementation_defined.md row 35), gives a draw. -/
def engineLoad (b : Blk) (x : Ch) (a : Word) (n : Nat) (s : State) : Word × State :=
  if touches a n (s.engine b x).unseen || touches a n (s.holder b x).disturbed then
    let (v, s1) := s.drawValue
    (lowBytes n v, s1)
  else (memRead s.mem a n, s)

/-- `move_element(n)`: peripheral to memory with DIR = 0 (R354), memory to peripheral with DIR = 1 (R355). -/
def moveElement (b : Blk) (x : Ch) (n : Nat) (s : State) : State :=
  let e := s.engine b x
  if (s.regs b x).ccr.dir then
    let (v, s1) := engineLoad b x e.curMa n s
    periphWrite b x e.curPa n v s1
  else
    let (v, s1) := periphRead b x e.curPa n s
    { s1 with mem := memWrite s1.mem e.curMa n v }

/-- The registers of a channel after an element: the count (R359), HTIF (R360), TCIF (R361), the circular reload of the
count (R362), and EN cleared when the element completes a stop (R365). -/
def elementRegs (odd : HtOdd) (e : Engine) (r : ChanRegs) : ChanRegs :=
  let ndt := r.ndt - 1#16
  let last := decide (ndt = 0#16)
  { r with
    ndt := if last && r.ccr.circ then e.ndtReload else ndt
    htif := r.htif || decide (ndt.toNat = halfPoint odd e.ndtReload.toNat)
    tcif := r.tcif || last
    ccr := { r.ccr with en := r.ccr.en && !e.stopping } }

/-- The engine after an element: the address advance (R357), the circular reload of the addresses (R362), the stop
completed (R365). -/
def elementEngine (r : ChanRegs) (e : Engine) : Engine :=
  let n := BitVec.ofNat 32 r.ccr.elemBytes
  if decide (r.ndt - 1#16 = 0#16) && r.ccr.circ then { e with curPa := r.cpar, curMa := r.cmar, stopping := false }
  else
    { e with
      curPa := if r.ccr.pinc then e.curPa + n else e.curPa
      curMa := if r.ccr.minc then e.curMa + n else e.curMa
      stopping := false }

/-- The element step (R353). -/
def elementStep (b : Blk) (x : Ch) (s : State) : State :=
  let r := s.regs b x
  let e := s.engine b x
  if accessOk b x r.ccr.elemBytes s then
    ((moveElement b x r.ccr.elemBytes s).setRegs b x (elementRegs s.htOdd e r)).setEngine b x (elementEngine r e)
  else transferError b x s

/-- When the stop-completion step is enabled (R364). -/
def stopEnabled (b : Blk) (x : Ch) (s : State) : Bool := s.clk b && (s.engine b x).stopping

/-- The stop-completion step (R364). -/
def stopStep (b : Blk) (x : Ch) (s : State) : State :=
  let r := s.regs b x
  (s.setRegs b x { r with ccr := { r.ccr with en := false } }).setEngine b x { s.engine b x with stopping := false }

/-- A turn of the element step: nothing happens where it is not enabled (R350, R366). -/
def elementTurn (b : Blk) (x : Ch) (lines : List Nat) (s : State) : State :=
  if elementEnabled b x lines s then elementStep b x s else s

/-- A turn of the stop-completion step: nothing happens where it is not enabled. -/
def stopTurn (b : Blk) (x : Ch) (s : State) : State :=
  if stopEnabled b x s then stopStep b x s else s

end Sys2Proof.Machine
end

