-- ==== Sys2Proof/Machine/Controller.lean ====
section
/-! DEFINITION. One turn of each agent: the controller (fetching its next instruction from the program, R200, R215,
R726), the controller program's own memory accesses, and the engines. -/
namespace Sys2Proof.Machine
open Sys2Proof

/-- The next instruction of the program is taken and run; a head word that does not decode is refused (R209), and with
no word left the run has ended and nothing happens (R726). -/
def fetchAndRun (s : State) : Out :=
  match s.prog with
  | [] => .next s
  | _ :: _ =>
    match decode s.prog with
    | .ok (i, rest) => exec i { s with prog := rest }
    | .error _ => refuseOp s .illegalEncoding

/-- A turn of the controller: the next micro-step of the operation in progress, or the next instruction (R52). -/
def controllerTurn (s : State) : Out :=
  live s <|
    match s.seq with
    | .busy op _ => exec op s
    | .idle => fetchAndRun s

/-- A memory access of the controller's program, which stands between two instructions: while an operation is in
progress it is no step. -/
def accessTurn (access : State → Except State State) (s : State) : Out :=
  live s <|
    match s.seq with
    | .idle => onDone (access s) .next
    | .busy _ _ => .next s

/-- The step of the agent that has the turn (R160). -/
def takeTurn (t : Turn) (s : State) : Out :=
  match t with
  | .controller => controllerTurn s
  | .element b x lines => .next (elementTurn b x lines s)
  | .stopDone b x => .next (stopTurn b x s)
  | .load a size => accessTurn (fun u => ctlLoad u.disturbed a size u) s
  | .store a size v => accessTurn (ctlStore a size v) s

end Sys2Proof.Machine
end

