-- ==== Sys2Proof/Machine/Step.lean ====
section
/-! DEFINITION. One step of the machine: the environment says whose turn it is, and that agent takes one atomic step
(R160, R350). -/
namespace Sys2Proof.Machine
open Sys2Proof

/-- One atomic step of one agent. -/
def step (s : State) : Host.Outcome State Fault Refusal := takeTurn s.drawTurn.1 s.drawTurn.2

/-- The state with an opcode-table word (its operand words above `nbits` zero) as the next instruction of the program,
the sequencer Idle, no mark, and the controller's turn next: the load of a program from outside (log entry 4). -/
def State.withFetchWord (s : State) (nbits w : Nat) : State :=
  { s with
    prog := tableWords nbits w ++ s.prog.drop 4
    seq := .idle
    fault := none
    refused := none
    env := { s.env with turns := .controller :: s.env.turns } }

end Sys2Proof.Machine
end

