-- ==== Sys2Proof/Safety.lean ====
section
/-! DEFINITION. The terms the claims are written in: a state ready for an instruction, an operation run with no other
agent's step between its micro-steps, what an instruction may change, and the invariants. -/
namespace Sys2Proof.Machine
open Sys2Proof

/-- No mark is set: the run is a safe one so far (R76, R726). -/
abbrev State.unmarked (s : State) : Prop := s.fault = none ∧ s.refused = none

/-- No mark is set and the sequencer is Idle: the controller may start an instruction (R52, R250, R400). -/
abbrev State.ready (s : State) : Prop := s.fault = none ∧ s.refused = none ∧ s.seq = .idle

/-- An instruction may start, block b's clock is on, and channel (b, x) is held by o (R52, R250, R400, R459, R500). -/
abbrev State.canUse (s : State) (b : Blk) (x : Ch) (o : Owner) : Prop := s.ready ∧ s.clk b = true ∧ s.holder b x = o

/-- k micro-steps of an operation in a row, no other agent stepping between them (one of the interleavings of R160). -/
def runAlone : Nat → Instr → State → Out
  | 0, _, s => .next s
  | k + 1, op, s =>
    match exec op s with
    | .next s1 => runAlone k op s1
    | .fault f => .fault f
    | .refused r => .refused r

/-! ## What an instruction may change -/

/-- The part of the block registers, engines and owners that an instruction is about. -/
inductive Target where
  | nothing
  | channel (b : Blk) (x : Ch)
  | block (b : Blk)
  deriving DecidableEq, Repr

/-- The target of an instruction: none for the register reads, WR ISR and FENCE; the block for WR IFCR, WR
CSELR, SELECT_REQUEST (which writes CSELR) and SPLIT; the channel otherwise. -/
def Instr.target : Instr → Target
  | .rdIsr _ | .rdIfcr _ | .rdCcr1 _ | .rdCndtr1 _ | .rdCpar1 _ | .rdCmar1 _ | .rdCcr2 _ | .rdCndtr2 _ |
    .rdCpar2 _ | .rdCmar2 _ | .rdCcr3 _ | .rdCndtr3 _ | .rdCpar3 _ | .rdCmar3 _ | .rdCcr4 _ | .rdCndtr4 _ |
    .rdCpar4 _ | .rdCmar4 _ | .rdCcr5 _ | .rdCndtr5 _ | .rdCpar5 _ | .rdCmar5 _ | .rdCcr6 _ | .rdCndtr6 _ |
    .rdCpar6 _ | .rdCmar6 _ | .rdCcr7 _ | .rdCndtr7 _ | .rdCpar7 _ | .rdCmar7 _ | .rdCselr _ | .wrIsr _ _ |
    .fence => .nothing
  | .wrCcr1 b _ => .channel b .c1
  | .wrCndtr1 b _ => .channel b .c1
  | .wrCpar1 b _ => .channel b .c1
  | .wrCmar1 b _ => .channel b .c1
  | .wrCcr2 b _ => .channel b .c2
  | .wrCndtr2 b _ => .channel b .c2
  | .wrCpar2 b _ => .channel b .c2
  | .wrCmar2 b _ => .channel b .c2
  | .wrCcr3 b _ => .channel b .c3
  | .wrCndtr3 b _ => .channel b .c3
  | .wrCpar3 b _ => .channel b .c3
  | .wrCmar3 b _ => .channel b .c3
  | .wrCcr4 b _ => .channel b .c4
  | .wrCndtr4 b _ => .channel b .c4
  | .wrCpar4 b _ => .channel b .c4
  | .wrCmar4 b _ => .channel b .c4
  | .wrCcr5 b _ => .channel b .c5
  | .wrCndtr5 b _ => .channel b .c5
  | .wrCpar5 b _ => .channel b .c5
  | .wrCmar5 b _ => .channel b .c5
  | .wrCcr6 b _ => .channel b .c6
  | .wrCndtr6 b _ => .channel b .c6
  | .wrCpar6 b _ => .channel b .c6
  | .wrCmar6 b _ => .channel b .c6
  | .wrCcr7 b _ => .channel b .c7
  | .wrCndtr7 b _ => .channel b .c7
  | .wrCpar7 b _ => .channel b .c7
  | .wrCmar7 b _ => .channel b .c7
  | .wrIfcr b _ | .wrCselr b _ | .split b | .selectRequest b _ _ => .block b
  | .listen b x _ | .unlisten b x _ | .status b x | .clearFlags b x | .clearFlag b x _ | .remaining b x |
    .setPaddr b x _ | .setMaddr b x _ | .setCount b x _ | .configure b x _ | .start b x | .stop b x |
    .getPaddr b x | .getMaddr b x | .circRead b x _ _ _ _ _ | .readableHalf b x | .peek b x | .partialPeek b x |
    .answerIsr b x | .readExact b x _ _ _ _ _ _ | .writeAll b x _ _ _ _ _ _ | .isDone b x | .wait b x |
    .terminate b x | .xpeek b x | .restart b x => .channel b x

/-- The channel operand of a CMD operation (R203, R204); none for the BUS instructions, SPLIT and FENCE. -/
def Instr.channel : Instr → Option (Blk × Ch)
  | .rdIsr _ | .rdIfcr _ | .rdCcr1 _ | .rdCndtr1 _ | .rdCpar1 _ | .rdCmar1 _ | .rdCcr2 _ | .rdCndtr2 _ |
    .rdCpar2 _ | .rdCmar2 _ | .rdCcr3 _ | .rdCndtr3 _ | .rdCpar3 _ | .rdCmar3 _ | .rdCcr4 _ | .rdCndtr4 _ |
    .rdCpar4 _ | .rdCmar4 _ | .rdCcr5 _ | .rdCndtr5 _ | .rdCpar5 _ | .rdCmar5 _ | .rdCcr6 _ | .rdCndtr6 _ |
    .rdCpar6 _ | .rdCmar6 _ | .rdCcr7 _ | .rdCndtr7 _ | .rdCpar7 _ | .rdCmar7 _ | .rdCselr _ | .wrIsr _ _ |
    .wrIfcr _ _ | .wrCcr1 _ _ | .wrCndtr1 _ _ | .wrCpar1 _ _ | .wrCmar1 _ _ | .wrCcr2 _ _ | .wrCndtr2 _ _ |
    .wrCpar2 _ _ | .wrCmar2 _ _ | .wrCcr3 _ _ | .wrCndtr3 _ _ | .wrCpar3 _ _ | .wrCmar3 _ _ | .wrCcr4 _ _ |
    .wrCndtr4 _ _ | .wrCpar4 _ _ | .wrCmar4 _ _ | .wrCcr5 _ _ | .wrCndtr5 _ _ | .wrCpar5 _ _ | .wrCmar5 _ _ |
    .wrCcr6 _ _ | .wrCndtr6 _ _ | .wrCpar6 _ _ | .wrCmar6 _ _ | .wrCcr7 _ _ | .wrCndtr7 _ _ | .wrCpar7 _ _ |
    .wrCmar7 _ _ | .wrCselr _ _ | .split _ | .fence => none
  | .listen b x _ | .unlisten b x _ | .status b x | .clearFlags b x | .clearFlag b x _ | .remaining b x |
    .selectRequest b x _ | .setPaddr b x _ | .setMaddr b x _ | .setCount b x _ | .configure b x _ | .start b x |
    .stop b x | .getPaddr b x | .getMaddr b x | .circRead b x _ _ _ _ _ | .readableHalf b x | .peek b x |
    .partialPeek b x | .answerIsr b x | .readExact b x _ _ _ _ _ _ | .writeAll b x _ _ _ _ _ _ | .isDone b x |
    .wait b x | .terminate b x | .xpeek b x | .restart b x => some (b, x)

/-- Channel x of block b lies in a target. -/
def Target.covers (t : Target) (b : Blk) (x : Ch) : Bool :=
  match t with
  | .nothing => false
  | .channel b' x' => decide (b' = b ∧ x' = x)
  | .block b' => decide (b' = b)

/-- The owner an instruction needs of its channel (R400, R451, R459, R500, R501): none for the BUS instructions
(decision D43), SPLIT and FENCE. -/
inductive Needs where
  | noOwner | handle | circ | xfer
  deriving DecidableEq, Repr

/-- The owner kind an instruction needs. -/
def Instr.needs : Instr → Needs
  | .rdIsr _ | .rdIfcr _ | .rdCcr1 _ | .rdCndtr1 _ | .rdCpar1 _ | .rdCmar1 _ | .rdCcr2 _ | .rdCndtr2 _ |
    .rdCpar2 _ | .rdCmar2 _ | .rdCcr3 _ | .rdCndtr3 _ | .rdCpar3 _ | .rdCmar3 _ | .rdCcr4 _ | .rdCndtr4 _ |
    .rdCpar4 _ | .rdCmar4 _ | .rdCcr5 _ | .rdCndtr5 _ | .rdCpar5 _ | .rdCmar5 _ | .rdCcr6 _ | .rdCndtr6 _ |
    .rdCpar6 _ | .rdCmar6 _ | .rdCcr7 _ | .rdCndtr7 _ | .rdCpar7 _ | .rdCmar7 _ | .rdCselr _ | .wrIsr _ _ |
    .wrIfcr _ _ | .wrCcr1 _ _ | .wrCndtr1 _ _ | .wrCpar1 _ _ | .wrCmar1 _ _ | .wrCcr2 _ _ | .wrCndtr2 _ _ |
    .wrCpar2 _ _ | .wrCmar2 _ _ | .wrCcr3 _ _ | .wrCndtr3 _ _ | .wrCpar3 _ _ | .wrCmar3 _ _ | .wrCcr4 _ _ |
    .wrCndtr4 _ _ | .wrCpar4 _ _ | .wrCmar4 _ _ | .wrCcr5 _ _ | .wrCndtr5 _ _ | .wrCpar5 _ _ | .wrCmar5 _ _ |
    .wrCcr6 _ _ | .wrCndtr6 _ _ | .wrCpar6 _ _ | .wrCmar6 _ _ | .wrCcr7 _ _ | .wrCndtr7 _ _ | .wrCpar7 _ _ |
    .wrCmar7 _ _ | .wrCselr _ _ | .split _ | .fence => .noOwner
  | .listen _ _ _ | .unlisten _ _ _ | .status _ _ | .clearFlags _ _ | .clearFlag _ _ _ | .remaining _ _ |
    .selectRequest _ _ _ | .setPaddr _ _ _ | .setMaddr _ _ _ | .setCount _ _ _ | .configure _ _ _ | .start _ _ |
    .stop _ _ | .getPaddr _ _ | .getMaddr _ _ | .circRead _ _ _ _ _ _ _ | .readExact _ _ _ _ _ _ _ _ |
    .writeAll _ _ _ _ _ _ _ _ => .handle
  | .readableHalf _ _ | .peek _ _ | .partialPeek _ _ | .answerIsr _ _ => .circ
  | .isDone _ _ | .wait _ _ | .terminate _ _ | .xpeek _ _ | .restart _ _ => .xfer

/-- An owner is of the kind needed. -/
def Needs.metBy : Needs → Owner → Bool
  | .noOwner, _ => true
  | .handle, .handle => true
  | .circ, .circ _ => true
  | .xfer, .xfer _ => true
  | .handle, .unsplit | .handle, .circ _ | .handle, .xfer _ => false
  | .circ, .unsplit | .circ, .handle | .circ, .xfer _ => false
  | .xfer, .unsplit | .xfer, .handle | .xfer, .circ _ => false

/-! ## Invariants -/

/-- While an operation is in progress its channel is held by the object the operation works on (R400, R459, R500). -/
def State.holdersKept (s : State) : Prop :=
  ∀ op l b x, s.seq = .busy op l → Instr.channel op = some (b, x) → (Instr.needs op).metBy (s.holder b x) = true

/-- What `enable` demands of a channel (R257): equal sizes, none reserved, no MEM2MEM, both addresses aligned. -/
abbrev ChanRegs.legal (r : ChanRegs) : Prop :=
  r.ccr.psize ≠ 3#2 ∧ r.ccr.psize = r.ccr.msize ∧ r.ccr.mem2mem = false ∧
    r.cpar.toNat % 2 ^ r.ccr.psize.toNat = 0 ∧ r.cmar.toNat % 2 ^ r.ccr.psize.toNat = 0

/-- An enabled channel is legal and its engine's current addresses are aligned (R153, R257); only an enabled channel
is stopping (R66, R258). -/
def State.channelsLegal (s : State) : Prop :=
  ∀ b x,
    ((s.regs b x).ccr.en = true →
      (s.regs b x).legal ∧
      (s.engine b x).curPa.toNat % 2 ^ (s.regs b x).ccr.psize.toNat = 0 ∧
      (s.engine b x).curMa.toNat % 2 ^ (s.regs b x).ccr.psize.toNat = 0) ∧
    ((s.engine b x).stopping = true → (s.regs b x).ccr.en = true)

/-- Every CircBuffer has `consumed_offset <= h` (R73, R461), and what a PARTIAL_PEEK in progress will add keeps it so:
its window ends at or below h (R455). -/
def State.offsetsBounded (s : State) : Prop :=
  (∀ b x cb, s.holder b x = .circ cb → cb.consumedOffset ≤ cb.h) ∧
  (∀ b x w hi cb, s.seq = .busy (.partialPeek b x) (.r2 w hi) → s.holder b x = .circ cb → hi ≤ cb.h) ∧
  (∀ b x w lo hi cb, s.seq = .busy (.partialPeek b x) (.r3 w lo hi) → s.holder b x = .circ cb → hi ≤ cb.h) ∧
  (∀ b x l v cb, s.seq = .busy (.partialPeek b x) (.r4 l v) → s.holder b x = .circ cb →
    cb.consumedOffset + l ≤ cb.h)

/-! ## Runs (R160, R371) -/

/-- An infinite run. -/
def IsRun (r : Nat → State) : Prop := ∀ k, step (r k) = .next (r (k + 1))

/-- Weak fairness of the stop-completion steps (R371): none stays enabled for ever. -/
def StopFair (r : Nat → State) : Prop := ∀ b x k, ∃ j, k ≤ j ∧ stopEnabled b x (r j) = false

end Sys2Proof.Machine
end

