-- ==== Sys2Proof/Certificates/Slice0/Obligations.lean ====
section
/-! DEFINITION. The statements for the provers. Each docstring names the rules of spec/ it formalises, and says where a
clause is the model's choice (a log entry of notes/assumptions). `runAlone k i s` is k micro-steps of instruction i in
a row; a statement that an instruction completes gives the whole state it ends in, so it is its frame as well. -/
open Sys2Proof Sys2Proof.Machine

/-! ## Reset and the step -/

/-- R100, R101: the state after power-on reset. Every register reads 0, every clock gate is off, every engine is idle
with its hidden state 0; no channel has an owner, no block was split, the sequencer is Idle, no mark is set; memory
holds the launch memory, a parameter (the opaque constant `Config.launchByte`). The reset values are the spec's own
general knowledge (R100 marks them so): log entry 23. -/
def Obligations.ResetState : Prop :=
  (∀ b, State.reset.clk b = false ∧ State.reset.splitDone.get b = false ∧ ∀ r, regValue State.reset b r = 0#32) ∧
  (∀ b x, let e := State.reset.engine b x
    e.curPa = 0#32 ∧ e.curMa = 0#32 ∧ e.ndtReload = 0#16 ∧ e.stopping = false) ∧
  (∀ b x, State.reset.holder b x = .unsplit) ∧
  State.reset.seq = .idle ∧ State.reset.fault = none ∧ State.reset.refused = none ∧
  ∀ a, State.reset.mem.byteAt a = Config.launchByte a

/-- R52, R160, R200, R215: on the controller's turn, with no operation in progress and no mark, a step runs the
instruction that the program's next words decode to; around it the step takes the words of the instruction off the
program and consumes the turn, nothing else. (The program as a list of words and the turns are the model's form of
them: log entries 2 and 4.) -/
def Obligations.StepRunsDecodedInstruction : Prop :=
  ∀ (s s' : State) (i : Instr) (rest : List Word),
    s.ready → s.drawTurn = (.controller, s') → decode s.prog = .ok (i, rest) →
    step s = exec i { s' with prog := rest } ∧ s' = { s with env := s'.env }

/-- R52, R76, R160, R209, R350, R726: what a step is on every other turn. The controller's: the next micro-step of the
operation in progress; with no word left, nothing; a head word that does not decode is refused. A load or store of
the controller's program: the access where the sequencer is Idle (what it does is stated in `ControllerAccesses`),
and while an operation is in progress no step of the controller, so nothing changes. In a marked state none of these
three has a step. An engine's turn is its element step or stop-completion step, in a marked state too. (How a step
answers in a marked state, the end of the program, the loads and stores as turns and what they do while an operation
is in progress are the model's choice: log entries 2, 3, 5, 15 and 27.) -/
def Obligations.StepOfEveryOtherTurn : Prop :=
  ∀ s s' : State,
    let ofController (t : Turn) := t = .controller ∨ (∃ a n, t = .load a n) ∨ ∃ a n v, t = .store a n v
    (∀ op l, s.unmarked → s.drawTurn = (.controller, s') → s.seq = .busy op l → step s = exec op s') ∧
    (s.ready → s.drawTurn = (.controller, s') → s.prog = [] → step s = .next s') ∧
    (∀ w ws e, s.ready → s.drawTurn = (.controller, s') → s.prog = w :: ws → decode s.prog = .error e →
      step s = .next (s'.refuse .illegalEncoding)) ∧
    (∀ a n, s.ready → s.drawTurn = (.load a n, s') → step s = onDone (ctlLoad s'.disturbed a n s') .next) ∧
    (∀ a n v, s.ready → s.drawTurn = (.store a n v, s') → step s = onDone (ctlStore a n v s') .next) ∧
    (∀ op l a n, s.unmarked → s.drawTurn = (.load a n, s') → s.seq = .busy op l → step s = .next s') ∧
    (∀ op l a n v, s.unmarked → s.drawTurn = (.store a n v, s') → s.seq = .busy op l → step s = .next s') ∧
    (∀ t m, ofController t → s.fault = some m → s.drawTurn = (t, s') → step s = .fault (.marked m)) ∧
    (∀ t r, ofController t → s.fault = none → s.refused = some r → s.drawTurn = (t, s') →
      step s = .refused (.marked r)) ∧
    (∀ b x lines, s.drawTurn = (.element b x lines, s') → step s = .next (elementTurn b x lines s')) ∧
    (∀ b x, s.drawTurn = (.stopDone b x, s') → step s = .next (stopTurn b x s'))

/-! ## Encoding -/

/-- Words written out from the formats of R201, R203 and the tables of R202, R205, R208 decode to the instructions they
stand for (a sanity check). The register offsets are the spec's own general knowledge (R202): log entry 23. -/
def Obligations.DecodesSpecWords : Prop :=
  decode [0x00000130#32, 0x000000A1#32] = .ok (.wrCcr3 .dma1 0x000000A1#32, []) ∧
  decode [0x000000A8#32] = .ok (.rdCselr .dma1, []) ∧
  decode [0x00000384#32, 20#32] = .ok (.wrCndtr7 .dma2 20#32, []) ∧
  decode [0x40100000#32] = .ok (.split .dma2, []) ∧
  decode [0x41A10000#32] = .ok (.listen .dma1 .c5 .ht, []) ∧
  decode [0x45730000#32] = .ok (.clearFlag .dma2 .c3 .gif, []) ∧
  decode [0x4BA0000A#32] = .ok (.configure .dma1 .c5 0x00A#16, []) ∧
  decode [0x50A9000A#32, 0x20000000#32, 0x40013824#32] =
    .ok (.circRead .dma1 .c5 1#2 2#2 10#16 0x20000000#32 0x40013824#32, []) ∧
  decode [0x61820003#32, 0x20000200#32, 0x40013828#32, 2#32] =
    .ok (.writeAll .dma1 .c4 2#2 0#2 3#16 0x20000200#32 0x40013828#32 2#32, []) ∧
  decode [0x66F00000#32] = .ok (.restart .dma2 .c7, []) ∧
  decode [0x7F000000#32] = .ok (.fence, [])

/-- R200 to R208, R211: decoding the words of any well-formed instruction, whatever follows them, gives the instruction
back and leaves what follows. -/
def Obligations.DecodeOfEncode : Prop :=
  ∀ (i : Instr) (rest : List Word), i.wellFormed = true → decode (encode i ++ rest) = .ok (i, rest)

/-- R209, R210: words that decode are exactly the encoding of the instruction they decode to, which is well formed: no
reserved word and no second encoding is read as an instruction. -/
def Obligations.EncodeOfDecode : Prop :=
  ∀ (ws : List Word) (i : Instr) (rest : List Word),
    decode ws = .ok (i, rest) → ws = encode i ++ rest ∧ i.wellFormed = true

/-- R209: every head word that one of the rule's conditions names is refused: it does not decode, and the controller's
turn on it sets the mark IllegalEncoding and does nothing else. (`blk + 1 > NBLK` has no instance: blk is one bit
and NBLK is 2.) The reserved offsets are the spec's own general knowledge (R202): log entry 23. -/
def Obligations.ReservedWordsRefused : Prop :=
  ∀ (w : Word) (rest : List Word),
    let cls := (w.extractLsb' 30 2).toNat
    let off := (w.extractLsb' 0 8).toNat
    let op := (w.extractLsb' 24 6).toNat
    let ch := (w.extractLsb' 21 3).toNat
    let sel := (w.extractLsb' 16 4).toNat
    let imm := (w.extractLsb' 0 16).toNat
    (cls = 2 ∨ cls = 3 ∨
      (cls = 0 ∧
        (w.extractLsb' 10 20 ≠ 0#20 ∨ off % 4 ≠ 0 ∨
          off ∈ [0x18, 0x2C, 0x40, 0x54, 0x68, 0x7C, 0x90] ∨ (0x94 ≤ off ∧ off ≤ 0xA4) ∨ 0xAC ≤ off ∨
          (w.getLsbD 8 = true ∧ rest = []))) ∨
      (cls = 1 ∧
        ((0x15 ≤ op ∧ op ≤ 0x1F) ∨ (0x27 ≤ op ∧ op ≤ 0x3E) ∨
          (op ≠ 0x00 ∧ op ≠ 0x3F ∧ ch = 0) ∨ ((op = 0x00 ∨ op = 0x3F) ∧ ch ≠ 0) ∨
          (op = 0x3F ∧ w.getLsbD 20 = true) ∨
          ((op = 0x01 ∨ op = 0x02) ∧ 3 ≤ sel) ∨ (op = 0x05 ∧ 4 ≤ sel) ∨
          ((op = 0x10 ∨ op = 0x20 ∨ op = 0x21) ∧ sel % 4 = 3) ∨
          (op ∉ [0x01, 0x02, 0x05, 0x10, 0x20, 0x21] ∧ sel ≠ 0) ∨
          (op = 0x07 ∧ 16 ≤ imm) ∨ (op = 0x0B ∧ 2048 ≤ imm) ∨
          (op ∉ [0x07, 0x0A, 0x0B, 0x10, 0x20, 0x21] ∧ imm ≠ 0) ∨
          ((op = 0x08 ∨ op = 0x09) ∧ rest = []) ∨ (op = 0x10 ∧ rest.length < 2) ∨
          ((op = 0x20 ∨ op = 0x21) ∧ rest.length < 3)))) →
    (∃ e, decode (w :: rest) = .error e) ∧
    ∀ s s' : State, s.ready → s.prog = w :: rest → s.drawTurn = (.controller, s') →
      step s = .next (s'.refuse .illegalEncoding)

/-! ## BUS instructions -/

/-- R251, R54, R63: `RD ISR` (rdIsr) completes and returns, for every channel at once, TCIF, HTIF, TEIF and their OR as
GIF in the channel's group, bits 31:28 zero; it is noted as a flag observation (R162). Nothing else changes. The
layout of ISR is the spec's own general knowledge (R54): log entry 23. -/
def Obligations.ReadIsr : Prop :=
  ∀ (b : Blk) (s : State), s.ready → s.clk b = true →
    ∃ v : Word, exec (.rdIsr b) s = .next { s with unfencedRead := true, result := some (.word v) } ∧
      (∀ x, let r := s.regs b x
        let g := 4 * (x.num - 1)
        v.getLsbD g = (r.tcif || r.htif || r.teif) ∧ v.getLsbD (g + 1) = r.tcif ∧
        v.getLsbD (g + 2) = r.htif ∧ v.getLsbD (g + 3) = r.teif) ∧
      v.extractLsb' 28 4 = 0#4

/-- R253, R255, R259, R261, R263, R265, R269: the other BUS reads complete with the register's value and change nothing
else (a CNDTR read is noted as a count observation, R162): rdIfcr 0; rdCcr1 to rdCcr7 the fields of R56 with bits
31:15 zero; rdCndtr1 to rdCndtr7 NDT with bits 31:16 zero; rdCpar1 to rdCpar7 and rdCmar1 to rdCmar7 the programmed
base; rdCselr the request codes with bits 31:28 zero. (`readInstr b r` is the BUS read of register r.) The layouts
of CCR and CSELR are the spec's own general knowledge (R56, R61): log entry 23. -/
def Obligations.ReadRegisters : Prop :=
  ∀ (b : Blk) (s : State), s.ready → s.clk b = true →
    exec (.rdIfcr b) s = .next { s with result := some (.word 0#32) } ∧
    (∀ x, ∃ v : Word, exec (readInstr b (.ccr x)) s = .next { s with result := some (.word v) } ∧
      v.getLsbD 0 = (s.regs b x).ccr.en ∧ v.extractLsb' 1 3 = (s.regs b x).ccr.ie ∧
      v.extractLsb' 4 11 = (s.regs b x).ccr.cfg ∧ v.extractLsb' 15 17 = 0#17) ∧
    (∀ x, exec (readInstr b (.cndtr x)) s =
      .next { s with unfencedRead := true, result := some (.word ((s.regs b x).ndt.setWidth 32)) }) ∧
    (∀ x, exec (readInstr b (.cpar x)) s = .next { s with result := some (.word (s.regs b x).cpar) }) ∧
    (∀ x, exec (readInstr b (.cmar x)) s = .next { s with result := some (.word (s.regs b x).cmar) }) ∧
    ∃ v : Word, exec (.rdCselr b) s = .next { s with result := some (.word v) } ∧
      (∀ x, v.extractLsb' (4 * (x.num - 1)) 4 = (s.regs b x).cxs) ∧ v.extractLsb' 28 4 = 0#4

/-- R252, R254: `WR ISR` (wrIsr) completes without an effect; `WR IFCR` (wrIfcr) completes and clears, in every channel
of the block, exactly the flags whose bits are 1 (bit g clears all three); every other register and all other state
is unchanged. -/
def Obligations.WriteIsrAndIfcr : Prop :=
  ∀ (b : Blk) (v : Word) (s : State), s.ready → s.clk b = true →
    exec (.wrIsr b v) s = .next { s with result := some .nothing } ∧
    ∃ t, exec (.wrIfcr b v) s = .next t ∧ t = { s with chan := t.chan, result := some .nothing } ∧
      (∀ x, let r := s.regs b x
        let g := 4 * (x.num - 1)
        t.regs b x =
          { r with
            tcif := r.tcif && !v.getLsbD g && !v.getLsbD (g + 1)
            htif := r.htif && !v.getLsbD g && !v.getLsbD (g + 2)
            teif := r.teif && !v.getLsbD g && !v.getLsbD (g + 3) }) ∧
      ∀ c x, c ≠ b → t.regs c x = s.regs c x

/-- R256, R269: `WR CCRx` (wrCcr1 to wrCcr7) without an enable or disable edge completes: the interrupt enables are
written at any time, bits 14:4 only while EN = 0, bits 31:15 never; a write of EN = 0 during a stop changes only the
interrupt enables; a write of EN = 1 during a stop is refused and changes nothing. -/
def Obligations.WriteCcrWithoutEdge : Prop :=
  ∀ (b : Blk) (x : Ch) (v : Word) (s : State), s.ready → s.clk b = true →
    let r := s.regs b x
    let i := writeInstr b v (.ccr x)
    (r.ccr.en = false → v.getLsbD 0 = false →
      exec i s =
        .next ((s.setRegs b x { r with ccr := ⟨false, v.extractLsb' 1 3, v.extractLsb' 4 11⟩ }).ret .nothing)) ∧
    (r.ccr.en = true → ((s.engine b x).stopping = false ↔ v.getLsbD 0 = true) →
      exec i s = .next ((s.setRegs b x { r with ccr := { r.ccr with ie := v.extractLsb' 1 3 } }).ret .nothing)) ∧
    (r.ccr.en = true → (s.engine b x).stopping = true → v.getLsbD 0 = true →
      exec i s = .next (s.refuse .enableWhileStopping))

/-- R256, R257: `WR CCRx` (wrCcr1 to wrCcr7) of EN = 1 to a disabled channel. With equal legal sizes, MEM2MEM = 0 and
both addresses aligned it completes: EN is 1, the engine's current addresses and reload count are loaded, nothing is
stopping, no flag changes. Otherwise the first failing check of the rule's order refuses, the fields being written
already (the pseudocode's order, log entry 16). (`unseen`: log entry 14.) -/
def Obligations.WriteCcrEnables : Prop :=
  ∀ (b : Blk) (x : Ch) (v : Word) (s : State), s.ready → s.clk b = true →
    (s.regs b x).ccr.en = false → v.getLsbD 0 = true →
    let r := s.regs b x
    let i := writeInstr b v (.ccr x)
    let psize := v.extractLsb' 8 2
    let msize := v.extractLsb' 10 2
    let n := 2 ^ psize.toNat
    let isAligned := r.cpar.toNat % n = 0 ∧ r.cmar.toNat % n = 0
    let fields (en : Bool) := s.setRegs b x { r with ccr := ⟨en, v.extractLsb' 1 3, v.extractLsb' 4 11⟩ }
    (psize = 3#2 ∨ msize = 3#2 → exec i s = .next ((fields false).refuse .reservedSize)) ∧
    (psize ≠ 3#2 → msize ≠ 3#2 → psize ≠ msize → exec i s = .next ((fields false).refuse .sizeMismatch)) ∧
    (psize ≠ 3#2 → psize = msize → v.getLsbD 14 = true → exec i s = .next ((fields false).refuse .mem2mem)) ∧
    (psize ≠ 3#2 → psize = msize → v.getLsbD 14 = false → ¬isAligned →
      exec i s = .next ((fields false).refuse .misaligned)) ∧
    (psize ≠ 3#2 → psize = msize → v.getLsbD 14 = false → isAligned →
      exec i s = .next
        (((fields true).setEngine b x
          { curPa := r.cpar, curMa := r.cmar, ndtReload := r.ndt, stopping := false, unseen := s.unfencedWrites }).ret
          .nothing))

/-- R256, R258: `WR CCRx` (wrCcr1 to wrCcr7) of EN = 0 to a running channel completes: with NDT = 0 EN is 0 at once;
with NDT nonzero EN still reads 1 and the engine is stopping. Bits 14:4 keep their values, no flag changes. -/
def Obligations.WriteCcrDisables : Prop :=
  ∀ (b : Blk) (x : Ch) (v : Word) (s : State), s.ready → s.clk b = true →
    (s.regs b x).ccr.en = true → (s.engine b x).stopping = false → v.getLsbD 0 = false →
    let r := s.regs b x
    let i := writeInstr b v (.ccr x)
    (r.ndt = 0#16 →
      exec i s = .next ((s.setRegs b x { r with ccr := ⟨false, v.extractLsb' 1 3, r.ccr.cfg⟩ }).ret .nothing)) ∧
    (r.ndt ≠ 0#16 →
      exec i s = .next
        (((s.setRegs b x { r with ccr := ⟨true, v.extractLsb' 1 3, r.ccr.cfg⟩ }).setEngine b x
          { s.engine b x with stopping := true }).ret .nothing))

/-- R260, R262, R264, R266, R269: the remaining BUS writes. `WR CNDTRx` (wrCndtr1 to wrCndtr7) completes: it stores bits
15:0 while EN = 0 and has no effect while EN = 1. `WR CPARx`, `WR CMARx` (wrCpar1 to wrCpar7, wrCmar1 to wrCmar7)
store the value while EN = 0 and are refused, changing nothing, while EN = 1. `WR CSELR` (wrCselr) replaces every
channel's request code and nothing else. -/
def Obligations.WriteOtherRegisters : Prop :=
  ∀ (b : Blk) (v : Word) (s : State), s.ready → s.clk b = true →
    (∀ x, let r := s.regs b x
      (r.ccr.en = false →
        exec (writeInstr b v (.cndtr x)) s = .next ((s.setRegs b x { r with ndt := v.extractLsb' 0 16 }).ret .nothing) ∧
        exec (writeInstr b v (.cpar x)) s = .next ((s.setRegs b x { r with cpar := v }).ret .nothing) ∧
        exec (writeInstr b v (.cmar x)) s = .next ((s.setRegs b x { r with cmar := v }).ret .nothing)) ∧
      (r.ccr.en = true →
        exec (writeInstr b v (.cndtr x)) s = .next { s with result := some .nothing } ∧
        exec (writeInstr b v (.cpar x)) s = .next (s.refuse .addrWriteWhileEnabled) ∧
        exec (writeInstr b v (.cmar x)) s = .next (s.refuse .addrWriteWhileEnabled))) ∧
    ∃ t, exec (.wrCselr b v) s = .next t ∧ t = { s with chan := t.chan, result := some .nothing } ∧
      (∀ x, t.regs b x = { s.regs b x with cxs := v.extractLsb' (4 * (x.num - 1)) 4 }) ∧
      ∀ c x, c ≠ b → t.regs c x = s.regs c x

/-! ## Starting an operation -/

/-- R400, R451, R459, R500, R501, R606, R610: a well-formed CMD operation on a channel that the needed object does not
hold is refused as NotOwner; the refusal's mark is all that changes. That `exec` of an ill-formed instruction, which
no word decodes to, is refused as IllegalEncoding is the model's choice (log entry 22), and so is that this check
comes before the ownership (log entry 28). -/
def Obligations.NotOwnerRefused : Prop :=
  ∀ (i : Instr) (s : State), s.ready →
    (i.wellFormed = false → exec i s = .next (s.refuse .illegalEncoding)) ∧
    (∀ b x, i.wellFormed = true → Instr.channel i = some (b, x) → (Instr.needs i).metBy (s.holder b x) = false →
      exec i s = .next (s.refuse .notOwner))

/-! ## Channel operations -/

/-- R401, R402: `LISTEN` and `UNLISTEN` (listen, unlisten) complete in two micro-steps: the event's interrupt-enable bit
is set or cleared, nothing else of the channel changes (no other bit of CCR, no flag, no engine state). -/
def Obligations.ListenAndUnlisten : Prop :=
  ∀ (b : Blk) (x : Ch) (ev : Event) (s : State), s.canUse b x .handle →
    ((s.regs b x).ccr.en = true → (s.engine b x).stopping = false) →
    let r := s.regs b x
    let mask := match ev with | .tc => 1#3 | .ht => 2#3 | .te => 4#3
    (∃ s₁, exec (.listen b x ev) s = .next s₁ ∧
      exec (.listen b x ev) s₁ =
        .next ((s.setRegs b x { r with ccr := { r.ccr with ie := r.ccr.ie ||| mask } }).ret .unit)) ∧
    (∃ s₁, exec (.unlisten b x ev) s = .next s₁ ∧
      exec (.unlisten b x ev) s₁ =
        .next ((s.setRegs b x { r with ccr := { r.ccr with ie := r.ccr.ie &&& ~~~mask } }).ret .unit))

/-- R403, R406, R416, R417: the reading Channel operations complete in one micro-step and change nothing but the result:
`STATUS` (status) the four flags at one instant, `REMAINING` (remaining) NDT, `GET_PADDR` and `GET_MADDR` (getPaddr,
getMaddr) the programmed base addresses. R503: so does `IS_DONE` (isDone), which returns TCIF. (The first two and
the last are flag or count observations, R162.) -/
def Obligations.ReadingOperations : Prop :=
  ∀ (b : Blk) (x : Ch) (s : State),
    (s.canUse b x .handle → let r := s.regs b x
      exec (.status b x) s =
        .next { s with
          unfencedRead := true
          result := some (.flags r.htif r.tcif r.teif (r.tcif || r.htif || r.teif)) } ∧
      exec (.remaining b x) s = .next { s with unfencedRead := true, result := some (.count r.ndt) } ∧
      exec (.getPaddr b x) s = .next { s with result := some (.address r.cpar) } ∧
      exec (.getMaddr b x) s = .next { s with result := some (.address r.cmar) }) ∧
    (∀ t, s.canUse b x (.xfer t) →
      exec (.isDone b x) s = .next { s with unfencedRead := true, result := some (.done (s.regs b x).tcif) })

/-- R404, R405, R457, R254: the flag-clearing operations complete in one micro-step and change, beside the result, only
flags of their own channel: `CLEAR_FLAGS` (clearFlags) and `ANSWER_ISR` (answerIsr) clear all, `CLEAR_FLAG`
(clearFlag) the one named, GIF naming all. -/
def Obligations.ClearingOperations : Prop :=
  ∀ (b : Blk) (x : Ch) (s : State),
    let r := s.regs b x
    let clear := s.setRegs b x { r with tcif := false, htif := false, teif := false }
    (s.canUse b x .handle →
      exec (.clearFlags b x) s = .next (clear.ret .unit) ∧
      exec (.clearFlag b x .tc) s = .next ((s.setRegs b x { r with tcif := false }).ret .unit) ∧
      exec (.clearFlag b x .ht) s = .next ((s.setRegs b x { r with htif := false }).ret .unit) ∧
      exec (.clearFlag b x .te) s = .next ((s.setRegs b x { r with teif := false }).ret .unit) ∧
      exec (.clearFlag b x .gif) s = .next (clear.ret .unit)) ∧
    (∀ cb, s.canUse b x (.circ cb) → exec (.answerIsr b x) s = .next (clear.ret .unit))

/-- R407: `SELECT_REQUEST` (selectRequest) completes in two micro-steps with the channel's request code replaced and
every other channel's code written back unchanged. -/
def Obligations.SelectRequest : Prop :=
  ∀ (b : Blk) (x : Ch) (imm : BitVec 16) (s : State), s.canUse b x .handle → imm.toNat < 16 →
    ∃ s₁, exec (.selectRequest b x imm) s = .next s₁ ∧
      exec (.selectRequest b x imm) s₁ =
        .next ((s.setRegs b x { s.regs b x with cxs := imm.extractLsb' 0 4 }).ret .unit)

/-- R408, R409, R410: `SET_PADDR`, `SET_MADDR` and `SET_COUNT` (setPaddr, setMaddr, setCount) complete on a disabled
channel with the register set; on an enabled one SET_COUNT still returns and changes nothing, the other two are
refused. -/
def Obligations.SettingOperations : Prop :=
  ∀ (b : Blk) (x : Ch) (a : Word) (n : BitVec 16) (s : State), s.canUse b x .handle →
    let r := s.regs b x
    (r.ccr.en = false →
      exec (.setPaddr b x a) s = .next ((s.setRegs b x { r with cpar := a }).ret .unit) ∧
      exec (.setMaddr b x a) s = .next ((s.setRegs b x { r with cmar := a }).ret .unit) ∧
      exec (.setCount b x n) s = .next ((s.setRegs b x { r with ndt := n }).ret .unit)) ∧
    (r.ccr.en = true →
      exec (.setPaddr b x a) s = .next (s.refuse .addrWriteWhileEnabled) ∧
      exec (.setMaddr b x a) s = .next (s.refuse .addrWriteWhileEnabled) ∧
      exec (.setCount b x n) s = .next { s with result := some .unit })

/-- R411, R256: `CONFIGURE` (configure) completes in two micro-steps: on a disabled channel CCR bits 14:4 become
imm[10:0], on an enabled one (not stopping) nothing changes; EN, the interrupt enables and the flags keep their
values. -/
def Obligations.Configure : Prop :=
  ∀ (b : Blk) (x : Ch) (imm : BitVec 16) (s : State), s.canUse b x .handle → imm.toNat < 2048 →
    ((s.regs b x).ccr.en = true → (s.engine b x).stopping = false) →
    let r := s.regs b x
    ∃ s₁, exec (.configure b x imm) s = .next s₁ ∧
      exec (.configure b x imm) s₁ =
        .next ((s.setRegs b x
          { r with ccr := { r.ccr with cfg := if r.ccr.en then r.ccr.cfg else imm.extractLsb' 0 11 } }).ret .unit)

/-- R412, R257: `START` (start) completes in five micro-steps: a legal disabled channel is enabled, its engine loaded
from CPAR, CMAR and NDT, with nothing of the controller's writes unseen (the fence of E2, R163); an enabled channel
is left as it is. A disabled channel whose configuration is not legal is refused at the third micro-step and stays
disabled; a channel with a stop in progress is refused there as EnableWhileStopping, with nothing changed but the
fence of E2 done. -/
def Obligations.Start : Prop :=
  ∀ (b : Blk) (x : Ch) (s : State), s.canUse b x .handle →
    let i : Instr := .start b x
    let r := s.regs b x
    (r.ccr.en = false → r.legal →
      ∃ s₁, exec i s = .next s₁ ∧
        runAlone 4 i s₁ =
          .next ((((s.setRegs b x { r with ccr := { r.ccr with en := true } }).setEngine b x
            { curPa := r.cpar, curMa := r.cmar, ndtReload := r.ndt, stopping := false, unseen := [] }).fence).ret
            .unit)) ∧
    (r.ccr.en = true → (s.engine b x).stopping = false →
      ∃ s₁, exec i s = .next s₁ ∧ runAlone 4 i s₁ = .next (s.fence.ret .unit)) ∧
    (r.ccr.en = false → ¬r.legal →
      ∃ t, runAlone 3 i s = .next t ∧ t.regs b x = r ∧
        t.refused ∈ [some .reservedSize, some .sizeMismatch, some .mem2mem, some .misaligned]) ∧
    (r.ccr.en = true → (s.engine b x).stopping = true →
      ∃ s₁ s₂, exec i s = .next s₁ ∧ exec i s₁ = .next s₂ ∧ s₂ = { s.fence with seq := s₂.seq } ∧
        exec i s₂ = .next (s₂.refuse .enableWhileStopping))

/-- R413, R258, R364, R365: `STOP` (stop) completes in four micro-steps on a channel that is disabled or has NDT = 0,
with EN = 0. On a channel with NDT nonzero, or with a stop in progress already, its write leaves the channel
stopping; K3 then spins, changing nothing, until the engine completes the stop, after which the operation returns
with EN = 0. The interrupt enables and bits 14:4 keep their values. -/
def Obligations.Stop : Prop :=
  ∀ (b : Blk) (x : Ch) (s : State), s.canUse b x .handle →
    let i : Instr := .stop b x
    let r := s.regs b x
    let off := s.setRegs b x { r with ccr := { r.ccr with en := false } }
    (r.ccr.en = false ∨ (r.ndt = 0#16 ∧ (s.engine b x).stopping = false) →
      ∃ s₁, exec i s = .next s₁ ∧ runAlone 3 i s₁ = .next (off.fence.ret .unit)) ∧
    (r.ccr.en = true → r.ndt ≠ 0#16 ∨ (s.engine b x).stopping = true →
      ∃ s₁ s₂, exec i s = .next s₁ ∧ exec i s₁ = .next s₂ ∧
        s₂.regs b x = r ∧ (s₂.engine b x).stopping = true ∧ exec i s₂ = .next s₂ ∧
        runAlone 2 i (stopTurn b x s₂) =
          .next (((off.setEngine b x { s.engine b x with stopping := false }).fence).ret .unit))

/-- R401, R402, R411, R723: the race of a CCR read-modify-write. Where `LISTEN`, `UNLISTEN` or `CONFIGURE` read EN = 1
and the engine has cleared EN before the write-back, the write re-enables the channel from CPAR, CMAR and the
current NDT; where the channel is stopping at the write-back, the write is refused. (`unseen`: no fence stands
before the re-enabling write, so the engine need not see the controller's unfenced writes; the list is log entry 14,
and that the pseudocode is followed against D33's words is log entry 31: the model's choice.) -/
def Obligations.ReadModifyWriteRace : Prop :=
  ∀ (b : Blk) (x : Ch) (i : Instr) (c v : Word) (l : Label) (s : State),
    ((∃ ev, i = .listen b x ev ∧ l = .l2 c ∧ v = c ||| (1#32 <<< ev.ieBit)) ∨
     (∃ ev, i = .unlisten b x ev ∧ l = .l2 c ∧ v = c &&& ~~~ (1#32 <<< ev.ieBit)) ∨
     (∃ imm : BitVec 16, i = .configure b x imm ∧ l = .k2 c ∧
       v = (c &&& ~~~ 0x00007FF0#32) ||| ((imm.extractLsb' 0 11).setWidth 32 <<< 4))) →
    s.unmarked → s.clk b = true → s.seq = .busy i l → c.getLsbD 0 = true →
    let r := s.regs b x
    let r' : ChanRegs := { r with ccr := ⟨true, v.extractLsb' 1 3, v.extractLsb' 4 11⟩ }
    (r.ccr.en = false → r'.legal →
      exec i s = .next (((s.setRegs b x r').setEngine b x
        { curPa := r.cpar, curMa := r.cmar, ndtReload := r.ndt, stopping := false, unseen := s.unfencedWrites }).ret
        .unit)) ∧
    (r.ccr.en = true → (s.engine b x).stopping = true → exec i s = .next (s.refuse .enableWhileStopping))

/-- R415, R164: `FENCE` (fence) completes in one micro-step, with no ownership required: no observation and no
controller write is unfenced any more; nothing else changes. -/
def Obligations.Fence : Prop :=
  ∀ s : State, s.ready →
    exec .fence s = .next { s with unfencedRead := false, unfencedWrites := [], result := some .unit }

/-! ## Entry operations -/

/-- R451: `CIRC_READ` (circRead) on a free, disabled channel with a legal length, aligned and admitted addresses and a
legal endpoint completes in nine micro-steps: CPAR, CMAR, NDT = 2h and the circular configuration are programmed,
the interrupt enables and the flags kept, the channel enabled with its engine loaded, and the channel is owned by a
new CircBuffer with readable_half = Second and consumed_offset = 0. -/
def Obligations.CircRead : Prop :=
  ∀ (b : Blk) (x : Ch) (size pl : BitVec 2) (h : BitVec 16) (base paddr : Word) (es : ESize) (s : State),
    s.canUse b x .handle → esizeOf size = some es → h ≠ 0#16 → 2 * h.toNat ≤ 0xFFFF →
    base.toNat % es.bytes = 0 → paddr.toNat % es.bytes = 0 →
    (∀ k, k < 2 * h.toNat → s.memAdmit (base + BitVec.ofNat 32 (k * es.bytes)) es.bytes = true) →
    s.legalEndpoint b x (s.regs b x).cxs paddr = true → (s.regs b x).ccr.en = false →
    let i : Instr := .circRead b x size pl h base paddr
    let r := s.regs b x
    ∃ s₁, exec i s = .next s₁ ∧
      runAlone 8 i s₁ =
        .next ((((s.setRegs b x
          { r with
            ccr := ⟨true, r.ccr.ie, 0#1 ++ pl ++ size ++ size ++ 1#1 ++ 0#1 ++ 1#1 ++ 0#1⟩
            ndt := h + h
            cpar := paddr
            cmar := base }).setEngine b x
          { curPa := paddr, curMa := base, ndtReload := h + h, stopping := false, unseen := [] }).fence.setHolder b x
          (.circ ⟨base, h.toNat, es, .second, 0, []⟩)).ret
          (.circBuffer b x))

/-- R501, R502: `READ_EXACT` and `WRITE_ALL` (readExact, writeAll) on a free, disabled channel with aligned and admitted
addresses and a legal endpoint complete in nine micro-steps, for every length n (0 included): CPAR, CMAR, NDT = n
and the one-shot configuration (DIR 0 or 1) are programmed, the interrupt enables and the flags kept, the channel
enabled with its engine loaded, and the channel is owned by a new Transfer (MemDest or MemSrc). -/
def Obligations.ReadExactAndWriteAll : Prop :=
  ∀ (b : Blk) (x : Ch) (size pl : BitVec 2) (n : BitVec 16) (base paddr payload : Word) (es : ESize) (s : State),
    s.canUse b x .handle → esizeOf size = some es →
    base.toNat % es.bytes = 0 → paddr.toNat % es.bytes = 0 →
    (∀ k, k < n.toNat → s.memAdmit (base + BitVec.ofNat 32 (k * es.bytes)) es.bytes = true) →
    s.legalEndpoint b x (s.regs b x).cxs paddr = true → (s.regs b x).ccr.en = false →
    let r := s.regs b x
    let armed (dir : BitVec 1) (mode : XferMode) :=
      (((s.setRegs b x
        { r with
          ccr := ⟨true, r.ccr.ie, 0#1 ++ pl ++ size ++ size ++ 1#1 ++ 0#1 ++ 0#1 ++ dir⟩
          ndt := n
          cpar := paddr
          cmar := base }).setEngine b x
        { curPa := paddr, curMa := base, ndtReload := n, stopping := false, unseen := [] }).fence.setHolder b x
        (.xfer ⟨mode, base, n.toNat, es, paddr, payload, []⟩)).ret
        (.transfer b x)
    (∃ s₁, exec (.readExact b x size pl n base paddr payload) s = .next s₁ ∧
      runAlone 8 (.readExact b x size pl n base paddr payload) s₁ = .next (armed 0#1 .memDest)) ∧
    (∃ s₁, exec (.writeAll b x size pl n base paddr payload) s = .next s₁ ∧
      runAlone 8 (.writeAll b x size pl n base paddr payload) s₁ = .next (armed 1#1 .memSrc))

/-- R451, R501, R502, R606, R610: the checks of the entry operations in their order, the first that fails refusing and
nothing after it being done: length (CIRC_READ only), alignment, admission of every element, endpoint, channel
enabled. -/
def Obligations.EntryChecksInOrder : Prop :=
  ∀ (b : Blk) (x : Ch) (size pl : BitVec 2) (n : BitVec 16) (base paddr payload : Word) (es : ESize) (s : State)
    (i : Instr) (len : Nat),
    s.canUse b x .handle → esizeOf size = some es →
    (n = 0#16 ∨ 0xFFFF < 2 * n.toNat →
      exec (.circRead b x size pl n base paddr) s = .next (s.refuse .badLength)) ∧
    ((i = .circRead b x size pl n base paddr ∧ n ≠ 0#16 ∧ 2 * n.toNat ≤ 0xFFFF ∧ len = 2 * n.toNat) ∨
      (i = .readExact b x size pl n base paddr payload ∧ len = n.toNat) ∨
      (i = .writeAll b x size pl n base paddr payload ∧ len = n.toNat) →
      let isAligned := base.toNat % es.bytes = 0 ∧ paddr.toNat % es.bytes = 0
      let isAdmitted := ∀ k, k < len → s.memAdmit (base + BitVec.ofNat 32 (k * es.bytes)) es.bytes = true
      let isLegal := s.legalEndpoint b x (s.regs b x).cxs paddr = true
      (¬isAligned → exec i s = .next (s.refuse .misaligned)) ∧
      (isAligned → ¬isAdmitted → exec i s = .next (s.refuse .memNotAdmitted)) ∧
      (isAligned → isAdmitted → ¬isLegal → exec i s = .next (s.refuse .illegalEndpoint)) ∧
      (isAligned → isAdmitted → isLegal → (s.regs b x).ccr.en = true →
        exec i s = .next (s.refuse .channelBusy)))

/-! ## CircBuffer operations -/

/-- R452, R453, R602: `READABLE_HALF` (readableHalf) completes for every combination of the recorded half and the flags
read at H1. Both flags: Overrun, nothing cleared, nothing changed. No new half: the recorded half, in one
micro-step. Otherwise the second micro-step clears the completed half's flag alone and flips the recorded half;
consumed_offset is kept. -/
def Obligations.ReadableHalf : Prop :=
  ∀ (b : Blk) (x : Ch) (cb : CircRec) (s : State), s.canUse b x (.circ cb) →
    let i : Instr := .readableHalf b x
    let r := s.regs b x
    let s' : State := { s with unfencedRead := true }
    (r.htif = true → r.tcif = true → exec i s = .next (s'.ret (.err .overrun))) ∧
    (cb.readableHalf = .first → r.tcif = false → exec i s = .next (s'.ret (.half .first))) ∧
    (cb.readableHalf = .second → r.htif = false → exec i s = .next (s'.ret (.half .second))) ∧
    (cb.readableHalf = .first → r.htif = false → r.tcif = true →
      ∃ s₁, exec i s = .next s₁ ∧
        exec i s₁ = .next (((s'.setRegs b x { r with tcif := false }).setHolder b x
          (.circ { cb with readableHalf := .second })).ret (.half .second))) ∧
    (cb.readableHalf = .second → r.htif = true → r.tcif = false →
      ∃ s₁, exec i s = .next s₁ ∧
        exec i s₁ = .next (((s'.setRegs b x { r with htif := false }).setHolder b x
          (.circ { cb with readableHalf := .first })).ret (.half .first)))

/-- R454, R458, R601: `PEEK` (peek) completes. Overrun is returned at its first micro-step with consumed_offset kept.
Otherwise it hands over the readable half: with no new half the recorded one, with a new half that one, whose flag
is cleared and to which the recorded half is flipped at H2; after the fence of P2 the consumer is at P3 with the
window of that half from element consumed_offset on (its end, h, and its reads: `ConsumerReadsItsWindow`). Where the
consumer ends at once (with a value v or a failure), two more micro-steps complete the operation: consumed_offset is
0 afterwards whatever the outcome, and the result is v or BufferError. (The consumer's outcome is the environment's
next announced act: log entry 12.) -/
def Obligations.Peek : Prop :=
  ∀ (b : Blk) (x : Ch) (cb : CircRec) (a : ConsumerAct) (acts : List ConsumerAct) (res : Result) (s : State),
    s.canUse b x (.circ cb) → s.env.acts = a :: acts →
    ((∃ l v, a = .done l v ∧ res = .value v) ∨ (a = .fail ∧ res = .err .bufferError)) →
    let i : Instr := .peek b x
    let r := s.regs b x
    let window (t : State) (w : Half) : State :=
      { t.fence with seq := .busy i (.p3 w cb.consumedOffset) }
    let done (t : State) (w : Half) : State :=
      { (t.fence.setHolder b x (.circ { cb with readableHalf := w, consumedOffset := 0 })).ret res with
        env := { s.env with acts := acts } }
    (r.htif = true → r.tcif = true →
      exec i s = .next ({ s with unfencedRead := true }.ret (.err .overrun))) ∧
    ((cb.readableHalf = .first ∧ r.tcif = false) ∨ (cb.readableHalf = .second ∧ r.htif = false) →
      ∃ s₁, exec i s = .next s₁ ∧ exec i s₁ = .next (window s cb.readableHalf) ∧
        runAlone 2 i (window s cb.readableHalf) = .next (done s cb.readableHalf)) ∧
    (cb.readableHalf = .first → r.htif = false → r.tcif = true →
      let flipped := (s.setRegs b x { r with tcif := false }).setHolder b x (.circ { cb with readableHalf := .second })
      ∃ s₁, exec i s = .next s₁ ∧ runAlone 2 i s₁ = .next (window flipped .second) ∧
        runAlone 2 i (window flipped .second) = .next (done flipped .second)) ∧
    (cb.readableHalf = .second → r.htif = true → r.tcif = false →
      let flipped := (s.setRegs b x { r with htif := false }).setHolder b x (.circ { cb with readableHalf := .first })
      ∃ s₁, exec i s = .next s₁ ∧ runAlone 2 i s₁ = .next (window flipped .first) ∧
        runAlone 2 i (window flipped .first) = .next (done flipped .first))

/-- R454, R455, R458, R450, R75: what the consumer of `PEEK` and `PARTIAL_PEEK` may do before it ends: it reads an
element of its window with an aligned, admitted controller read, which after the operation's fence returns memory's
value at that time; an element outside the window is not read (that act is no access at all: log entry 12). An
element with a byte that the controller's program stored to while the CircBuffer was live reads as a draw (row 35 of
93_implementation_defined.md; how long and how much of it is open is the model's choice, log entry 30). The
operation stays at the same micro-step. -/
def Obligations.ConsumerReadsItsWindow : Prop :=
  ∀ (b : Blk) (x : Ch) (cb : CircRec) (w : Half) (lo hi top k : Nat) (acts : List ConsumerAct) (i : Instr) (l : Label)
    (s : State),
    s.unmarked → s.holder b x = .circ cb → s.seq = .busy i l → s.env.acts = .read k :: acts →
    ((i = .peek b x ∧ l = .p3 w lo ∧ top = cb.h) ∨ (i = .partialPeek b x ∧ l = .r3 w lo hi ∧ top = hi)) →
    let n := cb.esize.bytes
    let a := cb.base + BitVec.ofNat 32 ((match w with | .first => k | .second => cb.h + k) * n)
    let s' : State := { s with env := { s.env with acts := acts } }
    let disturbed := ∃ j, j < n ∧ (a + BitVec.ofNat 32 j).toNat ∈ cb.disturbed
    (lo ≤ k → k < top → s.unfencedRead = false → a.toNat % n = 0 → s.memAdmit a n = true → ¬disturbed →
      exec i s = .next { s' with loaded := some (memRead s.mem a n) }) ∧
    (∀ v vs, lo ≤ k → k < top → a.toNat % n = 0 → s.memAdmit a n = true → disturbed → s.env.values = v :: vs →
      exec i s = .next { s' with
        env := { s'.env with values := vs }
        loaded := some ((v.setWidth (8 * n)).setWidth 32) }) ∧
    (¬(lo ≤ k ∧ k < top) → exec i s = .next s')

/-- R455, R456, R458, R605: `PARTIAL_PEEK` (partialPeek), with rem = NDT and end = h - rem mod h. Where consumed_offset
is at most end, the second micro-step (the fence) leaves the consumer at R3 with the window of the half that is not
the recorded one, elements consumed_offset .. end-1, and nothing else changed. Where the consumer then reports l
elements with l at most end - consumed_offset, the operation completes in four micro-steps, adds l to
consumed_offset, clears no flag and leaves the recorded half. Where the consumer fails, the third micro-step returns
BufferError and consumed_offset is kept. Where consumed_offset is above end, or l is too large, it faults, with the
values recorded that the rule names. (The consumer's outcome is the environment's next announced act: log entry 12.
The window's first element is fixed at the fence step: log entry 29.) -/
def Obligations.PartialPeek : Prop :=
  ∀ (b : Blk) (x : Ch) (cb : CircRec) (a : ConsumerAct) (acts : List ConsumerAct) (s : State),
    s.canUse b x (.circ cb) → 0 < cb.h → s.env.acts = a :: acts →
    let i : Instr := .partialPeek b x
    let rem := (s.regs b x).ndt.toNat
    let top := cb.h - rem % cb.h
    let s' : State := { s with env := { s.env with acts := acts } }
    (top < cb.consumedOffset →
      exec i s = .next ({ s with unfencedRead := true }.takeFault
        (.partialPeekBounds cb.consumedOffset rem top) i b x)) ∧
    (cb.consumedOffset ≤ top →
      let w : Half := match cb.readableHalf with | .first => .second | .second => .first
      ∃ s₁, exec i s = .next s₁ ∧
        exec i s₁ = .next { s.fence with seq := .busy i (.r3 w cb.consumedOffset top) }) ∧
    (∀ l v, cb.consumedOffset ≤ top → a = .done l v → l ≤ top - cb.consumedOffset →
      ∃ s₁, exec i s = .next s₁ ∧
        runAlone 3 i s₁ = .next ((s'.fence.setHolder b x
          (.circ { cb with consumedOffset := cb.consumedOffset + l })).ret (.value v))) ∧
    (cb.consumedOffset ≤ top → a = .fail →
      ∃ s₁, exec i s = .next s₁ ∧ runAlone 2 i s₁ = .next (s'.fence.ret (.err .bufferError))) ∧
    (∀ l v, cb.consumedOffset ≤ top → a = .done l v → top - cb.consumedOffset < l →
      ∃ t, runAlone 3 i s = .next t ∧ t.fault = some ⟨.consumeOverflow l cb.consumedOffset top, i, b, x⟩ ∧
        t.holder b x = .circ cb)

/-! ## Transfer operations -/

/-- R504, R258: `WAIT` (wait). With TCIF clear W1 spins, changing nothing but the noted observation. With TCIF set and
the channel disabled or at NDT = 0 it completes in six micro-steps: TCIF cleared, EN = 0, the fence done, the
channel a Handle again, and the buffer, Channel and payload returned; HTIF and TEIF are kept. With TCIF set and NDT
nonzero (a stale flag, R727) W4 starts a stop, or one is in progress already, and W5 spins until the engine
completes it. -/
def Obligations.Wait : Prop :=
  ∀ (b : Blk) (x : Ch) (tr : XferRec) (s : State), s.canUse b x (.xfer tr) →
    let i : Instr := .wait b x
    let r := s.regs b x
    let off := s.setRegs b x { r with ccr := { r.ccr with en := false }, tcif := false }
    let res : Result := .released tr.base tr.n tr.esize b x tr.payload
    (r.tcif = false →
      ∃ s₁, exec i s = .next s₁ ∧ s₁ = { s with unfencedRead := true, seq := .busy i .w1 } ∧ exec i s₁ = .next s₁) ∧
    (r.tcif = true → r.ccr.en = false ∨ (r.ndt = 0#16 ∧ (s.engine b x).stopping = false) →
      ∃ s₁, exec i s = .next s₁ ∧ runAlone 5 i s₁ = .next ((off.fence.setHolder b x .handle).ret res)) ∧
    (r.tcif = true → r.ccr.en = true → r.ndt ≠ 0#16 ∨ (s.engine b x).stopping = true →
      ∃ s₁ s₄, exec i s = .next s₁ ∧ runAlone 3 i s₁ = .next s₄ ∧ exec i s₄ = .next s₄ ∧
        runAlone 2 i (stopTurn b x s₄) =
          .next (((off.setEngine b x { s.engine b x with stopping := false }).fence.setHolder b x .handle).ret res))

/-- R505, R257, R258: `TERMINATE` (terminate) toggles EN and returns with the Transfer still live. Enabled with NDT = 0:
four micro-steps to EN = 0. Enabled with NDT nonzero, or with a stop in progress already: the channel is stopping,
T3 spins until the engine completes the stop, then EN = 0. Disabled and legal: four micro-steps to EN = 1, the
engine loaded from CPAR, CMAR and NDT; disabled and not legal: refused. (`unseen`: no fence stands before the
enabling write T2, so the engine need not see the controller's unfenced writes; the list is log entry 14, and that
the pseudocode is followed where D33 lists R505 as fenced before the write is log entry 31: the model's choice.) -/
def Obligations.Terminate : Prop :=
  ∀ (b : Blk) (x : Ch) (tr : XferRec) (s : State), s.canUse b x (.xfer tr) →
    let i : Instr := .terminate b x
    let r := s.regs b x
    let off := s.setRegs b x { r with ccr := { r.ccr with en := false } }
    (r.ccr.en = true → r.ndt = 0#16 → (s.engine b x).stopping = false →
      ∃ s₁, exec i s = .next s₁ ∧ runAlone 3 i s₁ = .next (off.fence.ret .unit)) ∧
    (r.ccr.en = true → r.ndt ≠ 0#16 ∨ (s.engine b x).stopping = true →
      ∃ s₁ s₂, exec i s = .next s₁ ∧ exec i s₁ = .next s₂ ∧ exec i s₂ = .next s₂ ∧
        runAlone 2 i (stopTurn b x s₂) =
          .next (((off.setEngine b x { s.engine b x with stopping := false }).fence).ret .unit)) ∧
    (r.ccr.en = false → r.legal →
      ∃ s₁, exec i s = .next s₁ ∧
        runAlone 3 i s₁ =
          .next ((((s.setRegs b x { r with ccr := { r.ccr with en := true } }).setEngine b x
            { curPa := r.cpar, curMa := r.cmar, ndtReload := r.ndt, stopping := false,
              unseen := s.unfencedWrites }).fence).ret .unit)) ∧
    (r.ccr.en = false → ¬r.legal →
      ∃ t, runAlone 2 i s = .next t ∧ t.regs b x = r ∧
        t.refused ∈ [some .reservedSize, some .sizeMismatch, some .mem2mem, some .misaligned])

/-- R506, R605, R606: `XPEEK` (xpeek) on a MemDest Transfer completes in two micro-steps with the window of the n - NDT
elements already written, the fence done; where NDT is above n it faults; on a MemSrc Transfer it is refused. -/
def Obligations.Xpeek : Prop :=
  ∀ (b : Blk) (x : Ch) (tr : XferRec) (s : State), s.canUse b x (.xfer tr) →
    let i : Instr := .xpeek b x
    let rem := (s.regs b x).ndt.toNat
    (tr.mode = .memSrc → exec i s = .next (s.refuse .wrongMode)) ∧
    (tr.mode = .memDest → tr.n < rem →
      exec i s = .next ({ s with unfencedRead := true }.takeFault (.countBeyondLength rem tr.n) i b x)) ∧
    (tr.mode = .memDest → rem ≤ tr.n →
      ∃ s₁, exec i s = .next s₁ ∧ exec i s₁ = .next (s.fence.ret (.window tr.base tr.esize 0 (tr.n - rem))))

/-- R507, R605, R606, R257: `RESTART` (restart) on a MemDest Transfer of length n completes: the channel is stopped
(where NDT is nonzero or a stop is in progress already, S3 spins, changing nothing, until the engine's
stop-completion step), NDT is n again, the channel is enabled with its engine loaded from CPAR, CMAR and n, and the
written prefix is returned, or no data where nothing was written; no flag changes. With NDT above n it faults at S5,
after the pause. With a configuration that is not legal it is refused at S8, the channel disabled and NDT n already.
Both are stated for a channel that the pause disables at once and for one that the engine stops. On a MemSrc
Transfer it is refused. -/
def Obligations.Restart : Prop :=
  ∀ (b : Blk) (x : Ch) (tr : XferRec) (s : State), s.canUse b x (.xfer tr) →
    let i : Instr := .restart b x
    let r := s.regs b x
    let rem := r.ndt.toNat
    let n := BitVec.ofNat 16 tr.n
    let disabled : ChanRegs := { r with ccr := { r.ccr with en := false } }
    let t := (((s.setRegs b x { r with ccr := { r.ccr with en := true }, ndt := n }).setEngine b x
      { curPa := r.cpar, curMa := r.cmar, ndtReload := n, stopping := false, unseen := [] }).fence).ret
      (if rem = tr.n then .noData else .someWindow tr.base tr.esize 0 (tr.n - rem))
    let faulted (e : Engine) (u : State) := u = { ((s.setRegs b x disabled).setEngine b x e).fence with
      seq := u.seq
      unfencedRead := true
      fault := some ⟨.countBeyondLength rem tr.n, i, b, x⟩ }
    let refusedAtS8 (e : Engine) (u : State) :=
      u = { ((s.setRegs b x { disabled with ndt := n }).setEngine b x e).fence with
        seq := u.seq
        refused := u.refused } ∧
      u.refused ∈ [some .reservedSize, some .sizeMismatch, some .mem2mem, some .misaligned]
    let e := s.engine b x
    let stops := r.ccr.en = false ∨ (r.ndt = 0#16 ∧ e.stopping = false)
    (tr.mode = .memSrc → exec i s = .next (s.refuse .wrongMode)) ∧
    (tr.mode = .memDest → stops → tr.n < rem → ∃ u, runAlone 5 i s = .next u ∧ faulted e u) ∧
    (tr.mode = .memDest → stops → rem ≤ tr.n → ¬r.legal → ∃ u, runAlone 8 i s = .next u ∧ refusedAtS8 e u) ∧
    (tr.mode = .memDest → stops → rem ≤ tr.n → r.legal →
      ∃ s₁, exec i s = .next s₁ ∧ runAlone 9 i s₁ = .next t) ∧
    (tr.mode = .memDest → r.ccr.en = true → r.ndt ≠ 0#16 ∨ e.stopping = true →
      ∃ s₁ s₂, exec i s = .next s₁ ∧ exec i s₁ = .next s₂ ∧ exec i s₂ = .next s₂ ∧
        (tr.n < rem → ∃ u, runAlone 3 i (stopTurn b x s₂) = .next u ∧ faulted { e with stopping := false } u) ∧
        (rem ≤ tr.n → ¬r.legal →
          ∃ u, runAlone 6 i (stopTurn b x s₂) = .next u ∧ refusedAtS8 { e with stopping := false } u) ∧
        (rem ≤ tr.n → r.legal → runAlone 8 i (stopTurn b x s₂) = .next t))

/-! ## SPLIT -/

/-- R550, R704, R256, R258, R364: `SPLIT` (split) of a block that was not split, none of whose channels is enabled,
completes in 22 micro-steps: the clock on, every CCR of the block 0, every channel of the block a Handle, split_done
set; flags, counts, addresses, request codes and the other block are unchanged. A second SPLIT is refused. For a
running channel Z1 clears the interrupt enables and starts the stop (or one is in progress already), Z2 spins,
changing nothing, until the engine completes the stop, and Z3 then leaves CCR 0. -/
def Obligations.Split : Prop :=
  (∀ (b : Blk) (s : State), s.ready →
    (s.splitDone.get b = true → exec (.split b) s = .next (s.refuse .alreadySplit)) ∧
    (s.splitDone.get b = false → (∀ x, (s.regs b x).ccr.en = false) →
      ∃ s₁ t, exec (.split b) s = .next s₁ ∧ runAlone 21 (.split b) s₁ = .next t ∧
        t = { s with
          clkEn := s.clkEn.set b true
          chan := t.chan
          splitDone := s.splitDone.set b true
          owner := s.owner.set b ⟨.handle, .handle, .handle, .handle, .handle, .handle, .handle⟩
          result := some (.channelSet b) } ∧
        (∀ x, t.regs b x = { s.regs b x with ccr := ⟨false, 0#3, 0#11⟩ }) ∧
        ∀ c x, c ≠ b → t.regs c x = s.regs c x)) ∧
  (∀ (b : Blk) (x : Ch) (s : State), s.unmarked → s.clk b = true → s.seq = .busy (.split b) (.z1 x) →
    (s.regs b x).ccr.en = true → (s.regs b x).ndt ≠ 0#16 ∨ (s.engine b x).stopping = true →
    let r := s.regs b x
    ∃ s₁ s₃, exec (.split b) s = .next s₁ ∧ s₁.regs b x = { r with ccr := { r.ccr with ie := 0#3 } } ∧
      (s₁.engine b x).stopping = true ∧ exec (.split b) s₁ = .next s₁ ∧
      runAlone 2 (.split b) (stopTurn b x s₁) = .next s₃ ∧
      s₃.regs b x = { r with ccr := ⟨false, 0#3, 0#11⟩ } ∧ (s₃.engine b x).stopping = false)

/-! ## The engines -/

/-- R352, R366: a turn of the element step does the step exactly when the clock is on, EN = 1, NDT is nonzero and the
channel's request is asserted; otherwise nothing happens. The request asserted at the turn is the environment's
draw: `lines` are the asserted requests, REQ_MAP says which one the channel's code selects (R373, log entry 11). -/
def Obligations.ElementStepEnabled : Prop :=
  ∀ (b : Blk) (x : Ch) (lines : List Nat) (s : State),
    let isEnabled := s.clk b = true ∧ (s.regs b x).ccr.en = true ∧ 0 < (s.regs b x).ndt.toNat ∧
      s.request b x lines = true
    (isEnabled → elementTurn b x lines s = elementStep b x s) ∧ (¬isEnabled → elementTurn b x lines s = s)

/-- R353, R354, R358, R152, R166: with DIR = 0 and both accesses admitted, an element step stores exactly the n =
2^PSIZE bytes of the value the peripheral returns (the environment's draw), little-endian, at cur_ma; every other
byte of memory is unchanged; the peripheral-side read is recorded. The byte order is the spec's own general
knowledge (R152): log entry 23. -/
def Obligations.ElementFromPeripheral : Prop :=
  ∀ (b : Blk) (x : Ch) (v : Word) (vs : List Word) (s : State),
    let r := s.regs b x
    let e := s.engine b x
    let n := 2 ^ r.ccr.psize.toNat
    r.ccr.dir = false → r.ccr.psize ≠ 3#2 → s.periphAdmit e.curPa n = true → s.memAdmit e.curMa n = true →
    s.env.values = v :: vs →
    let t := elementStep b x s
    (∀ k, k < n → t.mem.byteAt (e.curMa + BitVec.ofNat 32 k).toNat = v.extractLsb' (8 * k) 8) ∧
    (∀ a : Nat, (∀ k, k < n → a ≠ (e.curMa + BitVec.ofNat 32 k).toNat) → t.mem.byteAt a = s.mem.byteAt a) ∧
    t.periphLog = s.periphLog ++ [⟨b, x, false, e.curPa, n, (v.setWidth (8 * n)).setWidth 32⟩] ∧
    t.env = { s.env with values := vs }

/-- R353, R355, R163, R166, R75: with DIR = 1 and both accesses admitted, an element step changes no memory and records
the write, at cur_pa, of the n = 2^PSIZE bytes that stand at cur_ma. Where one of these bytes is one whose
controller write before the enable was not fenced, or one that the controller's program stored to in the live buffer
of the channel's object, the value written is a draw. (The lists of such bytes, and that one such byte leaves the
whole element open, are the model's choice: log entries 14 and 30.) The byte order is the spec's own general
knowledge (R152): log entry 23. -/
def Obligations.ElementToPeripheral : Prop :=
  ∀ (b : Blk) (x : Ch) (s : State),
    let r := s.regs b x
    let e := s.engine b x
    let n := 2 ^ r.ccr.psize.toNat
    let written (v : Word) := s.periphLog ++ [(⟨b, x, true, e.curPa, n, (v.setWidth (8 * n)).setWidth 32⟩ : PeriphEvent)]
    r.ccr.dir = true → s.periphAdmit e.curPa n = true → s.memAdmit e.curMa n = true →
    let t := elementStep b x s
    let disturbed := match s.holder b x with | .circ cb => cb.disturbed | .xfer t => t.disturbed | _ => []
    let unseen := ∃ k, k < n ∧
      ((e.curMa + BitVec.ofNat 32 k).toNat ∈ e.unseen ∨ (e.curMa + BitVec.ofNat 32 k).toNat ∈ disturbed)
    t.mem = s.mem ∧
    (¬unseen → t.periphLog = written (memRead s.mem e.curMa n) ∧ t.env = s.env) ∧
    (∀ v vs, unseen → s.env.values = v :: vs →
      t.periphLog = written v ∧ t.env = { s.env with values := vs })

/-- R353, R357, R359, R360, R361, R362, R363, R365: what an element step that moves data does to its channel: NDT counts
down by 1; HTIF is set when it reaches half_point(N), TCIF when it reaches 0; the addresses advance by the element
size where PINC, MINC say so; a circular channel that reaches 0 reloads NDT and both addresses instead and stays
enabled, a one-shot one keeps EN; a stop in progress is completed. That the circular reload takes the addresses from
CPAR and CMAR, and that EN stays 1 at a one-shot end, is the spec's own general knowledge (R362, R363): log entry
23. -/
def Obligations.ElementCountsAndFlags : Prop :=
  ∀ (b : Blk) (x : Ch) (s : State),
    let r := s.regs b x
    let e := s.engine b x
    let n := 2 ^ r.ccr.psize.toNat
    let N := e.ndtReload.toNat
    let left := r.ndt.toNat - 1
    let half := if N % 2 = 0 then N / 2 else match s.htOdd with | .low => N / 2 | .high => (N + 1) / 2
    0 < r.ndt.toNat → s.periphAdmit e.curPa n = true → s.memAdmit e.curMa n = true →
    let r' := (elementStep b x s).regs b x
    let e' := (elementStep b x s).engine b x
    r'.htif = (r.htif || decide (left = half)) ∧ r'.tcif = (r.tcif || decide (left = 0)) ∧ r'.teif = r.teif ∧
    r'.ccr = { r.ccr with en := r.ccr.en && !e.stopping } ∧
    e'.stopping = false ∧ e'.ndtReload = e.ndtReload ∧ e'.unseen = e.unseen ∧
    (left = 0 ∧ r.ccr.circ = true → r'.ndt = e.ndtReload ∧ e'.curPa = r.cpar ∧ e'.curMa = r.cmar) ∧
    (¬(left = 0 ∧ r.ccr.circ = true) →
      r'.ndt.toNat = left ∧
      e'.curPa = (if r.ccr.pinc then e.curPa + BitVec.ofNat 32 n else e.curPa) ∧
      e'.curMa = (if r.ccr.minc then e.curMa + BitVec.ofNat 32 n else e.curMa))

/-- R356: an element step whose source or destination access is not admitted moves no data, leaves NDT and the current
addresses, sets TEIF, clears EN and ends a stop; nothing else changes, so the channel stays disabled until software
enables it. What raises the error and that it clears EN is the spec's own general knowledge (R356): log entry 23. -/
def Obligations.TransferError : Prop :=
  ∀ (b : Blk) (x : Ch) (s : State),
    let r := s.regs b x
    let e := s.engine b x
    let n := 2 ^ r.ccr.psize.toNat
    s.periphAdmit e.curPa n = false ∨ s.memAdmit e.curMa n = false →
    elementStep b x s =
      (s.setRegs b x { r with teif := true, ccr := { r.ccr with en := false } }).setEngine b x
        { e with stopping := false }

/-- R351: no engine step changes wrapper state or any register other than its own channel's CCR.EN, NDT and flags. -/
def Obligations.EngineFrame : Prop :=
  ∀ (b : Blk) (x : Ch) (lines : List Nat) (s t : State), t = elementTurn b x lines s ∨ t = stopTurn b x s →
    t.owner = s.owner ∧ t.splitDone = s.splitDone ∧ t.seq = s.seq ∧ t.fault = s.fault ∧ t.refused = s.refused ∧
    t.clkEn = s.clkEn ∧
    (∀ c y, ¬(c = b ∧ y = x) → t.regs c y = s.regs c y ∧ t.engine c y = s.engine c y) ∧
    (let r := s.regs b x
     let r' := t.regs b x
     r'.ccr.ie = r.ccr.ie ∧ r'.ccr.cfg = r.ccr.cfg ∧ r'.cpar = r.cpar ∧ r'.cmar = r.cmar ∧ r'.cxs = r.cxs)

/-- R364: the stop-completion step is enabled exactly when `stopping` is true and the clock is on; it clears EN and
`stopping`, writes no flag and changes nothing else, and after it a read of CCR returns EN = 0. -/
def Obligations.StopCompletion : Prop :=
  ∀ (b : Blk) (x : Ch) (s : State),
    (s.clk b = true ∧ (s.engine b x).stopping = true →
      stopTurn b x s =
        (s.setRegs b x { s.regs b x with ccr := { (s.regs b x).ccr with en := false } }).setEngine b x
          { s.engine b x with stopping := false } ∧
      (regValue (stopTurn b x s) b (.ccr x)).getLsbD 0 = false) ∧
    (¬(s.clk b = true ∧ (s.engine b x).stopping = true) → stopTurn b x s = s)

/-- R369, R357, R360, R361, R362: a pass of a CircBuffer's channel. From the start of a pass over N = 2h elements of n
bytes, with every access admitted and the request asserted, the k-th element step leaves NDT = 2h - k and cur_ma =
CMAR + k*n for k below 2h; HTIF is set from k = h on, TCIF not before k = 2h; the 2h-th step sets TCIF and reloads
NDT and cur_ma, and the channel stays enabled. The reload of the addresses is the spec's own general knowledge
(R362): log entry 23. -/
def Obligations.CircularPass : Prop :=
  ∀ (b : Blk) (x : Ch) (lines : List Nat) (h : Nat) (s : State),
    let r := s.regs b x
    let e := s.engine b x
    let n := 2 ^ r.ccr.psize.toNat
    let after (k : Nat) := (elementTurn b x lines)^[k] s
    0 < h → s.clk b = true → r.ccr.en = true → r.ccr.circ = true → r.ccr.minc = true → r.ccr.pinc = false →
    r.ndt.toNat = 2 * h → e.ndtReload = r.ndt → e.curMa = r.cmar → e.curPa = r.cpar → e.stopping = false →
    s.request b x lines = true → s.periphAdmit r.cpar n = true →
    (∀ k, k < 2 * h → s.memAdmit (r.cmar + BitVec.ofNat 32 (k * n)) n = true) →
    (∀ k, k < 2 * h →
      ((after k).regs b x).ndt.toNat = 2 * h - k ∧
      ((after k).engine b x).curMa = r.cmar + BitVec.ofNat 32 (k * n) ∧
      ((after k).regs b x).htif = (r.htif || decide (h ≤ k)) ∧ ((after k).regs b x).tcif = r.tcif) ∧
    (let r' := (after (2 * h)).regs b x
     r'.tcif = true ∧ r'.htif = true ∧ r'.ndt = r.ndt ∧ r'.ccr = r.ccr ∧
     ((after (2 * h)).engine b x).curMa = r.cmar)

/-- R372: the interrupt output is TCIF and TCIE, or HTIF and HTIE, or TEIF and TEIE, in terms of what ISR and CCR read
as. The formula is the spec's own general knowledge (R372): log entry 23. -/
def Obligations.InterruptOutput : Prop :=
  ∀ (b : Blk) (x : Ch) (s : State),
    let isr := regValue s b .isr
    let ccr := regValue s b (.ccr x)
    let g := 4 * (x.num - 1)
    s.irq b x =
      ((isr.getLsbD (g + 1) && ccr.getLsbD 1) || (isr.getLsbD (g + 2) && ccr.getLsbD 2) ||
        (isr.getLsbD (g + 3) && ccr.getLsbD 3))

/-! ## The controller's own memory accesses -/

/-- R151, R153, R162, R163, R152, R75: a load or store of the controller's program between two instructions. Not aligned
or not admitted: refused, the misalignment first (the model's choice of order: log entry 15). A load returns
memory's value, or, where a flag or count was read with no FENCE since or a byte is disturbed in a live object's
buffer, a draw. A store changes exactly its n bytes, little-endian, and notes them as unfenced and, for every live
object, those of its buffer as disturbed; no engine state changes. (Accesses as turns, the sticky observation and
the lists of bytes: log entries 13, 14, 15 and 30.) The byte order is the spec's own general knowledge (R152): log
entry 23. -/
def Obligations.ControllerAccesses : Prop :=
  ∀ (a v : Word) (size : ESize) (s s' : State), s.ready →
    let n := size.bytes
    let disturbed := ∃ k b x, k < n ∧ (a + BitVec.ofNat 32 k).toNat ∈
      match s.holder b x with | .circ cb => cb.disturbed | .xfer t => t.disturbed | _ => []
    let within (base : Word) (bytes : Nat) : List Nat :=
      (byteAddrs a n).filter fun j => decide ((BitVec.ofNat 32 j - base).toNat < bytes)
    (s.drawTurn = (.load a size, s') →
      (a.toNat % n ≠ 0 → step s = .next (s'.refuse .misaligned)) ∧
      (a.toNat % n = 0 → s.memAdmit a n = false → step s = .next (s'.refuse .memNotAdmitted)) ∧
      (a.toNat % n = 0 → s.memAdmit a n = true → s.unfencedRead = false → ¬disturbed →
        step s = .next { s' with loaded := some (memRead s.mem a n) }) ∧
      (∀ w ws, a.toNat % n = 0 → s.memAdmit a n = true → s.unfencedRead = true ∨ disturbed → s.env.values = w :: ws →
        step s = .next { s' with
          env := { s'.env with values := ws }
          loaded := some ((w.setWidth (8 * n)).setWidth 32) })) ∧
    (s.drawTurn = (.store a size v, s') →
      (a.toNat % n ≠ 0 → step s = .next (s'.refuse .misaligned)) ∧
      (a.toNat % n = 0 → s.memAdmit a n = false → step s = .next (s'.refuse .memNotAdmitted)) ∧
      (a.toNat % n = 0 → s.memAdmit a n = true →
        ∃ t, step s = .next t ∧
          t = { s' with mem := t.mem, owner := t.owner, unfencedWrites := s.unfencedWrites ++ byteAddrs a n } ∧
          (∀ k, k < n → t.mem.byteAt (a + BitVec.ofNat 32 k).toNat = v.extractLsb' (8 * k) 8) ∧
          (∀ j : Nat, (∀ k, k < n → j ≠ (a + BitVec.ofNat 32 k).toNat) → t.mem.byteAt j = s.mem.byteAt j) ∧
          ∀ b x, t.holder b x =
            match s.holder b x with
            | .circ cb =>
              .circ { cb with disturbed := cb.disturbed ++ within cb.base (2 * cb.h * cb.esize.bytes) }
            | .xfer tr => .xfer { tr with disturbed := tr.disturbed ++ within tr.base (tr.n * tr.esize.bytes) }
            | .unsplit => .unsplit
            | .handle => .handle))

/-- R152: memory is little-endian, and a read after a write of the same n bytes gives the value written. The byte order
is the spec's own general knowledge (R152): log entry 23. -/
def Obligations.MemoryLittleEndian : Prop :=
  ∀ (m : Memory) (a v : Word) (n : Nat), n ≤ 4 →
    (∀ k, k < n → (memRead m a n).extractLsb' (8 * k) 8 = m.byteAt (a + BitVec.ofNat 32 k).toNat) ∧
    (∀ k, n ≤ k → k < 4 → (memRead m a n).extractLsb' (8 * k) 8 = 0#8) ∧
    memRead (memWrite m a n v) a n = (v.setWidth (8 * n)).setWidth 32

/-! ## Frames and rules of the whole machine -/

/-- R53, R71, R150, R254, R266, R400, R407, R459, R500, R550, R619: the frame of every instruction, for every micro-step
that answers a next state, from any state. Memory, the peripheral log, the program and the launch parameters are
unchanged (no instruction stores to memory). The registers, engine and owner of every channel outside the
instruction's target are unchanged: register reads, WR ISR and FENCE have no target; WR IFCR, WR CSELR,
SELECT_REQUEST and SPLIT the block; the rest their own channel. The clock gates and split_done change only by SPLIT,
the request codes only by WR CSELR and SELECT_REQUEST. -/
def Obligations.InstructionFrame : Prop :=
  ∀ (i : Instr) (s t : State), exec i s = .next t →
    t.mem = s.mem ∧ t.periphLog = s.periphLog ∧ t.prog = s.prog ∧ t.plat = s.plat ∧
    (∀ b x, (Instr.target i).covers b x = false →
      t.regs b x = s.regs b x ∧ t.engine b x = s.engine b x ∧ t.holder b x = s.holder b x) ∧
    ((∀ b, i ≠ .split b) → t.clkEn = s.clkEn ∧ t.splitDone = s.splitDone) ∧
    ((∀ b v, i ≠ .wrCselr b v) → (∀ b x imm, i ≠ .selectRequest b x imm) →
      ∀ b x, (t.regs b x).cxs = (s.regs b x).cxs)

/-- R63, R367, R368, R608: no instruction sets a flag, and only those that write IFCR (WR IFCR, CLEAR_FLAGS, CLEAR_FLAG,
ANSWER_ISR, READABLE_HALF, PEEK, WAIT) change one; an engine step sets flags of its own channel only and clears
none, and it never sets TEIF together with HTIF or TCIF. -/
def Obligations.FlagsSetByEngineOnly : Prop :=
  (∀ (i : Instr) (s t : State), exec i s = .next t → ∀ b x,
    ((t.regs b x).tcif = true → (s.regs b x).tcif = true) ∧
    ((t.regs b x).htif = true → (s.regs b x).htif = true) ∧
    ((t.regs b x).teif = true → (s.regs b x).teif = true) ∧
    ((∀ v, i ≠ .wrIfcr b v) → (∀ f, i ≠ .clearFlag b x f) →
      i ∉ [.clearFlags b x, .answerIsr b x, .readableHalf b x, .peek b x, .wait b x] →
      (t.regs b x).tcif = (s.regs b x).tcif ∧ (t.regs b x).htif = (s.regs b x).htif ∧
        (t.regs b x).teif = (s.regs b x).teif)) ∧
  (∀ (b : Blk) (x : Ch) (lines : List Nat) (s t : State), t = elementTurn b x lines s ∨ t = stopTurn b x s →
    ((s.regs b x).tcif = true → (t.regs b x).tcif = true) ∧
    ((s.regs b x).htif = true → (t.regs b x).htif = true) ∧
    ((s.regs b x).teif = true → (t.regs b x).teif = true) ∧
    ((t.regs b x).teif = (s.regs b x).teif ∨
      ((t.regs b x).tcif = (s.regs b x).tcif ∧ (t.regs b x).htif = (s.regs b x).htif)) ∧
    ∀ c y, ¬(c = b ∧ y = x) → (t.regs c y).isrGroup = (s.regs c y).isrGroup)

/-- R76: a mark, once set, is never cleared or replaced by any step, SPLIT included; in a marked state the controller
has no further step; both marks are none at reset. -/
def Obligations.MarksNeverCleared : Prop :=
  (∀ s t : State, step s = .next t →
    (∀ m, s.fault = some m → t.fault = some m) ∧ (∀ r, s.refused = some r → t.refused = some r)) ∧
  (∀ (s s' : State) (turn : Turn), ¬s.unmarked → s.drawTurn = (turn, s') →
    (turn = .controller ∨ (∃ a n, turn = .load a n) ∨ ∃ a n v, turn = .store a n v) → ∀ t, step s ≠ .next t) ∧
  State.reset.fault = none ∧ State.reset.refused = none

/-- R619: with the clock off no transaction of the block is admitted (a BUS instruction is refused as ClockOff and
changes nothing) and no engine of the block steps; no step turns a clock gate off. -/
def Obligations.ClockGate : Prop :=
  (∀ (b : Blk) (s : State), s.clk b = false →
    (∀ r, rdReg b r s = .error (s.refuse .clockOff) ∧ ∀ v, wrReg b r v s = .error (s.refuse .clockOff)) ∧
    (s.ready → ∀ r, exec (readInstr b r) s = .next (s.refuse .clockOff) ∧
      ∀ v, exec (writeInstr b v r) s = .next (s.refuse .clockOff)) ∧
    ∀ x lines, elementTurn b x lines s = s ∧ stopTurn b x s = s) ∧
  (∀ s t : State, step s = .next t → ∀ b, s.clk b = true → t.clk b = true)

/-- R552, R70: SPLIT is the only operation that moves an owner out of Unsplit (its last micro-step, on the controller's
turn), and a second SPLIT of a block is refused. The premise rules out states no run reaches: it is the invariant of
`HoldersKept`. -/
def Obligations.SplitIsTheRootOfOwnership : Prop :=
  (∀ s t : State, s.holdersKept → step s = .next t → ∀ b x, s.holder b x = .unsplit → t.holder b x ≠ .unsplit →
    s.seq = .busy (.split b) (.z3 .c7) ∧ s.drawTurn.1 = .controller) ∧
  (∀ (b : Blk) (s : State), s.ready → s.splitDone.get b = true →
    exec (.split b) s = .next (s.refuse .alreadySplit))

/-- R460, R72, R73: once a CircBuffer owns a channel it does until reset, with its base, half capacity and element size
unchanged; the recorded half changes only by a flip (READABLE_HALF or PEEK, on the controller's turn). Premise: the
invariant of `HoldersKept`, and that no SPLIT of the block is in progress (a split of a block whose channel has an
owner is refused, so no run has one). -/
def Obligations.CircBufferLivesOn : Prop :=
  ∀ (s t : State) (b : Blk) (x : Ch) (cb : CircRec), s.holdersKept → (∀ l, s.seq ≠ .busy (.split b) l) →
    step s = .next t → s.holder b x = .circ cb →
    ∃ cb', t.holder b x = .circ cb' ∧ cb'.base = cb.base ∧ cb'.h = cb.h ∧ cb'.esize = cb.esize ∧
      (cb'.readableHalf ≠ cb.readableHalf →
        s.drawTurn.1 = .controller ∧
          ∃ r, s.seq = .busy (.readableHalf b x) (.h2 r) ∨ s.seq = .busy (.peek b x) (.h2 r))

/-! ## Invariants of every step -/

/-- The invariants below hold at reset: the canonical form of memory, legal enabled channels, bounded offsets, and
owners that match the operation in progress. -/
def Obligations.ResetMeetsInvariants : Prop :=
  State.reset.mem.wf = true ∧ State.reset.channelsLegal ∧ State.reset.offsetsBounded ∧ State.reset.holdersKept

/-- Every step keeps memory in its canonical form (R80: 32-bit byte addresses; the form itself is log entry 8). -/
def Obligations.MemoryFormKept : Prop := ∀ s t : State, s.mem.wf = true → step s = .next t → t.mem.wf = true

/-- R153, R257, R66: every step keeps each enabled channel legal (equal, unreserved sizes, no MEM2MEM, aligned
addresses) with its engine's current addresses aligned, so that misaligned accesses never occur; and only an enabled
channel is stopping. -/
def Obligations.ChannelsLegalKept : Prop :=
  ∀ s t : State, s.channelsLegal → step s = .next t → t.channelsLegal

/-- R73, R461: every step keeps `consumed_offset <= h` in every CircBuffer. -/
def Obligations.OffsetsBoundedKept : Prop :=
  ∀ s t : State, s.offsetsBounded → step s = .next t → t.offsetsBounded

/-- R400, R459, R500: every step keeps the channel of the operation in progress held by the object that the operation
works on. -/
def Obligations.HoldersKept : Prop := ∀ s t : State, s.holdersKept → step s = .next t → t.holdersKept

/-- R371, R364, R413: under the fairness of R371, a channel of a clocked block that is stopping at some point of a run
is later not stopping and disabled. Premise: the channels are legal at that point (the invariant of
`ChannelsLegalKept`). -/
def Obligations.StopsEventually : Prop :=
  ∀ r : Nat → State, IsRun r → StopFair r → ∀ b x k, (r k).channelsLegal → (r k).clk b = true →
    ((r k).engine b x).stopping = true →
    ∃ j, k < j ∧ ((r j).engine b x).stopping = false ∧ ((r j).regs b x).ccr.en = false
end

