-- ==== Sys2Proof/Laws/Encode.lean ====
section
/-! SUPPORT. The fields of the head words the encoder builds, and the small tables of the encoding with their inverses:
what a proof about decoding cites instead of unfolding the words. -/
namespace Sys2Proof

/-! ## Fields of a BUS head word (R201) -/

@[simp] theorem wordClass_busHead (b : Blk) (w : BitVec 1) (r : Reg) : wordClass (busHead b w r) = 0#2 := by
  apply BitVec.eq_of_getLsbD_eq
  intro i hi
  simp only [wordClass, busHead, BitVec.getLsbD_extractLsb', BitVec.getLsbD_append]
  interval_cases i <;> simp

@[simp] theorem busZero_busHead (b : Blk) (w : BitVec 1) (r : Reg) : busZero (busHead b w r) = 0#20 := by
  apply BitVec.eq_of_getLsbD_eq
  intro i hi
  simp only [busZero, busHead, BitVec.getLsbD_extractLsb', BitVec.getLsbD_append]
  interval_cases i <;> simp

@[simp] theorem busBlk_busHead (b : Blk) (w : BitVec 1) (r : Reg) : busBlk (busHead b w r) = b.bit := by
  apply BitVec.eq_of_getLsbD_eq
  intro i hi
  simp only [busBlk, busHead, BitVec.getLsbD_extractLsb', BitVec.getLsbD_append]
  interval_cases i
  simp

@[simp] theorem busW_busHead (b : Blk) (w : BitVec 1) (r : Reg) : busW (busHead b w r) = w := by
  apply BitVec.eq_of_getLsbD_eq
  intro i hi
  simp only [busW, busHead, BitVec.getLsbD_extractLsb', BitVec.getLsbD_append]
  interval_cases i
  simp

@[simp] theorem busOff_busHead (b : Blk) (w : BitVec 1) (r : Reg) : busOff (busHead b w r) = r.off := by
  apply BitVec.eq_of_getLsbD_eq
  intro i hi
  simp only [busOff, busHead, BitVec.getLsbD_extractLsb', BitVec.getLsbD_append]
  interval_cases i <;> simp

/-! ## Fields of a CMD head word (R203) -/

variable (op : BitVec 6) (ch : BitVec 3) (blk : BitVec 1) (sel : BitVec 4) (imm : BitVec 16)

@[simp] theorem wordClass_cmdHead : wordClass (cmdHead op ch blk sel imm) = 1#2 := by
  apply BitVec.eq_of_getLsbD_eq
  intro i hi
  simp only [wordClass, cmdHead, BitVec.getLsbD_extractLsb', BitVec.getLsbD_append]
  interval_cases i <;> simp

@[simp] theorem cmdOp_cmdHead : cmdOp (cmdHead op ch blk sel imm) = op := by
  apply BitVec.eq_of_getLsbD_eq
  intro i hi
  simp only [cmdOp, cmdHead, BitVec.getLsbD_extractLsb', BitVec.getLsbD_append]
  interval_cases i <;> simp

@[simp] theorem cmdCh_cmdHead : cmdCh (cmdHead op ch blk sel imm) = ch := by
  apply BitVec.eq_of_getLsbD_eq
  intro i hi
  simp only [cmdCh, cmdHead, BitVec.getLsbD_extractLsb', BitVec.getLsbD_append]
  interval_cases i <;> simp

@[simp] theorem cmdBlk_cmdHead : cmdBlk (cmdHead op ch blk sel imm) = blk := by
  apply BitVec.eq_of_getLsbD_eq
  intro i hi
  simp only [cmdBlk, cmdHead, BitVec.getLsbD_extractLsb', BitVec.getLsbD_append]
  interval_cases i
  simp

@[simp] theorem cmdSel_cmdHead : cmdSel (cmdHead op ch blk sel imm) = sel := by
  apply BitVec.eq_of_getLsbD_eq
  intro i hi
  simp only [cmdSel, cmdHead, BitVec.getLsbD_extractLsb', BitVec.getLsbD_append]
  interval_cases i <;> simp

@[simp] theorem cmdImm_cmdHead : cmdImm (cmdHead op ch blk sel imm) = imm := by
  apply BitVec.eq_of_getLsbD_eq
  intro i hi
  simp only [cmdImm, cmdHead, BitVec.getLsbD_extractLsb', BitVec.getLsbD_append]
  interval_cases i <;> simp

/-- A word of class CMD is its fields. -/
theorem cmdHead_fields (w : Word) (h : wordClass w = 1#2) :
    cmdHead (cmdOp w) (cmdCh w) (cmdBlk w) (cmdSel w) (cmdImm w) = w := by
  have hc : ∀ j, j < 2 → w.getLsbD (30 + j) = (1#2).getLsbD j := by
    intro j hj
    have := congrArg (fun v => v.getLsbD j) h
    simpa [wordClass, BitVec.getLsbD_extractLsb', hj] using this
  apply BitVec.eq_of_getLsbD_eq
  intro i hi
  simp only [cmdHead, cmdOp, cmdCh, cmdBlk, cmdSel, cmdImm, BitVec.getLsbD_extractLsb', BitVec.getLsbD_append]
  have h0 := hc 0 (by omega)
  have h1 := hc 1 (by omega)
  simp at h0 h1
  interval_cases i <;> simp [h0, h1]

/-! ## Small tables and their inverses -/

@[simp] theorem blkOf_bit (b : Blk) : blkOf b.bit = b := by cases b <;> rfl

@[simp] theorem bit_blkOf (v : BitVec 1) : (blkOf v).bit = v := by revert v; decide

@[simp] theorem chOf_bits (x : Ch) : chOf x.bits = some x := by cases x <;> rfl

theorem chOf_eq_some {v : BitVec 3} {x : Ch} (h : chOf v = some x) : v = x.bits := by
  revert v x
  decide +revert

@[simp] theorem regOfOff_off (r : Reg) : regOfOff r.off = some r := by
  cases r with
  | isr | ifcr | cselr => rfl
  | ccr x | cndtr x | cpar x | cmar x => cases x <;> rfl

@[simp] theorem off_aligned (r : Reg) : r.off.extractLsb' 0 2 = 0#2 := by
  cases r with
  | isr | ifcr | cselr => rfl
  | ccr x | cndtr x | cpar x | cmar x => cases x <;> rfl

end Sys2Proof
end

