-- ==== Sys2Proof/Laws/Memory.lean ====
section
/-! SUPPORT. The laws of memory: a read after a write, writes leave other addresses alone, every operation keeps the
canonical form. -/
namespace Sys2Proof.Machine
open Sys2Proof

theorem Memory.lookup_write (m : Memory) (a k : Nat) (v : Byte) :
    (m.write a v).lookup k = if k = a then some v else m.lookup k := by
  induction m with
  | nil => simp [Memory.write, Memory.lookup, eq_comm]
  | cons c m ih =>
    obtain ⟨j, w⟩ := c
    simp only [Memory.write]
    split
    · by_cases hk : k = a
      · simp [Memory.lookup, hk]
      · simp [Memory.lookup, hk, Ne.symm hk]
    · split
      · rename_i h1 h2
        subst h2
        by_cases hk : k = a
        · simp [Memory.lookup, hk]
        · simp [Memory.lookup, hk, Ne.symm hk]
      · rename_i h1 h2
        simp only [Memory.lookup, ih]
        by_cases hj : j = k
        · subst hj; simp [Ne.symm h2]
        · simp [hj]

/-- One byte of memory after a byte write. -/
theorem Memory.byteAt_write (m : Memory) (a k : Nat) (v : Byte) :
    (m.write a v).byteAt k = if k = a then v else m.byteAt k := by
  simp only [Memory.byteAt, Memory.lookup_write]
  split <;> simp

theorem Memory.risesFrom_write (m : Memory) (a lo : Nat) (v : Byte) (h : m.risesFrom lo = true) (hlo : lo ≤ a) :
    (m.write a v).risesFrom lo = true := by
  induction m generalizing lo with
  | nil => simp [Memory.write, Memory.risesFrom, hlo]
  | cons c m ih =>
    obtain ⟨j, w⟩ := c
    simp only [Memory.risesFrom, Bool.and_eq_true, decide_eq_true_eq] at h
    simp only [Memory.write]
    split
    · simp only [Memory.risesFrom, Bool.and_eq_true, decide_eq_true_eq]
      exact ⟨hlo, by omega, h.2⟩
    · split
      · rename_i h1 h2
        subst h2
        simp only [Memory.risesFrom, Bool.and_eq_true, decide_eq_true_eq]
        exact ⟨hlo, h.2⟩
      · simp only [Memory.risesFrom, Bool.and_eq_true, decide_eq_true_eq]
        exact ⟨h.1, ih _ h.2 (by omega)⟩

theorem Memory.all_write (m : Memory) (a : Nat) (v : Byte) (p : Host.Cell → Bool) (h : m.all p = true)
    (ha : p (a, v) = true) : (m.write a v).all p = true := by
  induction m with
  | nil => simp [Memory.write, ha]
  | cons c m ih =>
    obtain ⟨j, w⟩ := c
    simp only [List.all_cons, Bool.and_eq_true] at h
    simp only [Memory.write]
    split
    · simp [ha, h.1]; simpa using h.2
    · split
      · simp [ha]; simpa using h.2
      · simp only [List.all_cons, Bool.and_eq_true]; exact ⟨h.1, ih h.2⟩

/-- A byte write at a 32-bit address keeps the canonical form. -/
theorem Memory.wf_write (m : Memory) (a : Nat) (v : Byte) (h : m.wf = true) (ha : a < 2 ^ 32) :
    (m.write a v).wf = true := by
  simp only [Memory.wf, Bool.and_eq_true] at h ⊢
  exact ⟨Memory.risesFrom_write m a 0 v h.1 (Nat.zero_le _), Memory.all_write m a v _ h.2 (by simpa using ha)⟩

/-- `MemWrite` keeps the canonical form. -/
theorem memWrite_wf (n : Nat) (m : Memory) (a v : Word) (h : m.wf = true) : (memWrite m a n v).wf = true := by
  induction n generalizing m a v with
  | zero => exact h
  | succ n ih => exact ih _ _ _ (Memory.wf_write _ _ _ h a.isLt)

@[simp] theorem byteAddrs_length (a : Word) (n : Nat) : (byteAddrs a n).length = n := by simp [byteAddrs]

theorem mem_byteAddrs {a : Word} {n j : Nat} :
    j ∈ byteAddrs a n ↔ ∃ k, k < n ∧ (a + BitVec.ofNat 32 k).toNat = j := by
  simp [byteAddrs]

/-- `MemWrite` leaves every byte outside the access alone. -/
theorem memWrite_byteAt_outside (n : Nat) (m : Memory) (a v : Word) (j : Nat) (h : j ∉ byteAddrs a n) :
    (memWrite m a n v).byteAt j = m.byteAt j := by
  induction n generalizing m a v with
  | zero => rfl
  | succ n ih =>
    rw [mem_byteAddrs] at h
    have h0 : j ≠ a.toNat := fun hj => h ⟨0, by omega, by simp [hj]⟩
    rw [memWrite, ih, Memory.byteAt_write, if_neg h0]
    rw [mem_byteAddrs]
    rintro ⟨k, hk, he⟩
    refine h ⟨k + 1, by omega, ?_⟩
    rw [← he]
    congr 1
    apply BitVec.eq_of_toNat_eq
    simp [BitVec.toNat_add]
    omega

/-- `MemWrite` stores byte k of the value at `a + k` (R152), for the access sizes that do not meet themselves. -/
theorem memWrite_byteAt_inside (n : Nat) (m : Memory) (a v : Word) (k : Nat) (hk : k < n) (hn : n ≤ 8) :
    (memWrite m a n v).byteAt (a + BitVec.ofNat 32 k).toNat = (v >>> (8 * k)).setWidth 8 := by
  induction n generalizing m a v k with
  | zero => omega
  | succ n ih =>
    rw [memWrite]
    cases k with
    | zero =>
      rw [memWrite_byteAt_outside]
      · simp [Memory.byteAt_write]
      · rw [mem_byteAddrs]
        rintro ⟨j, hj, he⟩
        have := congrArg (fun z => z) he
        simp only [BitVec.toNat_add, BitVec.toNat_ofNat] at this
        omega
    | succ k =>
      have e : a + BitVec.ofNat 32 (k + 1) = (a + 1#32) + BitVec.ofNat 32 k := by
        apply BitVec.eq_of_toNat_eq
        simp [BitVec.toNat_add]
        omega
      rw [e, ih _ _ _ _ (by omega) (by omega), Nat.mul_succ, Nat.add_comm, BitVec.shiftRight_add]

end Sys2Proof.Machine
end

