-- ==== Sys2Proof/Laws/State.lean ====
section
/-! SUPPORT. The small lemmas of the tables and of the state's update functions: what each field is after each named
update, so that no proof unfolds a record update. -/
namespace Sys2Proof.Machine
open Sys2Proof

/-! ## Tables -/

@[simp] theorem ByCh.get_set_self {α : Type} (t : ByCh α) (x : Ch) (v : α) : (t.set x v).get x = v := by cases x <;> rfl

theorem ByCh.get_set_ne {α : Type} (t : ByCh α) {x y : Ch} (v : α) (h : y ≠ x) : (t.set x v).get y = t.get y := by
  cases x <;> cases y <;> first | rfl | exact absurd rfl h

theorem ByCh.get_set {α : Type} (t : ByCh α) (x y : Ch) (v : α) :
    (t.set x v).get y = if y = x then v else t.get y := by
  by_cases h : y = x
  · subst h; simp
  · simp [h, ByCh.get_set_ne]

@[simp] theorem ByCh.get_ofFn {α : Type} (f : Ch → α) (x : Ch) : (ByCh.ofFn f).get x = f x := by cases x <;> rfl

@[simp] theorem ByCh.get_all {α : Type} (v : α) (x : Ch) : (ByCh.all v).get x = v := by cases x <;> rfl

theorem ByCh.ext_get {α : Type} {t u : ByCh α} (h : ∀ x, t.get x = u.get x) : t = u := by
  cases t; cases u
  have h1 := h .c1; have h2 := h .c2; have h3 := h .c3; have h4 := h .c4
  have h5 := h .c5; have h6 := h .c6; have h7 := h .c7
  simp only [ByCh.get] at h1 h2 h3 h4 h5 h6 h7
  subst h1 h2 h3 h4 h5 h6 h7
  rfl

@[simp] theorem ByCh.set_get_self {α : Type} (t : ByCh α) (x : Ch) : t.set x (t.get x) = t := by cases x <;> rfl

@[simp] theorem ByCh.set_set {α : Type} (t : ByCh α) (x : Ch) (v w : α) : (t.set x v).set x w = t.set x w := by
  cases x <;> rfl

@[simp] theorem ByBlk.get_set_self {α : Type} (t : ByBlk α) (b : Blk) (v : α) : (t.set b v).get b = v := by
  cases b <;> rfl

theorem ByBlk.get_set_ne {α : Type} (t : ByBlk α) {b c : Blk} (v : α) (h : c ≠ b) : (t.set b v).get c = t.get c := by
  cases b <;> cases c <;> first | rfl | exact absurd rfl h

theorem ByBlk.get_set {α : Type} (t : ByBlk α) (b c : Blk) (v : α) :
    (t.set b v).get c = if c = b then v else t.get c := by
  by_cases h : c = b
  · subst h; simp
  · simp [h, ByBlk.get_set_ne]

@[simp] theorem ByBlk.get_ofFn {α : Type} (f : Blk → α) (b : Blk) : (ByBlk.ofFn f).get b = f b := by cases b <;> rfl

@[simp] theorem ByBlk.get_all {α : Type} (v : α) (b : Blk) : (ByBlk.all v).get b = v := by cases b <;> rfl

theorem ByBlk.ext_get {α : Type} {t u : ByBlk α} (h : ∀ b, t.get b = u.get b) : t = u := by
  cases t; cases u
  have h1 := h .dma1; have h2 := h .dma2
  simp only [ByBlk.get] at h1 h2
  subst h1 h2
  rfl

@[simp] theorem ByBlk.set_get_self {α : Type} (t : ByBlk α) (b : Blk) : t.set b (t.get b) = t := by cases b <;> rfl

@[simp] theorem ByBlk.set_set {α : Type} (t : ByBlk α) (b : Blk) (v w : α) : (t.set b v).set b w = t.set b w := by
  cases b <;> rfl

/-! ## Accessors after updates -/

@[simp] theorem State.regs_setRegs_self (s : State) (b : Blk) (x : Ch) (v) : (s.setRegs b x v).regs b x = v := by
  simp [State.regs, State.setRegs]

theorem State.regs_setRegs (s : State) (b c : Blk) (x y : Ch) (v) :
    (s.setRegs b x v).regs c y = if c = b ∧ y = x then v else s.regs c y := by
  by_cases hb : c = b
  · subst hb
    by_cases hx : y = x
    · subst hx; simp
    · simp [State.regs, State.setRegs, hx, ByCh.get_set_ne]
  · simp [State.regs, State.setRegs, hb, ByBlk.get_set_ne]

theorem State.regs_setRegs_ne (s : State) {b c : Blk} {x y : Ch} (v) (h : ¬(c = b ∧ y = x)) :
    (s.setRegs b x v).regs c y = s.regs c y := by rw [State.regs_setRegs, if_neg h]

@[simp] theorem State.engine_setEngine_self (s : State) (b : Blk) (x : Ch) (v) : (s.setEngine b x v).engine b x = v := by
  simp [State.engine, State.setEngine]

theorem State.engine_setEngine (s : State) (b c : Blk) (x y : Ch) (v) :
    (s.setEngine b x v).engine c y = if c = b ∧ y = x then v else s.engine c y := by
  by_cases hb : c = b
  · subst hb
    by_cases hx : y = x
    · subst hx; simp
    · simp [State.engine, State.setEngine, hx, ByCh.get_set_ne]
  · simp [State.engine, State.setEngine, hb, ByBlk.get_set_ne]

theorem State.engine_setEngine_ne (s : State) {b c : Blk} {x y : Ch} (v) (h : ¬(c = b ∧ y = x)) :
    (s.setEngine b x v).engine c y = s.engine c y := by rw [State.engine_setEngine, if_neg h]

@[simp] theorem State.holder_setHolder_self (s : State) (b : Blk) (x : Ch) (v) : (s.setHolder b x v).holder b x = v := by
  simp [State.holder, State.setHolder]

theorem State.holder_setHolder (s : State) (b c : Blk) (x y : Ch) (v) :
    (s.setHolder b x v).holder c y = if c = b ∧ y = x then v else s.holder c y := by
  by_cases hb : c = b
  · subst hb
    by_cases hx : y = x
    · subst hx; simp
    · simp [State.holder, State.setHolder, hx, ByCh.get_set_ne]
  · simp [State.holder, State.setHolder, hb, ByBlk.get_set_ne]

theorem State.holder_setHolder_ne (s : State) {b c : Blk} {x y : Ch} (v) (h : ¬(c = b ∧ y = x)) :
    (s.setHolder b x v).holder c y = s.holder c y := by rw [State.holder_setHolder, if_neg h]

/-! ### `setRegs` -/

@[simp] theorem State.setRegs_clkEn (s : State) (b : Blk) (x : Ch) (r : ChanRegs) : (s.setRegs b x r).clkEn = s.clkEn := rfl
theorem State.setRegs_chan (s : State) (b : Blk) (x : Ch) (r : ChanRegs) : (s.setRegs b x r).chan = s.chan.set b ((s.chan.get b).set x r) := rfl
@[simp] theorem State.setRegs_eng (s : State) (b : Blk) (x : Ch) (r : ChanRegs) : (s.setRegs b x r).eng = s.eng := rfl
@[simp] theorem State.setRegs_owner (s : State) (b : Blk) (x : Ch) (r : ChanRegs) : (s.setRegs b x r).owner = s.owner := rfl
@[simp] theorem State.setRegs_splitDone (s : State) (b : Blk) (x : Ch) (r : ChanRegs) : (s.setRegs b x r).splitDone = s.splitDone := rfl
@[simp] theorem State.setRegs_seq (s : State) (b : Blk) (x : Ch) (r : ChanRegs) : (s.setRegs b x r).seq = s.seq := rfl
@[simp] theorem State.setRegs_fault (s : State) (b : Blk) (x : Ch) (r : ChanRegs) : (s.setRegs b x r).fault = s.fault := rfl
@[simp] theorem State.setRegs_refused (s : State) (b : Blk) (x : Ch) (r : ChanRegs) : (s.setRegs b x r).refused = s.refused := rfl
@[simp] theorem State.setRegs_mem (s : State) (b : Blk) (x : Ch) (r : ChanRegs) : (s.setRegs b x r).mem = s.mem := rfl
@[simp] theorem State.setRegs_periphLog (s : State) (b : Blk) (x : Ch) (r : ChanRegs) : (s.setRegs b x r).periphLog = s.periphLog := rfl
@[simp] theorem State.setRegs_unfencedRead (s : State) (b : Blk) (x : Ch) (r : ChanRegs) : (s.setRegs b x r).unfencedRead = s.unfencedRead := rfl
@[simp] theorem State.setRegs_unfencedWrites (s : State) (b : Blk) (x : Ch) (r : ChanRegs) : (s.setRegs b x r).unfencedWrites = s.unfencedWrites := rfl
@[simp] theorem State.setRegs_result (s : State) (b : Blk) (x : Ch) (r : ChanRegs) : (s.setRegs b x r).result = s.result := rfl
@[simp] theorem State.setRegs_loaded (s : State) (b : Blk) (x : Ch) (r : ChanRegs) : (s.setRegs b x r).loaded = s.loaded := rfl
@[simp] theorem State.setRegs_prog (s : State) (b : Blk) (x : Ch) (r : ChanRegs) : (s.setRegs b x r).prog = s.prog := rfl
@[simp] theorem State.setRegs_plat (s : State) (b : Blk) (x : Ch) (r : ChanRegs) : (s.setRegs b x r).plat = s.plat := rfl
@[simp] theorem State.setRegs_env (s : State) (b : Blk) (x : Ch) (r : ChanRegs) : (s.setRegs b x r).env = s.env := rfl
@[simp] theorem State.setRegs_clk (s : State) (b : Blk) (x : Ch) (r : ChanRegs) (c : Blk) : (s.setRegs b x r).clk c = s.clk c := rfl
@[simp] theorem State.setRegs_engine (s : State) (b : Blk) (x : Ch) (r : ChanRegs) (c : Blk) (y : Ch) : (s.setRegs b x r).engine c y = s.engine c y := rfl
@[simp] theorem State.setRegs_holder (s : State) (b : Blk) (x : Ch) (r : ChanRegs) (c : Blk) (y : Ch) : (s.setRegs b x r).holder c y = s.holder c y := rfl

/-! ### `setEngine` -/

@[simp] theorem State.setEngine_clkEn (s : State) (b : Blk) (x : Ch) (e : Engine) : (s.setEngine b x e).clkEn = s.clkEn := rfl
@[simp] theorem State.setEngine_chan (s : State) (b : Blk) (x : Ch) (e : Engine) : (s.setEngine b x e).chan = s.chan := rfl
theorem State.setEngine_eng (s : State) (b : Blk) (x : Ch) (e : Engine) : (s.setEngine b x e).eng = s.eng.set b ((s.eng.get b).set x e) := rfl
@[simp] theorem State.setEngine_owner (s : State) (b : Blk) (x : Ch) (e : Engine) : (s.setEngine b x e).owner = s.owner := rfl
@[simp] theorem State.setEngine_splitDone (s : State) (b : Blk) (x : Ch) (e : Engine) : (s.setEngine b x e).splitDone = s.splitDone := rfl
@[simp] theorem State.setEngine_seq (s : State) (b : Blk) (x : Ch) (e : Engine) : (s.setEngine b x e).seq = s.seq := rfl
@[simp] theorem State.setEngine_fault (s : State) (b : Blk) (x : Ch) (e : Engine) : (s.setEngine b x e).fault = s.fault := rfl
@[simp] theorem State.setEngine_refused (s : State) (b : Blk) (x : Ch) (e : Engine) : (s.setEngine b x e).refused = s.refused := rfl
@[simp] theorem State.setEngine_mem (s : State) (b : Blk) (x : Ch) (e : Engine) : (s.setEngine b x e).mem = s.mem := rfl
@[simp] theorem State.setEngine_periphLog (s : State) (b : Blk) (x : Ch) (e : Engine) : (s.setEngine b x e).periphLog = s.periphLog := rfl
@[simp] theorem State.setEngine_unfencedRead (s : State) (b : Blk) (x : Ch) (e : Engine) : (s.setEngine b x e).unfencedRead = s.unfencedRead := rfl
@[simp] theorem State.setEngine_unfencedWrites (s : State) (b : Blk) (x : Ch) (e : Engine) : (s.setEngine b x e).unfencedWrites = s.unfencedWrites := rfl
@[simp] theorem State.setEngine_result (s : State) (b : Blk) (x : Ch) (e : Engine) : (s.setEngine b x e).result = s.result := rfl
@[simp] theorem State.setEngine_loaded (s : State) (b : Blk) (x : Ch) (e : Engine) : (s.setEngine b x e).loaded = s.loaded := rfl
@[simp] theorem State.setEngine_prog (s : State) (b : Blk) (x : Ch) (e : Engine) : (s.setEngine b x e).prog = s.prog := rfl
@[simp] theorem State.setEngine_plat (s : State) (b : Blk) (x : Ch) (e : Engine) : (s.setEngine b x e).plat = s.plat := rfl
@[simp] theorem State.setEngine_env (s : State) (b : Blk) (x : Ch) (e : Engine) : (s.setEngine b x e).env = s.env := rfl
@[simp] theorem State.setEngine_clk (s : State) (b : Blk) (x : Ch) (e : Engine) (c : Blk) : (s.setEngine b x e).clk c = s.clk c := rfl
@[simp] theorem State.setEngine_regs (s : State) (b : Blk) (x : Ch) (e : Engine) (c : Blk) (y : Ch) : (s.setEngine b x e).regs c y = s.regs c y := rfl
@[simp] theorem State.setEngine_holder (s : State) (b : Blk) (x : Ch) (e : Engine) (c : Blk) (y : Ch) : (s.setEngine b x e).holder c y = s.holder c y := rfl

/-! ### `setHolder` -/

@[simp] theorem State.setHolder_clkEn (s : State) (b : Blk) (x : Ch) (o : Owner) : (s.setHolder b x o).clkEn = s.clkEn := rfl
@[simp] theorem State.setHolder_chan (s : State) (b : Blk) (x : Ch) (o : Owner) : (s.setHolder b x o).chan = s.chan := rfl
@[simp] theorem State.setHolder_eng (s : State) (b : Blk) (x : Ch) (o : Owner) : (s.setHolder b x o).eng = s.eng := rfl
theorem State.setHolder_owner (s : State) (b : Blk) (x : Ch) (o : Owner) : (s.setHolder b x o).owner = s.owner.set b ((s.owner.get b).set x o) := rfl
@[simp] theorem State.setHolder_splitDone (s : State) (b : Blk) (x : Ch) (o : Owner) : (s.setHolder b x o).splitDone = s.splitDone := rfl
@[simp] theorem State.setHolder_seq (s : State) (b : Blk) (x : Ch) (o : Owner) : (s.setHolder b x o).seq = s.seq := rfl
@[simp] theorem State.setHolder_fault (s : State) (b : Blk) (x : Ch) (o : Owner) : (s.setHolder b x o).fault = s.fault := rfl
@[simp] theorem State.setHolder_refused (s : State) (b : Blk) (x : Ch) (o : Owner) : (s.setHolder b x o).refused = s.refused := rfl
@[simp] theorem State.setHolder_mem (s : State) (b : Blk) (x : Ch) (o : Owner) : (s.setHolder b x o).mem = s.mem := rfl
@[simp] theorem State.setHolder_periphLog (s : State) (b : Blk) (x : Ch) (o : Owner) : (s.setHolder b x o).periphLog = s.periphLog := rfl
@[simp] theorem State.setHolder_unfencedRead (s : State) (b : Blk) (x : Ch) (o : Owner) : (s.setHolder b x o).unfencedRead = s.unfencedRead := rfl
@[simp] theorem State.setHolder_unfencedWrites (s : State) (b : Blk) (x : Ch) (o : Owner) : (s.setHolder b x o).unfencedWrites = s.unfencedWrites := rfl
@[simp] theorem State.setHolder_result (s : State) (b : Blk) (x : Ch) (o : Owner) : (s.setHolder b x o).result = s.result := rfl
@[simp] theorem State.setHolder_loaded (s : State) (b : Blk) (x : Ch) (o : Owner) : (s.setHolder b x o).loaded = s.loaded := rfl
@[simp] theorem State.setHolder_prog (s : State) (b : Blk) (x : Ch) (o : Owner) : (s.setHolder b x o).prog = s.prog := rfl
@[simp] theorem State.setHolder_plat (s : State) (b : Blk) (x : Ch) (o : Owner) : (s.setHolder b x o).plat = s.plat := rfl
@[simp] theorem State.setHolder_env (s : State) (b : Blk) (x : Ch) (o : Owner) : (s.setHolder b x o).env = s.env := rfl
@[simp] theorem State.setHolder_clk (s : State) (b : Blk) (x : Ch) (o : Owner) (c : Blk) : (s.setHolder b x o).clk c = s.clk c := rfl
@[simp] theorem State.setHolder_regs (s : State) (b : Blk) (x : Ch) (o : Owner) (c : Blk) (y : Ch) : (s.setHolder b x o).regs c y = s.regs c y := rfl
@[simp] theorem State.setHolder_engine (s : State) (b : Blk) (x : Ch) (o : Owner) (c : Blk) (y : Ch) : (s.setHolder b x o).engine c y = s.engine c y := rfl

/-! ### `refuse` -/

@[simp] theorem State.refuse_clkEn (s : State) (r : RefuseReason) : (s.refuse r).clkEn = s.clkEn := rfl
@[simp] theorem State.refuse_chan (s : State) (r : RefuseReason) : (s.refuse r).chan = s.chan := rfl
@[simp] theorem State.refuse_eng (s : State) (r : RefuseReason) : (s.refuse r).eng = s.eng := rfl
@[simp] theorem State.refuse_owner (s : State) (r : RefuseReason) : (s.refuse r).owner = s.owner := rfl
@[simp] theorem State.refuse_splitDone (s : State) (r : RefuseReason) : (s.refuse r).splitDone = s.splitDone := rfl
@[simp] theorem State.refuse_seq (s : State) (r : RefuseReason) : (s.refuse r).seq = s.seq := rfl
@[simp] theorem State.refuse_fault (s : State) (r : RefuseReason) : (s.refuse r).fault = s.fault := rfl
@[simp] theorem State.refuse_refused (s : State) (r : RefuseReason) : (s.refuse r).refused = some r := rfl
@[simp] theorem State.refuse_mem (s : State) (r : RefuseReason) : (s.refuse r).mem = s.mem := rfl
@[simp] theorem State.refuse_periphLog (s : State) (r : RefuseReason) : (s.refuse r).periphLog = s.periphLog := rfl
@[simp] theorem State.refuse_unfencedRead (s : State) (r : RefuseReason) : (s.refuse r).unfencedRead = s.unfencedRead := rfl
@[simp] theorem State.refuse_unfencedWrites (s : State) (r : RefuseReason) : (s.refuse r).unfencedWrites = s.unfencedWrites := rfl
@[simp] theorem State.refuse_result (s : State) (r : RefuseReason) : (s.refuse r).result = s.result := rfl
@[simp] theorem State.refuse_loaded (s : State) (r : RefuseReason) : (s.refuse r).loaded = s.loaded := rfl
@[simp] theorem State.refuse_prog (s : State) (r : RefuseReason) : (s.refuse r).prog = s.prog := rfl
@[simp] theorem State.refuse_plat (s : State) (r : RefuseReason) : (s.refuse r).plat = s.plat := rfl
@[simp] theorem State.refuse_env (s : State) (r : RefuseReason) : (s.refuse r).env = s.env := rfl
@[simp] theorem State.refuse_clk (s : State) (r : RefuseReason) (c : Blk) : (s.refuse r).clk c = s.clk c := rfl
@[simp] theorem State.refuse_regs (s : State) (r : RefuseReason) (c : Blk) (y : Ch) : (s.refuse r).regs c y = s.regs c y := rfl
@[simp] theorem State.refuse_engine (s : State) (r : RefuseReason) (c : Blk) (y : Ch) : (s.refuse r).engine c y = s.engine c y := rfl
@[simp] theorem State.refuse_holder (s : State) (r : RefuseReason) (c : Blk) (y : Ch) : (s.refuse r).holder c y = s.holder c y := rfl

/-! ### `takeFault` -/

@[simp] theorem State.takeFault_clkEn (s : State) (m : FaultReason) (op : Instr) (b : Blk) (x : Ch) : (s.takeFault m op b x).clkEn = s.clkEn := rfl
@[simp] theorem State.takeFault_chan (s : State) (m : FaultReason) (op : Instr) (b : Blk) (x : Ch) : (s.takeFault m op b x).chan = s.chan := rfl
@[simp] theorem State.takeFault_eng (s : State) (m : FaultReason) (op : Instr) (b : Blk) (x : Ch) : (s.takeFault m op b x).eng = s.eng := rfl
@[simp] theorem State.takeFault_owner (s : State) (m : FaultReason) (op : Instr) (b : Blk) (x : Ch) : (s.takeFault m op b x).owner = s.owner := rfl
@[simp] theorem State.takeFault_splitDone (s : State) (m : FaultReason) (op : Instr) (b : Blk) (x : Ch) : (s.takeFault m op b x).splitDone = s.splitDone := rfl
@[simp] theorem State.takeFault_seq (s : State) (m : FaultReason) (op : Instr) (b : Blk) (x : Ch) : (s.takeFault m op b x).seq = s.seq := rfl
@[simp] theorem State.takeFault_fault (s : State) (m : FaultReason) (op : Instr) (b : Blk) (x : Ch) : (s.takeFault m op b x).fault = some ⟨m, op, b, x⟩ := rfl
@[simp] theorem State.takeFault_refused (s : State) (m : FaultReason) (op : Instr) (b : Blk) (x : Ch) : (s.takeFault m op b x).refused = s.refused := rfl
@[simp] theorem State.takeFault_mem (s : State) (m : FaultReason) (op : Instr) (b : Blk) (x : Ch) : (s.takeFault m op b x).mem = s.mem := rfl
@[simp] theorem State.takeFault_periphLog (s : State) (m : FaultReason) (op : Instr) (b : Blk) (x : Ch) : (s.takeFault m op b x).periphLog = s.periphLog := rfl
@[simp] theorem State.takeFault_unfencedRead (s : State) (m : FaultReason) (op : Instr) (b : Blk) (x : Ch) : (s.takeFault m op b x).unfencedRead = s.unfencedRead := rfl
@[simp] theorem State.takeFault_unfencedWrites (s : State) (m : FaultReason) (op : Instr) (b : Blk) (x : Ch) : (s.takeFault m op b x).unfencedWrites = s.unfencedWrites := rfl
@[simp] theorem State.takeFault_result (s : State) (m : FaultReason) (op : Instr) (b : Blk) (x : Ch) : (s.takeFault m op b x).result = s.result := rfl
@[simp] theorem State.takeFault_loaded (s : State) (m : FaultReason) (op : Instr) (b : Blk) (x : Ch) : (s.takeFault m op b x).loaded = s.loaded := rfl
@[simp] theorem State.takeFault_prog (s : State) (m : FaultReason) (op : Instr) (b : Blk) (x : Ch) : (s.takeFault m op b x).prog = s.prog := rfl
@[simp] theorem State.takeFault_plat (s : State) (m : FaultReason) (op : Instr) (b : Blk) (x : Ch) : (s.takeFault m op b x).plat = s.plat := rfl
@[simp] theorem State.takeFault_env (s : State) (m : FaultReason) (op : Instr) (b : Blk) (x : Ch) : (s.takeFault m op b x).env = s.env := rfl
@[simp] theorem State.takeFault_clk (s : State) (m : FaultReason) (op : Instr) (b : Blk) (x : Ch) (c : Blk) : (s.takeFault m op b x).clk c = s.clk c := rfl
@[simp] theorem State.takeFault_regs (s : State) (m : FaultReason) (op : Instr) (b : Blk) (x : Ch) (c : Blk) (y : Ch) : (s.takeFault m op b x).regs c y = s.regs c y := rfl
@[simp] theorem State.takeFault_engine (s : State) (m : FaultReason) (op : Instr) (b : Blk) (x : Ch) (c : Blk) (y : Ch) : (s.takeFault m op b x).engine c y = s.engine c y := rfl
@[simp] theorem State.takeFault_holder (s : State) (m : FaultReason) (op : Instr) (b : Blk) (x : Ch) (c : Blk) (y : Ch) : (s.takeFault m op b x).holder c y = s.holder c y := rfl

/-! ### `goto` -/

@[simp] theorem State.goto_clkEn (s : State) (op : Instr) (l : Label) : (s.goto op l).clkEn = s.clkEn := rfl
@[simp] theorem State.goto_chan (s : State) (op : Instr) (l : Label) : (s.goto op l).chan = s.chan := rfl
@[simp] theorem State.goto_eng (s : State) (op : Instr) (l : Label) : (s.goto op l).eng = s.eng := rfl
@[simp] theorem State.goto_owner (s : State) (op : Instr) (l : Label) : (s.goto op l).owner = s.owner := rfl
@[simp] theorem State.goto_splitDone (s : State) (op : Instr) (l : Label) : (s.goto op l).splitDone = s.splitDone := rfl
@[simp] theorem State.goto_seq (s : State) (op : Instr) (l : Label) : (s.goto op l).seq = .busy op l := rfl
@[simp] theorem State.goto_fault (s : State) (op : Instr) (l : Label) : (s.goto op l).fault = s.fault := rfl
@[simp] theorem State.goto_refused (s : State) (op : Instr) (l : Label) : (s.goto op l).refused = s.refused := rfl
@[simp] theorem State.goto_mem (s : State) (op : Instr) (l : Label) : (s.goto op l).mem = s.mem := rfl
@[simp] theorem State.goto_periphLog (s : State) (op : Instr) (l : Label) : (s.goto op l).periphLog = s.periphLog := rfl
@[simp] theorem State.goto_unfencedRead (s : State) (op : Instr) (l : Label) : (s.goto op l).unfencedRead = s.unfencedRead := rfl
@[simp] theorem State.goto_unfencedWrites (s : State) (op : Instr) (l : Label) : (s.goto op l).unfencedWrites = s.unfencedWrites := rfl
@[simp] theorem State.goto_result (s : State) (op : Instr) (l : Label) : (s.goto op l).result = s.result := rfl
@[simp] theorem State.goto_loaded (s : State) (op : Instr) (l : Label) : (s.goto op l).loaded = s.loaded := rfl
@[simp] theorem State.goto_prog (s : State) (op : Instr) (l : Label) : (s.goto op l).prog = s.prog := rfl
@[simp] theorem State.goto_plat (s : State) (op : Instr) (l : Label) : (s.goto op l).plat = s.plat := rfl
@[simp] theorem State.goto_env (s : State) (op : Instr) (l : Label) : (s.goto op l).env = s.env := rfl
@[simp] theorem State.goto_clk (s : State) (op : Instr) (l : Label) (c : Blk) : (s.goto op l).clk c = s.clk c := rfl
@[simp] theorem State.goto_regs (s : State) (op : Instr) (l : Label) (c : Blk) (y : Ch) : (s.goto op l).regs c y = s.regs c y := rfl
@[simp] theorem State.goto_engine (s : State) (op : Instr) (l : Label) (c : Blk) (y : Ch) : (s.goto op l).engine c y = s.engine c y := rfl
@[simp] theorem State.goto_holder (s : State) (op : Instr) (l : Label) (c : Blk) (y : Ch) : (s.goto op l).holder c y = s.holder c y := rfl

/-! ### `ret` -/

@[simp] theorem State.ret_clkEn (s : State) (r : Result) : (s.ret r).clkEn = s.clkEn := rfl
@[simp] theorem State.ret_chan (s : State) (r : Result) : (s.ret r).chan = s.chan := rfl
@[simp] theorem State.ret_eng (s : State) (r : Result) : (s.ret r).eng = s.eng := rfl
@[simp] theorem State.ret_owner (s : State) (r : Result) : (s.ret r).owner = s.owner := rfl
@[simp] theorem State.ret_splitDone (s : State) (r : Result) : (s.ret r).splitDone = s.splitDone := rfl
@[simp] theorem State.ret_seq (s : State) (r : Result) : (s.ret r).seq = .idle := rfl
@[simp] theorem State.ret_fault (s : State) (r : Result) : (s.ret r).fault = s.fault := rfl
@[simp] theorem State.ret_refused (s : State) (r : Result) : (s.ret r).refused = s.refused := rfl
@[simp] theorem State.ret_mem (s : State) (r : Result) : (s.ret r).mem = s.mem := rfl
@[simp] theorem State.ret_periphLog (s : State) (r : Result) : (s.ret r).periphLog = s.periphLog := rfl
@[simp] theorem State.ret_unfencedRead (s : State) (r : Result) : (s.ret r).unfencedRead = s.unfencedRead := rfl
@[simp] theorem State.ret_unfencedWrites (s : State) (r : Result) : (s.ret r).unfencedWrites = s.unfencedWrites := rfl
@[simp] theorem State.ret_result (s : State) (r : Result) : (s.ret r).result = some r := rfl
@[simp] theorem State.ret_loaded (s : State) (r : Result) : (s.ret r).loaded = s.loaded := rfl
@[simp] theorem State.ret_prog (s : State) (r : Result) : (s.ret r).prog = s.prog := rfl
@[simp] theorem State.ret_plat (s : State) (r : Result) : (s.ret r).plat = s.plat := rfl
@[simp] theorem State.ret_env (s : State) (r : Result) : (s.ret r).env = s.env := rfl
@[simp] theorem State.ret_clk (s : State) (r : Result) (c : Blk) : (s.ret r).clk c = s.clk c := rfl
@[simp] theorem State.ret_regs (s : State) (r : Result) (c : Blk) (y : Ch) : (s.ret r).regs c y = s.regs c y := rfl
@[simp] theorem State.ret_engine (s : State) (r : Result) (c : Blk) (y : Ch) : (s.ret r).engine c y = s.engine c y := rfl
@[simp] theorem State.ret_holder (s : State) (r : Result) (c : Blk) (y : Ch) : (s.ret r).holder c y = s.holder c y := rfl

/-! ### `fence` -/

@[simp] theorem State.fence_clkEn (s : State) : (s.fence).clkEn = s.clkEn := rfl
@[simp] theorem State.fence_chan (s : State) : (s.fence).chan = s.chan := rfl
@[simp] theorem State.fence_eng (s : State) : (s.fence).eng = s.eng := rfl
@[simp] theorem State.fence_owner (s : State) : (s.fence).owner = s.owner := rfl
@[simp] theorem State.fence_splitDone (s : State) : (s.fence).splitDone = s.splitDone := rfl
@[simp] theorem State.fence_seq (s : State) : (s.fence).seq = s.seq := rfl
@[simp] theorem State.fence_fault (s : State) : (s.fence).fault = s.fault := rfl
@[simp] theorem State.fence_refused (s : State) : (s.fence).refused = s.refused := rfl
@[simp] theorem State.fence_mem (s : State) : (s.fence).mem = s.mem := rfl
@[simp] theorem State.fence_periphLog (s : State) : (s.fence).periphLog = s.periphLog := rfl
@[simp] theorem State.fence_unfencedRead (s : State) : (s.fence).unfencedRead = false := rfl
@[simp] theorem State.fence_unfencedWrites (s : State) : (s.fence).unfencedWrites = [] := rfl
@[simp] theorem State.fence_result (s : State) : (s.fence).result = s.result := rfl
@[simp] theorem State.fence_loaded (s : State) : (s.fence).loaded = s.loaded := rfl
@[simp] theorem State.fence_prog (s : State) : (s.fence).prog = s.prog := rfl
@[simp] theorem State.fence_plat (s : State) : (s.fence).plat = s.plat := rfl
@[simp] theorem State.fence_env (s : State) : (s.fence).env = s.env := rfl
@[simp] theorem State.fence_clk (s : State) (c : Blk) : (s.fence).clk c = s.clk c := rfl
@[simp] theorem State.fence_regs (s : State) (c : Blk) (y : Ch) : (s.fence).regs c y = s.regs c y := rfl
@[simp] theorem State.fence_engine (s : State) (c : Blk) (y : Ch) : (s.fence).engine c y = s.engine c y := rfl
@[simp] theorem State.fence_holder (s : State) (c : Blk) (y : Ch) : (s.fence).holder c y = s.holder c y := rfl

/-! ### `wrIfcr` -/

@[simp] theorem State.wrIfcr_clkEn (s : State) (b : Blk) (v : Word) : (s.wrIfcr b v).clkEn = s.clkEn := rfl
theorem State.wrIfcr_chan (s : State) (b : Blk) (v : Word) : (s.wrIfcr b v).chan = s.chan.set b (.ofFn fun x => (s.regs b x).clearFlags (groupOf v x)) := rfl
@[simp] theorem State.wrIfcr_eng (s : State) (b : Blk) (v : Word) : (s.wrIfcr b v).eng = s.eng := rfl
@[simp] theorem State.wrIfcr_owner (s : State) (b : Blk) (v : Word) : (s.wrIfcr b v).owner = s.owner := rfl
@[simp] theorem State.wrIfcr_splitDone (s : State) (b : Blk) (v : Word) : (s.wrIfcr b v).splitDone = s.splitDone := rfl
@[simp] theorem State.wrIfcr_seq (s : State) (b : Blk) (v : Word) : (s.wrIfcr b v).seq = s.seq := rfl
@[simp] theorem State.wrIfcr_fault (s : State) (b : Blk) (v : Word) : (s.wrIfcr b v).fault = s.fault := rfl
@[simp] theorem State.wrIfcr_refused (s : State) (b : Blk) (v : Word) : (s.wrIfcr b v).refused = s.refused := rfl
@[simp] theorem State.wrIfcr_mem (s : State) (b : Blk) (v : Word) : (s.wrIfcr b v).mem = s.mem := rfl
@[simp] theorem State.wrIfcr_periphLog (s : State) (b : Blk) (v : Word) : (s.wrIfcr b v).periphLog = s.periphLog := rfl
@[simp] theorem State.wrIfcr_unfencedRead (s : State) (b : Blk) (v : Word) : (s.wrIfcr b v).unfencedRead = s.unfencedRead := rfl
@[simp] theorem State.wrIfcr_unfencedWrites (s : State) (b : Blk) (v : Word) : (s.wrIfcr b v).unfencedWrites = s.unfencedWrites := rfl
@[simp] theorem State.wrIfcr_result (s : State) (b : Blk) (v : Word) : (s.wrIfcr b v).result = s.result := rfl
@[simp] theorem State.wrIfcr_loaded (s : State) (b : Blk) (v : Word) : (s.wrIfcr b v).loaded = s.loaded := rfl
@[simp] theorem State.wrIfcr_prog (s : State) (b : Blk) (v : Word) : (s.wrIfcr b v).prog = s.prog := rfl
@[simp] theorem State.wrIfcr_plat (s : State) (b : Blk) (v : Word) : (s.wrIfcr b v).plat = s.plat := rfl
@[simp] theorem State.wrIfcr_env (s : State) (b : Blk) (v : Word) : (s.wrIfcr b v).env = s.env := rfl
@[simp] theorem State.wrIfcr_clk (s : State) (b : Blk) (v : Word) (c : Blk) : (s.wrIfcr b v).clk c = s.clk c := rfl
@[simp] theorem State.wrIfcr_engine (s : State) (b : Blk) (v : Word) (c : Blk) (y : Ch) : (s.wrIfcr b v).engine c y = s.engine c y := rfl
@[simp] theorem State.wrIfcr_holder (s : State) (b : Blk) (v : Word) (c : Blk) (y : Ch) : (s.wrIfcr b v).holder c y = s.holder c y := rfl

/-! ### `wrCselr` -/

@[simp] theorem State.wrCselr_clkEn (s : State) (b : Blk) (v : Word) : (s.wrCselr b v).clkEn = s.clkEn := rfl
theorem State.wrCselr_chan (s : State) (b : Blk) (v : Word) : (s.wrCselr b v).chan = s.chan.set b (.ofFn fun x => { s.regs b x with cxs := groupOf v x }) := rfl
@[simp] theorem State.wrCselr_eng (s : State) (b : Blk) (v : Word) : (s.wrCselr b v).eng = s.eng := rfl
@[simp] theorem State.wrCselr_owner (s : State) (b : Blk) (v : Word) : (s.wrCselr b v).owner = s.owner := rfl
@[simp] theorem State.wrCselr_splitDone (s : State) (b : Blk) (v : Word) : (s.wrCselr b v).splitDone = s.splitDone := rfl
@[simp] theorem State.wrCselr_seq (s : State) (b : Blk) (v : Word) : (s.wrCselr b v).seq = s.seq := rfl
@[simp] theorem State.wrCselr_fault (s : State) (b : Blk) (v : Word) : (s.wrCselr b v).fault = s.fault := rfl
@[simp] theorem State.wrCselr_refused (s : State) (b : Blk) (v : Word) : (s.wrCselr b v).refused = s.refused := rfl
@[simp] theorem State.wrCselr_mem (s : State) (b : Blk) (v : Word) : (s.wrCselr b v).mem = s.mem := rfl
@[simp] theorem State.wrCselr_periphLog (s : State) (b : Blk) (v : Word) : (s.wrCselr b v).periphLog = s.periphLog := rfl
@[simp] theorem State.wrCselr_unfencedRead (s : State) (b : Blk) (v : Word) : (s.wrCselr b v).unfencedRead = s.unfencedRead := rfl
@[simp] theorem State.wrCselr_unfencedWrites (s : State) (b : Blk) (v : Word) : (s.wrCselr b v).unfencedWrites = s.unfencedWrites := rfl
@[simp] theorem State.wrCselr_result (s : State) (b : Blk) (v : Word) : (s.wrCselr b v).result = s.result := rfl
@[simp] theorem State.wrCselr_loaded (s : State) (b : Blk) (v : Word) : (s.wrCselr b v).loaded = s.loaded := rfl
@[simp] theorem State.wrCselr_prog (s : State) (b : Blk) (v : Word) : (s.wrCselr b v).prog = s.prog := rfl
@[simp] theorem State.wrCselr_plat (s : State) (b : Blk) (v : Word) : (s.wrCselr b v).plat = s.plat := rfl
@[simp] theorem State.wrCselr_env (s : State) (b : Blk) (v : Word) : (s.wrCselr b v).env = s.env := rfl
@[simp] theorem State.wrCselr_clk (s : State) (b : Blk) (v : Word) (c : Blk) : (s.wrCselr b v).clk c = s.clk c := rfl
@[simp] theorem State.wrCselr_engine (s : State) (b : Blk) (v : Word) (c : Blk) (y : Ch) : (s.wrCselr b v).engine c y = s.engine c y := rfl
@[simp] theorem State.wrCselr_holder (s : State) (b : Blk) (v : Word) (c : Blk) (y : Ch) : (s.wrCselr b v).holder c y = s.holder c y := rfl

theorem State.regs_wrIfcr (s : State) (b c : Blk) (v : Word) (x : Ch) :
    (s.wrIfcr b v).regs c x = if c = b then (s.regs b x).clearFlags (groupOf v x) else s.regs c x := by
  by_cases h : c = b
  · subst h; simp [State.regs, State.wrIfcr]
  · simp [State.regs, State.wrIfcr, h, ByBlk.get_set_ne]

theorem State.regs_wrCselr (s : State) (b c : Blk) (v : Word) (x : Ch) :
    (s.wrCselr b v).regs c x = if c = b then { s.regs b x with cxs := groupOf v x } else s.regs c x := by
  by_cases h : c = b
  · subst h; simp [State.regs, State.wrCselr]
  · simp [State.regs, State.wrCselr, h, ByBlk.get_set_ne]

@[simp] theorem State.setRegs_self (s : State) (b : Blk) (x : Ch) : s.setRegs b x (s.regs b x) = s := by
  simp [State.setRegs, State.regs]

@[simp] theorem State.setEngine_self (s : State) (b : Blk) (x : Ch) : s.setEngine b x (s.engine b x) = s := by
  simp [State.setEngine, State.engine]

@[simp] theorem State.setHolder_self (s : State) (b : Blk) (x : Ch) : s.setHolder b x (s.holder b x) = s := by
  simp [State.setHolder, State.holder]

@[simp] theorem State.setRegs_eta (s : State) (b : Blk) (x : Ch) :
    s.setRegs b x ⟨(s.regs b x).ccr, (s.regs b x).ndt, (s.regs b x).cpar, (s.regs b x).cmar, (s.regs b x).cxs,
      (s.regs b x).tcif, (s.regs b x).htif, (s.regs b x).teif⟩ = s := State.setRegs_self s b x

@[simp] theorem State.setEngine_eta (s : State) (b : Blk) (x : Ch) :
    s.setEngine b x ⟨(s.engine b x).curPa, (s.engine b x).curMa, (s.engine b x).ndtReload, (s.engine b x).stopping,
      (s.engine b x).unseen⟩ = s := State.setEngine_self s b x

@[simp] theorem State.setRegs_setRegs (s : State) (b : Blk) (x : Ch) (r r' : ChanRegs) :
    (s.setRegs b x r).setRegs b x r' = s.setRegs b x r' := by
  simp [State.setRegs]

@[simp] theorem State.setEngine_setEngine (s : State) (b : Blk) (x : Ch) (e e' : Engine) :
    (s.setEngine b x e).setEngine b x e' = s.setEngine b x e' := by
  simp [State.setEngine]

/-! ### Normal form of a chain of updates

`goto` and `ret` go outermost, then `setHolder`, `fence`, `setEngine`, with `setRegs` innermost: two runs that make the
same changes in another order become the same term. -/

section NormalForm

variable (s : State) (b c : Blk) (x y : Ch) (r : ChanRegs) (e : Engine) (o : Owner) (op op' : Instr) (l l' : Label)
  (res : Result)

@[simp] theorem State.setRegs_goto : (s.goto op l).setRegs b x r = (s.setRegs b x r).goto op l := rfl
@[simp] theorem State.setEngine_goto : (s.goto op l).setEngine b x e = (s.setEngine b x e).goto op l := rfl
@[simp] theorem State.setHolder_goto : (s.goto op l).setHolder b x o = (s.setHolder b x o).goto op l := rfl
@[simp] theorem State.fence_goto : (s.goto op l).fence = s.fence.goto op l := rfl
@[simp] theorem State.goto_goto : (s.goto op l).goto op' l' = s.goto op' l' := rfl
@[simp] theorem State.ret_goto : (s.goto op l).ret res = s.ret res := rfl
@[simp] theorem State.setRegs_setEngine :
    (s.setEngine c y e).setRegs b x r = (s.setRegs b x r).setEngine c y e := rfl
@[simp] theorem State.setRegs_fence : s.fence.setRegs b x r = (s.setRegs b x r).fence := rfl
@[simp] theorem State.setEngine_fence : s.fence.setEngine b x e = (s.setEngine b x e).fence := rfl
@[simp] theorem State.setRegs_setHolder :
    (s.setHolder c y o).setRegs b x r = (s.setRegs b x r).setHolder c y o := rfl
@[simp] theorem State.setEngine_setHolder :
    (s.setHolder c y o).setEngine b x e = (s.setEngine b x e).setHolder c y o := rfl
@[simp] theorem State.fence_setHolder : (s.setHolder c y o).fence = s.fence.setHolder c y o := rfl
@[simp] theorem State.fence_fence : s.fence.fence = s.fence := rfl
@[simp] theorem State.fence_observed (u : Bool) : State.fence { s with unfencedRead := u } = s.fence := rfl

end NormalForm

/-- A turn draw changes the environment only. -/
theorem State.drawTurn_eq (s : State) : ∃ e, s.drawTurn.2 = { s with env := e } := by
  cases h : s.env.turns <;> simp [State.drawTurn, h]

/-- A consumer draw changes the environment only. -/
theorem State.drawAct_eq (s : State) : ∃ e, s.drawAct.2 = { s with env := e } := by
  cases h : s.env.acts <;> simp [State.drawAct, h]

/-- A value draw changes the environment only. -/
theorem State.drawValue_eq (s : State) : ∃ e, s.drawValue.2 = { s with env := e } := by
  cases h : s.env.values <;> simp [State.drawValue, h]

theorem State.drawTurn_cons (s : State) {t : Turn} {ts : List Turn} (h : s.env.turns = t :: ts) :
    s.drawTurn = (t, { s with env := { s.env with turns := ts } }) := by simp [State.drawTurn, h]

theorem State.drawAct_cons (s : State) {a : ConsumerAct} {as : List ConsumerAct} (h : s.env.acts = a :: as) :
    s.drawAct = (a, { s with env := { s.env with acts := as } }) := by simp [State.drawAct, h]

theorem State.drawValue_cons (s : State) {v : Word} {vs : List Word} (h : s.env.values = v :: vs) :
    s.drawValue = (v, { s with env := { s.env with values := vs } }) := by simp [State.drawValue, h]

end Sys2Proof.Machine
end

