-- ==== Sys2Proof/Laws/Ops.lean ====
section
/-! SUPPORT. One lemma for each shared operation that says once what it can do. -/
namespace Sys2Proof.Machine
open Sys2Proof

/-! ## Marks and the sequencer -/

@[simp] theorem live_unmarked {s : State} (hf : s.fault = none) (hr : s.refused = none) (k : Out) : live s k = k := by
  simp [live, hf, hr]

/-- A controller step happens only in an unmarked state (R76). -/
theorem live_next {s t : State} {k : Out} (h : live s k = .next t) : s.unmarked ∧ k = .next t := by
  unfold live at h
  split at h <;> first | exact ⟨⟨‹_›, ‹_›⟩, h⟩ | cases h

@[simp] theorem sequenced_ready {s : State} (h : s.ready) (op : Instr) (start : Out) (resume : Label → Out) :
    sequenced op s start resume = start := by
  obtain ⟨hf, hr, hs⟩ := h
  simp [sequenced, hf, hr, hs]

theorem sequenced_busy {s : State} {op : Instr} {l : Label} (hf : s.fault = none) (hr : s.refused = none)
    (hs : s.seq = .busy op l) (start : Out) (resume : Label → Out) : sequenced op s start resume = resume l := by
  simp [sequenced, hf, hr, hs]

/-- What `sequenced` can do: the first micro-step from Idle, or the one at the label. -/
theorem sequenced_next {op : Instr} {s t : State} {start : Out} {resume : Label → Out}
    (h : sequenced op s start resume = .next t) :
    s.unmarked ∧ ((s.seq = .idle ∧ start = .next t) ∨ ∃ l, s.seq = .busy op l ∧ resume l = .next t) := by
  obtain ⟨hu, h'⟩ := live_next h
  refine ⟨hu, ?_⟩
  split at h'
  · exact .inl ⟨‹_›, h'⟩
  · split at h'
    · rename_i l hs he
      exact .inr ⟨l, he ▸ hs, h'⟩
    · cases h'

@[simp] theorem single_ready {s : State} (h : s.ready) (op : Instr) (start : Out) : single op s start = start :=
  sequenced_ready h _ _ _

/-- What an operation of one micro-step can do. -/
theorem single_next {op : Instr} {s t : State} {start : Out} (h : single op s start = .next t) :
    s.ready ∧ start = .next t := by
  obtain ⟨hu, ⟨hs, h⟩ | ⟨l, -, h⟩⟩ := sequenced_next h
  · exact ⟨⟨hu.1, hu.2, hs⟩, h⟩
  · cases h

theorem check_next {ok : Bool} {r : RefuseReason} {s t : State} {k : Out} (h : check ok r s k = .next t) :
    (ok = true ∧ k = .next t) ∨ (ok = false ∧ t = s.refuse r) := by
  cases ok
  · exact .inr ⟨rfl, by simpa [check, refuseOp] using h.symm⟩
  · exact .inl ⟨rfl, by simpa [check] using h⟩

@[simp] theorem check_true (r : RefuseReason) (s : State) (k : Out) : check true r s k = k := rfl

@[simp] theorem check_false (r : RefuseReason) (s : State) (k : Out) : check false r s k = .next (s.refuse r) := rfl

@[simp] theorem onRead_ok (v : Word) (s : State) (k : Word → State → Out) : onRead (.ok (v, s)) k = k v s := rfl

@[simp] theorem onRead_error (s : State) (k : Word → State → Out) : onRead (.error s) k = .next s := rfl

@[simp] theorem onDone_ok (s : State) (k : State → Out) : onDone (.ok s) k = k s := rfl

@[simp] theorem onDone_error (s : State) (k : State → Out) : onDone (.error s) k = .next s := rfl

theorem onRead_next {t : Except State (Word × State)} {k : Word → State → Out} {u : State} (h : onRead t k = .next u) :
    (∃ v s, t = .ok (v, s) ∧ k v s = .next u) ∨ t = .error u := by
  rcases t with e | ⟨v, s⟩
  · right; simpa [onRead] using h
  · exact .inl ⟨v, s, rfl, h⟩

theorem onDone_next {t : Except State State} {k : State → Out} {u : State} (h : onDone t k = .next u) :
    (∃ s, t = .ok s ∧ k s = .next u) ∨ t = .error u := by
  rcases t with e | s
  · right; simpa [onDone] using h
  · exact .inl ⟨s, rfl, h⟩

theorem needHandle_next {b : Blk} {x : Ch} {s t : State} {k : Out} (h : needHandle b x s k = .next t) :
    (s.holder b x = .handle ∧ k = .next t) ∨ t = s.refuse .notOwner := by
  unfold needHandle at h
  split at h
  · exact .inl ⟨‹_›, h⟩
  · right; simpa [refuseOp] using h.symm

theorem needCirc_next {b : Blk} {x : Ch} {s t : State} {k : CircRec → Out} (h : needCirc b x s k = .next t) :
    (∃ cb, s.holder b x = .circ cb ∧ k cb = .next t) ∨ t = s.refuse .notOwner := by
  unfold needCirc at h
  split at h
  · exact .inl ⟨_, ‹_›, h⟩
  · right; simpa [refuseOp] using h.symm

theorem needXfer_next {b : Blk} {x : Ch} {s t : State} {k : XferRec → Out} (h : needXfer b x s k = .next t) :
    (∃ r, s.holder b x = .xfer r ∧ k r = .next t) ∨ t = s.refuse .notOwner := by
  unfold needXfer at h
  split at h
  · exact .inl ⟨_, ‹_›, h⟩
  · right; simpa [refuseOp] using h.symm

@[simp] theorem needHandle_handle {b : Blk} {x : Ch} {s : State} (h : s.holder b x = .handle) (k : Out) :
    needHandle b x s k = k := by simp [needHandle, h]

@[simp] theorem needCirc_circ {b : Blk} {x : Ch} {s : State} {cb : CircRec} (h : s.holder b x = .circ cb)
    (k : CircRec → Out) : needCirc b x s k = k cb := by simp [needCirc, h]

@[simp] theorem needXfer_xfer {b : Blk} {x : Ch} {s : State} {t : XferRec} (h : s.holder b x = .xfer t)
    (k : XferRec → Out) : needXfer b x s k = k t := by simp [needXfer, h]

/-! ## The controller's own accesses (R75, R150, R162, R163) -/

@[simp] theorem Owner.disturb_unsplit (l : List Nat) : Owner.unsplit.disturb l = .unsplit := rfl
@[simp] theorem Owner.disturb_handle (l : List Nat) : Owner.handle.disturb l = .handle := rfl

/-- A store changes of an owner at most what it holds as disturbed. -/
theorem Owner.disturb_circ (l : List Nat) (cb : CircRec) :
    (Owner.circ cb).disturb l =
      .circ { cb with disturbed := cb.disturbed ++ l.filter (inBuffer cb.base (2 * cb.h * cb.esize.bytes)) } := rfl

theorem Owner.disturb_xfer (l : List Nat) (t : XferRec) :
    (Owner.xfer t).disturb l =
      .xfer { t with disturbed := t.disturbed ++ l.filter (inBuffer t.base (t.n * t.esize.bytes)) } := rfl

@[simp] theorem noteStore_holder (l : List Nat) (s : State) (b : Blk) (x : Ch) :
    (noteStore l s).holder b x = (s.holder b x).disturb l := by
  cases b <;> cases x <;> rfl

@[simp] theorem noteStore_regs (l : List Nat) (s : State) (b : Blk) (x : Ch) :
    (noteStore l s).regs b x = s.regs b x := rfl

@[simp] theorem noteStore_engine (l : List Nat) (s : State) (b : Blk) (x : Ch) :
    (noteStore l s).engine b x = s.engine b x := rfl

/-- An access touches a list exactly when one of its bytes is in it. -/
theorem touches_iff (a : Word) (n : Nat) (l : List Nat) :
    touches a n l = true ↔ ∃ k, k < n ∧ (a + BitVec.ofNat 32 k).toNat ∈ l := by
  simp [touches, byteAddrs]

/-- What is disturbed anywhere is disturbed in some channel's object. -/
theorem State.mem_disturbed (s : State) (j : Nat) : j ∈ s.disturbed ↔ ∃ b x, j ∈ (s.holder b x).disturbed := by
  simp only [State.disturbed, List.mem_flatMap]
  constructor
  · rintro ⟨b, -, x, -, h⟩
    exact ⟨b, x, h⟩
  · rintro ⟨b, x, h⟩
    exact ⟨b, by cases b <;> simp, x, by cases x <;> simp, h⟩

/-- What a controller read that is not refused does. -/
theorem ctlLoad_ok {l : List Nat} {a : Word} {size : ESize} {s t : State} (h : ctlLoad l a size s = .ok t) :
    aligned a size.bytes = true ∧ s.memAdmit a size.bytes = true ∧
      ∃ e v, t = { s with env := e, loaded := some v } ∧
        (s.unfencedRead = false → touches a size.bytes l = false → e = s.env ∧ v = memRead s.mem a size.bytes) := by
  obtain ⟨e, he⟩ := State.drawValue_eq s
  unfold ctlLoad at h
  generalize s.drawValue = d at h he
  split at h
  · cases h
  · split at h
    · cases h
    · rename_i ha hm
      refine ⟨by simpa using ha, by simpa using hm, ?_⟩
      split at h
      · rename_i hd
        refine ⟨e, lowBytes size.bytes d.1, ?_, fun hu ht => ?_⟩
        · rw [← Except.ok.inj h, he]
        · simp [hu, ht] at hd
      · cases h
        exact ⟨s.env, _, rfl, fun _ _ => ⟨rfl, rfl⟩⟩

/-- What a controller write that is not refused does. -/
theorem ctlStore_ok {a v : Word} {size : ESize} {s t : State} (h : ctlStore a size v s = .ok t) :
    aligned a size.bytes = true ∧ s.memAdmit a size.bytes = true ∧
      t = noteStore (byteAddrs a size.bytes) { s with mem := memWrite s.mem a size.bytes v } := by
  unfold ctlStore at h
  split at h
  · cases h
  · split at h
    · cases h
    · rename_i ha hm
      cases h
      exact ⟨by simpa using ha, by simpa using hm, rfl⟩

/-! ## Register transactions -/

@[simp] theorem clocked_on {α : Type} {b : Blk} {s : State} (h : s.clk b = true) (k : Except State α) :
    clocked b s k = k := by simp [clocked, h]

/-- A read with the clock on. -/
theorem rdReg_on {b : Blk} {s : State} (h : s.clk b = true) (r : Reg) :
    rdReg b r s = .ok (regValue s b r, { s with unfencedRead := s.unfencedRead || Reg.observes r }) := by
  simp [rdReg, h]

/-- A read that is no observation changes nothing. -/
theorem rdReg_quiet {b : Blk} {s : State} (h : s.clk b = true) {r : Reg} (hr : Reg.observes r = false) :
    rdReg b r s = .ok (regValue s b r, s) := by
  simp [rdReg, h, hr]

@[simp] theorem rdReg_ccr {b : Blk} {s : State} (h : s.clk b = true) (x : Ch) :
    rdReg b (.ccr x) s = .ok ((s.regs b x).ccr.toWord, s) := rdReg_quiet h rfl

@[simp] theorem rdReg_cpar {b : Blk} {s : State} (h : s.clk b = true) (x : Ch) :
    rdReg b (.cpar x) s = .ok ((s.regs b x).cpar, s) := rdReg_quiet h rfl

@[simp] theorem rdReg_cmar {b : Blk} {s : State} (h : s.clk b = true) (x : Ch) :
    rdReg b (.cmar x) s = .ok ((s.regs b x).cmar, s) := rdReg_quiet h rfl

@[simp] theorem rdReg_cselr {b : Blk} {s : State} (h : s.clk b = true) :
    rdReg b .cselr s = .ok (cselrWord (s.chan.get b), s) := rdReg_quiet h rfl

/-- A read of ISR is a flag observation. -/
@[simp] theorem rdReg_isr {b : Blk} {s : State} (h : s.clk b = true) :
    rdReg b .isr s = .ok (isrWord (s.chan.get b), { s with unfencedRead := true }) := by
  simp [rdReg, h, Reg.observes, regValue]

/-- A read of CNDTR is a count observation. -/
@[simp] theorem rdReg_cndtr {b : Blk} {s : State} (h : s.clk b = true) (x : Ch) :
    rdReg b (.cndtr x) s = .ok ((s.regs b x).ndt.setWidth 32, { s with unfencedRead := true }) := by
  simp [rdReg, h, Reg.observes, regValue]

/-- What a register read can do: answer the register's value and note the observation, or refuse. -/
theorem rdReg_ok {b : Blk} {r : Reg} {s t : State} {v : Word} (h : rdReg b r s = .ok (v, t)) :
    s.clk b = true ∧ v = regValue s b r ∧ t = { s with unfencedRead := s.unfencedRead || Reg.observes r } := by
  unfold rdReg clocked at h
  split at h
  · cases h; exact ⟨‹_›, rfl, rfl⟩
  · cases h

theorem rdReg_error {b : Blk} {r : Reg} {s t : State} (h : rdReg b r s = .error t) :
    s.clk b = false ∧ t = s.refuse .clockOff := by
  unfold rdReg clocked at h
  split at h
  · cases h
  · rename_i hc
    cases h
    exact ⟨by simpa using hc, rfl⟩

/-- What enabling can do (R257). -/
theorem enable_ok {b : Blk} {x : Ch} {s t : State} (h : enable b x s = .ok t) :
    (s.regs b x).legal ∧
    t = (s.setRegs b x { s.regs b x with ccr := { (s.regs b x).ccr with en := true } }).setEngine b x
      { curPa := (s.regs b x).cpar, curMa := (s.regs b x).cmar, ndtReload := (s.regs b x).ndt, stopping := false,
        unseen := s.unfencedWrites } := by
  unfold enable at h
  simp only at h
  split at h
  · cases h
  · split at h
    · cases h
    · split at h
      · cases h
      · split at h
        · cases h
        · rename_i h1 h2 h3 h4
          cases h
          refine ⟨⟨fun h => h1 (.inl h), by simpa using h2, by simpa using h3, ?_⟩, rfl⟩
          simpa [aligned, Ccr.elemBytes] using h4

theorem enable_legal {b : Blk} {x : Ch} {s : State} (h : (s.regs b x).legal) :
    enable b x s = .ok
      ((s.setRegs b x { s.regs b x with ccr := { (s.regs b x).ccr with en := true } }).setEngine b x
        { curPa := (s.regs b x).cpar, curMa := (s.regs b x).cmar, ndtReload := (s.regs b x).ndt, stopping := false,
          unseen := s.unfencedWrites }) := by
  obtain ⟨h1, h2, h3, h4, h5⟩ := h
  unfold enable
  simp only
  rw [if_neg (by rintro (h | h) <;> [exact h1 h; exact h1 (h2.trans h)]), if_neg (by simpa using h2), if_neg (by simpa using h3),
    if_neg (by simp [aligned, Ccr.elemBytes, h4, h5])]

theorem enable_error {b : Blk} {x : Ch} {s t : State} (h : enable b x s = .error t) : ∃ r, t = s.refuse r := by
  unfold enable at h
  simp only at h
  split at h
  · cases h; exact ⟨_, rfl⟩
  · split at h
    · cases h; exact ⟨_, rfl⟩
    · split at h
      · cases h; exact ⟨_, rfl⟩
      · split at h
        · cases h; exact ⟨_, rfl⟩
        · cases h

@[simp] theorem Ccr.update_en (c : Ccr) (v : Word) : (c.update v).en = c.en := rfl

@[simp] theorem Ccr.update_ie (c : Ccr) (v : Word) : (c.update v).ie = ieOf v := rfl

@[simp] theorem Ccr.update_cfg (c : Ccr) (v : Word) : (c.update v).cfg = if c.en then c.cfg else cfgOf v := rfl

/-- The registers of the channel after the field update of a CCR write. -/
abbrev ccrUpdated (s : State) (b : Blk) (x : Ch) (v : Word) : State :=
  s.setRegs b x { s.regs b x with ccr := (s.regs b x).ccr.update v }

/-- What a CCR write can do (R256, R258): only the fields, the enable edge, the immediate stop, or a stop begun. -/
theorem wrCcr_ok {b : Blk} {x : Ch} {v : Word} {s t : State} (h : wrCcr b x v s = .ok t) :
    let s1 := ccrUpdated s b x v
    ((s.regs b x).ccr.en = false ∧ enOf v = true ∧ enable b x s1 = .ok t) ∨
    ((s.regs b x).ccr.en = true ∧ enOf v = false ∧ (s.engine b x).stopping = false ∧ t = disable b x s1) ∨
    (((s.regs b x).ccr.en = enOf v ∨ ((s.engine b x).stopping = true ∧ enOf v = false)) ∧ t = s1) := by
  unfold wrCcr at h
  cases he : (s.regs b x).ccr.en <;> cases hv : enOf v <;> cases hs : (s.engine b x).stopping <;>
    simp [he, hv, hs] at h ⊢ <;> first | exact h | exact h.symm

theorem wrCcr_error {b : Blk} {x : Ch} {v : Word} {s t : State} (h : wrCcr b x v s = .error t) :
    t = s.refuse .enableWhileStopping ∨ ∃ r, t = (ccrUpdated s b x v).refuse r := by
  unfold wrCcr at h
  cases he : (s.regs b x).ccr.en <;> cases hv : enOf v <;> cases hs : (s.engine b x).stopping <;>
    simp [he, hv, hs] at h <;> first | exact .inl h.symm | exact .inr (enable_error h)

/-- A CCR write that starts nothing and stops nothing only updates the fields. -/
theorem wrCcr_fields {b : Blk} {x : Ch} {v : Word} {s : State} (h : (s.regs b x).ccr.en = enOf v)
    (hs : (s.regs b x).ccr.en = true → (s.engine b x).stopping = false) :
    wrCcr b x v s = .ok (ccrUpdated s b x v) := by
  unfold wrCcr
  cases he : (s.regs b x).ccr.en <;> rw [he] at h <;> simp [he, ← h]
  simp [hs he]

/-- A CCR write of EN = 1 to a disabled channel. -/
theorem wrCcr_enable {b : Blk} {x : Ch} {v : Word} {s : State} (he : (s.regs b x).ccr.en = false) (hv : enOf v = true) :
    wrCcr b x v s = enable b x (ccrUpdated s b x v) := by
  unfold wrCcr
  simp [he, hv]

/-- A CCR write of EN = 0 to a running channel. -/
theorem wrCcr_disable {b : Blk} {x : Ch} {v : Word} {s : State} (he : (s.regs b x).ccr.en = true) (hv : enOf v = false)
    (hs : (s.engine b x).stopping = false) : wrCcr b x v s = .ok (disable b x (ccrUpdated s b x v)) := by
  unfold wrCcr
  simp [he, hv, hs]

@[simp] theorem wrReg_on {b : Blk} {s : State} (h : s.clk b = true) (r : Reg) (v : Word) :
    wrReg b r v s =
      match r with
      | .isr => .ok s
      | .ifcr => .ok (s.wrIfcr b v)
      | .ccr x => wrCcr b x v s
      | .cndtr x => .ok (s.wrCndtr b x v)
      | .cpar x => wrCpar b x v s
      | .cmar x => wrCmar b x v s
      | .cselr => .ok (s.wrCselr b v) := by
  cases r <;> simp [wrReg, h]

end Sys2Proof.Machine
end

