-- ==== Sys2Proof/Laws/Exec.lean ====
section
/-! SUPPORT. What an instruction can do, said once: one micro-step of an instruction is a chain of elementary changes
(`Change`), each of them inside the instruction's target. Frames and invariants of all instructions follow by
induction on the chain. -/
namespace Sys2Proof.Machine
open Sys2Proof

/-- One elementary change that instruction i makes in its micro-step from state s₀. -/
inductive Change (i : Instr) (s₀ : State) : State → State → Prop where
  | refuse (s : State) (r : RefuseReason) : Change i s₀ s (s.refuse r)
  | fault (s : State) (m : FaultReason) (b : Blk) (x : Ch) : Change i s₀ s (s.takeFault m i b x)
  | goto (s : State) (l : Label) : Change i s₀ s (s.goto i l)
  | ret (s : State) (r : Result) : Change i s₀ s (s.ret r)
  | fence (s : State) : Change i s₀ s s.fence
  | observe (s : State) (o : Bool) : Change i s₀ s { s with unfencedRead := s.unfencedRead || o }
  | act (s : State) : Change i s₀ s s.drawAct.2
  | load (s t : State) (l : List Nat) (a : Word) (size : ESize) (h : ctlLoad l a size s = .ok t) : Change i s₀ s t
  | ccr (s t : State) (b : Blk) (x : Ch) (v : Word) (ht : (Instr.target i).covers b x = true)
      (h : wrCcr b x v s = .ok t ∨ wrCcr b x v s = .error t) : Change i s₀ s t
  | cndtr (s : State) (b : Blk) (x : Ch) (v : Word) (ht : (Instr.target i).covers b x = true) :
      Change i s₀ s (s.wrCndtr b x v)
  | cpar (s t : State) (b : Blk) (x : Ch) (v : Word) (ht : (Instr.target i).covers b x = true)
      (h : wrCpar b x v s = .ok t) : Change i s₀ s t
  | cmar (s t : State) (b : Blk) (x : Ch) (v : Word) (ht : (Instr.target i).covers b x = true)
      (h : wrCmar b x v s = .ok t) : Change i s₀ s t
  | ifcr (s : State) (b : Blk) (v : Word) (ht : ∀ x, (Instr.target i).covers b x = false → groupOf v x = 0#4) :
      Change i s₀ s (s.wrIfcr b v)
  | cselr (s : State) (b : Blk) (v : Word) (ht : Instr.target i = .block b) : Change i s₀ s (s.wrCselr b v)
  | holder (s : State) (b : Blk) (x : Ch) (o : Owner) (ht : Instr.channel i = some (b, x))
      (hc : (Instr.target i).covers b x = true) (hs : s₀.seq ≠ .idle) : Change i s₀ s (s.setHolder b x o)
  | clock (s : State) (b : Blk) (hi : i = .split b) : Change i s₀ s (clockOn b s)
  | handOut (s : State) (b : Blk) (hi : i = .split b) (hs : s₀.seq ≠ .idle) : Change i s₀ s (handOut b s)

/-- A chain of elementary changes. -/
abbrev Changes (i : Instr) (s₀ : State) : State → State → Prop := Relation.ReflTransGen (Change i s₀)

/-- An outcome that, where it is a next state, is reached from s₀ by elementary changes of i. -/
def Reaches (i : Instr) (s₀ : State) (o : Out) : Prop := ∀ t, o = .next t → Changes i s₀ s₀ t

namespace Reaches

variable {i : Instr} {s₀ u : State}

theorem next (h : Changes i s₀ s₀ u) : Reaches i s₀ (.next u) := by
  rintro t ⟨⟩
  exact h

theorem stray : Reaches i s₀ (.refused .strayLabel) := by rintro t ⟨⟩

theorem refuseOp (h : Changes i s₀ s₀ u) (r : RefuseReason) : Reaches i s₀ (refuseOp u r) :=
  next (h.tail (.refuse u r))

theorem fault (h : Changes i s₀ s₀ u) (m : FaultReason) (b : Blk) (x : Ch) :
    Reaches i s₀ (.next (u.takeFault m i b x)) := next (h.tail (.fault u m b x))

theorem goOn (h : Changes i s₀ s₀ u) (l : Label) : Reaches i s₀ (goOn u i l) := next (h.tail (.goto u l))

theorem retOp (h : Changes i s₀ s₀ u) (r : Result) : Reaches i s₀ (retOp u r) := next (h.tail (.ret u r))

theorem check (h : Changes i s₀ s₀ u) {ok : Bool} {r : RefuseReason} {k : Out} (hk : Reaches i s₀ k) :
    Reaches i s₀ (check ok r u k) := by
  cases ok
  · exact refuseOp h r
  · exact hk

theorem handle (h : Changes i s₀ s₀ u) {b : Blk} {x : Ch} {k : Out} (hk : Reaches i s₀ k) :
    Reaches i s₀ (needHandle b x u k) := by
  unfold needHandle
  split
  · exact hk
  · exact refuseOp h _

theorem circ (h : Changes i s₀ s₀ u) {b : Blk} {x : Ch} {k : CircRec → Out} (hk : ∀ cb, Reaches i s₀ (k cb)) :
    Reaches i s₀ (needCirc b x u k) := by
  unfold needCirc
  split
  · exact hk _
  · exact refuseOp h _

theorem xfer (h : Changes i s₀ s₀ u) {b : Blk} {x : Ch} {k : XferRec → Out} (hk : ∀ t, Reaches i s₀ (k t)) :
    Reaches i s₀ (needXfer b x u k) := by
  unfold needXfer
  split
  · exact hk _
  · exact refuseOp h _

theorem read (h : Changes i s₀ s₀ u) {b : Blk} {r : Reg} {k : Word → State → Out}
    (hk : ∀ v w, Changes i s₀ s₀ w → Reaches i s₀ (k v w)) : Reaches i s₀ (onRead (rdReg b r u) k) := by
  unfold rdReg clocked
  split
  · exact hk _ _ (h.tail (.observe u _))
  · exact next (h.tail (.refuse u _))

theorem done {t : Except State State} {k : State → Out} (ht : ∀ w, t = .ok w ∨ t = .error w → Changes i s₀ s₀ w)
    (hk : ∀ w, Changes i s₀ s₀ w → Reaches i s₀ (k w)) : Reaches i s₀ (onDone t k) := by
  rcases t with e | w
  · exact next (ht e (.inr rfl))
  · exact hk w (ht w (.inl rfl))

theorem wrCcr (h : Changes i s₀ s₀ u) {b : Blk} {x : Ch} {v : Word} {k : State → Out}
    (hc : (Instr.target i).covers b x = true) (hk : ∀ w, Changes i s₀ s₀ w → Reaches i s₀ (k w)) :
    Reaches i s₀ (onDone (wrReg b (.ccr x) v u) k) := by
  refine done (fun w hw => ?_) hk
  unfold wrReg clocked at hw
  split at hw
  · exact h.tail (.ccr u w b x v hc hw)
  · rcases hw with hw | hw <;> cases hw
    exact h.tail (.refuse u _)

theorem wrCndtr (h : Changes i s₀ s₀ u) {b : Blk} {x : Ch} {v : Word} {k : State → Out}
    (hc : (Instr.target i).covers b x = true) (hk : ∀ w, Changes i s₀ s₀ w → Reaches i s₀ (k w)) :
    Reaches i s₀ (onDone (wrReg b (.cndtr x) v u) k) := by
  refine done (fun w hw => ?_) hk
  unfold wrReg clocked at hw
  split at hw <;> rcases hw with hw | hw <;> cases hw
  · exact h.tail (.cndtr u b x v hc)
  · exact h.tail (.refuse u _)

theorem wrCpar (h : Changes i s₀ s₀ u) {b : Blk} {x : Ch} {v : Word} {k : State → Out}
    (hc : (Instr.target i).covers b x = true) (hk : ∀ w, Changes i s₀ s₀ w → Reaches i s₀ (k w)) :
    Reaches i s₀ (onDone (wrReg b (.cpar x) v u) k) := by
  refine done (fun w hw => ?_) hk
  unfold wrReg clocked at hw
  split at hw
  · rcases hw with hw | hw
    · exact h.tail (.cpar u w b x v hc hw)
    · simp only [Machine.wrCpar] at hw
      split at hw <;> cases hw
      exact h.tail (.refuse u _)
  · rcases hw with hw | hw <;> cases hw
    exact h.tail (.refuse u _)

theorem wrCmar (h : Changes i s₀ s₀ u) {b : Blk} {x : Ch} {v : Word} {k : State → Out}
    (hc : (Instr.target i).covers b x = true) (hk : ∀ w, Changes i s₀ s₀ w → Reaches i s₀ (k w)) :
    Reaches i s₀ (onDone (wrReg b (.cmar x) v u) k) := by
  refine done (fun w hw => ?_) hk
  unfold wrReg clocked at hw
  split at hw
  · rcases hw with hw | hw
    · exact h.tail (.cmar u w b x v hc hw)
    · simp only [Machine.wrCmar] at hw
      split at hw <;> cases hw
      exact h.tail (.refuse u _)
  · rcases hw with hw | hw <;> cases hw
    exact h.tail (.refuse u _)

theorem wrIsr (h : Changes i s₀ s₀ u) {b : Blk} {v : Word} {k : State → Out}
    (hk : ∀ w, Changes i s₀ s₀ w → Reaches i s₀ (k w)) : Reaches i s₀ (onDone (wrReg b .isr v u) k) := by
  refine done (fun w hw => ?_) hk
  unfold wrReg clocked at hw
  split at hw <;> rcases hw with hw | hw <;> cases hw
  · exact h
  · exact h.tail (.refuse u _)

theorem wrIfcr (h : Changes i s₀ s₀ u) {b : Blk} {v : Word} {k : State → Out}
    (hc : ∀ x, (Instr.target i).covers b x = false → groupOf v x = 0#4)
    (hk : ∀ w, Changes i s₀ s₀ w → Reaches i s₀ (k w)) : Reaches i s₀ (onDone (wrReg b .ifcr v u) k) := by
  refine done (fun w hw => ?_) hk
  unfold wrReg clocked at hw
  split at hw <;> rcases hw with hw | hw <;> cases hw
  · exact h.tail (.ifcr u b v hc)
  · exact h.tail (.refuse u _)

theorem wrCselr (h : Changes i s₀ s₀ u) {b : Blk} {v : Word} {k : State → Out} (hc : Instr.target i = .block b)
    (hk : ∀ w, Changes i s₀ s₀ w → Reaches i s₀ (k w)) : Reaches i s₀ (onDone (wrReg b .cselr v u) k) := by
  refine done (fun w hw => ?_) hk
  unfold wrReg clocked at hw
  split at hw <;> rcases hw with hw | hw <;> cases hw
  · exact h.tail (.cselr u b v hc)
  · exact h.tail (.refuse u _)

theorem load (h : Changes i s₀ s₀ u) {l : List Nat} {a : Word} {size : ESize} {k : State → Out}
    (hk : ∀ w, Changes i s₀ s₀ w → Reaches i s₀ (k w)) : Reaches i s₀ (onDone (ctlLoad l a size u) k) := by
  refine done (fun w hw => ?_) hk
  rcases hw with hw | hw
  · exact h.tail (.load u w l a size hw)
  · simp only [ctlLoad] at hw
    split at hw
    · cases hw; exact h.tail (.refuse u _)
    · split at hw
      · cases hw; exact h.tail (.refuse u _)
      · split at hw <;> cases hw

theorem consume (h : Changes i s₀ s₀ u) {here : Label} {cb : CircRec} {r : Half} {lo hi : Nat}
    {k : Option (Nat × Word) → State → Out} (hk : ∀ out w, Changes i s₀ s₀ w → Reaches i s₀ (k out w)) :
    Reaches i s₀ (consume i here cb r lo hi u k) := by
  have hd := h.tail (.act u)
  unfold Machine.consume
  split
  · rename_i j w hw
    rw [hw] at hd
    split
    · exact load hd fun w hw => goOn hw _
    · exact goOn hd _
  · rename_i l v w hw
    rw [hw] at hd
    exact hk _ _ hd
  · rename_i w hw
    rw [hw] at hd
    exact hk _ _ hd

theorem sequenced {start : Out} {resume : Label → Out} (hs : s₀.seq = .idle → Reaches i s₀ start)
    (hr : s₀.seq ≠ .idle → ∀ l, Reaches i s₀ (resume l)) : Reaches i s₀ (sequenced i s₀ start resume) := by
  intro t ht
  obtain ⟨-, ⟨hi, ht⟩ | ⟨l, hl, ht⟩⟩ := sequenced_next ht
  · exact hs hi t ht
  · exact hr (by simp [hl]) l t ht

theorem single {start : Out} (hs : Reaches i s₀ start) : Reaches i s₀ (single i s₀ start) :=
  sequenced (fun _ => hs) fun _ _ => stray

end Reaches

/-! ## The IFCR values of the CMD operations name only their channel's flags -/

theorem covers_channel {b c : Blk} {x y : Ch} : (Target.channel b x).covers c y = true ↔ c = b ∧ y = x := by
  simp only [Target.covers, decide_eq_true_eq]
  constructor <;> rintro ⟨rfl, rfl⟩ <;> exact ⟨rfl, rfl⟩

theorem covers_self {b : Blk} {x : Ch} : (Target.channel b x).covers b x = true := covers_channel.2 ⟨rfl, rfl⟩

theorem ne_of_not_covers {b : Blk} {x y : Ch} (h : (Target.channel b x).covers b y = false) : y ≠ x := by
  rintro rfl
  rw [covers_self] at h
  cases h

theorem groupOf_all_ne {x y : Ch} (h : y ≠ x) : groupOf (0xF#32 <<< x.group) y = 0#4 := by
  cases x <;> cases y <;> first | exact absurd rfl h | rfl

theorem groupOf_bit_ne {x y : Ch} (h : y ≠ x) (k : Nat) (hk : k < 4) : groupOf (bitWord (x.group + k)) y = 0#4 := by
  have : k = 0 ∨ k = 1 ∨ k = 2 ∨ k = 3 := by omega
  rcases this with rfl | rfl | rfl | rfl <;> cases x <;> cases y <;> first | exact absurd rfl h | rfl

theorem Flag.bit_lt (f : Flag) : f.bit < 4 := by cases f <;> decide

theorem Half.flagBit_lt (r : Half) : r.flagBit < 4 := by cases r <;> decide

theorem Instr.channel_target {i : Instr} {b : Blk} {x : Ch} (h : Instr.channel i = some (b, x)) :
    (Instr.target i).covers b x = true := by
  cases i <;> simp only [Instr.channel, reduceCtorEq, Option.some.injEq, Prod.mk.injEq] at h <;>
    obtain ⟨rfl, rfl⟩ := h <;> simp [Instr.target, Target.covers]

/-! ## The shapes shared by the meanings -/

namespace Reaches

variable {i : Instr} {s₀ u : State}

theorem busRead {b : Blk} {r : Reg} : Reaches i s₀ (busRead i b r s₀) :=
  single (read .refl fun _ _ hw => retOp hw _)

theorem readOp {b : Blk} {x : Ch} {r : Reg} {res : Word → Result} : Reaches i s₀ (readOp i b x r res s₀) :=
  single (handle .refl (read .refl fun _ _ hw => retOp hw _))

theorem wrCcrThen (h : Changes i s₀ s₀ u) {b : Blk} {x : Ch} {v : Word} {l : Label}
    (hc : (Instr.target i).covers b x = true) : Reaches i s₀ (wrCcrThen i b x v l u) :=
  wrCcr h hc fun _ hw => goOn hw _

theorem wrCcrRet (h : Changes i s₀ s₀ u) {b : Blk} {x : Ch} {v : Word}
    (hc : (Instr.target i).covers b x = true) : Reaches i s₀ (wrCcrRet b x v u) :=
  wrCcr h hc fun _ hw => retOp hw _

theorem spinEn (h : Changes i s₀ s₀ u) {b : Blk} {x : Ch} {e : Bool} {here : Label} {next : Word → Label} :
    Reaches i s₀ (spinEn i b x e here next u) :=
  read h fun _ _ hw => goOn hw _

theorem armStart (h : Changes i s₀ s₀ u) {b : Blk} {x : Ch} {es : ESize} {len : Nat} {base paddr : Word} :
    Reaches i s₀ (armStart i b x es len base paddr u) :=
  check h <| check h <| check h <| read h fun _ _ hw => by
    split
    · exact refuseOp hw _
    · exact goOn hw _

theorem armResume {b : Blk} {x : Ch} {base paddr : Word} {count : BitVec 16} {cfg : BitVec 11} {own : Owner}
    {res : Result} (hch : Instr.channel i = some (b, x)) (hs : s₀.seq ≠ .idle) (l : Label) :
    Reaches i s₀ (armResume i b x base paddr count cfg own res s₀ l) := by
  have hc := Instr.channel_target hch
  unfold Machine.armResume
  cases l <;> first
    | exact stray
    | exact wrCpar .refl hc fun _ hw => goOn hw _
    | exact wrCmar .refl hc fun _ hw => goOn hw _
    | exact wrCndtr .refl hc fun _ hw => goOn hw _
    | exact wrCcrThen .refl hc
    | exact goOn (.single (.fence _)) _
    | exact wrCcrThen .refl hc
    | exact spinEn .refl
    | exact retOp ((Relation.ReflTransGen.single (.fence _)).tail (.holder _ b x own hch hc hs)) _

theorem halfRead (h : Changes i s₀ s₀ u) {b : Blk} {x : Ch} {cb : CircRec} {k : HalfChoice → State → Out}
    (hk : ∀ c w, Changes i s₀ s₀ w → Reaches i s₀ (k c w)) : Reaches i s₀ (halfRead b x cb u k) :=
  read h fun _ w hw => hk _ w hw

theorem halfFlip (h : Changes i s₀ s₀ u) {b : Blk} {x : Ch} {cb : CircRec} {r : Half} {k : State → Out}
    (hch : Instr.channel i = some (b, x)) (ht : Instr.target i = .channel b x) (hs : s₀.seq ≠ .idle)
    (hk : ∀ w, Changes i s₀ s₀ w → Reaches i s₀ (k w)) : Reaches i s₀ (halfFlip b x cb r u k) := by
  refine wrIfcr h (fun y hy => groupOf_bit_ne (ne_of_not_covers (ht ▸ hy)) _ (Half.flagBit_lt r)) fun w hw => hk _ ?_
  exact hw.tail (.holder _ b x _ hch (Instr.channel_target hch) hs)

theorem readWritten (h : Changes i s₀ s₀ u) {b : Blk} {x : Ch} {r : XferRec} {k : Nat → State → Out}
    (hk : ∀ n w, Changes i s₀ s₀ w → Reaches i s₀ (k n w)) : Reaches i s₀ (readWritten i b x r u k) := by
  refine read h fun v w hw => ?_
  simp only
  split
  · exact fault hw _ _ _
  · exact hk _ w hw

theorem armOneShot {b : Blk} {x : Ch} {size pl : BitVec 2} {n : BitVec 16} {base paddr payload : Word} {mode : XferMode}
    (hch : Instr.channel i = some (b, x)) :
    Reaches i s₀ (armOneShot i b x size pl n base paddr payload mode s₀) := by
  unfold Machine.armOneShot
  split
  · exact single (refuseOp .refl _)
  · exact sequenced (fun _ => handle .refl (armStart .refl)) fun hs l => armResume hch hs l

end Reaches

/-! ## Every instruction -/

theorem execListen_reaches (b : Blk) (x : Ch) (ev : Event) (s : State) :
    Reaches (.listen b x ev) s (execListen b x ev s) := by
  refine .sequenced (fun _ => .handle .refl (.read .refl fun _ _ hw => .goOn hw _)) fun _ l => ?_
  cases l <;> first
    | exact .stray
    | exact .wrCcrRet .refl covers_self

theorem execUnlisten_reaches (b : Blk) (x : Ch) (ev : Event) (s : State) :
    Reaches (.unlisten b x ev) s (execUnlisten b x ev s) := by
  refine .sequenced (fun _ => .handle .refl (.read .refl fun _ _ hw => .goOn hw _)) fun _ l => ?_
  cases l <;> first
    | exact .stray
    | exact .wrCcrRet .refl covers_self

theorem execClearFlags_reaches (b : Blk) (x : Ch) (s : State) :
    Reaches (.clearFlags b x) s (execClearFlags b x s) :=
  .single (.handle .refl (.wrIfcr .refl (fun _ hy => groupOf_all_ne (ne_of_not_covers hy)) fun _ hw => .retOp hw _))

theorem execClearFlag_reaches (b : Blk) (x : Ch) (f : Flag) (s : State) :
    Reaches (.clearFlag b x f) s (execClearFlag b x f s) :=
  .single (.handle .refl (.wrIfcr .refl (fun _ hy => groupOf_bit_ne (ne_of_not_covers hy) _ (Flag.bit_lt f))
    fun _ hw => .retOp hw _))

theorem execSelectRequest_reaches (b : Blk) (x : Ch) (imm : BitVec 16) (s : State) :
    Reaches (.selectRequest b x imm) s (execSelectRequest b x imm s) := by
  refine .sequenced (fun _ => .check .refl (.handle .refl (.read .refl fun _ _ hw => .goOn hw _))) fun _ l => ?_
  cases l <;> first
    | exact .stray
    | exact .wrCselr .refl rfl fun _ hw => .retOp hw _

theorem execConfigure_reaches (b : Blk) (x : Ch) (imm : BitVec 16) (s : State) :
    Reaches (.configure b x imm) s (execConfigure b x imm s) := by
  refine .sequenced (fun _ => .check .refl (.handle .refl (.read .refl fun _ _ hw => .goOn hw _))) fun _ l => ?_
  cases l <;> first
    | exact .stray
    | exact .wrCcrRet .refl covers_self

theorem execStart_reaches (b : Blk) (x : Ch) (s : State) : Reaches (.start b x) s (execStart b x s) := by
  refine .sequenced (fun _ => .handle .refl (.read .refl fun _ _ hw => .goOn hw _)) fun _ l => ?_
  cases l <;> first
    | exact .stray
    | exact .goOn (.single (.fence _)) _
    | exact .wrCcrThen .refl covers_self
    | exact .spinEn .refl
    | exact .retOp (.single (.fence _)) _

theorem execStop_reaches (b : Blk) (x : Ch) (s : State) : Reaches (.stop b x) s (execStop b x s) := by
  refine .sequenced (fun _ => .handle .refl (.read .refl fun _ _ hw => .goOn hw _)) fun _ l => ?_
  cases l <;> first
    | exact .stray
    | exact .wrCcrThen .refl covers_self
    | exact .spinEn .refl
    | exact .retOp (.single (.fence _)) _

theorem execCircRead_reaches (b : Blk) (x : Ch) (size pl : BitVec 2) (h : BitVec 16) (base paddr : Word) (s : State) :
    Reaches (.circRead b x size pl h base paddr) s (execCircRead b x size pl h base paddr s) := by
  unfold execCircRead
  simp only
  split
  · exact .single (.refuseOp .refl _)
  · exact .sequenced (fun _ => .handle .refl (.check .refl (.armStart .refl))) fun hs l => .armResume rfl hs l

theorem execReadableHalf_reaches (b : Blk) (x : Ch) (s : State) :
    Reaches (.readableHalf b x) s (execReadableHalf b x s) := by
  refine .sequenced (fun _ => .circ .refl fun cb => .halfRead .refl fun c w hw => ?_) fun hs l => ?_
  · cases c
    · exact .retOp hw _
    · exact .retOp hw _
    · exact .goOn hw _
  · cases l <;> first
      | exact .stray
      | exact .circ .refl fun cb => .halfFlip .refl rfl rfl hs fun _ hw => .retOp hw _

theorem execPeek_reaches (b : Blk) (x : Ch) (s : State) : Reaches (.peek b x) s (execPeek b x s) := by
  refine .sequenced (fun _ => .circ .refl fun cb => .halfRead .refl fun c w hw => ?_) fun hs l => ?_
  · cases c
    · exact .retOp hw _
    · exact .goOn hw _
    · exact .goOn hw _
  · cases l <;> first
      | exact .stray
      | exact .circ .refl fun cb => .halfFlip .refl rfl rfl hs fun _ hw => .goOn hw _
      | exact .circ .refl fun cb => .goOn (.single (.fence _)) _
      | exact .circ .refl fun cb => .consume .refl fun _ _ hw => .goOn hw _
      | exact .circ .refl fun cb => .retOp (.single (.holder _ b x _ rfl (Instr.channel_target rfl) hs)) _

theorem execPartialPeek_reaches (b : Blk) (x : Ch) (s : State) :
    Reaches (.partialPeek b x) s (execPartialPeek b x s) := by
  refine .sequenced (fun _ => .circ .refl fun cb => .read .refl fun v w hw => ?_) fun hs l => ?_
  · simp only
    split
    · exact .fault hw _ _ _
    · exact .goOn hw _
  · cases l <;> first
      | exact .stray
      | exact .circ .refl fun cb => .goOn (.single (.fence _)) _
      | (refine .circ .refl fun cb => .consume .refl fun out w hw => ?_
         rcases out with _ | ⟨l, v⟩
         · exact .retOp hw _
         · simp only
           split
           · exact .fault hw _ _ _
           · exact .goOn hw _)
      | exact .circ .refl fun cb => .retOp (.single (.holder _ b x _ rfl (Instr.channel_target rfl) hs)) _

theorem execAnswerIsr_reaches (b : Blk) (x : Ch) (s : State) : Reaches (.answerIsr b x) s (execAnswerIsr b x s) :=
  .single (.circ .refl fun _ => .wrIfcr .refl
    (fun _ hy => groupOf_bit_ne (ne_of_not_covers hy) 0 (by omega)) fun _ hw => .retOp hw _)

theorem execIsDone_reaches (b : Blk) (x : Ch) (s : State) : Reaches (.isDone b x) s (execIsDone b x s) :=
  .single (.xfer .refl fun _ => .read .refl fun _ _ hw => .retOp hw _)

theorem execWait_reaches (b : Blk) (x : Ch) (s : State) : Reaches (.wait b x) s (execWait b x s) := by
  refine .sequenced (fun _ => .xfer .refl fun _ => .read .refl fun _ _ hw => .goOn hw _) fun hs l => ?_
  cases l <;> first
    | exact .stray
    | exact .read .refl fun _ _ hw => .goOn hw _
    | exact .wrIfcr .refl (fun _ hy => groupOf_bit_ne (ne_of_not_covers hy) 1 (by omega)) fun _ hw => .goOn hw _
    | exact .read .refl fun _ _ hw => .goOn hw _
    | exact .wrCcrThen .refl covers_self
    | exact .spinEn .refl
    | (exact .xfer .refl fun t =>
         .retOp ((Relation.ReflTransGen.single (.fence _)).tail (.holder _ b x _ rfl (Instr.channel_target rfl) hs)) _)

theorem execTerminate_reaches (b : Blk) (x : Ch) (s : State) : Reaches (.terminate b x) s (execTerminate b x s) := by
  refine .sequenced (fun _ => .xfer .refl fun _ => .read .refl fun _ _ hw => .goOn hw _) fun _ l => ?_
  cases l <;> first
    | exact .stray
    | exact .wrCcrThen .refl covers_self
    | exact .spinEn .refl
    | exact .retOp (.single (.fence _)) _

theorem execXpeek_reaches (b : Blk) (x : Ch) (s : State) : Reaches (.xpeek b x) s (execXpeek b x s) := by
  refine .sequenced (fun _ => .xfer .refl fun _ => .check .refl (.readWritten .refl fun _ _ hw => .goOn hw _))
    fun _ l => ?_
  cases l <;> first
    | exact .stray
    | exact .xfer .refl fun _ => .retOp (.single (.fence _)) _

theorem execRestart_reaches (b : Blk) (x : Ch) (s : State) : Reaches (.restart b x) s (execRestart b x s) := by
  refine .sequenced (fun _ => .xfer .refl fun _ => .check .refl (.read .refl fun _ _ hw => .goOn hw _)) fun _ l => ?_
  cases l <;> first
    | exact .stray
    | exact .wrCcrThen .refl covers_self
    | exact .spinEn .refl
    | exact .goOn (.single (.fence _)) _
    | exact .xfer .refl fun _ => .readWritten .refl fun _ _ hw => .goOn hw _
    | exact .xfer .refl fun _ => .wrCndtr .refl covers_self fun _ hw => .goOn hw _
    | exact .goOn (.single (.fence _)) _
    | exact .wrCcrThen .refl covers_self
    | exact .spinEn .refl
    | exact .xfer .refl fun _ => .retOp (.single (.fence _)) _

theorem covers_block {b : Blk} {x : Ch} : (Target.block b).covers b x = true := by simp [Target.covers]

theorem execSplit_reaches (b : Blk) (s : State) : Reaches (.split b) s (execSplit b s) := by
  refine .sequenced (fun _ => .check .refl (.goOn (.single (.clock _ b rfl)) _)) fun hs l => ?_
  cases l <;> first
    | exact .stray
    | exact .wrCcrThen .refl covers_block
    | exact .spinEn .refl
    | (refine .wrCcr .refl covers_block fun w hw => ?_
       split
       · exact .goOn hw _
       · exact .retOp (hw.tail (.handOut _ b rfl hs)) _)

/-- One micro-step of an instruction is a chain of elementary changes inside its target. -/
theorem exec_reaches (i : Instr) (s : State) : Reaches i s (exec i s) := by
  cases i
  case listen => exact execListen_reaches _ _ _ _
  case unlisten => exact execUnlisten_reaches _ _ _ _
  case status => exact .readOp
  case clearFlags => exact execClearFlags_reaches _ _ _
  case clearFlag => exact execClearFlag_reaches _ _ _ _
  case remaining => exact .readOp
  case selectRequest => exact execSelectRequest_reaches _ _ _ _
  case setPaddr => exact .single (.handle .refl (.wrCpar .refl covers_self fun _ hw => .retOp hw _))
  case setMaddr => exact .single (.handle .refl (.wrCmar .refl covers_self fun _ hw => .retOp hw _))
  case setCount => exact .single (.handle .refl (.wrCndtr .refl covers_self fun _ hw => .retOp hw _))
  case configure => exact execConfigure_reaches _ _ _ _
  case start => exact execStart_reaches _ _ _
  case stop => exact execStop_reaches _ _ _
  case getPaddr => exact .readOp
  case getMaddr => exact .readOp
  case circRead => exact execCircRead_reaches _ _ _ _ _ _ _ _
  case readableHalf => exact execReadableHalf_reaches _ _ _
  case peek => exact execPeek_reaches _ _ _
  case partialPeek => exact execPartialPeek_reaches _ _ _
  case answerIsr => exact execAnswerIsr_reaches _ _ _
  case readExact => exact .armOneShot rfl
  case writeAll => exact .armOneShot rfl
  case isDone => exact execIsDone_reaches _ _ _
  case wait => exact execWait_reaches _ _ _
  case terminate => exact execTerminate_reaches _ _ _
  case xpeek => exact execXpeek_reaches _ _ _
  case restart => exact execRestart_reaches _ _ _
  case split => exact execSplit_reaches _ _
  case fence => exact .single (.retOp (.single (.fence _)) _)
  case wrIsr => exact .single (.wrIsr .refl fun _ hw => .retOp hw _)
  case wrIfcr => exact .single (.wrIfcr .refl (fun _ hy => by simp [Instr.target, Target.covers] at hy)
    fun _ hw => .retOp hw _)
  case wrCselr => exact .single (.wrCselr .refl rfl fun _ hw => .retOp hw _)
  all_goals first
    | exact .busRead
    | exact .single (.wrCcr .refl covers_self fun _ hw => .retOp hw _)
    | exact .single (.wrCndtr .refl covers_self fun _ hw => .retOp hw _)
    | exact .single (.wrCpar .refl covers_self fun _ hw => .retOp hw _)
    | exact .single (.wrCmar .refl covers_self fun _ hw => .retOp hw _)

/-- The chain of changes of a micro-step that answers a next state. -/
theorem exec_changes {i : Instr} {s t : State} (h : exec i s = .next t) : Changes i s s t := exec_reaches i s t h

/-- An instruction answers a next state only from an unmarked state (R76). -/
theorem exec_next_unmarked {i : Instr} {s t : State} (h : exec i s = .next t) : s.unmarked := by
  cases i <;> first
    | exact (sequenced_next h).1
    | (simp only [exec, execCircRead, execReadExact, execWriteAll, armOneShot] at h
       split at h <;> exact (sequenced_next h).1)

end Sys2Proof.Machine
end

