-- ==== Sys2Proof/Laws/Operands.lean ====
section
/-! SUPPORT. What the operand and flag computations give, field by field: the words of CCR, ISR and CSELR and the words
the operations write back, so that no proof about an instruction unfolds a bit vector; and each BUS instruction as one
register transaction. -/
namespace Sys2Proof.Machine
open Sys2Proof

/-! ## CCR words (R56, R255) -/

@[simp] theorem enOf_toWord (c : Ccr) : enOf c.toWord = c.en := by
  simp only [enOf, Ccr.toWord, BitVec.getLsbD_append]
  cases c.en <;> rfl

@[simp] theorem ieOf_toWord (c : Ccr) : ieOf c.toWord = c.ie := by
  apply BitVec.eq_of_getLsbD_eq
  intro k hk
  simp only [ieOf, Ccr.toWord, BitVec.getLsbD_extractLsb', BitVec.getLsbD_append]
  interval_cases k <;> simp

@[simp] theorem cfgOf_toWord (c : Ccr) : cfgOf c.toWord = c.cfg := by
  apply BitVec.eq_of_getLsbD_eq
  intro k hk
  simp only [cfgOf, Ccr.toWord, BitVec.getLsbD_extractLsb', BitVec.getLsbD_append]
  interval_cases k <;> simp

/-- CCR bits 31:15 read 0 (R269). -/
theorem toWord_reserved (c : Ccr) : c.toWord.extractLsb' 15 17 = 0#17 := by
  apply BitVec.eq_of_getLsbD_eq
  intro k hk
  simp only [Ccr.toWord, BitVec.getLsbD_extractLsb', BitVec.getLsbD_append]
  interval_cases k <;> simp

/-- A CCR value written back unchanged leaves CCR unchanged. -/
@[simp] theorem Ccr.update_toWord (c : Ccr) : c.update c.toWord = c := by
  cases c
  simp [Ccr.update]

/-! ### One bit of a word set or cleared -/

theorem getLsbD_bitWord (k j : Nat) (hk : k < 32) : (bitWord k).getLsbD j = decide (j = k) := by
  simp only [bitWord, BitVec.getLsbD_shiftLeft, BitVec.getLsbD_one]
  by_cases h : j = k
  · subst h; simp [hk]
  · by_cases h1 : j < k
    · simp [h1, h]
    · have : j - k ≠ 0 := by omega
      simp [h, this]

theorem getLsbD_setBit (c : Word) (k j : Nat) (hk : k < 32) :
    (setBit c k).getLsbD j = (c.getLsbD j || decide (j = k)) := by
  simp only [setBit, BitVec.getLsbD_or, getLsbD_bitWord k j hk]

theorem getLsbD_clearBit (c : Word) (k j : Nat) (hk : k < 32) :
    (clearBit c k).getLsbD j = (c.getLsbD j && !decide (j = k)) := by
  simp only [clearBit, BitVec.getLsbD_and, BitVec.getLsbD_not, getLsbD_bitWord k j hk]
  by_cases h : j < 32
  · simp [h]
  · simp [BitVec.getLsbD_of_ge c j (by omega)]

@[simp] theorem enOf_setBit_zero (c : Word) : enOf (setBit c 0) = true := by
  simp only [enOf, getLsbD_setBit c 0 0 (by omega)]; simp

@[simp] theorem enOf_clearBit_zero (c : Word) : enOf (clearBit c 0) = false := by
  simp only [enOf, getLsbD_clearBit c 0 0 (by omega)]; simp

@[simp] theorem ieOf_setBit_zero (c : Word) : ieOf (setBit c 0) = ieOf c := by
  apply BitVec.eq_of_getLsbD_eq
  intro k hk
  simp only [ieOf, BitVec.getLsbD_extractLsb', getLsbD_setBit c 0 _ (by omega)]
  simp

@[simp] theorem cfgOf_setBit_zero (c : Word) : cfgOf (setBit c 0) = cfgOf c := by
  apply BitVec.eq_of_getLsbD_eq
  intro k hk
  simp only [cfgOf, BitVec.getLsbD_extractLsb', getLsbD_setBit c 0 _ (by omega)]
  simp

@[simp] theorem ieOf_clearBit_zero (c : Word) : ieOf (clearBit c 0) = ieOf c := by
  apply BitVec.eq_of_getLsbD_eq
  intro k hk
  simp only [ieOf, BitVec.getLsbD_extractLsb', getLsbD_clearBit c 0 _ (by omega)]
  simp

@[simp] theorem cfgOf_clearBit_zero (c : Word) : cfgOf (clearBit c 0) = cfgOf c := by
  apply BitVec.eq_of_getLsbD_eq
  intro k hk
  simp only [cfgOf, BitVec.getLsbD_extractLsb', getLsbD_clearBit c 0 _ (by omega)]
  simp

/-- The mask of an event in the three interrupt-enable bits (R401). -/
def Event.mask : Event → BitVec 3
  | .tc => 1#3
  | .ht => 2#3
  | .te => 4#3

@[simp] theorem enOf_setBit_event (c : Word) (ev : Event) : enOf (setBit c ev.ieBit) = enOf c := by
  simp only [enOf, getLsbD_setBit c _ 0 (show ev.ieBit < 32 by cases ev <;> decide)]
  cases ev <;> simp [Event.ieBit]

@[simp] theorem enOf_clearBit_event (c : Word) (ev : Event) : enOf (clearBit c ev.ieBit) = enOf c := by
  simp only [enOf, getLsbD_clearBit c _ 0 (show ev.ieBit < 32 by cases ev <;> decide)]
  cases ev <;> simp [Event.ieBit]

@[simp] theorem cfgOf_setBit_event (c : Word) (ev : Event) : cfgOf (setBit c ev.ieBit) = cfgOf c := by
  apply BitVec.eq_of_getLsbD_eq
  intro k hk
  simp only [cfgOf, BitVec.getLsbD_extractLsb', getLsbD_setBit c _ _ (show ev.ieBit < 32 by cases ev <;> decide)]
  cases ev <;> interval_cases k <;> simp [Event.ieBit]

@[simp] theorem cfgOf_clearBit_event (c : Word) (ev : Event) : cfgOf (clearBit c ev.ieBit) = cfgOf c := by
  apply BitVec.eq_of_getLsbD_eq
  intro k hk
  simp only [cfgOf, BitVec.getLsbD_extractLsb', getLsbD_clearBit c _ _ (show ev.ieBit < 32 by cases ev <;> decide)]
  cases ev <;> interval_cases k <;> simp [Event.ieBit]

@[simp] theorem ieOf_setBit_event (c : Word) (ev : Event) : ieOf (setBit c ev.ieBit) = ieOf c ||| Event.mask ev := by
  apply BitVec.eq_of_getLsbD_eq
  intro k hk
  simp only [ieOf, BitVec.getLsbD_or, BitVec.getLsbD_extractLsb',
    getLsbD_setBit c _ _ (show ev.ieBit < 32 by cases ev <;> decide)]
  cases ev <;> interval_cases k <;> simp [Event.ieBit, Event.mask]

@[simp] theorem ieOf_clearBit_event (c : Word) (ev : Event) :
    ieOf (clearBit c ev.ieBit) = ieOf c &&& ~~~ Event.mask ev := by
  apply BitVec.eq_of_getLsbD_eq
  intro k hk
  simp only [ieOf, BitVec.getLsbD_and, BitVec.getLsbD_not, BitVec.getLsbD_extractLsb',
    getLsbD_clearBit c _ _ (show ev.ieBit < 32 by cases ev <;> decide)]
  cases ev <;> interval_cases k <;> simp [Event.ieBit, Event.mask]

/-- A CCR value written back with only EN changed leaves every other field. -/
@[simp] theorem Ccr.update_setBit_zero (c : Ccr) : c.update (setBit c.toWord 0) = c := by
  cases c
  simp [Ccr.update]

@[simp] theorem Ccr.update_clearBit_zero (c : Ccr) : c.update (clearBit c.toWord 0) = c := by
  cases c
  simp [Ccr.update]

/-- EN written as 1 to a legal, disabled channel, every other field as it was (START, TERMINATE, RESTART). -/
theorem wrCcr_startEn {s : State} {b : Blk} {x : Ch} (he : (s.regs b x).ccr.en = false) (hl : (s.regs b x).legal) :
    wrCcr b x (setBit (s.regs b x).ccr.toWord 0) s = .ok
      ((s.setRegs b x { s.regs b x with ccr := { (s.regs b x).ccr with en := true } }).setEngine b x
        { curPa := (s.regs b x).cpar, curMa := (s.regs b x).cmar, ndtReload := (s.regs b x).ndt, stopping := false,
          unseen := s.unfencedWrites }) := by
  rw [wrCcr_enable he (enOf_setBit_zero _)]
  simp only [ccrUpdated, Ccr.update_setBit_zero]
  rw [State.setRegs_eta]
  exact enable_legal hl

/-- EN written as 0, every other field as it was (STOP, WAIT, TERMINATE, RESTART): on a disabled channel nothing, at
NDT = 0 an immediate stop, else a stop begun or still in progress. -/
theorem wrCcr_clearEn_disabled {s : State} {b : Blk} {x : Ch} (he : (s.regs b x).ccr.en = false) :
    wrCcr b x (clearBit (s.regs b x).ccr.toWord 0) s = .ok s := by
  rw [wrCcr_fields (by simp [he]) (by simp [he])]
  simp [ccrUpdated]

theorem wrCcr_clearEn_empty {s : State} {b : Blk} {x : Ch} (he : (s.regs b x).ccr.en = true)
    (hst : (s.engine b x).stopping = false) (hn : (s.regs b x).ndt = 0#16) :
    wrCcr b x (clearBit (s.regs b x).ccr.toWord 0) s = .ok
      (s.setRegs b x { s.regs b x with ccr := { (s.regs b x).ccr with en := false } }) := by
  rw [wrCcr_disable he (enOf_clearBit_zero _) hst]
  simp [disable, ccrUpdated, hn]

theorem wrCcr_clearEn_running {s : State} {b : Blk} {x : Ch} (he : (s.regs b x).ccr.en = true)
    (hn : (s.regs b x).ndt ≠ 0#16) :
    wrCcr b x (clearBit (s.regs b x).ccr.toWord 0) s = .ok
      (s.setEngine b x { s.engine b x with stopping := true }) := by
  cases hst : (s.engine b x).stopping
  · rw [wrCcr_disable he (enOf_clearBit_zero _) hst]
    simp [disable, ccrUpdated, hn]
  · have : s.setEngine b x { s.engine b x with stopping := true } = s := by
      rw [← hst]
      exact State.setEngine_self s b x
    rw [this]
    simp [wrCcr, he, hst]

/-! ### The configuration words of CONFIGURE and the entry operations (R411, R451, R501) -/

theorem getLsbD_cfgMask (j : Nat) : (0x00007FF0#32).getLsbD j = (decide (4 ≤ j) && decide (j < 15)) := by
  by_cases h : j < 32
  · interval_cases j <;> rfl
  · rw [BitVec.getLsbD_of_ge _ _ (by omega)]
    simp; omega

theorem getLsbD_ieMask (j : Nat) : (0x0000000E#32).getLsbD j = (decide (1 ≤ j) && decide (j < 4)) := by
  by_cases h : j < 32
  · interval_cases j <;> rfl
  · rw [BitVec.getLsbD_of_ge _ _ (by omega)]
    simp; omega

@[simp] theorem enOf_configureWord (c : Word) (imm : BitVec 16) : enOf (configureWord c imm) = enOf c := by
  simp only [enOf, configureWord, BitVec.getLsbD_or, BitVec.getLsbD_and, BitVec.getLsbD_not, getLsbD_cfgMask,
    BitVec.getLsbD_shiftLeft]
  simp

@[simp] theorem ieOf_configureWord (c : Word) (imm : BitVec 16) : ieOf (configureWord c imm) = ieOf c := by
  apply BitVec.eq_of_getLsbD_eq
  intro k hk
  simp only [ieOf, configureWord, BitVec.getLsbD_extractLsb', BitVec.getLsbD_or, BitVec.getLsbD_and,
    BitVec.getLsbD_not, getLsbD_cfgMask, BitVec.getLsbD_shiftLeft]
  interval_cases k <;> simp

@[simp] theorem cfgOf_configureWord (c : Word) (imm : BitVec 16) :
    cfgOf (configureWord c imm) = imm.extractLsb' 0 11 := by
  apply BitVec.eq_of_getLsbD_eq
  intro k hk
  simp only [cfgOf, configureWord, BitVec.getLsbD_extractLsb', BitVec.getLsbD_or, BitVec.getLsbD_and,
    BitVec.getLsbD_not, getLsbD_cfgMask, BitVec.getLsbD_shiftLeft, BitVec.getLsbD_setWidth]
  interval_cases k <;> simp

@[simp] theorem enOf_entryWord (cfg : BitVec 11) (c : Word) : enOf (entryWord cfg c) = false := by
  simp only [enOf, entryWord, BitVec.getLsbD_or, BitVec.getLsbD_and, getLsbD_ieMask, BitVec.getLsbD_shiftLeft]
  simp

@[simp] theorem ieOf_entryWord (cfg : BitVec 11) (c : Word) : ieOf (entryWord cfg c) = ieOf c := by
  apply BitVec.eq_of_getLsbD_eq
  intro k hk
  simp only [ieOf, entryWord, BitVec.getLsbD_extractLsb', BitVec.getLsbD_or, BitVec.getLsbD_and, getLsbD_ieMask,
    BitVec.getLsbD_shiftLeft]
  interval_cases k <;> simp

@[simp] theorem cfgOf_entryWord (cfg : BitVec 11) (c : Word) : cfgOf (entryWord cfg c) = cfg := by
  apply BitVec.eq_of_getLsbD_eq
  intro k hk
  simp only [cfgOf, entryWord, BitVec.getLsbD_extractLsb', BitVec.getLsbD_or, BitVec.getLsbD_and, getLsbD_ieMask,
    BitVec.getLsbD_shiftLeft, BitVec.getLsbD_setWidth]
  interval_cases k <;> simp

/-! ## Group words: ISR, IFCR, CSELR (R54, R61, R251, R254, R265) -/

@[simp] theorem groupOf_groupsWord (f : Ch → BitVec 4) (x : Ch) : groupOf (groupsWord f) x = f x := by
  apply BitVec.eq_of_getLsbD_eq
  intro k hk
  simp only [groupOf, groupsWord, BitVec.getLsbD_extractLsb', BitVec.getLsbD_append]
  cases x <;> interval_cases k <;> simp [Ch.group, Ch.num]

theorem groupsWord_reserved (f : Ch → BitVec 4) : (groupsWord f).extractLsb' 28 4 = 0#4 := by
  apply BitVec.eq_of_getLsbD_eq
  intro k hk
  simp only [groupsWord, BitVec.getLsbD_extractLsb', BitVec.getLsbD_append]
  interval_cases k <;> simp

/-- Bit k of a channel's group of a group word. -/
theorem getLsbD_groupsWord (f : Ch → BitVec 4) (x : Ch) (k : Nat) (hk : k < 4) :
    (groupsWord f).getLsbD (x.group + k) = (f x).getLsbD k := by
  have := congrArg (fun v => v.getLsbD k) (groupOf_groupsWord f x)
  simpa only [groupOf, BitVec.getLsbD_extractLsb', hk, decide_true, Bool.true_and] using this

theorem getLsbD_groupOf (v : Word) (x : Ch) (k : Nat) (hk : k < 4) :
    (groupOf v x).getLsbD k = v.getLsbD (x.group + k) := by
  simp only [groupOf, BitVec.getLsbD_extractLsb', hk, decide_true, Bool.true_and]

@[simp] theorem isrWord_gif (t : ByCh ChanRegs) (x : Ch) : (isrWord t).getLsbD x.group = (t.get x).gif := by
  have := getLsbD_groupsWord (fun x => (t.get x).isrGroup) x 0 (by omega)
  rw [Nat.add_zero] at this
  rw [isrWord, this, ChanRegs.isrGroup]
  simp only [BitVec.getLsbD_append]; simp

@[simp] theorem isrWord_tcif (t : ByCh ChanRegs) (x : Ch) : (isrWord t).getLsbD (x.group + 1) = (t.get x).tcif := by
  rw [isrWord, getLsbD_groupsWord _ x 1 (by omega), ChanRegs.isrGroup]
  simp only [BitVec.getLsbD_append]; simp

@[simp] theorem isrWord_htif (t : ByCh ChanRegs) (x : Ch) : (isrWord t).getLsbD (x.group + 2) = (t.get x).htif := by
  rw [isrWord, getLsbD_groupsWord _ x 2 (by omega), ChanRegs.isrGroup]
  simp only [BitVec.getLsbD_append]; simp

@[simp] theorem isrWord_teif (t : ByCh ChanRegs) (x : Ch) : (isrWord t).getLsbD (x.group + 3) = (t.get x).teif := by
  rw [isrWord, getLsbD_groupsWord _ x 3 (by omega), ChanRegs.isrGroup]
  simp only [BitVec.getLsbD_append]; simp

/-- The group of a word with one bit set, in the bit's channel and in the others. -/
theorem groupOf_bitWord (x y : Ch) (k : Nat) (hk : k < 4) :
    groupOf (bitWord (x.group + k)) y = if y = x then 1#4 <<< k else 0#4 := by
  interval_cases k <;> cases x <;> cases y <;> rfl

theorem groupOf_bitWord_zero (x y : Ch) : groupOf (bitWord x.group) y = if y = x then 1#4 else 0#4 := by
  cases x <;> cases y <;> rfl

theorem groupOf_allOnes (x y : Ch) : groupOf (0xF#32 <<< x.group) y = if y = x then 0xF#4 else 0#4 := by
  cases x <;> cases y <;> rfl

/-- SELECT_REQUEST's word: the channel's field replaced, the others as they were (R407). -/
theorem groupOf_selectWord (s : Word) (x y : Ch) (code : BitVec 4) :
    groupOf (selectWord s x code) y = if y = x then code else groupOf s y := by
  have hm : ∀ j, (0xF#32).getLsbD j = decide (j < 4) := by
    intro j
    by_cases h : j < 32
    · interval_cases j <;> rfl
    · rw [BitVec.getLsbD_of_ge _ _ (by omega)]; simp; omega
  apply BitVec.eq_of_getLsbD_eq
  intro k hk
  simp only [groupOf, selectWord, BitVec.getLsbD_extractLsb', BitVec.getLsbD_or, BitVec.getLsbD_and,
    BitVec.getLsbD_not, BitVec.getLsbD_shiftLeft, hm, BitVec.getLsbD_setWidth]
  cases x <;> cases y <;> interval_cases k <;> simp [Ch.group, Ch.num]

/-! ## Whole-register updates that touch one channel -/

theorem ChanRegs.clearFlags_zero (r : ChanRegs) : r.clearFlags 0#4 = r := by
  simp [ChanRegs.clearFlags]

/-- An IFCR write that names flags of one channel only changes that channel only. -/
theorem wrIfcr_one (s : State) (b : Blk) (x : Ch) (v : Word) (g : BitVec 4)
    (h : ∀ y, groupOf v y = if y = x then g else 0#4) :
    s.wrIfcr b v = s.setRegs b x ((s.regs b x).clearFlags g) := by
  simp only [State.wrIfcr, State.setRegs, h]
  congr 2
  apply ByCh.ext_get
  intro y
  by_cases hy : y = x
  · subst hy; simp
  · simp [hy, ByCh.get_set_ne, ChanRegs.clearFlags_zero, State.regs]

/-- A CSELR write that replaces one channel's code only changes that channel only. -/
theorem wrCselr_one (s : State) (b : Blk) (x : Ch) (v : Word) (code : BitVec 4)
    (h : ∀ y, groupOf v y = if y = x then code else (s.regs b y).cxs) :
    s.wrCselr b v = s.setRegs b x { s.regs b x with cxs := code } := by
  simp only [State.wrCselr, State.setRegs, h]
  congr 2
  apply ByCh.ext_get
  intro y
  by_cases hy : y = x
  · subst hy; simp
  · simp [hy, ByCh.get_set_ne, State.regs]

/-! ## BUS instructions as register transactions -/

theorem exec_readInstr (b : Blk) (r : Reg) (s : State) :
    exec (readInstr b r) s = busRead (readInstr b r) b r s := by
  cases r with
  | isr | ifcr | cselr => rfl
  | ccr x | cndtr x | cpar x | cmar x => cases x <;> rfl

theorem exec_writeInstr (b : Blk) (v : Word) (r : Reg) (s : State) :
    exec (writeInstr b v r) s = busWrite (writeInstr b v r) b r v s := by
  cases r with
  | isr | ifcr | cselr => rfl
  | ccr x | cndtr x | cpar x | cmar x => cases x <;> rfl

/-- A BUS read with the clock on. -/
theorem busRead_ready {op : Instr} {b : Blk} {r : Reg} {s : State} (h : s.ready) (hc : s.clk b = true) :
    busRead op b r s =
      .next { s with unfencedRead := s.unfencedRead || Reg.observes r, result := some (.word (regValue s b r)) } := by
  rw [busRead, single_ready h, rdReg_on hc]
  simp [retOp, State.ret, h.2.2]

/-- A BUS write that may start. -/
theorem busWrite_ready {op : Instr} {b : Blk} {r : Reg} {v : Word} {s : State} (h : s.ready) :
    busWrite op b r v s = onDone (wrReg b r v s) fun s1 => retOp s1 .nothing := by
  rw [busWrite, single_ready h]

end Sys2Proof.Machine
end

