-- ==== Sys2Proof/Laws/PerInstr.lean ====
section
/-! SUPPORT. Statements made per instruction. `EncodeLength`: how many words an instruction has (30_encoding.md R208,
R211): 1 plus its operand words. -/
namespace Sys2Proof.Laws.EncodeLength
open Sys2Proof

/-- The operand words of an instruction: a BUS write has one (R201), a CMD word what the table of R208 gives. -/
def operandWords : Instr → Nat
  | .rdIsr _ | .rdIfcr _ | .rdCcr1 _ | .rdCndtr1 _ | .rdCpar1 _ | .rdCmar1 _ | .rdCcr2 _ | .rdCndtr2 _ |
    .rdCpar2 _ | .rdCmar2 _ | .rdCcr3 _ | .rdCndtr3 _ | .rdCpar3 _ | .rdCmar3 _ | .rdCcr4 _ | .rdCndtr4 _ |
    .rdCpar4 _ | .rdCmar4 _ | .rdCcr5 _ | .rdCndtr5 _ | .rdCpar5 _ | .rdCmar5 _ | .rdCcr6 _ | .rdCndtr6 _ |
    .rdCpar6 _ | .rdCmar6 _ | .rdCcr7 _ | .rdCndtr7 _ | .rdCpar7 _ | .rdCmar7 _ | .rdCselr _ | .split _ |
    .listen _ _ _ | .unlisten _ _ _ | .status _ _ | .clearFlags _ _ | .clearFlag _ _ _ | .remaining _ _ |
    .selectRequest _ _ _ | .setCount _ _ _ | .configure _ _ _ | .start _ _ | .stop _ _ | .getPaddr _ _ |
    .getMaddr _ _ | .readableHalf _ _ | .peek _ _ | .partialPeek _ _ | .answerIsr _ _ | .isDone _ _ | .wait _ _ |
    .terminate _ _ | .xpeek _ _ | .restart _ _ | .fence => 0
  | .wrIsr _ _ | .wrIfcr _ _ | .wrCcr1 _ _ | .wrCndtr1 _ _ | .wrCpar1 _ _ | .wrCmar1 _ _ | .wrCcr2 _ _ |
    .wrCndtr2 _ _ | .wrCpar2 _ _ | .wrCmar2 _ _ | .wrCcr3 _ _ | .wrCndtr3 _ _ | .wrCpar3 _ _ | .wrCmar3 _ _ |
    .wrCcr4 _ _ | .wrCndtr4 _ _ | .wrCpar4 _ _ | .wrCmar4 _ _ | .wrCcr5 _ _ | .wrCndtr5 _ _ | .wrCpar5 _ _ |
    .wrCmar5 _ _ | .wrCcr6 _ _ | .wrCndtr6 _ _ | .wrCpar6 _ _ | .wrCmar6 _ _ | .wrCcr7 _ _ | .wrCndtr7 _ _ |
    .wrCpar7 _ _ | .wrCmar7 _ _ | .wrCselr _ _ | .setPaddr _ _ _ | .setMaddr _ _ _ => 1
  | .circRead _ _ _ _ _ _ _ => 2
  | .readExact _ _ _ _ _ _ _ _ | .writeAll _ _ _ _ _ _ _ _ => 3

/-- An instruction is as long as its head word and its operand words (R211). -/
def Statement (i : Instr) : Prop := (encode i).length = 1 + operandWords i

theorem rdIsr (b : Blk) : Statement (.rdIsr b) := rfl
theorem rdIfcr (b : Blk) : Statement (.rdIfcr b) := rfl
theorem rdCcr1 (b : Blk) : Statement (.rdCcr1 b) := rfl
theorem rdCndtr1 (b : Blk) : Statement (.rdCndtr1 b) := rfl
theorem rdCpar1 (b : Blk) : Statement (.rdCpar1 b) := rfl
theorem rdCmar1 (b : Blk) : Statement (.rdCmar1 b) := rfl
theorem rdCcr2 (b : Blk) : Statement (.rdCcr2 b) := rfl
theorem rdCndtr2 (b : Blk) : Statement (.rdCndtr2 b) := rfl
theorem rdCpar2 (b : Blk) : Statement (.rdCpar2 b) := rfl
theorem rdCmar2 (b : Blk) : Statement (.rdCmar2 b) := rfl
theorem rdCcr3 (b : Blk) : Statement (.rdCcr3 b) := rfl
theorem rdCndtr3 (b : Blk) : Statement (.rdCndtr3 b) := rfl
theorem rdCpar3 (b : Blk) : Statement (.rdCpar3 b) := rfl
theorem rdCmar3 (b : Blk) : Statement (.rdCmar3 b) := rfl
theorem rdCcr4 (b : Blk) : Statement (.rdCcr4 b) := rfl
theorem rdCndtr4 (b : Blk) : Statement (.rdCndtr4 b) := rfl
theorem rdCpar4 (b : Blk) : Statement (.rdCpar4 b) := rfl
theorem rdCmar4 (b : Blk) : Statement (.rdCmar4 b) := rfl
theorem rdCcr5 (b : Blk) : Statement (.rdCcr5 b) := rfl
theorem rdCndtr5 (b : Blk) : Statement (.rdCndtr5 b) := rfl
theorem rdCpar5 (b : Blk) : Statement (.rdCpar5 b) := rfl
theorem rdCmar5 (b : Blk) : Statement (.rdCmar5 b) := rfl
theorem rdCcr6 (b : Blk) : Statement (.rdCcr6 b) := rfl
theorem rdCndtr6 (b : Blk) : Statement (.rdCndtr6 b) := rfl
theorem rdCpar6 (b : Blk) : Statement (.rdCpar6 b) := rfl
theorem rdCmar6 (b : Blk) : Statement (.rdCmar6 b) := rfl
theorem rdCcr7 (b : Blk) : Statement (.rdCcr7 b) := rfl
theorem rdCndtr7 (b : Blk) : Statement (.rdCndtr7 b) := rfl
theorem rdCpar7 (b : Blk) : Statement (.rdCpar7 b) := rfl
theorem rdCmar7 (b : Blk) : Statement (.rdCmar7 b) := rfl
theorem rdCselr (b : Blk) : Statement (.rdCselr b) := rfl
theorem wrIsr (b : Blk) (v : Word) : Statement (.wrIsr b v) := rfl
theorem wrIfcr (b : Blk) (v : Word) : Statement (.wrIfcr b v) := rfl
theorem wrCcr1 (b : Blk) (v : Word) : Statement (.wrCcr1 b v) := rfl
theorem wrCndtr1 (b : Blk) (v : Word) : Statement (.wrCndtr1 b v) := rfl
theorem wrCpar1 (b : Blk) (v : Word) : Statement (.wrCpar1 b v) := rfl
theorem wrCmar1 (b : Blk) (v : Word) : Statement (.wrCmar1 b v) := rfl
theorem wrCcr2 (b : Blk) (v : Word) : Statement (.wrCcr2 b v) := rfl
theorem wrCndtr2 (b : Blk) (v : Word) : Statement (.wrCndtr2 b v) := rfl
theorem wrCpar2 (b : Blk) (v : Word) : Statement (.wrCpar2 b v) := rfl
theorem wrCmar2 (b : Blk) (v : Word) : Statement (.wrCmar2 b v) := rfl
theorem wrCcr3 (b : Blk) (v : Word) : Statement (.wrCcr3 b v) := rfl
theorem wrCndtr3 (b : Blk) (v : Word) : Statement (.wrCndtr3 b v) := rfl
theorem wrCpar3 (b : Blk) (v : Word) : Statement (.wrCpar3 b v) := rfl
theorem wrCmar3 (b : Blk) (v : Word) : Statement (.wrCmar3 b v) := rfl
theorem wrCcr4 (b : Blk) (v : Word) : Statement (.wrCcr4 b v) := rfl
theorem wrCndtr4 (b : Blk) (v : Word) : Statement (.wrCndtr4 b v) := rfl
theorem wrCpar4 (b : Blk) (v : Word) : Statement (.wrCpar4 b v) := rfl
theorem wrCmar4 (b : Blk) (v : Word) : Statement (.wrCmar4 b v) := rfl
theorem wrCcr5 (b : Blk) (v : Word) : Statement (.wrCcr5 b v) := rfl
theorem wrCndtr5 (b : Blk) (v : Word) : Statement (.wrCndtr5 b v) := rfl
theorem wrCpar5 (b : Blk) (v : Word) : Statement (.wrCpar5 b v) := rfl
theorem wrCmar5 (b : Blk) (v : Word) : Statement (.wrCmar5 b v) := rfl
theorem wrCcr6 (b : Blk) (v : Word) : Statement (.wrCcr6 b v) := rfl
theorem wrCndtr6 (b : Blk) (v : Word) : Statement (.wrCndtr6 b v) := rfl
theorem wrCpar6 (b : Blk) (v : Word) : Statement (.wrCpar6 b v) := rfl
theorem wrCmar6 (b : Blk) (v : Word) : Statement (.wrCmar6 b v) := rfl
theorem wrCcr7 (b : Blk) (v : Word) : Statement (.wrCcr7 b v) := rfl
theorem wrCndtr7 (b : Blk) (v : Word) : Statement (.wrCndtr7 b v) := rfl
theorem wrCpar7 (b : Blk) (v : Word) : Statement (.wrCpar7 b v) := rfl
theorem wrCmar7 (b : Blk) (v : Word) : Statement (.wrCmar7 b v) := rfl
theorem wrCselr (b : Blk) (v : Word) : Statement (.wrCselr b v) := rfl
theorem split (b : Blk) : Statement (.split b) := rfl
theorem listen (b : Blk) (x : Ch) (ev : Event) : Statement (.listen b x ev) := rfl
theorem unlisten (b : Blk) (x : Ch) (ev : Event) : Statement (.unlisten b x ev) := rfl
theorem status (b : Blk) (x : Ch) : Statement (.status b x) := rfl
theorem clearFlags (b : Blk) (x : Ch) : Statement (.clearFlags b x) := rfl
theorem clearFlag (b : Blk) (x : Ch) (which : Flag) : Statement (.clearFlag b x which) := rfl
theorem remaining (b : Blk) (x : Ch) : Statement (.remaining b x) := rfl
theorem selectRequest (b : Blk) (x : Ch) (imm : BitVec 16) : Statement (.selectRequest b x imm) := rfl
theorem setPaddr (b : Blk) (x : Ch) (paddr : Word) : Statement (.setPaddr b x paddr) := rfl
theorem setMaddr (b : Blk) (x : Ch) (maddr : Word) : Statement (.setMaddr b x maddr) := rfl
theorem setCount (b : Blk) (x : Ch) (count : BitVec 16) : Statement (.setCount b x count) := rfl
theorem configure (b : Blk) (x : Ch) (imm : BitVec 16) : Statement (.configure b x imm) := rfl
theorem start (b : Blk) (x : Ch) : Statement (.start b x) := rfl
theorem stop (b : Blk) (x : Ch) : Statement (.stop b x) := rfl
theorem getPaddr (b : Blk) (x : Ch) : Statement (.getPaddr b x) := rfl
theorem getMaddr (b : Blk) (x : Ch) : Statement (.getMaddr b x) := rfl
theorem circRead (b : Blk) (x : Ch) (size pl : BitVec 2) (h : BitVec 16) (base paddr : Word) : Statement (.circRead b x size pl h base paddr) := rfl
theorem readableHalf (b : Blk) (x : Ch) : Statement (.readableHalf b x) := rfl
theorem peek (b : Blk) (x : Ch) : Statement (.peek b x) := rfl
theorem partialPeek (b : Blk) (x : Ch) : Statement (.partialPeek b x) := rfl
theorem answerIsr (b : Blk) (x : Ch) : Statement (.answerIsr b x) := rfl
theorem readExact (b : Blk) (x : Ch) (size pl : BitVec 2) (n : BitVec 16) (base paddr payload : Word) : Statement (.readExact b x size pl n base paddr payload) := rfl
theorem writeAll (b : Blk) (x : Ch) (size pl : BitVec 2) (n : BitVec 16) (base paddr payload : Word) : Statement (.writeAll b x size pl n base paddr payload) := rfl
theorem isDone (b : Blk) (x : Ch) : Statement (.isDone b x) := rfl
theorem wait (b : Blk) (x : Ch) : Statement (.wait b x) := rfl
theorem terminate (b : Blk) (x : Ch) : Statement (.terminate b x) := rfl
theorem xpeek (b : Blk) (x : Ch) : Statement (.xpeek b x) := rfl
theorem restart (b : Blk) (x : Ch) : Statement (.restart b x) := rfl
theorem fence : Statement (.fence) := rfl

end Sys2Proof.Laws.EncodeLength
end

