-- ==== Sys2Proof/Laws/Run.lean ====
section
/-! SUPPORT. Running one operation micro-step by micro-step: a run of k + 1 micro-steps peeled by one, a micro-step at a
label, and the micro-steps A2 to A9 that the three entry operations share. -/
namespace Sys2Proof.Machine
open Sys2Proof

@[simp] theorem runAlone_zero (i : Instr) (s : State) : runAlone 0 i s = .next s := rfl

/-- A run of k + 1 micro-steps is its first micro-step and a run of k. -/
theorem runAlone_succ {i : Instr} {s t : State} (h : exec i s = .next t) (k : Nat) :
    runAlone (k + 1) i s = runAlone k i t := by simp only [runAlone, h]

/-- A micro-step at a label, in a state with no mark. -/
theorem sequenced_goto {op : Instr} {l : Label} {s : State} (hf : s.fault = none) (hr : s.refused = none) (start : Out)
    (resume : Label → Out) : sequenced op (s.goto op l) start resume = resume l :=
  sequenced_busy (by simpa using hf) (by simpa using hr) rfl start resume

/-- The fields of an entry operation's configuration (R451, R501). -/
@[simp] theorem entryCfg_psize (pl s : BitVec 2) (circ dir en : Bool) (ie : BitVec 3) :
    (Ccr.mk en ie (entryCfg pl s circ dir)).psize = s := by
  simp only [Ccr.psize]
  revert pl s circ dir
  decide

@[simp] theorem entryCfg_msize (pl s : BitVec 2) (circ dir en : Bool) (ie : BitVec 3) :
    (Ccr.mk en ie (entryCfg pl s circ dir)).msize = s := by
  simp only [Ccr.msize]
  revert pl s circ dir
  decide

@[simp] theorem entryCfg_mem2mem (pl s : BitVec 2) (circ dir en : Bool) (ie : BitVec 3) :
    (Ccr.mk en ie (entryCfg pl s circ dir)).mem2mem = false := by
  simp only [Ccr.mem2mem]
  revert pl s circ dir
  decide

theorem esizeOf_some {size : BitVec 2} {es : ESize} (h : esizeOf size = some es) :
    size ≠ 3#2 ∧ 2 ^ size.toNat = es.bytes := by
  revert size es
  intro size es
  cases es <;> revert size <;> decide

section ArmResume

variable (i : Instr) (b : Blk) (x : Ch) (base paddr : Word) (n : BitVec 16) (cfg : BitVec 11) (own : Owner)
  (res : Result) (s : State) (c : Word)

/-! One equation per micro-step, cited instead of unfolding `armResume`. -/

theorem armResume_a2 : armResume i b x base paddr n cfg own res s (.a2 c) =
    onDone (wrReg b (.cpar x) paddr s) fun s1 => goOn s1 i (.a3 c) := rfl
theorem armResume_a3 : armResume i b x base paddr n cfg own res s (.a3 c) =
    onDone (wrReg b (.cmar x) base s) fun s1 => goOn s1 i (.a4 c) := rfl
theorem armResume_a4 : armResume i b x base paddr n cfg own res s (.a4 c) =
    onDone (wrReg b (.cndtr x) (n.setWidth 32) s) fun s1 => goOn s1 i (.a5 c) := rfl
theorem armResume_a5 : armResume i b x base paddr n cfg own res s (.a5 c) =
    wrCcrThen i b x (entryWord cfg c) (.a6 c) s := rfl
theorem armResume_a6 : armResume i b x base paddr n cfg own res s (.a6 c) = goOn s.fence i (.a7 c) := rfl
theorem armResume_a7 : armResume i b x base paddr n cfg own res s (.a7 c) =
    wrCcrThen i b x (setBit (entryWord cfg c) 0) .a8 s := rfl
theorem armResume_a8 : armResume i b x base paddr n cfg own res s .a8 = spinEn i b x true .a8 (fun _ => .a9) s := rfl
theorem armResume_a9 : armResume i b x base paddr n cfg own res s .a9 = retOp (s.fence.setHolder b x own) res := rfl

end ArmResume

/-- What the micro-steps A2 to A9 leave: the registers programmed, the channel enabled, its engine loaded, the fence
done, the owner and the result set (R451, R501, R502). -/
def armed (b : Blk) (x : Ch) (base paddr : Word) (count : BitVec 16) (cfg : BitVec 11) (own : Owner) (res : Result)
    (s : State) : State :=
  ((((s.setRegs b x
    { s.regs b x with ccr := ⟨true, (s.regs b x).ccr.ie, cfg⟩, ndt := count, cpar := paddr, cmar := base }).setEngine b x
    { curPa := paddr, curMa := base, ndtReload := count, stopping := false, unseen := [] }).fence).setHolder b x own).ret
    res

/-- The micro-steps A2 to A9 with no other agent's step between them. -/
theorem armResume_runs {i : Instr} {b : Blk} {x : Ch} {size pl : BitVec 2} {es : ESize} {base paddr : Word}
    {count : BitVec 16} {circ dir : Bool} {own : Owner} {res : Result} {s : State}
    (hf : s.fault = none) (hr : s.refused = none) (hc : s.clk b = true) (hes : esizeOf size = some es)
    (hb : base.toNat % es.bytes = 0) (hp : paddr.toNat % es.bytes = 0) (he : (s.regs b x).ccr.en = false)
    (hex : ∀ (u : State) l, u.fault = none → u.refused = none →
      exec i (u.goto i l) = armResume i b x base paddr count (entryCfg pl size circ dir) own res (u.goto i l) l) :
    runAlone 8 i (s.goto i (.a2 (s.regs b x).ccr.toWord)) =
      .next (armed b x base paddr count (entryCfg pl size circ dir) own res s) := by
  have h16 : (count.setWidth 32).setWidth 16 = count := by
    apply BitVec.eq_of_getLsbD_eq
    intro k hk
    simp
  obtain ⟨h3, hn⟩ := esizeOf_some hes
  let r := s.regs b x
  let s2 := s.setRegs b x { r with cpar := paddr }
  let s3 := s.setRegs b x { r with cpar := paddr, cmar := base }
  let s4 := s.setRegs b x { r with cpar := paddr, cmar := base, ndt := count }
  let s5 := s.setRegs b x
    { r with cpar := paddr, cmar := base, ndt := count, ccr := ⟨false, r.ccr.ie, entryCfg pl size circ dir⟩ }
  let c := r.ccr.toWord
  let s7 := (s.setRegs b x
    { r with cpar := paddr, cmar := base, ndt := count, ccr := ⟨true, r.ccr.ie, entryCfg pl size circ dir⟩ }).setEngine b x
    { curPa := paddr, curMa := base, ndtReload := count, stopping := false, unseen := [] }
  have e2 : exec i (s.goto i (.a2 c)) = .next (s2.goto i (.a3 c)) := by
    rw [hex _ _ (by exact hf) (by exact hr), armResume_a2]; simp [hc, wrCpar, he, goOn, s2, r]
  have e3 : exec i (s2.goto i (.a3 c)) = .next (s3.goto i (.a4 c)) := by
    rw [hex _ _ (by exact hf) (by exact hr), armResume_a3]; simp [hc, wrCmar, he, goOn, s2, s3, r]
  have e4 : exec i (s3.goto i (.a4 c)) = .next (s4.goto i (.a5 c)) := by
    rw [hex _ _ (by exact hf) (by exact hr), armResume_a4]; simp [hc, State.wrCndtr, he, goOn, s3, s4, r]
  have e5 : exec i (s4.goto i (.a5 c)) = .next (s5.goto i (.a6 c)) := by
    rw [hex _ _ (by exact hf) (by exact hr), armResume_a5]; simp [hc, wrCcrThen, wrCcr, he, goOn, s4, s5, r, c, Ccr.update]
  have e6 : exec i (s5.goto i (.a6 c)) = .next (s5.fence.goto i (.a7 c)) := by
    rw [hex _ _ (by exact hf) (by exact hr), armResume_a6]; simp [goOn]
  have e7 : exec i (s5.fence.goto i (.a7 c)) = .next (s7.fence.goto i .a8) := by
    rw [hex _ _ (by exact hf) (by exact hr), armResume_a7]
    have hl : wrCcr b x (setBit (entryWord (entryCfg pl size circ dir) c) 0) (s5.fence.goto i (.a7 c)) =
        .ok (s7.fence.goto i (.a7 c)) := by
      rw [wrCcr_enable (by simp [s5]) (by simp), enable_legal]
      · simp [ccrUpdated, s5, s7, Ccr.update, c, r]
      · simp only [ccrUpdated, s5, Ccr.update, State.regs_setRegs_self, State.goto_regs, State.fence_regs]
        refine ⟨?_, ?_, ?_, ?_, ?_⟩ <;> simp [c, h3, hn, hb, hp]
    simp [wrCcrThen, hl, goOn, s5, hc]
  have e8 : exec i (s7.fence.goto i .a8) = .next (s7.fence.goto i .a9) := by
    rw [hex _ _ (by exact hf) (by exact hr), armResume_a8]; simp [spinEn, goOn, s7, hc]
  have e9 : exec i (s7.fence.goto i .a9) = .next (armed b x base paddr count (entryCfg pl size circ dir) own res s) := by
    rw [hex _ _ (by exact hf) (by exact hr), armResume_a9]; simp [retOp, armed, s7, r]
  rw [runAlone_succ e2, runAlone_succ e3, runAlone_succ e4, runAlone_succ e5, runAlone_succ e6, runAlone_succ e7,
    runAlone_succ e8, runAlone_succ e9, runAlone_zero]

/-- Every element of a buffer is admitted. -/
theorem allAdmitted_iff (s : State) (base : Word) (es : ESize) (n : Nat) :
    allAdmitted s base es n = true ↔
      ∀ k, k < n → s.memAdmit (base + BitVec.ofNat 32 (k * es.bytes)) es.bytes = true := by
  induction n with
  | zero => simp [allAdmitted]
  | succ n ih =>
    simp only [allAdmitted, elemAddr, Bool.and_eq_true, ih]
    constructor
    · rintro ⟨hn, h⟩ k hk
      by_cases hkn : k = n
      · subst hkn; exact hn
      · exact h k (by omega)
    · exact fun h => ⟨h n (by omega), fun k hk => h k (by omega)⟩

end Sys2Proof.Machine
end

