-- ==== Sys2Proof/Tests/Slice0.lean ====
section
/-! SUPPORT. Tests: the decoding of words written out from the tables of 30_encoding.md; the well-formedness smoke test;
vectors of 95_test_vectors.md (named in each comment), one operation each; and for every obligation with hypotheses a
concrete state and operands that meet them. -/
namespace Sys2Proof.Tests
open Sys2Proof Sys2Proof.Machine

/-! ## Decoding: one word for each row of the opcode table, from R201, R202, R203, R205, R208 -/

/-- The words decode to the instruction with nothing left, and are what it encodes to. -/
def decodes (ws : List Word) (i : Instr) : Bool := decide ((decode ws).toOption = some (i, []) ∧ encode i = ws)

theorem test_decode_bus_reads_1 :
    decodes [0x00000000#32] (.rdIsr .dma1) ∧
    decodes [0x00000204#32] (.rdIfcr .dma2) ∧
    decodes [0x00000008#32] (.rdCcr1 .dma1) ∧
    decodes [0x0000020c#32] (.rdCndtr1 .dma2) ∧
    decodes [0x00000010#32] (.rdCpar1 .dma1) ∧
    decodes [0x00000214#32] (.rdCmar1 .dma2) ∧
    decodes [0x0000001c#32] (.rdCcr2 .dma1) ∧
    decodes [0x00000220#32] (.rdCndtr2 .dma2) ∧
    decodes [0x00000024#32] (.rdCpar2 .dma1) ∧
    decodes [0x00000228#32] (.rdCmar2 .dma2) ∧
    decodes [0x00000030#32] (.rdCcr3 .dma1) := by decide

theorem test_decode_bus_reads_2 :
    decodes [0x00000234#32] (.rdCndtr3 .dma2) ∧
    decodes [0x00000038#32] (.rdCpar3 .dma1) ∧
    decodes [0x0000023c#32] (.rdCmar3 .dma2) ∧
    decodes [0x00000044#32] (.rdCcr4 .dma1) ∧
    decodes [0x00000248#32] (.rdCndtr4 .dma2) ∧
    decodes [0x0000004c#32] (.rdCpar4 .dma1) ∧
    decodes [0x00000250#32] (.rdCmar4 .dma2) ∧
    decodes [0x00000058#32] (.rdCcr5 .dma1) ∧
    decodes [0x0000025c#32] (.rdCndtr5 .dma2) ∧
    decodes [0x00000060#32] (.rdCpar5 .dma1) := by decide

theorem test_decode_bus_reads_3 :
    decodes [0x00000264#32] (.rdCmar5 .dma2) ∧
    decodes [0x0000006c#32] (.rdCcr6 .dma1) ∧
    decodes [0x00000270#32] (.rdCndtr6 .dma2) ∧
    decodes [0x00000074#32] (.rdCpar6 .dma1) ∧
    decodes [0x00000278#32] (.rdCmar6 .dma2) ∧
    decodes [0x00000080#32] (.rdCcr7 .dma1) ∧
    decodes [0x00000284#32] (.rdCndtr7 .dma2) ∧
    decodes [0x00000088#32] (.rdCpar7 .dma1) ∧
    decodes [0x0000028c#32] (.rdCmar7 .dma2) ∧
    decodes [0x000000a8#32] (.rdCselr .dma1) := by decide

theorem test_decode_bus_writes_1 :
    decodes [0x00000300#32, 0xef950839#32] (.wrIsr .dma2 0xef950839#32) ∧
    decodes [0x00000104#32, 0x400c0e7e#32] (.wrIfcr .dma1 0x400c0e7e#32) ∧
    decodes [0x00000308#32, 0x2500bfdf#32] (.wrCcr1 .dma2 0x2500bfdf#32) ∧
    decodes [0x0000010c#32, 0x0141d42c#32] (.wrCndtr1 .dma1 0x0141d42c#32) ∧
    decodes [0x00000310#32, 0xddb4eef5#32] (.wrCpar1 .dma2 0xddb4eef5#32) ∧
    decodes [0x00000114#32, 0x8d56948a#32] (.wrCmar1 .dma1 0x8d56948a#32) ∧
    decodes [0x0000031c#32, 0x7bdb7afb#32] (.wrCcr2 .dma2 0x7bdb7afb#32) ∧
    decodes [0x00000120#32, 0x750e0718#32] (.wrCndtr2 .dma1 0x750e0718#32) ∧
    decodes [0x00000324#32, 0xb1b28571#32] (.wrCpar2 .dma2 0xb1b28571#32) ∧
    decodes [0x00000128#32, 0xf4116f56#32] (.wrCmar2 .dma1 0xf4116f56#32) ∧
    decodes [0x00000330#32, 0x2ddccbd7#32] (.wrCcr3 .dma2 0x2ddccbd7#32) := by decide

theorem test_decode_bus_writes_2 :
    decodes [0x00000134#32, 0x0c687cc4#32] (.wrCndtr3 .dma1 0x0c687cc4#32) ∧
    decodes [0x00000338#32, 0x621907ad#32] (.wrCpar3 .dma2 0x621907ad#32) ∧
    decodes [0x0000013c#32, 0x41cd2ae2#32] (.wrCmar3 .dma1 0x41cd2ae2#32) ∧
    decodes [0x00000344#32, 0x14384e73#32] (.wrCcr4 .dma2 0x14384e73#32) ∧
    decodes [0x00000148#32, 0xa3d2a130#32] (.wrCndtr4 .dma1 0xa3d2a130#32) ∧
    decodes [0x0000034c#32, 0xc8eb71a9#32] (.wrCpar4 .dma2 0xc8eb71a9#32) ∧
    decodes [0x00000150#32, 0x1a97132e#32] (.wrCmar4 .dma1 0x1a97132e#32) ∧
    decodes [0x00000358#32, 0xddbf5ecf#32] (.wrCcr5 .dma2 0xddbf5ecf#32) ∧
    decodes [0x0000015c#32, 0x9c78a05c#32] (.wrCndtr5 .dma1 0x9c78a05c#32) ∧
    decodes [0x00000360#32, 0xc3607f65#32] (.wrCpar5 .dma2 0xc3607f65#32) := by decide

theorem test_decode_bus_writes_3 :
    decodes [0x00000164#32, 0xc405343a#32] (.wrCmar5 .dma1 0xc405343a#32) ∧
    decodes [0x0000036c#32, 0x2afd18eb#32] (.wrCcr6 .dma2 0x2afd18eb#32) ∧
    decodes [0x00000170#32, 0x5c1d6648#32] (.wrCndtr6 .dma1 0x5c1d6648#32) ∧
    decodes [0x00000374#32, 0x915eace1#32] (.wrCpar6 .dma2 0x915eace1#32) ∧
    decodes [0x00000178#32, 0x95025a06#32] (.wrCmar6 .dma1 0x95025a06#32) ∧
    decodes [0x00000380#32, 0x501258c7#32] (.wrCcr7 .dma2 0x501258c7#32) ∧
    decodes [0x00000184#32, 0xdfc69ef4#32] (.wrCndtr7 .dma1 0xdfc69ef4#32) ∧
    decodes [0x00000388#32, 0xb0b8361d#32] (.wrCpar7 .dma2 0xb0b8361d#32) ∧
    decodes [0x0000018c#32, 0x965a1092#32] (.wrCmar7 .dma1 0x965a1092#32) ∧
    decodes [0x000003a8#32, 0x5851ba63#32] (.wrCselr .dma2 0x5851ba63#32) := by decide

theorem test_decode_cmd_1 :
    decodes [0x40000000#32] (.split .dma1) ∧
    decodes [0x41310000#32] (.listen .dma2 .c1 .ht) ∧
    decodes [0x42420000#32] (.unlisten .dma1 .c2 .te) ∧
    decodes [0x43700000#32] (.status .dma2 .c3) ∧
    decodes [0x44800000#32] (.clearFlags .dma1 .c4) ∧
    decodes [0x45b30000#32] (.clearFlag .dma2 .c5 .gif) ∧
    decodes [0x46c00000#32] (.remaining .dma1 .c6) ∧
    decodes [0x47f0000b#32] (.selectRequest .dma2 .c7 0x000B#16) ∧
    decodes [0x48200000#32, 0x40013824#32] (.setPaddr .dma1 .c1 0x40013824#32) ∧
    decodes [0x49500000#32, 0x40013824#32] (.setMaddr .dma2 .c2 0x40013824#32) := by decide

theorem test_decode_cmd_2 :
    decodes [0x4a60fffe#32] (.setCount .dma1 .c3 0xFFFE#16) ∧
    decodes [0x4b9007a5#32] (.configure .dma2 .c4 0x07A5#16) ∧
    decodes [0x4ca00000#32] (.start .dma1 .c5) ∧
    decodes [0x4dd00000#32] (.stop .dma2 .c6) ∧
    decodes [0x4ee00000#32] (.getPaddr .dma1 .c7) ∧
    decodes [0x4f300000#32] (.getMaddr .dma2 .c1) ∧
    decodes [0x50497fff#32, 0x20000000#32, 0x40013824#32] (.circRead .dma1 .c2 1#2 2#2 0x7FFF#16 0x20000000#32 0x40013824#32) ∧
    decodes [0x51700000#32] (.readableHalf .dma2 .c3) ∧
    decodes [0x52800000#32] (.peek .dma1 .c4) ∧
    decodes [0x53b00000#32] (.partialPeek .dma2 .c5) := by decide

theorem test_decode_cmd_3 :
    decodes [0x54c00000#32] (.answerIsr .dma1 .c6) ∧
    decodes [0x60f68001#32, 0x20000100#32, 0x40013824#32, 0x00000007#32] (.readExact .dma2 .c7 2#2 1#2 0x8001#16 0x20000100#32 0x40013824#32 7#32) ∧
    decodes [0x612c0003#32, 0x20000200#32, 0x40013828#32, 0xffffffff#32] (.writeAll .dma1 .c1 0#2 3#2 0x0003#16 0x20000200#32 0x40013828#32 0xFFFFFFFF#32) ∧
    decodes [0x62500000#32] (.isDone .dma2 .c2) ∧
    decodes [0x63600000#32] (.wait .dma1 .c3) ∧
    decodes [0x64900000#32] (.terminate .dma2 .c4) ∧
    decodes [0x65a00000#32] (.xpeek .dma1 .c5) ∧
    decodes [0x66d00000#32] (.restart .dma2 .c6) ∧
    decodes [0x7f000000#32] (.fence) := by decide

/-- A list of words does not decode. -/
def refusedWords (ws : List Word) : Bool := (decode ws).toOption.isNone

/-- L2.E: reserved offsets, misaligned offsets, the zero field, reserved classes and a missing operand (R209). -/
theorem test_decode_refuses_bus :
    refusedWords [0x00000018#32] ∧ refusedWords [0x000000AC#32] ∧ refusedWords [0x00000094#32] ∧
    refusedWords [0x00000002#32] ∧ refusedWords [0x00000400#32] ∧ refusedWords [0x80000000#32] ∧
    refusedWords [0xC0000000#32] ∧ refusedWords [0x00000130#32] := by decide

/-- L2.E: reserved selectors, immediates, channels, operation codes and missing operands (R205, R206, R209). -/
theorem test_decode_refuses_cmd :
    refusedWords [0x41A30000#32] ∧ refusedWords [0x41010000#32] ∧ refusedWords [0x47A00012#32] ∧
    refusedWords [0x50A3000A#32, 0#32, 0#32] ∧ refusedWords [0x55A00000#32] ∧ refusedWords [0x7F200000#32] ∧
    refusedWords [0x7F100000#32] ∧ refusedWords [0x40200000#32] ∧ refusedWords [0x4BA00800#32] ∧
    refusedWords [0x60A00004#32] ∧ refusedWords [0x60A00004#32, 0#32, 0#32] := by decide

/-- L2.E: `0x50A0000A` (CIRC_READ, size 8, low priority, h = 10) and `0x60A00004` (READ_EXACT, n = 4). -/
theorem test_decode_vectors :
    decodes [0x50A0000A#32, 0x20000000#32, 0x40013824#32]
      (.circRead .dma1 .c5 0#2 0#2 10#16 0x20000000#32 0x40013824#32) ∧
    decodes [0x60A00004#32, 0x20000100#32, 0x40013824#32, 1#32]
      (.readExact .dma1 .c5 0#2 0#2 4#16 0x20000100#32 0x40013824#32 1#32) := by decide

/-- The opcode table's numbering: the operand is the second word; a row's word alone has zero operands (R200). -/
theorem test_table_word :
    decodeTableWord 64 0x000000A100000130 = some (.wrCcr3 .dma1 0xA1#32) ∧
    decodeTableWord 32 0x00000130 = some (.wrCcr3 .dma1 0#32) ∧ decodeTableWord 32 0x80000000 = none := by decide

/-! ## WellFormed: an ill-formed term for each check (R205, R206) -/

theorem test_wellFormed_selectRequest :
    (Instr.selectRequest .dma1 .c1 0x0010#16).wellFormed = false ∧
    (Instr.selectRequest .dma1 .c1 0x000F#16).wellFormed = true := by decide

theorem test_wellFormed_configure :
    (Instr.configure .dma1 .c1 0x0800#16).wellFormed = false ∧
    (Instr.configure .dma1 .c1 0x07FF#16).wellFormed = true := by decide

theorem test_wellFormed_circRead :
    (Instr.circRead .dma1 .c1 3#2 0#2 1#16 0#32 0#32).wellFormed = false ∧
    (Instr.circRead .dma1 .c1 2#2 3#2 1#16 0#32 0#32).wellFormed = true := by decide

theorem test_wellFormed_readExact :
    (Instr.readExact .dma1 .c1 3#2 0#2 1#16 0#32 0#32 0#32).wellFormed = false := by decide

theorem test_wellFormed_writeAll :
    (Instr.writeAll .dma1 .c1 3#2 0#2 1#16 0#32 0#32 0#32).wellFormed = false := by decide

/-! ## Small states -/

/-- The launch parameters of 95_test_vectors.md as data: RAM, the peripherals, two endpoints, one request line for each
of the channels 1 and 5, HT_ODD = Low. -/
def testPlat : Platform :=
  { memAdmit := some [⟨0x20000000, 0x10000⟩], periphAdmit := some [⟨0x40000000, 0x20000⟩]
    legalEndpoint := some [⟨.dma1, .c5, 0#4, 0x40013824#32⟩]
    reqMap := some [⟨.dma1, .c1, 0#4, 1⟩, ⟨.dma1, .c5, 0#4, 5⟩], htOdd := some .low }

/-- After `SPLIT DMA1` from reset (S.1). -/
def booted : State :=
  { State.reset with
    clkEn := ⟨true, false⟩, splitDone := ⟨true, false⟩
    owner := ⟨⟨.handle, .handle, .handle, .handle, .handle, .handle, .handle⟩, .all .unsplit⟩, plat := testPlat }

/-- Channel 5 of DMA1 programmed: 20 bytes, circular, peripheral to memory; disabled (CCR5 = 0xA0). -/
def regs5 : ChanRegs :=
  { ChanRegs.reset with
    ccr := ⟨false, 0#3, 0x00A#11⟩, ndt := 20#16, cpar := 0x40013824#32, cmar := 0x20000000#32 }

/-- A channel's registers with EN = 1. -/
def chanOn (r : ChanRegs) : ChanRegs := { r with ccr := { r.ccr with en := true } }

/-- The engine of channel 5 just enabled. -/
def eng5 : Engine :=
  { curPa := 0x40013824#32, curMa := 0x20000000#32, ndtReload := 20#16, stopping := false, unseen := [] }

/-- `booted` with channel 5's registers, engine and owner. -/
def chan5 (r : ChanRegs) (e : Engine) (o : Owner) : State :=
  ((booted.setRegs .dma1 .c5 r).setEngine .dma1 .c5 e).setHolder .dma1 .c5 o

/-- Programmed and disabled, a Handle. -/
def idle5 : State := chan5 regs5 .reset .handle

/-- Running, a Handle. -/
def run5 : State := chan5 (chanOn regs5) eng5 .handle

/-- Running with a stop in progress. -/
def stop5 : State := chan5 (chanOn regs5) { eng5 with stopping := true } .handle

/-- A CircBuffer record of h = 10 bytes a half. -/
def ring (r : Half) (offset : Nat) : CircRec :=
  { base := 0x20000000#32, h := 10, esize := .b1, readableHalf := r, consumedOffset := offset, disturbed := [] }

/-- Channel 5 running under a CircBuffer with the flags given. -/
def circ5 (cb : CircRec) (ht tc : Bool) : State :=
  chan5 { chanOn regs5 with htif := ht, tcif := tc } eng5 (.circ cb)

/-- A one-shot configuration (CCR = 0x80), n elements left. -/
def regs1 (n : BitVec 16) : ChanRegs := { regs5 with ccr := ⟨false, 0#3, 0x008#11⟩, ndt := n }

/-- A Transfer record of 8 bytes. -/
def xfer8 (m : XferMode) : XferRec :=
  { mode := m, base := 0x20000000#32, n := 8, esize := .b1, paddr := 0x40013824#32, payload := 7#32, disturbed := [] }

/-- Channel 5 under a Transfer. -/
def xfer5 (r : ChanRegs) (m : XferMode) : State := chan5 r eng5 (.xfer (xfer8 m))

/-- The state with a turn announced. -/
def onTurn (t : Turn) (s : State) : State := { s with env := { s.env with turns := [t] } }

/-- The state with the consumer's acts announced. -/
def onActs (a : List ConsumerAct) (s : State) : State := { s with env := { s.env with acts := a } }

/-- The state with the environment's words announced. -/
def onValues (v : List Word) (s : State) : State := { s with env := { s.env with values := v } }

/-- Something of the next state. -/
def ofNext {α : Type} (o : Out) (f : State → α) : Option α :=
  match o with
  | .next t => some (f t)
  | .fault _ => none
  | .refused _ => none

/-- Something of the state after k micro-steps. -/
def ofRun {α : Type} (k : Nat) (i : Instr) (s : State) (f : State → α) : Option α := ofNext (runAlone k i s) f

/-- The CCR of channel 5 as it reads. -/
def ccr5 (s : State) : Word := regValue s .dma1 (.ccr .c5)

/-- ISR as it reads. -/
def isr1 (s : State) : Word := regValue s .dma1 .isr

/-! ## The program and the turns -/

/-- R.1, R701: before SPLIT the clock is off, and a register read is refused. -/
theorem test_read_clock_off : ofRun 1 (.rdIsr .dma1) State.reset (·.refused) = some (some .clockOff) := by decide

/-- R200, R215: `withFetchWord` puts the word next; the first micro-step of SPLIT turns the clock on. -/
theorem test_fetch_split :
    ofNext (step (State.reset.withFetchWord 32 0x40000000)) (fun t => (t.clk .dma1, t.seq)) =
      some (true, .busy (.split .dma1) (.z1 .c1)) := by decide

/-- R209: a reserved word is refused as IllegalEncoding. -/
theorem test_fetch_reserved :
    ofNext (step (State.reset.withFetchWord 32 0x80000000)) (·.refused) = some (some .illegalEncoding) := by decide

/-! ## Register interface (L2.R) -/

def flagged : State := chan5 { regs5 with htif := true, tcif := true } .reset .handle

/-- R.2, R.3. -/
theorem test_wrIsr : ofRun 1 (.wrIsr .dma1 0#32) flagged isr1 = some 0x00070000#32 := by decide
theorem test_rdIfcr : ofRun 1 (.rdIfcr .dma1) flagged (·.result) = some (some (.word 0#32)) := by decide

/-- L1.5: ISR reads 0x00070000. -/
theorem test_rdIsr : ofRun 1 (.rdIsr .dma1) flagged (·.result) = some (some (.word 0x00070000#32)) := by decide

/-- R.4, R.5. -/
theorem test_wrIfcr_one : ofRun 1 (.wrIfcr .dma1 0x00040000#32) flagged isr1 = some 0x00030000#32 := by decide
theorem test_wrIfcr_global : ofRun 1 (.wrIfcr .dma1 0x00010000#32) flagged isr1 = some 0#32 := by decide

/-- R.7, R.8: the enable edge, then the interrupt enables of a running channel. -/
theorem test_wrCcr5_enable :
    ofRun 1 (.wrCcr5 .dma1 0xA1#32) idle5 (fun t => (ccr5 t, (t.engine .dma1 .c5).curMa,
      (t.engine .dma1 .c5).ndtReload)) = some (0xA1#32, 0x20000000#32, 20#16) := by decide
theorem test_wrCcr5_running : ofRun 1 (.wrCcr5 .dma1 0xA7#32) run5 ccr5 = some 0xA7#32 := by decide

/-- R.9, R.10: a disable with a count left, and an enable meanwhile. -/
theorem test_wrCcr_stops :
    ofRun 1 (.wrCcr5 .dma1 0xAA0#32) run5 (fun t => (ccr5 t, (t.engine .dma1 .c5).stopping)) =
      some (0xA1#32, true) := by decide
theorem test_wrCcr_enable_stopping :
    ofRun 1 (.wrCcr5 .dma1 0xA1#32) stop5 (·.refused) = some (some .enableWhileStopping) := by decide

/-- R.11, R.12. -/
theorem test_wrCndtr5_running : ofRun 1 (.wrCndtr5 .dma1 5#32) run5 (fun t => (t.regs .dma1 .c5).ndt) = some 20#16 := by
  decide
theorem test_wrCndtr5_disabled :
    ofRun 1 (.wrCndtr5 .dma1 0x00010005#32) idle5 (fun t => (t.regs .dma1 .c5).ndt) = some 5#16 := by decide

/-- R.13, and the same of CMAR. -/
theorem test_wrCpar5_running :
    ofRun 1 (.wrCpar5 .dma1 0x40013828#32) run5 (·.refused) = some (some .addrWriteWhileEnabled) := by decide
theorem test_wrCmar5_running :
    ofRun 1 (.wrCmar5 .dma1 0x20000400#32) run5 (·.refused) = some (some .addrWriteWhileEnabled) := by decide

/-- R.14 to R.17: the enable's checks. -/
theorem test_enable_refuses :
    ofRun 1 (.wrCcr5 .dma1 0x0F01#32) idle5 (·.refused) = some (some .reservedSize) ∧
    ofRun 1 (.wrCcr5 .dma1 0x0181#32) idle5 (·.refused) = some (some .sizeMismatch) ∧
    ofRun 1 (.wrCcr5 .dma1 0x4081#32) idle5 (·.refused) = some (some .mem2mem) ∧
    ofRun 1 (.wrCcr5 .dma1 0x0581#32) (chan5 { regs5 with cmar := 0x20000001#32 } .reset .handle) (·.refused) =
      some (some .misaligned) := by decide

/-- R.20, R.21. -/
theorem test_wrCselr :
    ofRun 1 (.wrCselr .dma1 0x00020000#32) booted (fun t => (regValue t .dma1 .cselr, (t.regs .dma1 .c5).cxs)) =
      some (0x00020000#32, 2#4) := by decide
theorem test_rdCcr5 : ofRun 1 (.rdCcr5 .dma1) run5 (·.result) = some (some (.word 0xA1#32)) := by decide

/-! ## Engines (L2.N) -/

/-- Channel 1 of DMA1 running, one-shot, n bytes. -/
def run1 (n : BitVec 16) (cmar : Word) : State :=
  let r := { chanOn (regs1 n) with cmar := cmar }
  (booted.setRegs .dma1 .c1 r).setEngine .dma1 .c1
    { curPa := r.cpar, curMa := cmar, ndtReload := n, stopping := false, unseen := [] }

/-- N.1, first step: the byte is stored, NDT is 3. -/
theorem test_element_store :
    let t := elementTurn .dma1 .c1 [1] (onValues [0x11#32] (run1 4#16 0x20000100#32))
    t.mem = [(0x20000100, 0x11#8)] ∧ (t.regs .dma1 .c1).ndt = 3#16 ∧ (t.regs .dma1 .c1).htif = false ∧
      (t.engine .dma1 .c1).curMa = 0x20000101#32 := by decide

/-- N.4: N = 1, HT_ODD = Low: both flags. N.5: HT_ODD = High: TCIF only. -/
theorem test_element_single :
    (let t := elementTurn .dma1 .c1 [1] (onValues [0x11#32] (run1 1#16 0x20000100#32))
     (t.regs .dma1 .c1).htif = true ∧ (t.regs .dma1 .c1).tcif = true ∧ (t.regs .dma1 .c1).ccr.en = true) ∧
    (let s := run1 1#16 0x20000100#32
     let t := elementTurn .dma1 .c1 [1] (onValues [0x11#32] { s with plat := { testPlat with htOdd := some .high } })
     (t.regs .dma1 .c1).htif = false ∧ (t.regs .dma1 .c1).tcif = true) := by decide

/-- N.8: an address that is not admitted is a transfer error. -/
theorem test_element_error :
    let t := elementTurn .dma1 .c1 [1] (onValues [0x11#32] (run1 4#16 0x1FFFFFFF#32))
    (t.regs .dma1 .c1).teif = true ∧ (t.regs .dma1 .c1).ccr.en = false ∧ (t.regs .dma1 .c1).ndt = 4#16 ∧ t.mem = [] := by
  decide

/-- N.15: no request, no step. -/
theorem test_element_no_request :
    elementTurn .dma1 .c1 [5] (run1 4#16 0x20000100#32) = run1 4#16 0x20000100#32 := by decide

/-- N.11, first step: a halfword of memory goes to the peripheral, little-endian. -/
theorem test_element_to_peripheral :
    let r : ChanRegs := { chanOn (regs1 2#16) with ccr := ⟨true, 0#3, 0x059#11⟩, cpar := 0x40013828#32, cmar := 0x20000300#32 }
    let s := (booted.setRegs .dma1 .c1 r).setEngine .dma1 .c1 { eng5 with curPa := r.cpar, curMa := r.cmar, ndtReload := 2#16 }
    let t := elementTurn .dma1 .c1 [1] { s with mem := [(0x20000300, 0x34#8), (0x20000301, 0x12#8)] }
    t.periphLog = [⟨.dma1, .c1, true, 0x40013828#32, 2, 0x1234#32⟩] := by decide

/-- Channel 5 moving memory to the peripheral, under an owner. -/
def out5 (o : Owner) : State := chan5 { chanOn regs5 with ccr := ⟨true, 0#3, 0x00B#11⟩ } eng5 o

/-- The value written to the peripheral when the program stores 0x5A at 0x20000000, then the engine moves that byte, the
environment's next word being 0xEE. -/
def outAfterStore (o : Owner) : Option (List Word) :=
  ofNext (step (onTurn (.store 0x20000000#32 .b1 0x5A#32) (onValues [0xEE#32] (out5 o)))) fun t =>
    (elementTurn .dma1 .c5 [5] t).periphLog.map (·.value)

/-- R150, R152, R355: a store after the enable of a channel that no object holds is what its engine reads. R75 and row
35: in a live Transfer's buffer the engine may read any value. -/
theorem test_store_after_enable :
    outAfterStore .handle = some [0x5A#32] ∧ outAfterStore (.xfer (xfer8 .memSrc)) = some [0xEE#32] := by decide

/-- R163: a store before the enable with no FENCE between is not seen, with one it is. -/
theorem test_store_before_enable :
    let r : ChanRegs := { regs5 with ccr := ⟨false, 0#3, 0x00B#11⟩ }
    let s := onValues [0xEE#32] { chan5 r .reset .handle with mem := [(0x20000000, 0x5A#8)] }
    let go (u : State) := ofRun 1 (.wrCcr5 .dma1 0xB1#32) u fun t =>
      (elementTurn .dma1 .c5 [5] t).periphLog.map (·.value)
    go { s with unfencedWrites := [0x20000000] } = some [0xEE#32] ∧ go s = some [0x5A#32] := by decide

/-- R75 and row 35: a store into a live CircBuffer's last byte is noted by it, one past it is not. -/
theorem test_store_disturbs :
    let s (a : Word) := onTurn (.store a .b1 1#32) (circ5 (ring .second 0) false false)
    ofNext (step (s 0x20000013#32)) (fun t => (t.holder .dma1 .c5).disturbed) = some [0x20000013] ∧
    ofNext (step (s 0x20000014#32)) (fun t => (t.holder .dma1 .c5).disturbed) = some [] := by decide

/-- N.12 and N.13: a drained element, or the stop-completion step, ends a stop. -/
theorem test_stop_drained :
    let t := elementTurn .dma1 .c5 [5] (onValues [0#32] stop5)
    (t.regs .dma1 .c5).ndt = 19#16 ∧ ccr5 t = 0xA0#32 ∧ (t.engine .dma1 .c5).stopping = false := by decide
theorem test_stop_completed :
    let t := stopTurn .dma1 .c5 stop5
    (t.regs .dma1 .c5).ndt = 20#16 ∧ ccr5 t = 0xA0#32 ∧ (t.engine .dma1 .c5).stopping = false := by decide

/-- N.14. -/
theorem test_irq :
    (chan5 { regs5 with ccr := ⟨false, 1#3, 0#11⟩, tcif := true } .reset .handle).irq .dma1 .c5 = true ∧
    (chan5 { regs5 with ccr := ⟨false, 2#3, 0#11⟩, tcif := true } .reset .handle).irq .dma1 .c5 = false := by decide

/-! ## Channel operations (L2.H) -/

/-- H.1, H.2. -/
theorem test_listen : ofRun 2 (.listen .dma1 .c5 .ht) run5 ccr5 = some 0xA5#32 := by decide
theorem test_unlisten :
    ofRun 2 (.unlisten .dma1 .c5 .ht) (chan5 { chanOn regs5 with ccr := ⟨true, 2#3, 0x00A#11⟩ } eng5 .handle) ccr5 =
      some 0xA1#32 := by decide

/-- H.3: the write-back of a stale EN = 1 re-enables the channel. -/
theorem test_listen_race :
    ofNext (exec (.listen .dma1 .c5 .tc) { idle5 with seq := .busy (.listen .dma1 .c5 .tc) (.l2 0xA5#32) }) ccr5 =
      some 0xA7#32 := by decide

/-- H.4 (with HTIF alone), H.6. -/
theorem test_status :
    ofRun 1 (.status .dma1 .c5) (chan5 { regs5 with htif := true } .reset .handle) (·.result) =
      some (some (.flags true false false true)) := by decide
theorem test_remaining :
    ofRun 1 (.remaining .dma1 .c5) (chan5 { regs5 with ndt := 11#16 } .reset .handle) (·.result) =
      some (some (.count 11#16)) := by decide

/-- H.5 (the other channel's flags stay), and CLEAR_FLAG TC. -/
theorem test_clearFlags :
    ofRun 1 (.clearFlags .dma1 .c5)
      (flagged.setRegs .dma1 .c2 { ChanRegs.reset with tcif := true, htif := true }) isr1 = some 0x00000070#32 := by decide
theorem test_clearFlag : ofRun 1 (.clearFlag .dma1 .c5 .tc) flagged isr1 = some 0x00050000#32 := by decide

/-- H.7. -/
theorem test_selectRequest :
    ofRun 2 (.selectRequest .dma1 .c5 2#16) (booted.setRegs .dma1 .c3 { ChanRegs.reset with cxs := 3#4 })
      (regValue · .dma1 .cselr) = some 0x00020300#32 := by decide

/-- H.8 to H.10. -/
theorem test_setPaddr :
    ofRun 1 (.setPaddr .dma1 .c5 0x40013828#32) idle5 (fun t => (t.regs .dma1 .c5).cpar) = some 0x40013828#32 := by decide
theorem test_getPaddr : ofRun 1 (.getPaddr .dma1 .c5) idle5 (·.result) = some (some (.address 0x40013824#32)) := by decide
theorem test_getMaddr : ofRun 1 (.getMaddr .dma1 .c5) idle5 (·.result) = some (some (.address 0x20000000#32)) := by decide
theorem test_setMaddr_running :
    ofRun 1 (.setMaddr .dma1 .c5 0x20000400#32) run5 (·.refused) = some (some .addrWriteWhileEnabled) := by decide
theorem test_setCount_running :
    ofRun 1 (.setCount .dma1 .c5 21#16) run5 (fun t => (t.result, (t.regs .dma1 .c5).ndt)) = some (some .unit, 20#16) := by
  decide

/-- H.11, H.12. -/
theorem test_configure : ofRun 2 (.configure .dma1 .c5 0x00A#16) booted ccr5 = some 0xA0#32 := by decide
theorem test_configure_running : ofRun 2 (.configure .dma1 .c5 0x001#16) run5 ccr5 = some 0xA1#32 := by decide

/-- H.13, H.14. -/
theorem test_start :
    ofRun 5 (.start .dma1 .c5) idle5 (fun t => (ccr5 t, (t.engine .dma1 .c5).ndtReload, t.result)) =
      some (0xA1#32, 20#16, some .unit) := by decide
theorem test_stop :
    ofRun 2 (.stop .dma1 .c5) run5 (fun t => ofRun 2 (.stop .dma1 .c5) (stopTurn .dma1 .c5 t) fun u => (ccr5 u, u.result)) =
      some (some (0xA0#32, some .unit)) := by decide

/-- H.15, H.17. -/
theorem test_status_notOwner :
    ofRun 1 (.status .dma1 .c5) (circ5 (ring .second 0) false false) (·.refused) = some (some .notOwner) := by decide
theorem test_fence : ofRun 1 .fence idle5 id = some { idle5 with result := some .unit } := by decide

/-! ## CircBuffer operations (L2.C) -/

/-- C.2: the interrupt enables are kept; C.4: h = 0 is refused. -/
theorem test_circRead :
    ofRun 9 (.circRead .dma1 .c5 0#2 0#2 10#16 0x20000000#32 0x40013824#32)
      (chan5 { ChanRegs.reset with ccr := ⟨false, 3#3, 0#11⟩ } .reset .handle)
      (fun t => (ccr5 t, (t.regs .dma1 .c5).ndt, t.holder .dma1 .c5)) =
      some (0xA7#32, 20#16, .circ (ring .second 0)) := by decide
theorem test_circRead_badLength :
    ofRun 1 (.circRead .dma1 .c5 0#2 0#2 0#16 0x20000000#32 0x40013824#32) booted (·.refused) =
      some (some .badLength) := by decide

/-- C.9 and L1.5. -/
theorem test_readableHalf :
    ofRun 2 (.readableHalf .dma1 .c5) (circ5 (ring .second 3) true false)
      (fun t => (t.result, isr1 t, t.holder .dma1 .c5)) =
      some (some (.half .first), 0#32, .circ (ring .first 3)) := by decide
theorem test_readableHalf_overrun :
    ofRun 1 (.readableHalf .dma1 .c5) (circ5 (ring .first 3) true true)
      (fun t => (t.result, isr1 t, t.holder .dma1 .c5)) =
      some (some (.err .overrun), 0x00070000#32, .circ (ring .first 3)) := by decide

/-- C.7, C.11; the example of R454: the window is elements 4..9 of First. -/
theorem test_peek :
    ofRun 3 (.peek .dma1 .c5) (circ5 (ring .second 4) true false) (·.seq) =
      some (.busy (.peek .dma1 .c5) (.p3 .first 4)) ∧
    ofRun 5 (.peek .dma1 .c5) (onActs [.done 0 9#32] (circ5 (ring .second 4) true false))
      (fun t => (t.result, t.holder .dma1 .c5)) = some (some (.value 9#32), .circ (ring .first 0)) := by decide
theorem test_peek_fails :
    ofRun 5 (.peek .dma1 .c5) (onActs [.fail] (circ5 (ring .first 6) false true))
      (fun t => (t.result, t.holder .dma1 .c5)) = some (some (.err .bufferError), .circ (ring .second 0)) := by decide

/-- Channel 5 under a CircBuffer, rem elements left. -/
def ringAt (cb : CircRec) (rem : BitVec 16) : State := chan5 { chanOn regs5 with ndt := rem } eng5 (.circ cb)

/-- L1.4 and the example of R455: rem = 11, offset 4, the window is elements [4, 9) of First, five elements consumed;
C.14: the bounds fault. -/
theorem test_partialPeek :
    ofRun 2 (.partialPeek .dma1 .c5) (ringAt (ring .second 4) 11#16) (·.seq) =
      some (.busy (.partialPeek .dma1 .c5) (.r3 .first 4 9)) ∧
    ofRun 4 (.partialPeek .dma1 .c5) (onActs [.done 5 9#32] (ringAt (ring .second 4) 11#16))
      (fun t => (t.result, t.holder .dma1 .c5)) = some (some (.value 9#32), .circ (ring .second 9)) := by decide
theorem test_partialPeek_fault :
    ofRun 1 (.partialPeek .dma1 .c5) (ringAt (ring .second 5) 19#16) (·.fault) =
      some (some ⟨.partialPeekBounds 5 19 1, .partialPeek .dma1 .c5, .dma1, .c5⟩) := by decide

/-- C.18. -/
theorem test_answerIsr :
    ofRun 1 (.answerIsr .dma1 .c5) (circ5 (ring .first 0) true true) isr1 = some 0#32 := by decide

/-! ## Transfer operations (L2.T) -/

/-- T.1; T.2 on channel 5. -/
theorem test_readExact :
    ofRun 9 (.readExact .dma1 .c5 0#2 0#2 4#16 0x20000100#32 0x40013824#32 1#32) booted
      (fun t => (ccr5 t, (t.regs .dma1 .c5).ndt, t.holder .dma1 .c5)) =
      some (0x81#32, 4#16, .xfer ⟨.memDest, 0x20000100#32, 4, .b1, 0x40013824#32, 1#32, []⟩) := by decide
theorem test_writeAll :
    ofRun 9 (.writeAll .dma1 .c5 0#2 0#2 3#16 0x20000200#32 0x40013824#32 2#32) booted
      (fun t => (ccr5 t, t.holder .dma1 .c5)) =
      some (0x91#32, .xfer ⟨.memSrc, 0x20000200#32, 3, .b1, 0x40013824#32, 2#32, []⟩) := by decide

/-- T.3, T.4. -/
theorem test_isDone :
    ofRun 1 (.isDone .dma1 .c5) (xfer5 (regs1 1#16) .memDest) (·.result) = some (some (.done false)) ∧
    ofRun 1 (.isDone .dma1 .c5) (xfer5 { regs1 0#16 with tcif := true } .memDest) (·.result) =
      some (some (.done true)) := by decide

/-- T.15: complete; T.5: TCIF clear, so W1 spins. -/
theorem test_wait :
    ofRun 6 (.wait .dma1 .c5) (xfer5 { chanOn (regs1 0#16) with tcif := true, htif := true } .memDest)
      (fun t => (t.result, isr1 t, ccr5 t, t.holder .dma1 .c5)) =
      some (some (.released 0x20000000#32 8 .b1 .dma1 .c5 7#32), 0x00050000#32, 0x80#32, .handle) := by decide
theorem test_wait_spins :
    ofRun 9 (.wait .dma1 .c5) (xfer5 { regs1 5#16 with teif := true } .memDest) (·.seq) =
      some (.busy (.wait .dma1 .c5) .w1) := by decide

/-- T.11, T.12: TERMINATE toggles EN. -/
theorem test_terminate :
    ofRun 2 (.terminate .dma1 .c5) (xfer5 (chanOn (regs1 2#16)) .memDest)
      (fun t => ofRun 2 (.terminate .dma1 .c5) (stopTurn .dma1 .c5 t) fun u => (ccr5 u, (u.regs .dma1 .c5).ndt)) =
      some (some (0x80#32, 2#16)) := by decide
theorem test_terminate_enables :
    ofRun 4 (.terminate .dma1 .c5) (xfer5 (regs1 2#16) .memDest)
      (fun u => (ccr5 u, (u.engine .dma1 .c5).ndtReload)) = some (0x81#32, 2#16) := by decide

/-- T.6, T.10. -/
theorem test_xpeek :
    ofRun 2 (.xpeek .dma1 .c5) (xfer5 (chanOn (regs1 5#16)) .memDest) (·.result) =
      some (some (.window 0x20000000#32 .b1 0 3)) := by decide
theorem test_xpeek_fault :
    ofRun 1 (.xpeek .dma1 .c5) (xfer5 (regs1 9#16) .memDest) (·.fault) =
      some (some ⟨.countBeyondLength 9 8, .xpeek .dma1 .c5, .dma1, .c5⟩) := by decide

/-- T.7, T.9. -/
theorem test_restart :
    ofRun 2 (.restart .dma1 .c5) (xfer5 (chanOn (regs1 5#16)) .memDest)
      (fun t => ofRun 8 (.restart .dma1 .c5) (stopTurn .dma1 .c5 t) fun u =>
        (u.result, ccr5 u, (u.regs .dma1 .c5).ndt)) =
      some (some (some (.someWindow 0x20000000#32 .b1 0 3), 0x81#32, 8#16)) := by decide
theorem test_restart_wrongMode :
    ofRun 1 (.restart .dma1 .c5) (xfer5 (regs1 5#16) .memSrc) (·.refused) = some (some .wrongMode) := by decide

/-! ## SPLIT (L2.S) -/

/-- S.1, S.2. -/
theorem test_split :
    ofRun 22 (.split .dma1) State.reset (fun t => (t.clkEn, t.owner, t.splitDone)) =
      some (booted.clkEn, booted.owner, booted.splitDone) := by decide
theorem test_split_twice : ofRun 1 (.split .dma1) booted (·.refused) = some (some .alreadySplit) := by decide

/-! ## Witnesses: for every obligation with hypotheses, states and operands that meet them, each clause apart -/

theorem witness_StepRunsDecodedInstruction :
    let s := onTurn .controller { booted with prog := [0x7F000000#32] }
    s.ready ∧ s.drawTurn = (.controller, { s with env := { s.env with turns := [] } }) ∧
      (decode s.prog).toOption = some (.fence, []) := by decide

/-- A mark. -/
def testMark : FaultMark := ⟨.countBeyondLength 9 8, .xpeek .dma1 .c5, .dma1, .c5⟩

theorem witness_StepOfEveryOtherTurn :
    let s := onTurn .controller booted
    let s' := { s with env := { s.env with turns := [] } }
    (s.unmarked ∧ s.drawTurn = (.controller, s')) ∧ (s.ready ∧ s.prog = []) ∧
    ({ s with seq := .busy (.stop .dma1 .c5) .k4 }).seq = .busy (.stop .dma1 .c5) .k4 ∧
    (decode [0x80000000#32]).toOption = none ∧
    ({ s with fault := some testMark }).fault = some testMark ∧
    (({ s with refused := some .notOwner }).fault = none ∧ ({ s with refused := some .notOwner }).refused = some .notOwner) ∧
    (let u := onTurn (.load 0x20000000#32 .b4) booted
     u.ready ∧ u.drawTurn = (.load 0x20000000#32 .b4, s') ∧
      ({ u with seq := .busy (.stop .dma1 .c5) .k4 }).unmarked ∧ ({ u with fault := some testMark }).fault = some testMark) ∧
    (let u := onTurn (.store 0x20000000#32 .b4 7#32) booted
     u.ready ∧ u.drawTurn = (.store 0x20000000#32 .b4 7#32, s') ∧
      ({ u with seq := .busy (.stop .dma1 .c5) .k4 }).unmarked ∧
      ({ u with refused := some .notOwner }).fault = none ∧ ({ u with refused := some .notOwner }).refused = some .notOwner) ∧
    (onTurn (.element .dma1 .c5 [5]) s).drawTurn = (.element .dma1 .c5 [5], s') ∧
    (onTurn (.stopDone .dma2 .c7) s).drawTurn = (.stopDone .dma2 .c7, s') := by decide

theorem witness_DecodeOfEncode :
    (Instr.selectRequest .dma1 .c7 15#16).wellFormed = true ∧ (Instr.configure .dma2 .c1 0x7FF#16).wellFormed = true ∧
    (Instr.circRead .dma1 .c5 2#2 3#2 0xFFFF#16 0#32 0#32).wellFormed = true ∧ Instr.fence.wellFormed = true := by decide

theorem witness_EncodeOfDecode :
    (decode [0x0000_03A8#32, 0xFFFFFFFF#32, 0x7F000000#32]).toOption =
      some (.wrCselr .dma2 0xFFFFFFFF#32, [0x7F000000#32]) := by decide

/-- A word for each condition of R209, at the ends of its range. -/
theorem witness_ReservedWordsRefused :
    let cls (w : Word) := (w.extractLsb' 30 2).toNat
    let off (w : Word) := (w.extractLsb' 0 8).toNat
    let op (w : Word) := (w.extractLsb' 24 6).toNat
    let ch (w : Word) := (w.extractLsb' 21 3).toNat
    let sel (w : Word) := (w.extractLsb' 16 4).toNat
    let imm (w : Word) := (w.extractLsb' 0 16).toNat
    (cls 0x80000000#32 = 2 ∧ cls 0xFFFFFFFF#32 = 3) ∧
    (cls 0x400#32 = 0 ∧ (0x400#32 : Word).extractLsb' 10 20 ≠ 0#20 ∧ off 0x3#32 % 4 ≠ 0 ∧ off 0x90#32 = 0x90 ∧
      off 0x94#32 = 0x94 ∧ off 0xA4#32 = 0xA4 ∧ 0xAC ≤ off 0xFC#32 ∧ (0x130#32 : Word).getLsbD 8 = true) ∧
    (cls 0x55000000#32 = 1 ∧ op 0x55000000#32 = 0x15 ∧ op 0x5F000000#32 = 0x1F ∧ op 0x67000000#32 = 0x27 ∧
      op 0x7E000000#32 = 0x3E ∧ ch 0x41000000#32 = 0 ∧ ch 0x40200000#32 = 1 ∧ (0x7F100000#32 : Word).getLsbD 20 = true ∧
      sel 0x41230000#32 = 3 ∧ sel 0x45240000#32 = 4 ∧ sel 0x50270000#32 % 4 = 3 ∧ sel 0x43210000#32 ≠ 0 ∧
      imm 0x47200010#32 = 16 ∧ imm 0x4B200800#32 = 2048 ∧ imm 0x43200001#32 ≠ 0 ∧ op 0x50200001#32 = 0x10 ∧
      op 0x48200000#32 = 0x08 ∧ op 0x61200000#32 = 0x21) ∧
    (let s := onTurn .controller { booted with prog := [0x61200000#32, 0#32, 0#32] }
     s.ready ∧ s.prog = [0x61200000#32, 0#32, 0#32] ∧
      s.drawTurn = (.controller, { s with env := { s.env with turns := [] } })) := by decide

/-- The hypotheses of ReadIsr, ReadRegisters and WriteIsrAndIfcr. -/
theorem witness_BusInstructions : booted.ready ∧ booted.clk .dma1 = true := by decide

theorem witness_WriteCcrWithoutEdge :
    idle5.ready ∧ idle5.clk .dma1 = true ∧
    ((idle5.regs .dma1 .c5).ccr.en = false ∧ (0xFFFFFFFE#32 : Word).getLsbD 0 = false) ∧
    (run5.ready ∧ (run5.regs .dma1 .c5).ccr.en = true ∧
      ((run5.engine .dma1 .c5).stopping = false ↔ (0xA7#32 : Word).getLsbD 0 = true)) ∧
    ((stop5.regs .dma1 .c5).ccr.en = true ∧
      ((stop5.engine .dma1 .c5).stopping = false ↔ (0xA6#32 : Word).getLsbD 0 = true)) ∧
    (stop5.ready ∧ (stop5.engine .dma1 .c5).stopping = true ∧ (0xA1#32 : Word).getLsbD 0 = true) := by decide

theorem witness_WriteCcrEnables :
    idle5.ready ∧ idle5.clk .dma1 = true ∧ (idle5.regs .dma1 .c5).ccr.en = false ∧
    (let psize (v : Word) := v.extractLsb' 8 2
     let msize (v : Word) := v.extractLsb' 10 2
     (psize 0x0F01#32 = 3#2 ∧ msize 0x0C01#32 = 3#2) ∧
     (psize 0x0181#32 ≠ 3#2 ∧ msize 0x0181#32 ≠ 3#2 ∧ psize 0x0181#32 ≠ msize 0x0181#32) ∧
     (psize 0x4A81#32 ≠ 3#2 ∧ psize 0x4A81#32 = msize 0x4A81#32 ∧ (0x4A81#32 : Word).getLsbD 14 = true) ∧
     (psize 0x0A81#32 = 2#2 ∧ msize 0x0A81#32 = 2#2 ∧ (0x0A81#32 : Word).getLsbD 14 = false ∧
       ¬((0x40013824#32 : Word).toNat % 4 = 0 ∧ (0x20000002#32 : Word).toNat % 4 = 0)) ∧
     ((idle5.regs .dma1 .c5).cpar.toNat % 2 ^ (psize 0x0A81#32).toNat = 0 ∧
       (idle5.regs .dma1 .c5).cmar.toNat % 2 ^ (psize 0x0A81#32).toNat = 0)) := by decide

theorem witness_WriteCcrDisables :
    run5.ready ∧ run5.clk .dma1 = true ∧ (run5.regs .dma1 .c5).ccr.en = true ∧
    (run5.engine .dma1 .c5).stopping = false ∧ (0xA0#32 : Word).getLsbD 0 = false ∧
    (run5.regs .dma1 .c5).ndt ≠ 0#16 ∧
    (let s := chan5 (chanOn (regs1 0#16)) eng5 .handle
     s.ready ∧ (s.regs .dma1 .c5).ccr.en = true ∧ (s.engine .dma1 .c5).stopping = false ∧
      (s.regs .dma1 .c5).ndt = 0#16) := by decide

theorem witness_WriteOtherRegisters :
    idle5.ready ∧ (idle5.regs .dma1 .c5).ccr.en = false ∧ run5.ready ∧ (run5.regs .dma1 .c5).ccr.en = true := by decide

theorem witness_NotOwnerRefused :
    (booted.ready ∧ (Instr.configure .dma1 .c5 0x800#16).wellFormed = false) ∧
    (let s := circ5 (ring .second 0) false false
     s.ready ∧ (Instr.status .dma1 .c5).wellFormed = true ∧ Instr.channel (.status .dma1 .c5) = some (.dma1, .c5) ∧
      (Instr.needs (.status .dma1 .c5)).metBy (s.holder .dma1 .c5) = false) ∧
    (State.reset.ready ∧ Instr.channel (.peek .dma2 .c7) = some (.dma2, .c7) ∧
      (Instr.needs (.peek .dma2 .c7)).metBy (State.reset.holder .dma2 .c7) = false) := by decide

/-- The hypotheses of ListenAndUnlisten, Configure (with the largest immediate) and SelectRequest. -/
theorem witness_ReadModifyWrites :
    (idle5.canUse .dma1 .c5 .handle ∧ (idle5.regs .dma1 .c5).ccr.en = false) ∧
    (run5.canUse .dma1 .c5 .handle ∧ (run5.engine .dma1 .c5).stopping = false) ∧
    (0x7FF#16 : BitVec 16).toNat < 2048 ∧ (15#16 : BitVec 16).toNat < 16 := by decide

theorem witness_ReadingOperations :
    idle5.canUse .dma1 .c5 .handle ∧
    (xfer5 (regs1 1#16) .memDest).canUse .dma1 .c5 (.xfer (xfer8 .memDest)) := by decide

theorem witness_ClearingOperations :
    flagged.canUse .dma1 .c5 .handle ∧
    (circ5 (ring .first 0) true true).canUse .dma1 .c5 (.circ (ring .first 0)) := by decide

theorem witness_SettingOperations :
    (idle5.canUse .dma1 .c5 .handle ∧ (idle5.regs .dma1 .c5).ccr.en = false) ∧
    (run5.canUse .dma1 .c5 .handle ∧ (run5.regs .dma1 .c5).ccr.en = true) := by decide

theorem witness_Start :
    (idle5.canUse .dma1 .c5 .handle ∧ (idle5.regs .dma1 .c5).ccr.en = false ∧ (idle5.regs .dma1 .c5).legal) ∧
    (run5.canUse .dma1 .c5 .handle ∧ (run5.regs .dma1 .c5).ccr.en = true ∧ (run5.engine .dma1 .c5).stopping = false) ∧
    (let s := chan5 { regs5 with ccr := ⟨false, 0#3, 0x4F0#11⟩ } .reset .handle
     s.canUse .dma1 .c5 .handle ∧ (s.regs .dma1 .c5).ccr.en = false ∧ ¬(s.regs .dma1 .c5).legal) ∧
    (stop5.canUse .dma1 .c5 .handle ∧ (stop5.regs .dma1 .c5).ccr.en = true ∧ (stop5.engine .dma1 .c5).stopping = true) := by
  decide

theorem witness_Stop :
    (idle5.canUse .dma1 .c5 .handle ∧ (idle5.regs .dma1 .c5).ccr.en = false) ∧
    (let s := chan5 (chanOn (regs1 0#16)) eng5 .handle
     s.canUse .dma1 .c5 .handle ∧ (s.regs .dma1 .c5).ndt = 0#16 ∧ (s.engine .dma1 .c5).stopping = false) ∧
    (run5.canUse .dma1 .c5 .handle ∧ (run5.regs .dma1 .c5).ccr.en = true ∧ (run5.regs .dma1 .c5).ndt ≠ 0#16) ∧
    (let s := chan5 (chanOn (regs1 0#16)) { eng5 with stopping := true } .handle
     s.canUse .dma1 .c5 .handle ∧ (s.regs .dma1 .c5).ccr.en = true ∧ (s.regs .dma1 .c5).ndt = 0#16 ∧
      (s.engine .dma1 .c5).stopping = true) := by decide

theorem witness_ReadModifyWriteRace :
    let r' (v : Word) : ChanRegs := { regs5 with ccr := ⟨true, v.extractLsb' 1 3, v.extractLsb' 4 11⟩ }
    (idle5.unmarked ∧ idle5.clk .dma1 = true ∧ (idle5.regs .dma1 .c5).ccr.en = false ∧
      (0xA1#32 : Word).getLsbD 0 = true) ∧
    (r' (0xA1#32 ||| (1#32 <<< Event.ht.ieBit))).legal ∧ (r' (0xA5#32 &&& ~~~ (1#32 <<< Event.ht.ieBit))).legal ∧
    (r' ((0xA1#32 &&& ~~~ 0x00007FF0#32) ||| (((0x00A#16 : BitVec 16).extractLsb' 0 11).setWidth 32 <<< 4))).legal ∧
    (let s := { stop5 with seq := .busy (.configure .dma1 .c5 0x00A#16) (.k2 0xA1#32) }
     s.unmarked ∧ s.clk .dma1 = true ∧ s.seq = .busy (.configure .dma1 .c5 0x00A#16) (.k2 0xA1#32) ∧
      (s.regs .dma1 .c5).ccr.en = true ∧ (s.engine .dma1 .c5).stopping = true) := by decide

theorem witness_Fence : booted.ready := by decide

theorem witness_CircRead :
    booted.canUse .dma1 .c5 .handle ∧ esizeOf 2#2 = some .b4 ∧ (1#16 : BitVec 16) ≠ 0#16 ∧ 2 * (1#16 : BitVec 16).toNat ≤ 0xFFFF ∧
    (0x20000FF8#32 : Word).toNat % ESize.b4.bytes = 0 ∧ (0x40013824#32 : Word).toNat % ESize.b4.bytes = 0 ∧
    (∀ k, k < 2 * (1#16 : BitVec 16).toNat →
      booted.memAdmit (0x20000FF8#32 + BitVec.ofNat 32 (k * ESize.b4.bytes)) ESize.b4.bytes = true) ∧
    booted.legalEndpoint .dma1 .c5 (booted.regs .dma1 .c5).cxs 0x40013824#32 = true ∧
    (booted.regs .dma1 .c5).ccr.en = false := by decide

/-- n = 0 admits with nothing to check; n = 2 with two elements. -/
theorem witness_ReadExactAndWriteAll :
    booted.canUse .dma1 .c5 .handle ∧ esizeOf 1#2 = some .b2 ∧
    (0x20000002#32 : Word).toNat % ESize.b2.bytes = 0 ∧ (0x40013824#32 : Word).toNat % ESize.b2.bytes = 0 ∧
    (∀ k, k < (0#16 : BitVec 16).toNat →
      booted.memAdmit (0x20000002#32 + BitVec.ofNat 32 (k * ESize.b2.bytes)) ESize.b2.bytes = true) ∧
    (∀ k, k < (2#16 : BitVec 16).toNat →
      booted.memAdmit (0x20000002#32 + BitVec.ofNat 32 (k * ESize.b2.bytes)) ESize.b2.bytes = true) ∧
    booted.legalEndpoint .dma1 .c5 (booted.regs .dma1 .c5).cxs 0x40013824#32 = true ∧
    (booted.regs .dma1 .c5).ccr.en = false := by decide

/-- Each check of the entry operations failing as the first one. -/
theorem witness_EntryChecksInOrder :
    let isAdmitted (base : Word) (len : Nat) :=
      ∀ k, k < len → booted.memAdmit (base + BitVec.ofNat 32 (k * ESize.b2.bytes)) ESize.b2.bytes = true
    let isAligned (base paddr : Word) := base.toNat % ESize.b2.bytes = 0 ∧ paddr.toNat % ESize.b2.bytes = 0
    booted.canUse .dma1 .c5 .handle ∧ esizeOf 1#2 = some .b2 ∧
    (0xFFFF < 2 * (0x8000#16 : BitVec 16).toNat ∧ 2 * (0x7FFF#16 : BitVec 16).toNat ≤ 0xFFFF) ∧
    ¬(isAligned 0x20000001#32 0x40013824#32) ∧
    (isAligned 0x2000FFFE#32 0x40013824#32 ∧ ¬(isAdmitted 0x2000FFFE#32 2)) ∧
    (isAligned 0x20000000#32 0x40013828#32 ∧ isAdmitted 0x20000000#32 2 ∧
      ¬(booted.legalEndpoint .dma1 .c5 0#4 0x40013828#32 = true)) ∧
    (run5.canUse .dma1 .c5 .handle ∧ isAligned 0x20000000#32 0x40013824#32 ∧
      run5.legalEndpoint .dma1 .c5 (run5.regs .dma1 .c5).cxs 0x40013824#32 = true ∧
      (run5.regs .dma1 .c5).ccr.en = true) := by decide

/-- The flags and the recorded half in each of the five cases; the hypotheses of Peek and ReadableHalf. -/
theorem witness_ReadableHalf_Peek :
    (∀ r : Bool × Bool × Bool, let cb := ring (if r.1 then .first else .second) 0
      let s := onActs [.fail] (circ5 cb r.2.1 r.2.2)
      s.canUse .dma1 .c5 (.circ cb) ∧ (s.regs .dma1 .c5).htif = r.2.1 ∧ (s.regs .dma1 .c5).tcif = r.2.2 ∧
        s.env.acts = [.fail]) := by decide

theorem witness_ConsumerReadsItsWindow :
    let cb := ring .second 4
    let s (i : Instr) (l : Label) (k : Nat) := onActs [.read k] { circ5 cb false false with seq := .busy i l }
    (let u := s (.peek .dma1 .c5) (.p3 .second 4) 9
     u.unmarked ∧ u.holder .dma1 .c5 = .circ cb ∧ u.seq = .busy (.peek .dma1 .c5) (.p3 .second 4) ∧
      u.env.acts = [.read 9] ∧ u.unfencedRead = false ∧ 9 < cb.h ∧
      (cb.base + BitVec.ofNat 32 ((cb.h + 9) * cb.esize.bytes)).toNat % cb.esize.bytes = 0 ∧
      u.memAdmit (cb.base + BitVec.ofNat 32 ((cb.h + 9) * cb.esize.bytes)) cb.esize.bytes = true) ∧
    (let u := s (.partialPeek .dma1 .c5) (.r3 .first 4 5) 4
     u.unmarked ∧ u.holder .dma1 .c5 = .circ cb ∧ u.unfencedRead = false ∧
      (cb.base + BitVec.ofNat 32 (4 * cb.esize.bytes)).toNat % cb.esize.bytes = 0 ∧
      u.memAdmit (cb.base + BitVec.ofNat 32 (4 * cb.esize.bytes)) cb.esize.bytes = true) ∧
    (¬(4 ≤ 5 ∧ 5 < 5) ∧ ¬(4 ≤ 10 ∧ 10 < cb.h)) ∧
    (¬∃ j, j < cb.esize.bytes ∧ (0x20000013#32 + BitVec.ofNat 32 j).toNat ∈ cb.disturbed) ∧
    (let cb' := { cb with disturbed := [0x20000013] }
     let u := onValues [7#32] (onActs [.read 9] { circ5 cb' false false with seq := .busy (.peek .dma1 .c5) (.p3 .second 4) })
     u.unmarked ∧ u.holder .dma1 .c5 = .circ cb' ∧ u.env.acts = [.read 9] ∧ u.env.values = [7#32] ∧
      cb'.base + BitVec.ofNat 32 ((cb'.h + 9) * cb'.esize.bytes) = 0x20000013#32 ∧
      ∃ j, j < cb'.esize.bytes ∧ (0x20000013#32 + BitVec.ofNat 32 j).toNat ∈ cb'.disturbed) := by decide

/-- rem = 11, h = 10: the window ends at 9. -/
theorem witness_PartialPeek :
    let top := 10 - 11 % 10
    ((ringAt (ring .second 10) 11#16).canUse .dma1 .c5 (.circ (ring .second 10)) ∧ top < 10) ∧
    (let s := onActs [.done 9 0#32] (ringAt (ring .second 0) 11#16)
     s.canUse .dma1 .c5 (.circ (ring .second 0)) ∧ 0 < (ring .second 0).h ∧ s.env.acts = [.done 9 0#32] ∧ 0 ≤ top ∧
      9 ≤ top - 0) ∧
    ((onActs [.fail] (ringAt (ring .second 9) 11#16)).env.acts = [.fail] ∧ 9 ≤ top) ∧
    (top - 9 < 1 ∧ (ringAt (ring .second 9) 11#16).canUse .dma1 .c5 (.circ (ring .second 9))) := by decide

/-- The clauses of Wait and Terminate. -/
theorem witness_Wait_Terminate :
    let o : Owner := .xfer (xfer8 .memDest)
    let s (r : ChanRegs) := xfer5 r .memDest
    (∀ tc en zero : Bool,
      let r := { regs1 (if zero then 0#16 else 3#16) with tcif := tc, ccr := ⟨en, 0#3, 0x008#11⟩ }
      (s r).canUse .dma1 .c5 o ∧ (s r).regs .dma1 .c5 = r ∧ ((s r).engine .dma1 .c5).stopping = false ∧ r.legal) ∧
    (let r := { regs1 3#16 with ccr := ⟨false, 0#3, 0x488#11⟩ }
     (s r).canUse .dma1 .c5 o ∧ r.ccr.en = false ∧ ¬r.legal) ∧
    (let u := chan5 { chanOn (regs1 0#16) with tcif := true } { eng5 with stopping := true } o
     u.canUse .dma1 .c5 o ∧ (u.regs .dma1 .c5).tcif = true ∧ (u.regs .dma1 .c5).ccr.en = true ∧
      (u.regs .dma1 .c5).ndt = 0#16 ∧ (u.engine .dma1 .c5).stopping = true) := by decide

/-- n = 8: NDT = 8 and 9 about the length. -/
theorem witness_Xpeek_Restart :
    ((xfer5 (regs1 5#16) .memSrc).canUse .dma1 .c5 (.xfer (xfer8 .memSrc))) ∧
    (let s := xfer5 (regs1 9#16) .memDest
     s.canUse .dma1 .c5 (.xfer (xfer8 .memDest)) ∧ (xfer8 .memDest).n < (s.regs .dma1 .c5).ndt.toNat ∧
      (s.regs .dma1 .c5).ccr.en = false) ∧
    (let s := xfer5 (regs1 8#16) .memDest
     s.canUse .dma1 .c5 (.xfer (xfer8 .memDest)) ∧ (s.regs .dma1 .c5).ndt.toNat ≤ (xfer8 .memDest).n ∧
      (s.regs .dma1 .c5).legal) ∧
    (let s := xfer5 (chanOn (regs1 5#16)) .memDest
     s.canUse .dma1 .c5 (.xfer (xfer8 .memDest)) ∧ (s.regs .dma1 .c5).ccr.en = true ∧
      (s.regs .dma1 .c5).ndt ≠ 0#16 ∧ (s.regs .dma1 .c5).ndt.toNat ≤ (xfer8 .memDest).n ∧
      (s.regs .dma1 .c5).legal) ∧
    (let s := xfer5 (chanOn (regs1 9#16)) .memDest
     s.canUse .dma1 .c5 (.xfer (xfer8 .memDest)) ∧ (s.regs .dma1 .c5).ccr.en = true ∧
      (s.regs .dma1 .c5).ndt ≠ 0#16 ∧ (xfer8 .memDest).n < (s.regs .dma1 .c5).ndt.toNat) ∧
    (∀ en : Bool, let s := xfer5 { regs1 8#16 with ccr := ⟨en, 0#3, 0x488#11⟩ } .memDest
     s.canUse .dma1 .c5 (.xfer (xfer8 .memDest)) ∧ (s.regs .dma1 .c5).ccr.en = en ∧
      (s.regs .dma1 .c5).ndt ≠ 0#16 ∧ (s.regs .dma1 .c5).ndt.toNat ≤ (xfer8 .memDest).n ∧
      ¬(s.regs .dma1 .c5).legal) := by decide

theorem witness_Split :
    (State.reset.ready ∧ State.reset.splitDone.get .dma2 = false) ∧ (booted.ready ∧ booted.splitDone.get .dma1 = true) ∧
    (let s := { run5 with seq := .busy (.split .dma1) (.z1 .c5) }
     s.unmarked ∧ s.clk .dma1 = true ∧ s.seq = .busy (.split .dma1) (.z1 .c5) ∧ (s.regs .dma1 .c5).ccr.en = true ∧
      (s.regs .dma1 .c5).ndt ≠ 0#16) := by decide

theorem witness_Split_disabled : ∀ x, (State.reset.regs .dma2 x).ccr.en = false := by
  intro x
  cases x <;> rfl

theorem witness_ElementStepEnabled :
    (run5.clk .dma1 = true ∧ (run5.regs .dma1 .c5).ccr.en = true ∧ 0 < (run5.regs .dma1 .c5).ndt.toNat ∧
      run5.request .dma1 .c5 [5] = true) ∧ ¬(run5.request .dma1 .c5 [] = true) := by decide

/-- The hypotheses of ElementFromPeripheral, ElementToPeripheral (both clauses), ElementCountsAndFlags and
TransferError (both alternatives). -/
theorem witness_ElementSteps :
    (let s := onValues [0x12345678#32] run5
     (s.regs .dma1 .c5).ccr.dir = false ∧ (s.regs .dma1 .c5).ccr.psize ≠ 3#2 ∧
      s.periphAdmit (s.engine .dma1 .c5).curPa 1 = true ∧ s.memAdmit (s.engine .dma1 .c5).curMa 1 = true ∧
      s.env.values = [0x12345678#32] ∧ 0 < (s.regs .dma1 .c5).ndt.toNat) ∧
    (let s (e : Engine) := onValues [1#32] (chan5 { chanOn regs5 with ccr := ⟨true, 0#3, 0x00B#11⟩ } e .handle)
     ((s eng5).regs .dma1 .c5).ccr.dir = true ∧ (s eng5).periphAdmit eng5.curPa 1 = true ∧
      (s eng5).memAdmit eng5.curMa 1 = true ∧ (eng5.curMa + BitVec.ofNat 32 0).toNat ∉ eng5.unseen ∧
      (eng5.curMa + BitVec.ofNat 32 0).toNat ∈ ((s { eng5 with unseen := [0x20000000] }).engine .dma1 .c5).unseen) ∧
    (let o : Owner := .xfer { xfer8 .memSrc with disturbed := [0x20000000] }
     (out5 o).holder .dma1 .c5 = o ∧ (eng5.curMa + BitVec.ofNat 32 0).toNat ∈ o.disturbed) ∧
    ((regs5.ndt.toNat - 1 ≠ 0) ∧ (1#16 : BitVec 16).toNat - 1 = 0 ∧ regs5.ccr.circ = true) ∧
    run5.periphAdmit 0x3FFFFFFF#32 1 = false ∧ run5.memAdmit 0x20010000#32 1 = false := by decide

theorem witness_StopCompletion :
    (stop5.clk .dma1 = true ∧ (stop5.engine .dma1 .c5).stopping = true) ∧
    ¬(run5.clk .dma1 = true ∧ (run5.engine .dma1 .c5).stopping = true) := by decide

/-- h = 1, one-byte elements: a pass of two. -/
theorem witness_CircularPass :
    let s := chan5 { chanOn regs5 with ndt := 2#16 } { eng5 with ndtReload := 2#16 } .handle
    let r := s.regs .dma1 .c5
    let e := s.engine .dma1 .c5
    s.clk .dma1 = true ∧ r.ccr.en = true ∧ r.ccr.circ = true ∧ r.ccr.minc = true ∧ r.ccr.pinc = false ∧
    r.ndt.toNat = 2 * 1 ∧ e.ndtReload = r.ndt ∧ e.curMa = r.cmar ∧ e.curPa = r.cpar ∧ e.stopping = false ∧
    s.request .dma1 .c5 [5] = true ∧ s.periphAdmit r.cpar (2 ^ r.ccr.psize.toNat) = true ∧
    (∀ k, k < 2 * 1 →
      s.memAdmit (r.cmar + BitVec.ofNat 32 (k * 2 ^ r.ccr.psize.toNat)) (2 ^ r.ccr.psize.toNat) = true) := by decide

theorem witness_ControllerAccesses :
    let done (s : State) := { s with env := { s.env with turns := [] } }
    (let s := onTurn (.load 0x20000002#32 .b4) booted
     s.ready ∧ s.drawTurn = (.load 0x20000002#32 .b4, done s) ∧ (0x20000002#32 : Word).toNat % 4 ≠ 0) ∧
    ((0x2000FFFC#32 : Word).toNat % 4 = 0 ∧ booted.memAdmit 0x2000FFFC#32 4 = true ∧ booted.unfencedRead = false) ∧
    booted.memAdmit 0x20010000#32 4 = false ∧
    (let s := onValues [7#32] { booted with unfencedRead := true }
     s.ready ∧ s.memAdmit 0x2000FFFC#32 4 = true ∧ s.unfencedRead = true ∧ s.env.values = [7#32]) ∧
    (let s := onTurn (.store 0x2000FFFC#32 .b4 0x12345678#32) booted
     s.ready ∧ s.drawTurn = (.store 0x2000FFFC#32 .b4 0x12345678#32, done s)) ∧
    booted.disturbed = [] ∧
    (let s := onValues [7#32] (out5 (.xfer { xfer8 .memSrc with disturbed := [0x20000003] }))
     s.ready ∧ s.memAdmit 0x20000000#32 4 = true ∧ s.env.values = [7#32] ∧
      ∃ k, k < 4 ∧ (0x20000000#32 + BitVec.ofNat 32 k).toNat ∈ (s.holder .dma1 .c5).disturbed) := by decide

/-- A word at the top of the address space, read back. -/
theorem witness_MemoryLittleEndian :
    memRead (memWrite [] 0xFFFFFFFC#32 4 0x12345678#32) 0xFFFFFFFC#32 4 = 0x12345678#32 ∧
    memRead (memWrite [] 0x20000000#32 2 0x12345678#32) 0x20000000#32 2 = 0x5678#32 ∧ (4 ≤ 4 ∧ 3 < 4) := by decide

/-- The hypothesis of InstructionFrame and of FlagsSetByEngineOnly: an instruction that answers a next state. -/
theorem witness_InstructionFrame :
    (∃ t, exec (.wrCselr .dma1 0x00020000#32) booted = .next t) ∧ (∃ t, exec (.split .dma1) State.reset = .next t) ∧
    (∃ t, exec (.status .dma1 .c5) flagged = .next t) ∧ (∃ t, exec (.clearFlag .dma1 .c5 .ht) flagged = .next t) ∧
    (Instr.target (.status .dma1 .c5)).covers .dma1 .c4 = false ∧
    (Instr.target (.wrCselr .dma1 0#32)).covers .dma2 .c5 = false :=
  ⟨⟨_, rfl⟩, ⟨_, rfl⟩, ⟨_, rfl⟩, ⟨_, rfl⟩, by decide, by decide⟩

theorem witness_MarksNeverCleared :
    (let s := onTurn (.element .dma1 .c5 [5]) { run5 with fault := some testMark, refused := some .clockOff }
     (∃ t, step s = .next t) ∧ s.fault = some testMark ∧ s.refused = some .clockOff) ∧
    (let s := onTurn (.store 0x20000000#32 .b1 0#32) { run5 with refused := some .clockOff }
     ¬s.unmarked ∧ ∃ s', s.drawTurn = (.store 0x20000000#32 .b1 0#32, s')) :=
  ⟨⟨⟨_, rfl⟩, by decide, by decide⟩, by decide, ⟨_, rfl⟩⟩

theorem witness_ClockGate :
    (booted.ready ∧ booted.clk .dma2 = false) ∧ booted.clk .dma1 = true ∧ ∃ t, step (onTurn .controller booted) = .next t :=
  ⟨by decide, by decide, ⟨_, rfl⟩⟩

/-- The last micro-step of SPLIT DMA1. -/
def splitting : State :=
  onTurn .controller
    { booted with
      owner := .all (.all .unsplit), splitDone := .all false, seq := .busy (.split .dma1) (.z3 .c7) }

theorem witness_SplitIsTheRootOfOwnership :
    splitting.holdersKept ∧ (∃ t, step splitting = .next t ∧ t.holder .dma1 .c3 ≠ .unsplit) ∧
    splitting.holder .dma1 .c3 = .unsplit ∧ booted.splitDone.get .dma1 = true ∧ booted.ready := by
  refine ⟨?_, ⟨_, rfl, by decide⟩, by decide, by decide, by decide⟩
  intro op l b x h hc
  obtain ⟨rfl, rfl⟩ : op = .split .dma1 ∧ l = .z3 .c7 := by
    simp only [splitting, onTurn, Seq.busy.injEq] at h
    exact ⟨h.1.symm, h.2.symm⟩
  simp [Instr.channel] at hc

/-- READABLE_HALF about to flip to First. -/
def flipping : State :=
  onTurn .controller { circ5 (ring .second 0) true false with seq := .busy (.readableHalf .dma1 .c5) (.h2 .first) }

theorem flipping_holders : flipping.holdersKept := by
  intro op l b x h hc
  obtain ⟨rfl, rfl⟩ : op = .readableHalf .dma1 .c5 ∧ l = .h2 .first := by
    simp only [flipping, onTurn, Seq.busy.injEq] at h
    exact ⟨h.1.symm, h.2.symm⟩
  simp only [Instr.channel, Option.some.injEq, Prod.mk.injEq] at hc
  obtain ⟨rfl, rfl⟩ := hc
  decide

theorem witness_CircBufferLivesOn :
    flipping.holdersKept ∧ (∀ l, flipping.seq ≠ .busy (.split .dma1) l) ∧
    (∃ t, step flipping = .next t ∧ t.holder .dma1 .c5 = .circ (ring .first 0)) ∧
    flipping.holder .dma1 .c5 = .circ (ring .second 0) := by
  refine ⟨flipping_holders, fun l h => ?_, ⟨_, rfl, by decide⟩, by decide⟩
  simp [flipping, onTurn] at h

/-- The hypotheses of MemoryFormKept, ChannelsLegalKept, OffsetsBoundedKept and HoldersKept: states with something in
them that meet the invariants and take a step. -/
theorem witness_Invariants :
    (let s := onTurn (.store 0x20000000#32 .b1 7#32) { booted with mem := [(0x20000000, 1#8), (0x20000002, 5#8)] }
     s.mem.wf = true ∧ ∃ t, step s = .next t) ∧
    (stop5.channelsLegal ∧ ∃ t, step (onTurn (.stopDone .dma1 .c5) stop5) = .next t) ∧
    (flipping.offsetsBounded ∧ flipping.holdersKept ∧ ∃ t, step flipping = .next t) := by
  refine ⟨⟨by decide, ⟨_, rfl⟩⟩, ⟨?_, ⟨_, rfl⟩⟩, ⟨?_, flipping_holders, ⟨_, rfl⟩⟩⟩
  · intro b x
    cases b <;> cases x <;> decide
  · refine ⟨?_, ?_, ?_, ?_⟩
    · intro b x cb h
      cases b <;> cases x <;> cases h
      decide
    all_goals
      intros
      simp_all [flipping, onTurn]

/-! ### A run for StopsEventually -/

/-- Channel 5 is stopping; the controller spins at W1 of WAIT on channel 1, which nothing will complete; the
stop-completion step has the first turn. -/
def waiting : State :=
  onTurn (.stopDone .dma1 .c5)
    { (stop5.setHolder .dma1 .c1 (.xfer (xfer8 .memDest))) with seq := .busy (.wait .dma1 .c1) .w1 }

/-- The state after a step, or the state itself where there is none. -/
def advance (s : State) : State := (ofNext (step s) id).getD s

/-- The run from `waiting`. -/
def waitingRun : Nat → State
  | 0 => waiting
  | k + 1 => advance (waitingRun k)

/-- What every later state of the run has. -/
def settled (s : State) : Prop :=
  s.unmarked ∧ s.seq = .busy (.wait .dma1 .c1) .w1 ∧ s.clk .dma1 = true ∧
  (∀ b x, (s.regs b x).ccr.en = false ∧ (s.regs b x).tcif = false ∧ (s.engine b x).stopping = false)

/-- A turn in such a state changes nothing that it speaks of. -/
theorem settled_step {s : State} (h : settled s) : ∃ t, step s = .next t ∧ settled t := by
  obtain ⟨⟨hf, hr⟩, hs, hc, hq⟩ := h
  have hd : ∀ t s', s.drawTurn = (t, s') → s' = { s with env := s'.env } := by
    intro t s' h
    unfold State.drawTurn at h
    split at h <;> cases h <;> rfl
  obtain ⟨t, s', ht⟩ : ∃ t s', s.drawTurn = (t, s') := ⟨_, _, rfl⟩
  have hs' := hd t s' ht
  have hset : settled s' := by
    rw [hs']
    exact ⟨⟨hf, hr⟩, hs, hc, hq⟩
  obtain ⟨⟨hf', hr'⟩, hseq, hc', hq'⟩ := hset
  simp only [step, ht]
  cases t with
  | controller =>
    refine ⟨{ s' with unfencedRead := true }, ?_, ⟨hf', hr'⟩, hseq, hc', hq'⟩
    have hg : ((s'.chan.get .dma1).get .c1).tcif = false := (hq' .dma1 .c1).2.1
    simp only [takeTurn, controllerTurn, live, hf', hr', hseq, exec, execWait, sequenced, waitPoll, rdReg, clocked, hc',
      regValue, onRead, goOn, State.goto]
    simp [Reg.observes, hg]
  | element b x lines =>
    refine ⟨s', ?_, ⟨hf', hr'⟩, hseq, hc', hq'⟩
    simp [takeTurn, elementTurn, elementEnabled, (hq' b x).1]
  | stopDone b x =>
    refine ⟨s', ?_, ⟨hf', hr'⟩, hseq, hc', hq'⟩
    simp [takeTurn, stopTurn, stopEnabled, (hq' b x).2.2]
  | load a n =>
    refine ⟨s', ?_, ⟨hf', hr'⟩, hseq, hc', hq'⟩
    simp [takeTurn, accessTurn, live, hf', hr', hseq]
  | store a n v =>
    refine ⟨s', ?_, ⟨hf', hr'⟩, hseq, hc', hq'⟩
    simp [takeTurn, accessTurn, live, hf', hr', hseq]

theorem waiting_step : ∃ t, step waiting = .next t ∧ settled t := by
  refine ⟨_, rfl, by decide, by decide, by decide, ?_⟩
  intro b x
  cases b <;> cases x <;> decide

theorem advance_eq {s t : State} (h : step s = .next t) : advance s = t := by
  simp only [advance, ofNext, h, id, Option.getD]

theorem waitingRun_settled : ∀ k, settled (waitingRun (k + 1))
  | 0 => by
    obtain ⟨t, h, ht⟩ := waiting_step
    have := advance_eq h
    simpa only [waitingRun, this] using ht
  | k + 1 => by
    obtain ⟨t, h, ht⟩ := settled_step (waitingRun_settled k)
    have e := advance_eq h
    have : waitingRun (k + 2) = t := e
    rwa [this]

theorem waitingRun_isRun : IsRun waitingRun := by
  intro k
  have : ∃ t, step (waitingRun k) = .next t := by
    cases k with
    | zero =>
      obtain ⟨t, h, -⟩ := waiting_step
      exact ⟨t, h⟩
    | succ k =>
      obtain ⟨t, h, -⟩ := settled_step (waitingRun_settled k)
      exact ⟨t, h⟩
  obtain ⟨t, h⟩ := this
  rw [h]
  exact congrArg _ (advance_eq h).symm

theorem witness_StopsEventually :
    IsRun waitingRun ∧ StopFair waitingRun ∧ (waitingRun 0).channelsLegal ∧ (waitingRun 0).clk .dma1 = true ∧
      ((waitingRun 0).engine .dma1 .c5).stopping = true := by
  refine ⟨waitingRun_isRun, fun b x k => ⟨k + 1, by omega, ?_⟩, ?_, by decide, by decide⟩
  · simp [stopEnabled, ((waitingRun_settled k).2.2.2 b x).2.2]
  · intro b x
    cases b <;> cases x <;> decide

end Sys2Proof.Tests
end

section
/-! SUPPORT. What one micro-step can do, more sharply than `Change` says it: which instructions clear flags or change
request codes, and which owners a channel can be given. One micro-step of an instruction is a chain of `Edit`s; a
property that every edit keeps is kept by every instruction. -/
namespace Sys2Proof.Machine
open Sys2Proof

/-- A controller access that is refused sets the mark and does nothing else (R151, R153). -/
theorem ctlLoad_error {l : List Nat} {a : Word} {size : ESize} {s t : State} (h : ctlLoad l a size s = .error t) :
    ∃ r, t = s.refuse r := by
  unfold ctlLoad at h
  split at h
  · cases h; exact ⟨_, rfl⟩
  · split at h
    · cases h; exact ⟨_, rfl⟩
    · split at h <;> cases h

theorem ctlStore_error {a v : Word} {size : ESize} {s t : State} (h : ctlStore a size v s = .error t) :
    ∃ r, t = s.refuse r := by
  unfold ctlStore at h
  split at h
  · cases h; exact ⟨_, rfl⟩
  · split at h
    · cases h; exact ⟨_, rfl⟩
    · cases h

/-- What a register write other than IFCR's and CSELR's can change: the configuration of one channel of the block, the
engines, and the refusal's mark. Flags and request codes are no part of it. -/
theorem wrReg_config {b : Blk} {r : Reg} {v : Word} {s t : State} (hr : r ≠ .ifcr ∧ r ≠ .cselr)
    (h : wrReg b r v s = .ok t ∨ wrReg b r v s = .error t) :
    ∃ x ccr n pa ma e f, t = { s.setRegs b x { s.regs b x with ccr := ccr, ndt := n, cpar := pa, cmar := ma } with
      eng := e, refused := f } := by
  have same : ∀ f, ∃ x ccr n pa ma e f', ({ s with refused := f } : State) =
      { s.setRegs b x { s.regs b x with ccr := ccr, ndt := n, cpar := pa, cmar := ma } with
        eng := e, refused := f' } :=
    fun f => ⟨.c1, _, _, _, _, s.eng, f, by rw [State.setRegs_eta]⟩
  unfold wrReg clocked at h
  split at h
  swap
  · rcases h with h | h <;> cases h
    exact same _
  cases r with
  | isr =>
    rcases h with h | h <;> cases h
    exact same _
  | ifcr => exact absurd rfl hr.1
  | cselr => exact absurd rfl hr.2
  | ccr x =>
    rcases h with h | h
    · rcases wrCcr_ok h with ⟨-, -, h⟩ | ⟨-, -, -, rfl⟩ | ⟨-, rfl⟩
      · obtain ⟨-, rfl⟩ := enable_ok h
        exact ⟨x, _, _, _, _, _, _, by rw [State.regs_setRegs_self, State.setRegs_setRegs]; rfl⟩
      · unfold disable
        dsimp only
        split
        · exact ⟨x, _, _, _, _, _, _, by rw [State.regs_setRegs_self, State.setRegs_setRegs]⟩
        · exact ⟨x, _, _, _, _, _, _, rfl⟩
      · exact ⟨x, _, _, _, _, _, _, rfl⟩
    · rcases wrCcr_error h with rfl | ⟨r, rfl⟩
      · exact same _
      · exact ⟨x, _, _, _, _, _, _, rfl⟩
  | cndtr x =>
    rcases h with h | h <;> cases h
    unfold State.wrCndtr
    dsimp only
    split
    · exact same _
    · exact ⟨x, _, _, _, _, _, _, rfl⟩
  | cpar x | cmar x =>
    simp only [wrCpar, wrCmar] at h
    split at h <;> rcases h with h | h <;> cases h
    · exact same _
    · exact ⟨x, _, _, _, _, _, _, rfl⟩

/-- A part of the registers that is no configuration, as the flags or the request code, outlives such a write. -/
theorem wrReg_part {α : Type} (f : ChanRegs → α)
    (hf : ∀ r ccr n pa ma, f { r with ccr := ccr, ndt := n, cpar := pa, cmar := ma } = f r) {b : Blk} {r : Reg}
    {v : Word} {s t : State} (hr : r ≠ .ifcr ∧ r ≠ .cselr)
    (h : wrReg b r v s = .ok t ∨ wrReg b r v s = .error t) (c : Blk) (y : Ch) :
    f (t.regs c y) = f (s.regs c y) := by
  obtain ⟨x, ccr, n, pa, ma, e, m, rfl⟩ := wrReg_config hr h
  change f ((s.setRegs b x _).regs c y) = _
  rw [State.regs_setRegs]
  split
  next hc => rw [hf, hc.1, hc.2]
  · rfl

/-- What one act of a consumer can do (R458): stay at its micro-step, with a draw and perhaps a value loaded; be refused
a read; or end, and the operation goes on from its outcome. -/
theorem consume_next {op : Instr} {here : Label} {cb : CircRec} {r : Half} {lo hi : Nat} {s t : State}
    {k : Option (Nat × Word) → State → Out} (h : consume op here cb r lo hi s k = .next t) :
    (∃ e v, let u := { s with env := e, loaded := v }; t = u.goto op here ∨ ∃ r, t = u.refuse r) ∨
      ∃ out e, k out { s with env := e } = .next t := by
  obtain ⟨e, he⟩ := State.drawAct_eq s
  unfold consume at h
  generalize s.drawAct = d at h he
  obtain ⟨act, w⟩ := d
  subst he
  cases act with
  | read j =>
    left
    dsimp only at h
    split at h
    · rcases onDone_next h with ⟨w', hl, h⟩ | hl
      · obtain ⟨-, -, e', v, rfl, -⟩ := ctlLoad_ok hl
        exact ⟨e', some v, .inl (by simpa [goOn] using h.symm)⟩
      · obtain ⟨r, rfl⟩ := ctlLoad_error hl
        exact ⟨e, s.loaded, .inr ⟨r, rfl⟩⟩
    · exact ⟨e, s.loaded, .inl (by simpa [goOn] using h.symm)⟩
  | done l v => exact .inr ⟨some (l, v), e, h⟩
  | fail => exact .inr ⟨none, e, h⟩

/-- The instructions that write IFCR, the only register write that clears flags (R254). -/
def Instr.clearsFlags : Instr → Bool
  | .wrIfcr _ _ | .clearFlags _ _ | .clearFlag _ _ _ | .answerIsr _ _ | .readableHalf _ _ | .peek _ _ | .wait _ _ =>
    true
  | _ => false

/-- The instructions that write CSELR, the only register write that changes a request code (R266, R407). -/
def Instr.writesCodes : Instr → Bool
  | .wrCselr _ _ | .selectRequest _ _ _ => true
  | _ => false

/-- The owners that a micro-step from s₀ can give channel (b, x): the handle, a new object, or the CircBuffer the
channel holds with its half flipped (R452), its half consumed (R454) or its offset advanced by R4 (R455). -/
inductive NewOwner (s₀ : State) (b : Blk) (x : Ch) : Owner → Prop where
  | handle : NewOwner s₀ b x .handle
  | xfer (t : XferRec) : NewOwner s₀ b x (.xfer t)
  | circ (base : Word) (h : Nat) (es : ESize) : NewOwner s₀ b x (.circ ⟨base, h, es, .second, 0, []⟩)
  | flipped (cb : CircRec) (r : Half) (h : s₀.holder b x = .circ cb) :
      NewOwner s₀ b x (.circ { cb with readableHalf := r })
  | consumed (cb : CircRec) (h : s₀.holder b x = .circ cb) : NewOwner s₀ b x (.circ { cb with consumedOffset := 0 })
  | advanced (cb : CircRec) (l : Nat) (v : Word) (h : s₀.holder b x = .circ cb)
      (hs : s₀.seq = .busy (.partialPeek b x) (.r4 l v)) :
      NewOwner s₀ b x (.circ { cb with consumedOffset := cb.consumedOffset + l })

/-- One elementary change of instruction i in its micro-step from s₀. -/
inductive Edit (i : Instr) (s₀ : State) : State → State → Prop where
  | refuse (s : State) (r : RefuseReason) : Edit i s₀ s (s.refuse r)
  | fault (s : State) (m : FaultReason) (b : Blk) (x : Ch) : Edit i s₀ s (s.takeFault m i b x)
  | goto (s : State) (l : Label) : Edit i s₀ s (s.goto i l)
  | ret (s : State) (r : Result) : Edit i s₀ s (s.ret r)
  | fence (s : State) : Edit i s₀ s s.fence
  | observe (s : State) (u : Bool) : Edit i s₀ s { s with unfencedRead := u }
  | draw (s : State) (e : Env) (v : Option Word) : Edit i s₀ s { s with env := e, loaded := v }
  | write (s t : State) (b : Blk) (r : Reg) (v : Word) (hr : r ≠ .ifcr ∧ r ≠ .cselr)
      (h : wrReg b r v s = .ok t ∨ wrReg b r v s = .error t) : Edit i s₀ s t
  | clear (s : State) (b : Blk) (v : Word) (hi : Instr.clearsFlags i = true) : Edit i s₀ s (s.wrIfcr b v)
  | select (s : State) (b : Blk) (v : Word) (hi : Instr.writesCodes i = true) : Edit i s₀ s (s.wrCselr b v)
  | own (s : State) (b : Blk) (x : Ch) (o : Owner) (ho : NewOwner s₀ b x o) : Edit i s₀ s (s.setHolder b x o)
  | clock (s : State) (b : Blk) (hi : i = .split b) : Edit i s₀ s (clockOn b s)
  | handOut (s : State) (b : Blk) (hi : i = .split b) : Edit i s₀ s (handOut b s)

/-- A chain of edits. -/
abbrev Edits (i : Instr) (s₀ : State) : State → State → Prop := Relation.ReflTransGen (Edit i s₀)

/-- A property that every edit keeps is kept by a chain of them. -/
theorem Edits.keeps {i : Instr} {s₀ s t : State} {P : State → Prop} (h : Edits i s₀ s t)
    (hP : ∀ u v, Edit i s₀ u v → P u → P v) (hs : P s) : P t := by
  induction h with
  | refl => exact hs
  | tail _ he ih => exact hP _ _ he ih

/-- An outcome that, where it is a next state, is reached from s₀ by edits of i. -/
def Yields (i : Instr) (s₀ : State) (o : Out) : Prop := ∀ t, o = .next t → Edits i s₀ s₀ t

namespace Yields

variable {i : Instr} {s₀ u : State}

theorem next (h : Edits i s₀ s₀ u) : Yields i s₀ (.next u) := by
  rintro t ⟨⟩
  exact h

theorem stray : Yields i s₀ (.refused .strayLabel) := by rintro t ⟨⟩

theorem refuseOp (h : Edits i s₀ s₀ u) (r : RefuseReason) : Yields i s₀ (refuseOp u r) := next (h.tail (.refuse u r))

theorem fault (h : Edits i s₀ s₀ u) (m : FaultReason) (b : Blk) (x : Ch) :
    Yields i s₀ (.next (u.takeFault m i b x)) := next (h.tail (.fault u m b x))

theorem goOn (h : Edits i s₀ s₀ u) (l : Label) : Yields i s₀ (goOn u i l) := next (h.tail (.goto u l))

theorem retOp (h : Edits i s₀ s₀ u) (r : Result) : Yields i s₀ (retOp u r) := next (h.tail (.ret u r))

theorem fenced : Edits i s₀ s₀ s₀.fence := .single (.fence s₀)

theorem fencedOwned {b : Blk} {x : Ch} {o : Owner} (ho : NewOwner s₀ b x o) :
    Edits i s₀ s₀ (s₀.fence.setHolder b x o) := fenced.tail (.own _ b x o ho)

theorem check (h : Edits i s₀ s₀ u) {ok : Bool} {r : RefuseReason} {k : Out} (hk : Yields i s₀ k) :
    Yields i s₀ (check ok r u k) := by
  cases ok
  · exact refuseOp h r
  · exact hk

theorem handle {b : Blk} {x : Ch} {k : Out} (hk : Yields i s₀ k) : Yields i s₀ (needHandle b x s₀ k) := by
  intro t ht
  rcases needHandle_next ht with ⟨-, ht⟩ | rfl
  · exact hk t ht
  · exact .single (.refuse s₀ _)

theorem circ {b : Blk} {x : Ch} {k : CircRec → Out} (hk : ∀ cb, s₀.holder b x = .circ cb → Yields i s₀ (k cb)) :
    Yields i s₀ (needCirc b x s₀ k) := by
  intro t ht
  rcases needCirc_next ht with ⟨cb, hcb, ht⟩ | rfl
  · exact hk cb hcb t ht
  · exact .single (.refuse s₀ _)

theorem xfer {b : Blk} {x : Ch} {k : XferRec → Out} (hk : ∀ r, Yields i s₀ (k r)) :
    Yields i s₀ (needXfer b x s₀ k) := by
  intro t ht
  rcases needXfer_next ht with ⟨r, -, ht⟩ | rfl
  · exact hk r t ht
  · exact .single (.refuse s₀ _)

theorem read {b : Blk} {r : Reg} {k : Word → State → Out} (hk : ∀ v w, Edits i s₀ s₀ w → Yields i s₀ (k v w)) :
    Yields i s₀ (onRead (rdReg b r s₀) k) := by
  intro t ht
  rcases onRead_next ht with ⟨v, w, hr, ht⟩ | hr
  · obtain ⟨-, -, rfl⟩ := rdReg_ok hr
    exact hk v _ (.single (.observe s₀ _)) t ht
  · obtain ⟨-, rfl⟩ := rdReg_error hr
    exact .single (.refuse s₀ _)

theorem write {b : Blk} {r : Reg} {v : Word} {k : State → Out} (hr : r ≠ .ifcr ∧ r ≠ .cselr)
    (hk : ∀ w, Edits i s₀ s₀ w → Yields i s₀ (k w)) : Yields i s₀ (onDone (wrReg b r v s₀) k) := by
  intro t ht
  rcases onDone_next ht with ⟨w, hw, ht⟩ | hw
  · exact hk w (.single (.write s₀ w b r v hr (.inl hw))) t ht
  · exact .single (.write s₀ t b r v hr (.inr hw))

theorem clear {b : Blk} {v : Word} {k : State → Out} (hi : Instr.clearsFlags i = true)
    (hk : ∀ w, Edits i s₀ s₀ w → Yields i s₀ (k w)) : Yields i s₀ (onDone (wrReg b .ifcr v s₀) k) := by
  unfold wrReg clocked
  split
  · exact hk _ (.single (.clear s₀ b v hi))
  · exact next (.single (.refuse s₀ _))

theorem select {b : Blk} {v : Word} {k : State → Out} (hi : Instr.writesCodes i = true)
    (hk : ∀ w, Edits i s₀ s₀ w → Yields i s₀ (k w)) : Yields i s₀ (onDone (wrReg b .cselr v s₀) k) := by
  unfold wrReg clocked
  split
  · exact hk _ (.single (.select s₀ b v hi))
  · exact next (.single (.refuse s₀ _))

theorem wrCcrThen {b : Blk} {x : Ch} {v : Word} {l : Label} : Yields i s₀ (wrCcrThen i b x v l s₀) :=
  write (by simp) fun _ hw => goOn hw l

theorem wrCcrRet {b : Blk} {x : Ch} {v : Word} : Yields i s₀ (wrCcrRet b x v s₀) :=
  write (by simp) fun _ hw => retOp hw _

theorem readGoOn {b : Blk} {r : Reg} {l : Word → Label} :
    Yields i s₀ (onRead (rdReg b r s₀) fun v s1 => Machine.goOn s1 i (l v)) := read fun _ _ hw => goOn hw _

theorem consume {here : Label} {cb : CircRec} {r : Half} {lo hi : Nat} {k : Option (Nat × Word) → State → Out}
    (hk : ∀ out w, Edits i s₀ s₀ w → Yields i s₀ (k out w)) : Yields i s₀ (consume i here cb r lo hi s₀ k) := by
  intro t ht
  rcases consume_next ht with ⟨e, v, rfl | ⟨r, rfl⟩⟩ | ⟨out, e, ht⟩
  · exact (Relation.ReflTransGen.single (.draw s₀ e v)).tail (.goto _ here)
  · exact (Relation.ReflTransGen.single (.draw s₀ e v)).tail (.refuse _ r)
  · exact hk out _ (.single (.draw s₀ e s₀.loaded)) t ht

theorem sequenced {start : Out} {resume : Label → Out} (hs : Yields i s₀ start)
    (hr : ∀ l, s₀.seq = .busy i l → Yields i s₀ (resume l)) : Yields i s₀ (sequenced i s₀ start resume) := by
  intro t ht
  obtain ⟨-, ⟨-, ht⟩ | ⟨l, hl, ht⟩⟩ := sequenced_next ht
  · exact hs t ht
  · exact hr l hl t ht

theorem single {start : Out} (hs : Yields i s₀ start) : Yields i s₀ (single i s₀ start) :=
  sequenced hs fun _ _ => stray

end Yields

/-! ## The shapes shared by the meanings -/

namespace Yields

variable {i : Instr} {s₀ : State} {b : Blk} {x : Ch}

theorem busRead {r : Reg} : Yields i s₀ (busRead i b r s₀) := single (read fun _ _ hw => retOp hw _)

theorem busWrite {r : Reg} {v : Word} (hr : r ≠ .ifcr ∧ r ≠ .cselr) : Yields i s₀ (busWrite i b r v s₀) :=
  single (write hr fun _ hw => retOp hw _)

theorem readOp {r : Reg} {res : Word → Result} : Yields i s₀ (readOp i b x r res s₀) :=
  single (handle (read fun _ _ hw => retOp hw _))

theorem writeOp {r : Reg} {v : Word} (hr : r ≠ .ifcr ∧ r ≠ .cselr) : Yields i s₀ (writeOp i b x r v s₀) :=
  single (handle (write hr fun _ hw => retOp hw _))

theorem clearOp {v : Word} (hi : Instr.clearsFlags i = true) : Yields i s₀ (Machine.writeOp i b x .ifcr v s₀) :=
  single (handle (clear hi fun _ hw => retOp hw _))

theorem armStart {es : ESize} {len : Nat} {base paddr : Word} : Yields i s₀ (armStart i b x es len base paddr s₀) := by
  refine check .refl <| check .refl <| check .refl <| read fun _ _ hw => ?_
  split
  · exact refuseOp hw _
  · exact goOn hw _

theorem armResume {base paddr : Word} {count : BitVec 16} {cfg : BitVec 11} {own : Owner} {res : Result}
    (ho : NewOwner s₀ b x own) (l : Label) : Yields i s₀ (armResume i b x base paddr count cfg own res s₀ l) := by
  unfold Machine.armResume
  cases l
  case a2 => exact write (by simp) fun _ hw => goOn hw _
  case a3 => exact write (by simp) fun _ hw => goOn hw _
  case a4 => exact write (by simp) fun _ hw => goOn hw _
  case a5 => exact wrCcrThen
  case a6 => exact goOn fenced _
  case a7 => exact wrCcrThen
  case a8 => exact readGoOn
  case a9 => exact retOp (fencedOwned ho) _
  all_goals exact .stray

theorem armOneShot {size pl : BitVec 2} {n : BitVec 16} {base paddr payload : Word} {mode : XferMode} :
    Yields i s₀ (armOneShot i b x size pl n base paddr payload mode s₀) := by
  unfold Machine.armOneShot
  split
  · exact single (refuseOp .refl _)
  · exact sequenced (handle armStart) fun l _ => armResume (.xfer _) l

theorem halfFlip {cb : CircRec} {r : Half} {k : State → Out} (hi : Instr.clearsFlags i = true)
    (hcb : s₀.holder b x = .circ cb) (hk : ∀ w, Edits i s₀ s₀ w → Yields i s₀ (k w)) :
    Yields i s₀ (halfFlip b x cb r s₀ k) :=
  clear hi fun _ hw => hk _ (hw.tail (.own _ b x _ (.flipped cb r hcb)))

theorem readWritten {t : XferRec} {k : Nat → State → Out} (hk : ∀ n w, Edits i s₀ s₀ w → Yields i s₀ (k n w)) :
    Yields i s₀ (readWritten i b x t s₀ k) := by
  refine read fun v w hw => ?_
  dsimp only
  split
  · exact fault hw _ _ _
  · exact hk _ w hw

end Yields

/-! ## Every instruction -/

section

variable (b : Blk) (x : Ch) (s : State)

theorem execListen_yields (ev : Event) : Yields (.listen b x ev) s (execListen b x ev s) := by
  refine .sequenced (.handle .readGoOn) fun l _ => ?_
  cases l
  case l2 => exact .wrCcrRet
  all_goals exact .stray

theorem execUnlisten_yields (ev : Event) : Yields (.unlisten b x ev) s (execUnlisten b x ev s) := by
  refine .sequenced (.handle .readGoOn) fun l _ => ?_
  cases l
  case l2 => exact .wrCcrRet
  all_goals exact .stray

theorem execSelectRequest_yields (imm : BitVec 16) :
    Yields (.selectRequest b x imm) s (execSelectRequest b x imm s) := by
  refine .sequenced (.check .refl (.handle .readGoOn)) fun l _ => ?_
  cases l
  case q2 => exact .select rfl fun _ hw => .retOp hw _
  all_goals exact .stray

theorem execConfigure_yields (imm : BitVec 16) : Yields (.configure b x imm) s (execConfigure b x imm s) := by
  refine .sequenced (.check .refl (.handle .readGoOn)) fun l _ => ?_
  cases l
  case k2 => exact .wrCcrRet
  all_goals exact .stray

theorem execStart_yields : Yields (.start b x) s (execStart b x s) := by
  refine .sequenced (.handle .readGoOn) fun l _ => ?_
  cases l
  case e2 => exact .goOn Yields.fenced _
  case e3 => exact .wrCcrThen
  case e4 => exact .readGoOn
  case e5 => exact .retOp Yields.fenced _
  all_goals exact .stray

theorem execStop_yields : Yields (.stop b x) s (execStop b x s) := by
  refine .sequenced (.handle .readGoOn) fun l _ => ?_
  cases l
  case k2 => exact .wrCcrThen
  case k3 => exact .readGoOn
  case k4 => exact .retOp Yields.fenced _
  all_goals exact .stray

theorem execSplit_yields : Yields (.split b) s (execSplit b s) := by
  refine .sequenced (.check .refl (.goOn (.single (.clock s b rfl)) _)) fun l _ => ?_
  cases l
  case z1 => exact .wrCcrThen
  case z2 => exact .readGoOn
  case z3 =>
    refine .write (by simp) fun w hw => ?_
    split
    · exact .goOn hw _
    · exact .retOp (hw.tail (.handOut w b rfl)) _
  all_goals exact .stray

theorem execCircRead_yields (size pl : BitVec 2) (h : BitVec 16) (base paddr : Word) :
    Yields (.circRead b x size pl h base paddr) s (execCircRead b x size pl h base paddr s) := by
  unfold execCircRead
  dsimp only
  split
  · exact .single (.refuseOp .refl _)
  · exact .sequenced (.handle (.check .refl .armStart)) fun l _ => .armResume (.circ base h.toNat _) l

theorem execReadableHalf_yields : Yields (.readableHalf b x) s (execReadableHalf b x s) := by
  refine .sequenced (.circ fun cb _ => .read fun v w hw => ?_) fun l _ => ?_
  · dsimp only
    split
    · exact .retOp hw _
    · exact .retOp hw _
    · exact .goOn hw _
  · cases l
    case h2 => exact .circ fun cb hcb => .halfFlip rfl hcb fun _ hw => .retOp hw _
    all_goals exact .stray

theorem execPeek_yields : Yields (.peek b x) s (execPeek b x s) := by
  refine .sequenced (.circ fun cb _ => .read fun v w hw => ?_) fun l _ => ?_
  · dsimp only
    split
    · exact .retOp hw _
    · exact .goOn hw _
    · exact .goOn hw _
  · cases l
    case h2 => exact .circ fun cb hcb => .halfFlip rfl hcb fun _ hw => .goOn hw _
    case p2 => exact .circ fun cb _ => .goOn Yields.fenced _
    case p3 => exact .circ fun cb _ => .consume fun _ _ hw => .goOn hw _
    case p4 => exact .circ fun cb hcb => .retOp (.single (.own s b x _ (.consumed cb hcb))) _
    all_goals exact .stray

theorem execPartialPeek_yields : Yields (.partialPeek b x) s (execPartialPeek b x s) := by
  refine .sequenced (.circ fun cb _ => .read fun v w hw => ?_) fun l hl => ?_
  · dsimp only
    split
    · exact .fault hw _ _ _
    · exact .goOn hw _
  · cases l
    case r2 => exact .circ fun cb _ => .goOn Yields.fenced _
    case r3 =>
      refine .circ fun cb _ => .consume fun out w hw => ?_
      split
      · exact .retOp hw _
      · split
        · exact .fault hw _ _ _
        · exact .goOn hw _
    case r4 => exact .circ fun cb hcb => .retOp (.single (.own s b x _ (.advanced cb _ _ hcb hl))) _
    all_goals exact .stray

theorem execAnswerIsr_yields : Yields (.answerIsr b x) s (execAnswerIsr b x s) :=
  .single (.circ fun _ _ => .clear rfl fun _ hw => .retOp hw _)

theorem execIsDone_yields : Yields (.isDone b x) s (execIsDone b x s) :=
  .single (.xfer fun _ => .read fun _ _ hw => .retOp hw _)

theorem execWait_yields : Yields (.wait b x) s (execWait b x s) := by
  refine .sequenced (.xfer fun _ => .readGoOn) fun l _ => ?_
  cases l
  case w1 => exact .readGoOn
  case w2 => exact .clear rfl fun _ hw => .goOn hw _
  case w3 => exact .readGoOn
  case w4 => exact .wrCcrThen
  case w5 => exact .readGoOn
  case w6 => exact .xfer fun _ => .retOp (Yields.fencedOwned .handle) _
  all_goals exact .stray

theorem execTerminate_yields : Yields (.terminate b x) s (execTerminate b x s) := by
  refine .sequenced (.xfer fun _ => .readGoOn) fun l _ => ?_
  cases l
  case t2 => exact .wrCcrThen
  case t3 => exact .readGoOn
  case t4 => exact .retOp Yields.fenced _
  all_goals exact .stray

theorem execXpeek_yields : Yields (.xpeek b x) s (execXpeek b x s) := by
  refine .sequenced (.xfer fun _ => .check .refl (.readWritten fun _ _ hw => .goOn hw _)) fun l _ => ?_
  cases l
  case x2 => exact .xfer fun _ => .retOp Yields.fenced _
  all_goals exact .stray

theorem execRestart_yields : Yields (.restart b x) s (execRestart b x s) := by
  refine .sequenced (.xfer fun _ => .check .refl .readGoOn) fun l _ => ?_
  cases l
  case s2 => exact .wrCcrThen
  case s3 => exact .readGoOn
  case s4 => exact .goOn Yields.fenced _
  case s5 => exact .xfer fun _ => .readWritten fun _ _ hw => .goOn hw _
  case s6 => exact .xfer fun _ => .write (by simp) fun _ hw => .goOn hw _
  case s7 => exact .goOn Yields.fenced _
  case s8 => exact .wrCcrThen
  case s9 => exact .readGoOn
  case s10 => exact .xfer fun _ => .retOp Yields.fenced _
  all_goals exact .stray

end

/-- One micro-step of an instruction is a chain of edits. -/
theorem exec_yields (i : Instr) (s : State) : Yields i s (exec i s) := by
  cases i
  case listen => exact execListen_yields _ _ _ _
  case unlisten => exact execUnlisten_yields _ _ _ _
  case selectRequest => exact execSelectRequest_yields _ _ _ _
  case configure => exact execConfigure_yields _ _ _ _
  case start => exact execStart_yields _ _ _
  case stop => exact execStop_yields _ _ _
  case split => exact execSplit_yields _ _
  case circRead => exact execCircRead_yields _ _ _ _ _ _ _ _
  case readableHalf => exact execReadableHalf_yields _ _ _
  case peek => exact execPeek_yields _ _ _
  case partialPeek => exact execPartialPeek_yields _ _ _
  case answerIsr => exact execAnswerIsr_yields _ _ _
  case isDone => exact execIsDone_yields _ _ _
  case wait => exact execWait_yields _ _ _
  case terminate => exact execTerminate_yields _ _ _
  case xpeek => exact execXpeek_yields _ _ _
  case restart => exact execRestart_yields _ _ _
  case readExact | writeAll => exact .armOneShot
  case status | remaining | getPaddr | getMaddr => exact .readOp
  case clearFlags | clearFlag => exact .clearOp rfl
  case setPaddr | setMaddr | setCount => exact .writeOp (by simp)
  case fence => exact .single (.retOp Yields.fenced _)
  case wrIfcr => exact .single (.clear rfl fun _ hw => .retOp hw _)
  case wrCselr => exact .single (.select rfl fun _ hw => .retOp hw _)
  all_goals first
    | exact .busRead
    | exact .busWrite (by simp)

/-- The chain of edits of a micro-step that answers a next state. -/
theorem exec_edits {i : Instr} {s t : State} (h : exec i s = .next t) : Edits i s s t := exec_yields i s t h

end Sys2Proof.Machine
end

section
/-! SUPPORT. What one step of the machine can do, said once: the drawn agent runs one micro-step of an instruction,
makes one memory access of the program, makes one engine step, or does nothing. -/
namespace Sys2Proof.Machine
open Sys2Proof

/-! ## Engine turns -/

theorem engineLoad_eq (b : Blk) (x : Ch) (a : Word) (n : Nat) (s : State) :
    ∃ e, (engineLoad b x a n s).2 = { s with env := e } := by
  unfold engineLoad
  split
  · exact State.drawValue_eq s
  · exact ⟨s.env, rfl⟩

/-- An element's transfer touches memory, the record of peripheral accesses and the environment only (R354, R355). -/
theorem moveElement_eq (b : Blk) (x : Ch) (n : Nat) (s : State) :
    ∃ m log e, moveElement b x n s = { s with mem := m, periphLog := log, env := e } := by
  unfold moveElement
  dsimp only
  split
  · obtain ⟨e, he⟩ := engineLoad_eq b x (s.engine b x).curMa n s
    rw [he]
    exact ⟨_, _, _, rfl⟩
  · obtain ⟨e, he⟩ := State.drawValue_eq s
    unfold periphRead
    dsimp only
    rw [he]
    exact ⟨_, _, _, rfl⟩

/-- The registers that one turn of a channel's engine can leave in place of r: the element's (R353), those of a
transfer error (R356), EN cleared by the stop-completion step (R364), or r where no step is enabled. -/
inductive EngineRegs (r : ChanRegs) : ChanRegs → Prop where
  | none : EngineRegs r r
  | element (odd : HtOdd) (e : Engine) : EngineRegs r (elementRegs odd e r)
  | error : EngineRegs r { r with teif := true, ccr := { r.ccr with en := false } }
  | stop : EngineRegs r { r with ccr := { r.ccr with en := false } }

/-- What an engine's turn can change: its own channel, memory, the record of peripheral accesses, the environment. -/
theorem engineTurn_eq {b : Blk} {x : Ch} {lines : List Nat} {s t : State}
    (h : t = elementTurn b x lines s ∨ t = stopTurn b x s) :
    ∃ r e m log env, EngineRegs (s.regs b x) r ∧
      t = { (s.setRegs b x r).setEngine b x e with mem := m, periphLog := log, env := env } := by
  have idle : ∃ r e m log env, EngineRegs (s.regs b x) r ∧
      s = { (s.setRegs b x r).setEngine b x e with mem := m, periphLog := log, env := env } :=
    ⟨s.regs b x, s.engine b x, s.mem, s.periphLog, s.env, .none, by simp⟩
  rcases h with rfl | rfl
  · unfold elementTurn
    split
    · unfold elementStep
      dsimp only
      split
      · obtain ⟨m, log, env, hm⟩ := moveElement_eq b x (s.regs b x).ccr.elemBytes s
        rw [hm]
        exact ⟨_, _, m, log, env, .element _ _, rfl⟩
      · exact ⟨_, _, _, _, _, .error, rfl⟩
    · exact idle
  · unfold stopTurn
    split
    · exact ⟨_, _, _, _, _, .stop, rfl⟩
    · exact idle

/-! ## The step -/

/-- What the agent that has the turn can do in state u; only an engine acts in a marked state (R76, R350). -/
inductive TurnTaken (u t : State) : Prop where
  | nothing (h : t = u)
  | word (hu : u.ready) (h : t = u.refuse .illegalEncoding)
  | start (hu : u.ready) (i : Instr) (rest : List Word) (h : exec i { u with prog := rest } = .next t)
  | resume (i : Instr) (l : Label) (hs : u.seq = .busy i l) (h : exec i u = .next t)
  | refusedAccess (hu : u.ready) (r : RefuseReason) (h : t = u.refuse r)
  | load (hu : u.ready) (e : Env) (v : Word) (h : t = { u with env := e, loaded := some v })
  | store (hu : u.ready) (addrs : List Nat) (m : Memory) (h : t = noteStore addrs { u with mem := m })
  | engine (b : Blk) (x : Ch) (lines : List Nat) (h : t = elementTurn b x lines u ∨ t = stopTurn b x u)

theorem controllerTurn_taken {u t : State} (h : controllerTurn u = .next t) : TurnTaken u t := by
  obtain ⟨⟨hf, hr⟩, h⟩ := live_next h
  split at h
  next i l hs => exact .resume i l hs h
  next hs =>
    unfold fetchAndRun at h
    split at h
    · exact .nothing (by simpa using h.symm)
    · split at h
      next i rest _ => exact .start ⟨hf, hr, hs⟩ i rest h
      · exact .word ⟨hf, hr, hs⟩ (by simpa [refuseOp] using h.symm)

theorem accessTurn_taken {access : State → Except State State} {u t : State}
    (hok : u.ready → access u = .ok t → TurnTaken u t) (herr : access u = .error t → ∃ r, t = u.refuse r)
    (h : accessTurn access u = .next t) : TurnTaken u t := by
  obtain ⟨⟨hf, hr⟩, h⟩ := live_next h
  split at h
  next hs =>
    rcases onDone_next h with ⟨v, hv, h⟩ | h
    · cases h
      exact hok ⟨hf, hr, hs⟩ hv
    · obtain ⟨r, rfl⟩ := herr h
      exact .refusedAccess ⟨hf, hr, hs⟩ r rfl
  next => exact .nothing (by simpa using h.symm)

theorem takeTurn_taken {turn : Turn} {u t : State} (h : takeTurn turn u = .next t) : TurnTaken u t := by
  cases turn with
  | controller => exact controllerTurn_taken h
  | element b x lines => exact .engine b x lines (.inl (by simpa [takeTurn] using h.symm))
  | stopDone b x => exact .engine b x [] (.inr (by simpa [takeTurn] using h.symm))
  | load a size =>
    refine accessTurn_taken (fun hu hl => ?_) ctlLoad_error h
    obtain ⟨-, -, e, v, ht, -⟩ := ctlLoad_ok hl
    exact .load hu e v ht
  | store a size v =>
    refine accessTurn_taken (fun hu hl => ?_) ctlStore_error h
    obtain ⟨-, -, ht⟩ := ctlStore_ok hl
    exact .store hu _ _ ht

/-- What a step can do: the environment draws a turn, and its agent takes it. -/
theorem step_taken {s t : State} (h : step s = .next t) : ∃ e, TurnTaken { s with env := e } t := by
  obtain ⟨e, he⟩ := State.drawTurn_eq s
  unfold step at h
  rw [he] at h
  exact ⟨e, takeTurn_taken h⟩

end Sys2Proof.Machine
end

section
/-! PROOF. `consumed_offset <= h` in every CircBuffer, and what a PARTIAL_PEEK in progress adds keeps it so (R73, R455,
R461). -/
namespace Sys2Proof.Machine
open Sys2Proof

/-! ## Where an instruction leaves the sequencer -/

/-- A micro-step leaves the sequencer as it was, Idle, or busy with the same instruction. -/
theorem exec_seq {i : Instr} {s t : State} (h : exec i s = .next t) :
    t.seq = s.seq ∨ t.seq = .idle ∨ ∃ l, t.seq = .busy i l := by
  refine (exec_edits h).keeps (P := fun u => u.seq = s.seq ∨ u.seq = .idle ∨ ∃ l, u.seq = .busy i l) ?_ (.inl rfl)
  intro u v he hu
  cases he with
  | goto l => exact .inr (.inr ⟨l, rfl⟩)
  | ret => exact .inr (.inl rfl)
  | write _ _ _ _ hr hw =>
    obtain ⟨x, ccr, n, pa, ma, e, f, rfl⟩ := wrReg_config hr hw
    exact hu
  | refuse | fault | fence | observe | draw | clear | select | own | clock | handOut => exact hu

/-- An operation in progress after a micro-step of i, where none but i was in progress before it, is i. -/
theorem exec_busy {i j : Instr} {l : Label} {s t : State} (h : exec i s = .next t) (ht : t.seq = .busy j l)
    (hs : s.seq = .idle ∨ ∃ l, s.seq = .busy i l) : j = i := by
  rcases exec_seq h with h | h | ⟨l', h⟩
  · rcases hs with hs | ⟨l', hs⟩ <;> simp_all
  · simp_all
  · simp_all

/-! ## The invariant in two parts -/

/-- Every CircBuffer has `consumed_offset <= h`. -/
def State.circsBounded (s : State) : Prop := ∀ b x cb, s.holder b x = .circ cb → cb.consumedOffset ≤ cb.h

/-- What a PARTIAL_PEEK at this label adds to the CircBuffer's offset keeps it within h. -/
def Label.boundedBy (cb : CircRec) : Label → Prop
  | .r2 _ hi => hi ≤ cb.h
  | .r3 _ _ hi => hi ≤ cb.h
  | .r4 l _ => cb.consumedOffset + l ≤ cb.h
  | _ => True

/-- The PARTIAL_PEEK in progress, if one is, keeps its CircBuffer's offset within h. -/
def State.partialPeekBounded (s : State) : Prop :=
  ∀ b x l cb, s.seq = .busy (.partialPeek b x) l → s.holder b x = .circ cb → Label.boundedBy cb l

theorem offsetsBounded_iff (s : State) : s.offsetsBounded ↔ s.circsBounded ∧ s.partialPeekBounded := by
  constructor
  · rintro ⟨hc, h2, h3, h4⟩
    refine ⟨hc, fun b x l cb hs hcb => ?_⟩
    cases l
    case r2 w hi => exact h2 b x w hi cb hs hcb
    case r3 w lo hi => exact h3 b x w lo hi cb hs hcb
    case r4 l v => exact h4 b x l v cb hs hcb
    all_goals trivial
  · rintro ⟨hc, hp⟩
    exact ⟨hc, fun b x _ _ cb hs hcb => hp b x _ cb hs hcb, fun b x _ _ _ cb hs hcb => hp b x _ cb hs hcb,
      fun b x _ _ cb hs hcb => hp b x _ cb hs hcb⟩

/-- A change that leaves the sequencer and every CircBuffer's offset and length alone keeps the invariant. -/
theorem offsetsBounded_of_sameOffsets {s t : State} (h : s.offsetsBounded) (hseq : t.seq = s.seq)
    (hcirc : ∀ b x cb, t.holder b x = .circ cb →
      ∃ cb', s.holder b x = .circ cb' ∧ cb'.h = cb.h ∧ cb'.consumedOffset = cb.consumedOffset) :
    t.offsetsBounded := by
  rw [offsetsBounded_iff] at h ⊢
  obtain ⟨hc, hp⟩ := h
  constructor
  · intro b x cb hcb
    obtain ⟨cb', hcb', hh, ho⟩ := hcirc b x cb hcb
    have hoff := hc b x cb' hcb'
    omega
  · intro b x l cb hs hcb
    obtain ⟨cb', hcb', hh, ho⟩ := hcirc b x cb hcb
    have hl := hp b x l cb' (hseq ▸ hs) hcb'
    cases l <;> simp only [Label.boundedBy] at hl ⊢ <;> omega

/-! ## Instructions -/

/-- The owners a micro-step gives keep `consumed_offset <= h`; R4's advance by what R3 checked (R455). -/
theorem NewOwner.bounded {s₀ : State} {b : Blk} {x : Ch} {cb : CircRec} (h : s₀.offsetsBounded)
    (ho : NewOwner s₀ b x (.circ cb)) : cb.consumedOffset ≤ cb.h := by
  obtain ⟨hc, hp⟩ := (offsetsBounded_iff s₀).1 h
  cases ho with
  | circ => exact Nat.zero_le _
  | flipped cb r hcb => exact hc b x cb hcb
  | consumed => exact Nat.zero_le _
  | advanced cb l v hcb hs => exact hp b x _ cb hs hcb

theorem exec_circsBounded {i : Instr} {s t : State} (hs : s.offsetsBounded) (h : exec i s = .next t) :
    t.circsBounded := by
  refine (exec_edits h).keeps (P := State.circsBounded) ?_ hs.1
  intro u v he hu
  cases he with
  | own b x o ho =>
    intro c y cb hcb
    rw [State.holder_setHolder] at hcb
    split at hcb
    · subst hcb
      exact ho.bounded hs
    · exact hu c y cb hcb
  | handOut b =>
    intro c y cb hcb
    by_cases hc : c = b
    · subst hc
      simp [State.holder, handOut] at hcb
    · exact hu c y cb (by simpa [State.holder, handOut, ByBlk.get_set_ne _ _ hc] using hcb)
  | write _ _ _ _ hr hw =>
    obtain ⟨x, ccr, n, pa, ma, e, f, rfl⟩ := wrReg_config hr hw
    exact hu
  | refuse | fault | goto | ret | fence | observe | draw | clear | select | clock => exact hu

theorem partialEnd_le (h rem : Nat) : partialEnd h rem ≤ h := Nat.sub_le _ _

/-- PARTIAL_PEEK: its window ends at or below h, and R3 lets through only a count that stays in the window (R455). -/
theorem execPartialPeek_bounded {b : Blk} {x : Ch} {s t : State} {l : Label} {cb : CircRec} (hs : s.offsetsBounded)
    (h : execPartialPeek b x s = .next t) (hl : t.seq = .busy (.partialPeek b x) l) (hcb : t.holder b x = .circ cb) :
    Label.boundedBy cb l := by
  obtain ⟨hc, hp⟩ := (offsetsBounded_iff s).1 hs
  obtain ⟨-, ⟨-, h⟩ | ⟨l₀, hl₀, h⟩⟩ := sequenced_next h
  · rcases needCirc_next h with ⟨cb₀, hcb₀, h⟩ | rfl
    · rcases onRead_next h with ⟨v, u, hr, h⟩ | hr
      · obtain ⟨-, -, rfl⟩ := rdReg_ok hr
        dsimp only at h
        split at h
        · cases h
          exact hp b x l cb hl hcb
        · cases h
          cases hl
          obtain rfl : cb₀ = cb := Owner.circ.inj (hcb₀.symm.trans hcb)
          exact partialEnd_le _ _
      · obtain ⟨-, rfl⟩ := rdReg_error hr
        exact hp b x l cb hl hcb
    · exact hp b x l cb hl hcb
  · cases l₀
    case r2 w hi =>
      rcases needCirc_next h with ⟨cb₀, hcb₀, h⟩ | rfl
      · cases h
        cases hl
        exact hp b x (.r2 w hi) cb hl₀ hcb
      · exact hp b x l cb hl hcb
    case r3 w lo hi =>
      rcases needCirc_next h with ⟨cb₀, hcb₀, h⟩ | rfl
      · rcases consume_next h with ⟨e, v, rfl | ⟨r, rfl⟩⟩ | ⟨_ | ⟨k, v⟩, e, h⟩
        · cases hl
          exact hp b x (.r3 w lo hi) cb hl₀ hcb
        · exact hp b x l cb hl hcb
        · cases h
          cases hl
        · dsimp only at h
          split at h
          · cases h
            exact hp b x l cb hl hcb
          · cases h
            cases hl
            obtain rfl : cb₀ = cb := Owner.circ.inj (hcb₀.symm.trans hcb)
            have hhi : hi ≤ cb₀.h := hp b x (.r3 w lo hi) cb₀ hl₀ hcb
            have hoff := hc b x cb₀ hcb
            simp only [Label.boundedBy]
            omega
      · exact hp b x l cb hl hcb
    case r4 k v =>
      rcases needCirc_next h with ⟨cb₀, hcb₀, h⟩ | rfl
      · cases h
        cases hl
      · exact hp b x l cb hl hcb
    all_goals cases h

theorem exec_offsetsBounded {i : Instr} {s t : State} (hs : s.offsetsBounded)
    (hi : s.seq = .idle ∨ ∃ l, s.seq = .busy i l) (h : exec i s = .next t) : t.offsetsBounded := by
  refine (offsetsBounded_iff t).2 ⟨exec_circsBounded hs h, fun b x l cb hl hcb => ?_⟩
  obtain rfl := exec_busy h hl hi
  exact execPartialPeek_bounded hs h hl hcb

/-! ## Every step -/

/-- A store of the program leaves the sequencer and every offset alone (R75). -/
theorem noteStore_offsetsBounded {s : State} (hs : s.offsetsBounded) (addrs : List Nat) :
    (noteStore addrs s).offsetsBounded := by
  refine offsetsBounded_of_sameOffsets hs rfl fun b x cb hcb => ?_
  rw [noteStore_holder] at hcb
  cases ho : s.holder b x with
  | circ cb' =>
    rw [ho, Owner.disturb_circ] at hcb
    cases hcb
    exact ⟨cb', rfl, rfl, rfl⟩
  | unsplit | handle | xfer => simp [ho, Owner.disturb] at hcb

/-- Settles O58: the invariant splits into the CircBuffers and the PARTIAL_PEEK in progress; an instruction keeps it by
the owners its edits can give, everything else leaves offsets and sequencer alone. -/
theorem offsetsBoundedKept : Obligations.OffsetsBoundedKept := by
  unfold Obligations.OffsetsBoundedKept
  intro s t hs hstep
  obtain ⟨env, ht⟩ := step_taken hstep
  generalize hu : ({ s with env := env } : State) = u at ht
  replace hs : u.offsetsBounded := hu ▸ hs
  cases ht with
  | nothing h => exact h ▸ hs
  | word _ h => exact h ▸ hs
  | start hr i rest h => exact exec_offsetsBounded (s := { u with prog := rest }) hs (.inl hr.2.2) h
  | resume i l hl h => exact exec_offsetsBounded hs (.inr ⟨l, hl⟩) h
  | refusedAccess _ r h => exact h ▸ hs
  | load _ e v h => exact h ▸ hs
  | store _ addrs m h => exact h ▸ noteStore_offsetsBounded (s := { u with mem := m }) hs addrs
  | engine b x lines h =>
    obtain ⟨r, e, m, log, env, -, rfl⟩ := engineTurn_eq h
    exact hs

end Sys2Proof.Machine
end

section
/-! PROOF. What a step is on each turn (R52, R160), marks (R76), and the frames of instructions and engines: which
channels an instruction touches (R400, R619), and who sets and clears flags (R63, R367). -/
namespace Sys2Proof.Machine
open Sys2Proof

/-! ## The turn that was drawn -/

/-- A step is the drawn agent's turn, in a state that differs from s in the environment only. -/
theorem step_drawn {s s' : State} {turn : Turn} (h : s.drawTurn = (turn, s')) :
    step s = takeTurn turn s' ∧ ∃ e, s' = { s with env := e } := by
  obtain ⟨e, he⟩ := State.drawTurn_eq s
  rw [h] at he
  exact ⟨by simp [step, h], e, he⟩

theorem live_fault {s : State} {m : FaultMark} (h : s.fault = some m) (k : Out) : live s k = .fault (.marked m) := by
  simp [live, h]

theorem live_refused {s : State} {r : RefuseReason} (hf : s.fault = none) (h : s.refused = some r) (k : Out) :
    live s k = .refused (.marked r) := by
  simp [live, hf, h]

theorem fetchAndRun_end {s : State} (h : s.prog = []) : fetchAndRun s = .next s := by simp [fetchAndRun, h]

theorem fetchAndRun_word {s : State} {i : Instr} {rest : List Word} (h : decode s.prog = .ok (i, rest)) :
    fetchAndRun s = exec i { s with prog := rest } := by
  unfold fetchAndRun
  split
  next hp => simp [hp, decode] at h
  next => simp [h]

theorem fetchAndRun_badWord {s : State} {w : Word} {ws : List Word} {e : DecodeError} (hp : s.prog = w :: ws)
    (h : decode s.prog = .error e) : fetchAndRun s = .next (s.refuse .illegalEncoding) := by
  rw [hp] at h
  simp [fetchAndRun, hp, h, refuseOp]

theorem controllerTurn_idle {s : State} (h : s.ready) : controllerTurn s = fetchAndRun s := by
  obtain ⟨hf, hr, hs⟩ := h
  simp [controllerTurn, hf, hr, hs]

theorem controllerTurn_busy {s : State} {i : Instr} {l : Label} (hu : s.unmarked) (hs : s.seq = .busy i l) :
    controllerTurn s = exec i s := by
  simp [controllerTurn, hu.1, hu.2, hs]

theorem accessTurn_idle {s : State} (h : s.ready) (access : State → Except State State) :
    accessTurn access s = onDone (access s) .next := by
  obtain ⟨hf, hr, hs⟩ := h
  simp [accessTurn, hf, hr, hs]

theorem accessTurn_busy {s : State} {i : Instr} {l : Label} (hu : s.unmarked) (hs : s.seq = .busy i l)
    (access : State → Except State State) : accessTurn access s = .next s := by
  simp [accessTurn, hu.1, hu.2, hs]

/-- The controller's turns: its own, and the loads and stores of its program. -/
def Turn.ofController (t : Turn) : Prop := t = .controller ∨ (∃ a n, t = .load a n) ∨ ∃ a n v, t = .store a n v

/-- A controller's turn goes through `live`, so a mark stops it (R76). -/
theorem takeTurn_live {turn : Turn} (h : Turn.ofController turn) (s : State) : ∃ k, takeTurn turn s = live s k := by
  rcases h with rfl | ⟨a, n, rfl⟩ | ⟨a, n, v, rfl⟩ <;> exact ⟨_, rfl⟩

/-- Settles O2: the drawn turn is the controller's, whose next words decode to i. -/
theorem stepRunsDecodedInstruction : Obligations.StepRunsDecodedInstruction := by
  unfold Obligations.StepRunsDecodedInstruction
  intro s s' i rest hready hturn hdec
  obtain ⟨hstep, e, rfl⟩ := step_drawn hturn
  refine ⟨?_, rfl⟩
  rw [hstep]
  exact (controllerTurn_idle (s := { s with env := e }) hready).trans (fetchAndRun_word (s := { s with env := e }) hdec)

/-- Settles O3: one clause for each agent and each condition of the sequencer and the marks. -/
theorem stepOfEveryOtherTurn : Obligations.StepOfEveryOtherTurn := by
  unfold Obligations.StepOfEveryOtherTurn
  intro s s'
  refine ⟨fun op l hu hd hs => ?_, fun hr hd hp => ?_, fun w ws e hr hd hp he => ?_, fun a n hr hd => ?_,
    fun a n v hr hd => ?_, fun op l a n hu hd hs => ?_, fun op l a n v hu hd hs => ?_, fun t m ht hm hd => ?_,
    fun t r ht hf hr hd => ?_, fun b x lines hd => ?_, fun b x hd => ?_⟩
  all_goals
    obtain ⟨hstep, env, rfl⟩ := step_drawn hd
    rw [hstep]
  · exact controllerTurn_busy (s := { s with env := env }) hu hs
  · exact (controllerTurn_idle (s := { s with env := env }) hr).trans (fetchAndRun_end hp)
  · exact (controllerTurn_idle (s := { s with env := env }) hr).trans (fetchAndRun_badWord hp he)
  · exact accessTurn_idle (s := { s with env := env }) hr _
  · exact accessTurn_idle (s := { s with env := env }) hr _
  · exact accessTurn_busy (s := { s with env := env }) hu hs _
  · exact accessTurn_busy (s := { s with env := env }) hu hs _
  · obtain ⟨k, hk⟩ := takeTurn_live ht { s with env := env }
    rw [hk]
    exact live_fault hm k
  · obtain ⟨k, hk⟩ := takeTurn_live ht { s with env := env }
    rw [hk]
    exact live_refused hf hr k
  · rfl
  · rfl

/-! ## Marks -/

/-- Only an engine acts in a marked state, and it leaves the marks alone (R76, R351). -/
theorem TurnTaken.marks {u t : State} (h : TurnTaken u t) :
    u.unmarked ∨ (t.fault = u.fault ∧ t.refused = u.refused) := by
  cases h with
  | nothing h => exact .inr ⟨by rw [h], by rw [h]⟩
  | resume i l hs h => exact .inl (exec_next_unmarked h)
  | engine b x lines h =>
    obtain ⟨r, e, m, log, env, -, rfl⟩ := engineTurn_eq h
    exact .inr ⟨rfl, rfl⟩
  | word hu | start hu | refusedAccess hu | load hu | store hu => exact .inl ⟨hu.1, hu.2.1⟩

/-- Settles O51: a step from a marked state is an engine's, which leaves the marks alone. -/
theorem marksNeverCleared : Obligations.MarksNeverCleared := by
  unfold Obligations.MarksNeverCleared
  refine ⟨fun s t h => ?_, fun s s' turn hm hd ht t h => ?_, rfl, rfl⟩
  · obtain ⟨e, h⟩ := step_taken h
    rcases h.marks with ⟨hf, hr⟩ | ⟨hf, hr⟩
    · exact ⟨fun m hm => by simp_all, fun r hm => by simp_all⟩
    · exact ⟨fun m hm => hf.trans hm, fun r hm => hr.trans hm⟩
  · obtain ⟨hstep, e, rfl⟩ := step_drawn hd
    obtain ⟨k, hk⟩ := takeTurn_live ht { s with env := e }
    rw [hstep, hk] at h
    exact hm (live_next h).1

/-! ## The frame of an instruction -/

/-- What an instruction with target `tgt` leaves alone between two states: memory, the record of peripheral accesses,
the program, the launch parameters, and every channel outside the target. -/
structure Frame (tgt : Target) (s t : State) : Prop where
  mem : t.mem = s.mem
  log : t.periphLog = s.periphLog
  prog : t.prog = s.prog
  plat : t.plat = s.plat
  outside : ∀ b x, tgt.covers b x = false →
    t.regs b x = s.regs b x ∧ t.engine b x = s.engine b x ∧ t.holder b x = s.holder b x

namespace Frame

variable {tgt : Target} {b : Blk} {x : Ch} {v : Word} {s u t : State}

/-- States that agree on the frame and on every channel's registers, engine and owner. -/
theorem of_eq (hm : t.mem = s.mem) (hl : t.periphLog = s.periphLog) (hp : t.prog = s.prog) (hq : t.plat = s.plat)
    (hc : t.chan = s.chan) (he : t.eng = s.eng) (ho : t.owner = s.owner) : Frame tgt s t :=
  ⟨hm, hl, hp, hq, fun _ _ _ => by simp [State.regs, State.engine, State.holder, hc, he, ho]⟩

theorem refl (tgt : Target) (s : State) : Frame tgt s s := of_eq rfl rfl rfl rfl rfl rfl rfl

theorem trans (h : Frame tgt s u) (k : Frame tgt u t) : Frame tgt s t where
  mem := k.mem.trans h.mem
  log := k.log.trans h.log
  prog := k.prog.trans h.prog
  plat := k.plat.trans h.plat
  outside b x hc :=
    have ⟨kr, ke, ko⟩ := k.outside b x hc
    have ⟨hr, he, ho⟩ := h.outside b x hc
    ⟨kr.trans hr, ke.trans he, ko.trans ho⟩

/-- A channel that a target covers is none that it does not cover. -/
theorem ne_of_covers {c : Blk} {y : Ch} (h : tgt.covers b x = true) (h' : tgt.covers c y = false) :
    ¬(c = b ∧ y = x) := by
  rintro ⟨rfl, rfl⟩
  simp [h] at h'

theorem setRegs (ht : tgt.covers b x = true) (s : State) (r : ChanRegs) : Frame tgt s (s.setRegs b x r) :=
  ⟨rfl, rfl, rfl, rfl, fun _ _ hc => ⟨State.regs_setRegs_ne s r (ne_of_covers ht hc), rfl, rfl⟩⟩

theorem setEngine (ht : tgt.covers b x = true) (s : State) (e : Engine) : Frame tgt s (s.setEngine b x e) :=
  ⟨rfl, rfl, rfl, rfl, fun _ _ hc => ⟨rfl, State.engine_setEngine_ne s e (ne_of_covers ht hc), rfl⟩⟩

theorem setHolder (ht : tgt.covers b x = true) (s : State) (o : Owner) : Frame tgt s (s.setHolder b x o) :=
  ⟨rfl, rfl, rfl, rfl, fun _ _ hc => ⟨rfl, rfl, State.holder_setHolder_ne s o (ne_of_covers ht hc)⟩⟩

theorem refuse (tgt : Target) (s : State) (r : RefuseReason) : Frame tgt s (s.refuse r) :=
  of_eq rfl rfl rfl rfl rfl rfl rfl

theorem wrCcr (ht : tgt.covers b x = true) (h : wrCcr b x v s = .ok t ∨ wrCcr b x v s = .error t) :
    Frame tgt s t := by
  have fields : Frame tgt s (ccrUpdated s b x v) := setRegs ht s _
  rcases h with h | h
  · rcases wrCcr_ok h with ⟨-, -, h⟩ | ⟨-, -, -, rfl⟩ | ⟨-, rfl⟩
    · obtain ⟨-, rfl⟩ := enable_ok h
      have enabled := setRegs ht (ccrUpdated s b x v) { (ccrUpdated s b x v).regs b x with
        ccr := { ((ccrUpdated s b x v).regs b x).ccr with en := true } }
      exact fields.trans (enabled.trans (setEngine ht _ _))
    · unfold disable
      dsimp only
      split
      · exact fields.trans (setRegs ht _ _)
      · exact fields.trans (setEngine ht _ _)
    · exact fields
  · rcases wrCcr_error h with rfl | ⟨r, rfl⟩
    · exact refuse tgt s _
    · exact fields.trans (refuse tgt _ r)

/-- An IFCR write clears no flag of a channel whose group is 0 (R254). -/
theorem wrIfcr (s : State) (ht : ∀ x, tgt.covers b x = false → groupOf v x = 0#4) : Frame tgt s (s.wrIfcr b v) := by
  refine ⟨rfl, rfl, rfl, rfl, fun c y hc => ⟨?_, rfl, rfl⟩⟩
  rw [State.regs_wrIfcr]
  split
  next h =>
    subst h
    rw [ht y hc, ChanRegs.clearFlags_zero]
  · rfl

theorem ne_of_not_covers_block {c : Blk} (h : (Target.block b).covers c x = false) : c ≠ b := by
  rintro rfl
  simp [Target.covers] at h

theorem wrCselr (s : State) : Frame (.block b) s (s.wrCselr b v) :=
  ⟨rfl, rfl, rfl, rfl, fun c y hc =>
    ⟨by rw [State.regs_wrCselr, if_neg (ne_of_not_covers_block hc)], rfl, rfl⟩⟩

theorem handOut (s : State) : Frame (.block b) s (handOut b s) :=
  ⟨rfl, rfl, rfl, rfl, fun c y hc =>
    ⟨rfl, rfl, by simp [State.holder, Machine.handOut, ByBlk.get_set_ne _ _ (ne_of_not_covers_block hc)]⟩⟩

end Frame

/-- One elementary change of an instruction stays in its frame. -/
theorem Change.frame {i : Instr} {s₀ s t : State} (h : Change i s₀ s t) : Frame (Instr.target i) s t := by
  cases h with
  | refuse | fault | goto | ret | fence | observe => exact .of_eq rfl rfl rfl rfl rfl rfl rfl
  | act =>
    obtain ⟨e, he⟩ := State.drawAct_eq s
    rw [he]
    exact .of_eq rfl rfl rfl rfl rfl rfl rfl
  | load _ l a size h =>
    obtain ⟨-, -, e, v, rfl, -⟩ := ctlLoad_ok h
    exact .of_eq rfl rfl rfl rfl rfl rfl rfl
  | ccr _ b x v ht h => exact .wrCcr ht h
  | cndtr b x v ht =>
    unfold State.wrCndtr
    dsimp only
    split
    · exact .refl _ s
    · exact .setRegs ht s _
  | cpar _ b x v ht h | cmar _ b x v ht h =>
    simp only [wrCpar, wrCmar] at h
    split at h <;> cases h
    exact .setRegs ht s _
  | ifcr b v ht => exact .wrIfcr s ht
  | cselr b v ht => exact ht ▸ .wrCselr s
  | holder b x o _ ht _ => exact .setHolder ht s o
  | clock b hi => exact .of_eq rfl rfl rfl rfl rfl rfl rfl
  | handOut b hi _ => exact hi ▸ .handOut s

theorem exec_frame {i : Instr} {s t : State} (h : exec i s = .next t) : Frame (Instr.target i) s t := by
  have hc := exec_changes h
  clear h
  induction hc with
  | refl => exact .refl _ s
  | tail _ hc ih => exact ih.trans hc.frame

/-- The clock gates and `split_done` are SPLIT's business (R53, R71). -/
theorem exec_gates {i : Instr} {s t : State} (hi : ∀ b, i ≠ .split b) (h : exec i s = .next t) :
    t.clkEn = s.clkEn ∧ t.splitDone = s.splitDone := by
  refine (exec_edits h).keeps (P := fun u => u.clkEn = s.clkEn ∧ u.splitDone = s.splitDone) ?_ ⟨rfl, rfl⟩
  intro u v he hu
  cases he with
  | write _ _ _ _ hr hw =>
    obtain ⟨x, ccr, n, pa, ma, e, f, rfl⟩ := wrReg_config hr hw
    exact hu
  | clock b hs | handOut b hs => exact absurd hs (hi b)
  | refuse | fault | goto | ret | fence | observe | draw | clear | select | own => exact hu

/-- The request codes are the business of the CSELR writes (R266, R407). -/
theorem exec_codes {i : Instr} {s t : State} (hi : Instr.writesCodes i = false) (h : exec i s = .next t) (c : Blk)
    (y : Ch) : (t.regs c y).cxs = (s.regs c y).cxs := by
  refine (exec_edits h).keeps (P := fun u => (u.regs c y).cxs = (s.regs c y).cxs) ?_ rfl
  intro u v he hu
  cases he with
  | write _ _ _ _ hr hw =>
    exact (wrReg_part ChanRegs.cxs (fun _ _ _ _ _ => rfl) hr hw c y).trans hu
  | clear b v =>
    rw [← hu, State.regs_wrIfcr]
    split
    next hc => rw [hc]; rfl
    · rfl
  | select b v hs => simp [hi] at hs
  | refuse | fault | goto | ret | fence | observe | draw | own | clock | handOut => exact hu

theorem writesCodes_eq_false {i : Instr} (h1 : ∀ b v, i ≠ .wrCselr b v) (h2 : ∀ b x imm, i ≠ .selectRequest b x imm) :
    Instr.writesCodes i = false := by
  unfold Instr.writesCodes
  split
  · exact absurd rfl (h1 _ _)
  · exact absurd rfl (h2 _ _ _)
  · rfl

/-- Settles O49: each elementary change stays in the instruction's target; gates and codes by the edits that change
them. -/
theorem instructionFrame : Obligations.InstructionFrame := by
  unfold Obligations.InstructionFrame
  intro i s t h
  obtain ⟨mem, log, prog, plat, outside⟩ := exec_frame h
  exact ⟨mem, log, prog, plat, outside, fun hi => exec_gates hi h,
    fun h1 h2 => exec_codes (writesCodes_eq_false h1 h2) h⟩

/-! ## Flags -/

/-- Every flag that r has, r' has too. -/
def ChanRegs.flagsWithin (r r' : ChanRegs) : Prop :=
  (r.tcif = true → r'.tcif = true) ∧ (r.htif = true → r'.htif = true) ∧ (r.teif = true → r'.teif = true)

/-- The three flags of a channel (R63). -/
def ChanRegs.flags (r : ChanRegs) : Bool × Bool × Bool := (r.tcif, r.htif, r.teif)

theorem ChanRegs.flagsWithin_of_eq {r r' : ChanRegs} (h : r.flags = r'.flags) : r.flagsWithin r' := by
  simp only [ChanRegs.flags, Prod.mk.injEq] at h
  obtain ⟨h1, h2, h3⟩ := h
  exact ⟨fun h => h1 ▸ h, fun h => h2 ▸ h, fun h => h3 ▸ h⟩

theorem ChanRegs.flagsWithin.trans {r r' r'' : ChanRegs} (h : r.flagsWithin r') (k : r'.flagsWithin r'') :
    r.flagsWithin r'' :=
  have ⟨h1, h2, h3⟩ := h
  have ⟨k1, k2, k3⟩ := k
  ⟨k1 ∘ h1, k2 ∘ h2, k3 ∘ h3⟩

theorem ChanRegs.clearFlags_within (r : ChanRegs) (g : BitVec 4) : (r.clearFlags g).flagsWithin r := by
  simp +contextual [ChanRegs.flagsWithin, ChanRegs.clearFlags]

/-- An edit other than an IFCR write keeps every flag. -/
theorem Edit.flags {i : Instr} {s₀ s t : State} (h : Edit i s₀ s t) (c : Blk) (y : Ch) :
    (t.regs c y).flags = (s.regs c y).flags ∨
      Instr.clearsFlags i = true ∧ (t.regs c y).flagsWithin (s.regs c y) := by
  cases h with
  | write _ _ _ _ hr hw =>
    exact .inl (wrReg_part ChanRegs.flags (fun _ _ _ _ _ => rfl) hr hw c y)
  | clear b v hi =>
    rw [State.regs_wrIfcr]
    split
    next hc => exact .inr ⟨hi, hc ▸ ChanRegs.clearFlags_within _ _⟩
    · exact .inl rfl
  | select b v =>
    rw [State.regs_wrCselr]
    split
    next hc => exact .inl (by rw [hc]; rfl)
    · exact .inl rfl
  | refuse | fault | goto | ret | fence | observe | draw | own | clock | handOut => exact .inl rfl

/-- No instruction sets a flag (R63). -/
theorem exec_flagsWithin {i : Instr} {s t : State} (h : exec i s = .next t) (c : Blk) (y : Ch) :
    (t.regs c y).flagsWithin (s.regs c y) := by
  refine (exec_edits h).keeps (P := fun u => (u.regs c y).flagsWithin (s.regs c y)) ?_ (ChanRegs.flagsWithin_of_eq rfl)
  intro u v he hu
  rcases he.flags c y with h | ⟨-, h⟩
  · exact (ChanRegs.flagsWithin_of_eq h).trans hu
  · exact h.trans hu

/-- Only an IFCR write changes a flag (R367). -/
theorem exec_flags {i : Instr} {s t : State} (hi : Instr.clearsFlags i = false) (h : exec i s = .next t) (c : Blk)
    (y : Ch) : (t.regs c y).flags = (s.regs c y).flags := by
  refine (exec_edits h).keeps (P := fun u => (u.regs c y).flags = (s.regs c y).flags) ?_ rfl
  intro u v he hu
  rcases he.flags c y with h | ⟨hc, -⟩
  · exact h.trans hu
  · simp [hi] at hc

/-- An instruction that writes IFCR for another channel, or for none, keeps this channel's flags. -/
theorem exec_flags_of_other {i : Instr} {s t : State} {b : Blk} {x : Ch} (h : exec i s = .next t)
    (h1 : ∀ v, i ≠ .wrIfcr b v) (h2 : ∀ f, i ≠ .clearFlag b x f)
    (h3 : i ∉ [.clearFlags b x, .answerIsr b x, .readableHalf b x, .peek b x, .wait b x]) :
    (t.regs b x).flags = (s.regs b x).flags := by
  cases hi : Instr.clearsFlags i
  · exact exec_flags hi h b x
  · cases hc : (Instr.target i).covers b x
    · rw [((exec_frame h).outside b x hc).1]
    · -- an IFCR writer whose target holds (b, x) is one of the instructions that h1 to h3 rule out
      exfalso
      unfold Instr.clearsFlags at hi
      split at hi
      all_goals simp_all [Instr.target, Target.covers]

/-! ### Engines -/

/-- An engine's turn clears no flag of its channel (R367). -/
theorem EngineRegs.flagsWithin {r r' : ChanRegs} (h : EngineRegs r r') : r.flagsWithin r' := by
  cases h with
  | none | stop => exact ChanRegs.flagsWithin_of_eq rfl
  | element => simp +contextual [ChanRegs.flagsWithin, elementRegs]
  | error => simp +contextual [ChanRegs.flagsWithin]

/-- An engine's turn never sets TEIF together with HTIF or TCIF (R368). -/
theorem EngineRegs.teif_or {r r' : ChanRegs} (h : EngineRegs r r') :
    r'.teif = r.teif ∨ (r'.tcif = r.tcif ∧ r'.htif = r.htif) := by
  cases h with
  | none | stop | element => exact .inl rfl
  | error => exact .inr ⟨rfl, rfl⟩

/-- The registers after an engine's turn: its own channel's by its step, the others' unchanged (R351). -/
theorem engineTurn_regs {b : Blk} {x : Ch} {lines : List Nat} {s t : State}
    (h : t = elementTurn b x lines s ∨ t = stopTurn b x s) :
    EngineRegs (s.regs b x) (t.regs b x) ∧ ∀ c y, ¬(c = b ∧ y = x) → t.regs c y = s.regs c y := by
  obtain ⟨r, e, m, log, env, hr, rfl⟩ := engineTurn_eq h
  refine ⟨?_, fun c y hc => State.regs_setRegs_ne s r hc⟩
  change EngineRegs _ ((s.setRegs b x r).regs b x)
  rwa [State.regs_setRegs_self]

/-- Settles O50: no edit but an IFCR write touches a flag, and that one only clears; the engine's flags are those of its
element step or of its transfer error. -/
theorem flagsSetByEngineOnly : Obligations.FlagsSetByEngineOnly := by
  unfold Obligations.FlagsSetByEngineOnly
  refine ⟨fun i s t h b x => ?_, fun b x lines s t h => ?_⟩
  · obtain ⟨htc, hht, hte⟩ := exec_flagsWithin h b x
    refine ⟨htc, hht, hte, fun h1 h2 h3 => ?_⟩
    simpa [ChanRegs.flags] using exec_flags_of_other h h1 h2 h3
  · obtain ⟨hr, hother⟩ := engineTurn_regs h
    obtain ⟨htc, hht, hte⟩ := hr.flagsWithin
    exact ⟨htc, hht, hte, hr.teif_or, fun c y hc => by rw [hother c y hc]⟩

end Sys2Proof.Machine
end

section
/-! PROOF. The memory accesses of the controller's program (R150 to R153, R162, R163, R75) and of a consumer (R458). -/
namespace Sys2Proof.Machine
open Sys2Proof

/-! ## A controller access by its conditions -/

section

variable {l : List Nat} {a v : Word} {size : ESize} {s : State}

theorem ctlLoad_misaligned (h : a.toNat % size.bytes ≠ 0) : ctlLoad l a size s = .error (s.refuse .misaligned) := by
  simp [ctlLoad, aligned, h]

theorem ctlLoad_notAdmitted (ha : a.toNat % size.bytes = 0) (h : s.memAdmit a size.bytes = false) :
    ctlLoad l a size s = .error (s.refuse .memNotAdmitted) := by
  simp [ctlLoad, aligned, ha, h]

/-- Fenced and undisturbed, a read is memory's value (R150, R162). -/
theorem ctlLoad_memory (ha : a.toNat % size.bytes = 0) (hm : s.memAdmit a size.bytes = true)
    (hu : s.unfencedRead = false) (ht : touches a size.bytes l = false) :
    ctlLoad l a size s = .ok { s with loaded := some (memRead s.mem a size.bytes) } := by
  simp [ctlLoad, aligned, ha, hm, hu, ht]

/-- After an observation with no fence since, or at a disturbed byte, a read is a draw (R162, R75). -/
theorem ctlLoad_draw {w : Word} {ws : List Word} (ha : a.toNat % size.bytes = 0) (hm : s.memAdmit a size.bytes = true)
    (hd : s.unfencedRead = true ∨ touches a size.bytes l = true) (hv : s.env.values = w :: ws) :
    ctlLoad l a size s =
      .ok { s with env := { s.env with values := ws }, loaded := some (lowBytes size.bytes w) } := by
  have hd : (s.unfencedRead || touches a size.bytes l) = true := by simpa using hd
  simp [ctlLoad, aligned, ha, hm, hd, State.drawValue_cons s hv]

theorem ctlStore_misaligned (h : a.toNat % size.bytes ≠ 0) : ctlStore a size v s = .error (s.refuse .misaligned) := by
  simp [ctlStore, aligned, h]

theorem ctlStore_notAdmitted (ha : a.toNat % size.bytes = 0) (h : s.memAdmit a size.bytes = false) :
    ctlStore a size v s = .error (s.refuse .memNotAdmitted) := by
  simp [ctlStore, aligned, ha, h]

theorem ctlStore_admitted (ha : a.toNat % size.bytes = 0) (hm : s.memAdmit a size.bytes = true) :
    ctlStore a size v s =
      .ok (noteStore (byteAddrs a size.bytes) { s with mem := memWrite s.mem a size.bytes v }) := by
  simp [ctlStore, aligned, ha, hm]

end

/-! ## Loads and stores of the program -/

/-- The draw of a turn uses up no drawn value (R96). -/
theorem State.drawTurn_values (s : State) : s.drawTurn.2.env.values = s.env.values := by
  cases h : s.env.turns <;> simp [State.drawTurn, h]

/-- An access touches a byte that some live object holds as disturbed. -/
theorem touches_disturbed_iff (a : Word) (n : Nat) (s : State) :
    touches a n s.disturbed = true ↔
      ∃ k b x, k < n ∧ (a + BitVec.ofNat 32 k).toNat ∈ (s.holder b x).disturbed := by
  rw [touches_iff]
  simp only [State.mem_disturbed]
  constructor
  · rintro ⟨k, hk, b, x, h⟩
    exact ⟨k, b, x, hk, h⟩
  · rintro ⟨k, b, x, hk, h⟩
    exact ⟨k, hk, b, x, h⟩

theorem ESize.bytes_le_eight (size : ESize) : size.bytes ≤ 8 := by cases size <;> decide

theorem setWidth_shiftRight_eq_extractLsb' (v : Word) (j : Nat) : (v >>> j).setWidth 8 = v.extractLsb' j 8 := by
  apply BitVec.eq_of_getLsbD_eq
  intro i hi
  simp [hi]

/-- The program's load where no operation is in progress. -/
theorem step_load {a : Word} {size : ESize} {s s' : State} (hs : s.ready) (hd : s.drawTurn = (.load a size, s')) :
    step s = onDone (ctlLoad s.disturbed a size s') .next := by
  obtain ⟨hstep, e, rfl⟩ := step_drawn hd
  rw [hstep]
  exact accessTurn_idle (s := { s with env := e }) hs _

/-- The program's store where no operation is in progress. -/
theorem step_store {a v : Word} {size : ESize} {s s' : State} (hs : s.ready)
    (hd : s.drawTurn = (.store a size v, s')) : step s = onDone (ctlStore a size v s') .next := by
  obtain ⟨hstep, e, rfl⟩ := step_drawn hd
  rw [hstep]
  exact accessTurn_idle (s := { s with env := e }) hs _

/-- Settles O47: an access of the program is `ctlLoad` or `ctlStore` in the state its turn was drawn to, which differs
from s in the turns only. -/
theorem controllerAccesses : Obligations.ControllerAccesses := by
  unfold Obligations.ControllerAccesses
  intro a v size s s' hs n disturbed within
  have hdist : disturbed ↔ touches a n s.disturbed = true := by
    rw [touches_disturbed_iff]
    refine exists_congr fun k => exists_congr fun b => exists_congr fun x => and_congr_right fun _ => ?_
    cases s.holder b x <;> rfl
  simp only [hdist]
  refine ⟨fun hd => ?_, fun hd => ?_⟩
  · have hvals : s'.env.values = s.env.values := by simpa [hd] using s.drawTurn_values
    obtain ⟨-, e, rfl⟩ := step_drawn hd
    rw [step_load hs hd]
    refine ⟨fun ha => ?_, fun ha hm => ?_, fun ha hm hu ht => ?_, fun w ws ha hm hany hw => ?_⟩
    · rw [ctlLoad_misaligned ha, onDone_error]
    · rw [ctlLoad_notAdmitted (s := { s with env := e }) ha hm, onDone_error]
    · rw [ctlLoad_memory (s := { s with env := e }) ha hm hu (by simpa using ht), onDone_ok]
    · rw [ctlLoad_draw (s := { s with env := e }) ha hm hany (hvals.trans hw), onDone_ok]
      rfl
  · obtain ⟨-, e, rfl⟩ := step_drawn hd
    rw [step_store hs hd]
    refine ⟨fun ha => ?_, fun ha hm => ?_, fun ha hm => ?_⟩
    · rw [ctlStore_misaligned ha, onDone_error]
    · rw [ctlStore_notAdmitted (s := { s with env := e }) ha hm, onDone_error]
    · rw [ctlStore_admitted (s := { s with env := e }) ha hm, onDone_ok]
      refine ⟨_, rfl, rfl, fun k hk => ?_, fun j hj => ?_, fun b x => ?_⟩
      · exact (memWrite_byteAt_inside _ _ _ _ k hk (ESize.bytes_le_eight size)).trans
          (setWidth_shiftRight_eq_extractLsb' v (8 * k))
      · refine memWrite_byteAt_outside _ _ _ _ j fun h => ?_
        obtain ⟨k, hk, he⟩ := mem_byteAddrs.1 h
        exact hj k hk he.symm
      · rw [noteStore_holder]
        change (s.holder b x).disturb _ = _
        cases s.holder b x <;> rfl

/-! ## The consumer -/

theorem goOn_self {op : Instr} {l : Label} {s : State} (h : s.seq = .busy op l) : goOn s op l = .next s := by
  simp [goOn, State.goto, ← h]

/-- A consumer's read act: in the window one controller read, outside it none; the operation stays where it is. -/
theorem consume_read {op : Instr} {here : Label} {cb : CircRec} {r : Half} {lo hi k : Nat} {acts : List ConsumerAct}
    {s : State} (h : s.env.acts = .read k :: acts) (hs : s.seq = .busy op here)
    (go : Option (Nat × Word) → State → Out) :
    let s' : State := { s with env := { s.env with acts := acts } }
    consume op here cb r lo hi s go =
      if lo ≤ k ∧ k < hi then
        onDone (ctlLoad cb.disturbed (halfElemAddr cb r k) cb.esize s') fun s2 => goOn s2 op here
      else .next s' := by
  simp only [consume, State.drawAct_cons s h]
  split
  · rfl
  · exact goOn_self hs

/-- A consumer in progress: PEEK at P3 or PARTIAL_PEEK at R3 is at its consumer's next act (R454, R455). -/
theorem exec_consume {b : Blk} {x : Ch} {cb : CircRec} {w : Half} {lo hi top : Nat} {i : Instr} {l : Label} {s : State}
    (hu : s.unmarked) (hcb : s.holder b x = .circ cb) (hs : s.seq = .busy i l)
    (hop : (i = .peek b x ∧ l = .p3 w lo ∧ top = cb.h) ∨ (i = .partialPeek b x ∧ l = .r3 w lo hi ∧ top = hi)) :
    ∃ go, exec i s = consume i l cb w lo top s go := by
  rcases hop with ⟨rfl, rfl, rfl⟩ | ⟨rfl, rfl, rfl⟩
  · exact ⟨_, (sequenced_busy hu.1 hu.2 hs _ _).trans (needCirc_circ hcb _)⟩
  · exact ⟨_, (sequenced_busy hu.1 hu.2 hs _ _).trans (needCirc_circ hcb _)⟩

/-- Settles O31: in its window a consumer's read is `ctlLoad` of the element's address, outside it the act is none. -/
theorem consumerReadsItsWindow : Obligations.ConsumerReadsItsWindow := by
  unfold Obligations.ConsumerReadsItsWindow
  intro b x cb w lo hi top k acts i l s hu hcb hs hacts hop n a
  have haddr : halfElemAddr cb w k = a := by cases w <;> simp [a, n, halfElemAddr, elemAddr, Half.start]
  clear_value a
  subst haddr
  obtain ⟨go, hexec⟩ := exec_consume hu hcb hs hop
  rw [hexec, consume_read hacts hs]
  simp only [← touches_iff]
  refine ⟨fun hlo hhi hun ha hm ht => ?_, fun v vs hlo hhi ha hm ht hv => ?_, fun hout => ?_⟩
  · rw [if_pos ⟨hlo, hhi⟩,
      ctlLoad_memory (s := { s with env := { s.env with acts := acts } }) ha hm hun (by simpa using ht), onDone_ok]
    exact goOn_self hs
  · rw [if_pos ⟨hlo, hhi⟩,
      ctlLoad_draw (s := { s with env := { s.env with acts := acts } }) ha hm (.inr ht) hv, onDone_ok]
    exact goOn_self hs
  · rw [if_neg hout]

end Sys2Proof.Machine
end

section
/-! PROOF. Enabled channels stay legal with their engine's current addresses aligned, and only an enabled channel is
stopping (R153, R257, R66). The invariant speaks of one channel's registers and engine at a time, so each lemma is about
the one channel that a change touches. -/
namespace Sys2Proof.Machine
open Sys2Proof

/-! ## The invariant of one channel -/

/-- An address is a multiple of the channel's element size (R153). -/
abbrev ChanRegs.alignedTo (r : ChanRegs) (a : Word) : Prop := a.toNat % 2 ^ r.ccr.psize.toNat = 0

/-- What `State.channelsLegal` says of a channel with registers r and engine e. -/
def ChanRegs.legalWith (r : ChanRegs) (e : Engine) : Prop :=
  (r.ccr.en = true → r.legal ∧ r.alignedTo e.curPa ∧ r.alignedTo e.curMa) ∧ (e.stopping = true → r.ccr.en = true)

variable {b : Blk} {x : Ch} {v : Word} {r : ChanRegs} {e : Engine} {s t : State}

theorem State.channelsLegal.channel (hs : s.channelsLegal) (b : Blk) (x : Ch) :
    (s.regs b x).legalWith (s.engine b x) := hs b x

/-- A disabled channel that is not stopping meets the invariant whatever its registers are. -/
theorem ChanRegs.legalWith_disabled (hen : r.ccr.en = false) (hst : e.stopping = false) : r.legalWith e := by
  simp [ChanRegs.legalWith, hen, hst]

theorem ChanRegs.legalWith.not_stopping (h : r.legalWith e) (hen : r.ccr.en = false) : e.stopping = false := by
  obtain ⟨-, hst⟩ := h
  simpa [hen] using hst

/-- The field update of a CCR write keeps the invariant: the sizes and MEM2MEM change only while EN = 0 (R256). -/
theorem ChanRegs.legalWith.update (h : r.legalWith e) (v : Word) :
    ChanRegs.legalWith { r with ccr := r.ccr.update v } e := by
  cases hen : r.ccr.en
  · exact legalWith_disabled hen (h.not_stopping hen)
  · have hccr : r.ccr.update v = { r.ccr with ie := ieOf v } := by simp [Ccr.update, hen]
    rw [hccr]
    exact h

/-- A change of one channel's registers and engine keeps the invariant of all channels if it keeps that channel's. -/
theorem channelsLegal_setChannel (hs : s.channelsLegal) (h : r.legalWith e) :
    ((s.setRegs b x r).setEngine b x e).channelsLegal := by
  intro c y
  by_cases hc : c = b ∧ y = x
  · obtain ⟨rfl, rfl⟩ := hc
    rw [State.setEngine_regs, State.regs_setRegs_self, State.engine_setEngine_self]
    exact h
  · rw [State.setEngine_regs, State.regs_setRegs_ne s r hc, State.engine_setEngine_ne _ e hc, State.setRegs_engine]
    exact hs c y

theorem channelsLegal_setRegs (hs : s.channelsLegal) (h : r.legalWith (s.engine b x)) :
    (s.setRegs b x r).channelsLegal :=
  have hself : (s.setRegs b x r).setEngine b x (s.engine b x) = s.setRegs b x r := State.setEngine_self _ b x
  hself ▸ channelsLegal_setChannel hs h

/-- The registers of a disabled channel may be anything that leaves it disabled. -/
theorem channelsLegal_setRegs_disabled (hs : s.channelsLegal) (hen : (s.regs b x).ccr.en = false)
    (hr : r.ccr.en = false) : (s.setRegs b x r).channelsLegal :=
  channelsLegal_setRegs hs (ChanRegs.legalWith_disabled hr ((hs.channel b x).not_stopping hen))

theorem channelsLegal_setEngine (hs : s.channelsLegal) (h : (s.regs b x).legalWith e) :
    (s.setEngine b x e).channelsLegal := by
  simpa using channelsLegal_setChannel (b := b) (x := x) hs h

/-! ## Register writes -/

theorem ccrUpdated_channelsLegal (hs : s.channelsLegal) : (ccrUpdated s b x v).channelsLegal :=
  channelsLegal_setRegs hs ((hs.channel b x).update v)

/-- The enable edge checks what the invariant demands, and loads the engine with the addresses it checked (R257). -/
theorem enable_channelsLegal (hs : s.channelsLegal) (h : enable b x s = .ok t) : t.channelsLegal := by
  obtain ⟨hlegal, rfl⟩ := enable_ok h
  have ⟨_, _, _, hpa, hma⟩ := hlegal
  exact channelsLegal_setChannel hs ⟨fun _ => ⟨hlegal, hpa, hma⟩, nofun⟩

/-- The disable request ends an empty channel at once and leaves another stopping, which is enabled (R258). -/
theorem disable_channelsLegal (hs : s.channelsLegal) (hen : (s.regs b x).ccr.en = true)
    (hst : (s.engine b x).stopping = false) : (disable b x s).channelsLegal := by
  unfold disable
  dsimp only
  split
  · exact channelsLegal_setRegs hs (ChanRegs.legalWith_disabled rfl hst)
  · obtain ⟨hlegal, -⟩ := hs.channel b x
    exact channelsLegal_setEngine hs ⟨hlegal, fun _ => hen⟩

theorem wrCcr_channelsLegal (hs : s.channelsLegal) (h : wrCcr b x v s = .ok t ∨ wrCcr b x v s = .error t) :
    t.channelsLegal := by
  have fields : (ccrUpdated s b x v).channelsLegal := ccrUpdated_channelsLegal hs
  rcases h with h | h
  · rcases wrCcr_ok h with ⟨-, -, h⟩ | ⟨hen, -, hst, rfl⟩ | ⟨-, rfl⟩
    · exact enable_channelsLegal fields h
    · exact disable_channelsLegal fields (by simpa using hen) hst
    · exact fields
  · rcases wrCcr_error h with rfl | ⟨r, rfl⟩
    · exact hs
    · exact fields

theorem wrCndtr_channelsLegal (hs : s.channelsLegal) : (s.wrCndtr b x v).channelsLegal := by
  unfold State.wrCndtr
  dsimp only
  split
  · exact hs
  · exact channelsLegal_setRegs hs (hs.channel b x)

/-- CPAR and CMAR are written only while EN = 0 (R262, R264). -/
theorem wrCpar_channelsLegal (hs : s.channelsLegal) (h : wrCpar b x v s = .ok t) : t.channelsLegal := by
  unfold wrCpar at h
  dsimp only at h
  split at h <;> cases h
  next hen => exact channelsLegal_setRegs_disabled hs (by simpa using hen) (by simpa using hen)

theorem wrCmar_channelsLegal (hs : s.channelsLegal) (h : wrCmar b x v s = .ok t) : t.channelsLegal := by
  unfold wrCmar at h
  dsimp only at h
  split at h <;> cases h
  next hen => exact channelsLegal_setRegs_disabled hs (by simpa using hen) (by simpa using hen)

/-- The flags are no part of the invariant. -/
theorem wrIfcr_channelsLegal (hs : s.channelsLegal) : (s.wrIfcr b v).channelsLegal := by
  intro c y
  rw [State.regs_wrIfcr]
  split
  next hc => exact hc ▸ hs.channel b y
  · exact hs c y

/-- The request codes are no part of the invariant. -/
theorem wrCselr_channelsLegal (hs : s.channelsLegal) : (s.wrCselr b v).channelsLegal := by
  intro c y
  rw [State.regs_wrCselr]
  split
  next hc => exact hc ▸ hs.channel b y
  · exact hs c y

/-! ## Instructions -/

theorem Change.channelsLegal {i : Instr} {s₀ : State} (h : Change i s₀ s t) (hs : s.channelsLegal) :
    t.channelsLegal := by
  cases h with
  | ccr _ _ _ _ _ h => exact wrCcr_channelsLegal hs h
  | cndtr => exact wrCndtr_channelsLegal hs
  | cpar _ _ _ _ _ h => exact wrCpar_channelsLegal hs h
  | cmar _ _ _ _ _ h => exact wrCmar_channelsLegal hs h
  | ifcr => exact wrIfcr_channelsLegal hs
  | cselr => exact wrCselr_channelsLegal hs
  | act =>
    obtain ⟨e, he⟩ := State.drawAct_eq s
    rw [he]
    exact hs
  | load _ _ _ _ h =>
    obtain ⟨-, -, e, v, rfl, -⟩ := ctlLoad_ok h
    exact hs
  | refuse | fault | goto | ret | fence | observe | holder | clock | handOut => exact hs

theorem exec_channelsLegal {i : Instr} (hs : s.channelsLegal) (h : exec i s = .next t) : t.channelsLegal := by
  have hc := exec_changes h
  clear h
  induction hc with
  | refl => exact hs
  | tail _ hc ih => exact hc.channelsLegal ih

/-! ## Engines -/

/-- An aligned address advanced by one element is aligned, past the top of the address space too: the element size
divides 2^32 (R14, R357). -/
theorem ChanRegs.alignedTo_advance {a : Word} (h : r.alignedTo a) :
    r.alignedTo (a + BitVec.ofNat 32 r.ccr.elemBytes) := by
  have hdvd : 2 ^ r.ccr.psize.toNat ∣ 2 ^ 32 := Nat.pow_dvd_pow 2 (by omega)
  have hsum : (a.toNat + 2 ^ r.ccr.psize.toNat) % 2 ^ r.ccr.psize.toNat = 0 := by simpa using h
  rw [ChanRegs.alignedTo, BitVec.toNat_add, BitVec.toNat_ofNat, Nat.add_mod_mod, Nat.mod_mod_of_dvd _ hdvd]
  exact hsum

theorem ChanRegs.alignedTo_next {a : Word} (h : r.alignedTo a) (inc : Bool) :
    r.alignedTo (if inc then a + BitVec.ofNat 32 r.ccr.elemBytes else a) := by
  cases inc
  · exact h
  · exact alignedTo_advance h

/-- The element's current addresses: advanced, kept, or loaded again from CPAR and CMAR (R357, R362). -/
theorem elementEngine_aligned (hr : r.legal) (hpa : r.alignedTo e.curPa) (hma : r.alignedTo e.curMa) :
    r.alignedTo (elementEngine r e).curPa ∧ r.alignedTo (elementEngine r e).curMa := by
  obtain ⟨-, -, -, hcpar, hcmar⟩ := hr
  unfold elementEngine
  dsimp only
  split
  · exact ⟨hcpar, hcmar⟩
  · exact ⟨ChanRegs.alignedTo_next hpa _, ChanRegs.alignedTo_next hma _⟩

theorem elementEngine_stopping (r : ChanRegs) (e : Engine) : (elementEngine r e).stopping = false := by
  unfold elementEngine
  dsimp only
  split <;> rfl

/-- A moved element leaves the configuration, CPAR and CMAR alone, and ends a stop in progress (R353, R365). -/
theorem ChanRegs.legalWith.element (h : r.legalWith e) (hen : r.ccr.en = true) (odd : HtOdd) :
    (elementRegs odd e r).legalWith (elementEngine r e) := by
  obtain ⟨hlegal, hpa, hma⟩ := h.1 hen
  exact ⟨fun _ => ⟨hlegal, elementEngine_aligned hlegal hpa hma⟩, by simp [elementEngine_stopping]⟩

/-- The step moves an element, or is a transfer error, which clears EN and ends a stop in progress (R353, R356). -/
theorem elementStep_channelsLegal (hs : s.channelsLegal) (hen : (s.regs b x).ccr.en = true) :
    (elementStep b x s).channelsLegal := by
  unfold elementStep
  dsimp only
  split
  · obtain ⟨m, log, env, hm⟩ := moveElement_eq b x (s.regs b x).ccr.elemBytes s
    rw [hm]
    exact channelsLegal_setChannel (s := { s with mem := m, periphLog := log, env := env }) hs
      ((hs.channel b x).element hen s.htOdd)
  · exact channelsLegal_setChannel hs (ChanRegs.legalWith_disabled rfl rfl)

theorem engineTurn_channelsLegal {lines : List Nat} (hs : s.channelsLegal)
    (h : t = elementTurn b x lines s ∨ t = stopTurn b x s) : t.channelsLegal := by
  rcases h with rfl | rfl
  · unfold elementTurn
    split
    next hon =>
      simp only [elementEnabled, Bool.and_eq_true] at hon
      obtain ⟨⟨⟨-, hen⟩, -⟩, -⟩ := hon
      exact elementStep_channelsLegal hs hen
    · exact hs
  · unfold stopTurn
    split
    · exact channelsLegal_setChannel hs (ChanRegs.legalWith_disabled rfl rfl)
    · exact hs

/-! ## Every step -/

/-- Settles O57: an instruction keeps the invariant by each of its elementary changes, an engine by the step it takes;
nothing else touches a channel. -/
theorem channelsLegalKept : Obligations.ChannelsLegalKept := by
  unfold Obligations.ChannelsLegalKept
  intro s t hs hstep
  obtain ⟨env, ht⟩ := step_taken hstep
  generalize hu : ({ s with env := env } : State) = u at ht
  replace hs : u.channelsLegal := hu ▸ hs
  cases ht with
  | nothing h => exact h ▸ hs
  | word _ h => exact h ▸ hs
  | start _ i rest h => exact exec_channelsLegal (s := { u with prog := rest }) hs h
  | resume i l _ h => exact exec_channelsLegal hs h
  | refusedAccess _ r h => exact h ▸ hs
  | load _ e v h => exact h ▸ hs
  | store _ addrs m h => exact h ▸ hs
  | engine b x lines h => exact engineTurn_channelsLegal hs h

end Sys2Proof.Machine
end

section
/-! PROOF. START, micro-step by micro-step E1 to E5 (R412), and FENCE (R415). -/
namespace Sys2Proof.Machine
open Sys2Proof

/-! ## The enabling write of START -/

/-- The refusals of an enable, one for each demand of R257. -/
def enableRefusals : List RefuseReason := [.reservedSize, .sizeMismatch, .mem2mem, .misaligned]

theorem enable_illegal {b : Blk} {x : Ch} {s : State} (h : ¬(s.regs b x).legal) :
    ∃ r ∈ enableRefusals, enable b x s = .error (s.refuse r) := by
  unfold enable
  dsimp only
  split
  · exact ⟨.reservedSize, by decide, rfl⟩
  next hsize =>
  split
  · exact ⟨.sizeMismatch, by decide, rfl⟩
  next heq =>
  split
  · exact ⟨.mem2mem, by decide, rfl⟩
  next hm2m =>
  split
  · exact ⟨.misaligned, by decide, rfl⟩
  next hal =>
  refine absurd ?_ h
  have ⟨hpa, hma⟩ : aligned (s.regs b x).cpar (s.regs b x).ccr.elemBytes = true ∧
    aligned (s.regs b x).cmar (s.regs b x).ccr.elemBytes = true := by simpa using hal
  exact ⟨fun hp => hsize (.inl hp), by simpa using heq, by simpa using hm2m,
    by simpa [aligned, Ccr.elemBytes] using hpa, by simpa [aligned, Ccr.elemBytes] using hma⟩

section

variable {b : Blk} {x : Ch} {s : State}

/-- EN written as 1 to a disabled channel that is not legal, every other field as it was. -/
theorem wrCcr_startEn_illegal (he : (s.regs b x).ccr.en = false) (hl : ¬(s.regs b x).legal) :
    ∃ r ∈ enableRefusals, wrCcr b x (setBit (s.regs b x).ccr.toWord 0) s = .error (s.refuse r) := by
  rw [wrCcr_enable he (enOf_setBit_zero _)]
  simpa [ccrUpdated] using enable_illegal hl

/-- EN written as 1 to a running channel, every other field as it was, changes nothing. -/
theorem wrCcr_startEn_running (he : (s.regs b x).ccr.en = true) (hst : (s.engine b x).stopping = false) :
    wrCcr b x (setBit (s.regs b x).ccr.toWord 0) s = .ok s := by
  rw [wrCcr_fields (by simp [he]) fun _ => hst]
  simp [ccrUpdated]

/-- EN written as 1 to a stopping channel is refused (R256). -/
theorem wrCcr_stopping {v : Word} (he : (s.regs b x).ccr.en = true) (hst : (s.engine b x).stopping = true)
    (hv : enOf v = true) : wrCcr b x v s = .error (s.refuse .enableWhileStopping) := by
  simp [wrCcr, he, hst, hv]

/-! ## The micro-steps of START (R412) -/

theorem exec_start (b : Blk) (x : Ch) (s : State) : exec (.start b x) s = execStart b x s := rfl

theorem exec_start_e1 (h : s.canUse b x .handle) :
    exec (.start b x) s = .next (s.goto (.start b x) (.e2 (s.regs b x).ccr.toWord)) := by
  obtain ⟨hready, hclk, hown⟩ := h
  rw [exec_start, execStart, sequenced_ready hready, needHandle_handle hown, rdReg_ccr hclk, onRead_ok]
  rfl

variable {c : Word}

theorem exec_start_e2 (hu : s.unmarked) :
    exec (.start b x) (s.goto (.start b x) (.e2 c)) = .next (s.fence.goto (.start b x) (.e3 c)) := by
  rw [exec_start, execStart, sequenced_goto hu.1 hu.2]
  rfl

/-- E3 is the enabling write, and goes on to E4 where it is not refused. -/
theorem exec_start_e3 (hu : s.unmarked) (hclk : s.clk b = true) :
    exec (.start b x) (s.goto (.start b x) (.e3 c)) =
      onDone (wrCcr b x (setBit c 0) (s.goto (.start b x) (.e3 c))) fun u => .next (u.goto (.start b x) .e4) := by
  rw [exec_start, execStart, sequenced_goto hu.1 hu.2]
  simp [wrCcrThen, hclk, goOn]

theorem exec_start_e4 (hu : s.unmarked) (hclk : s.clk b = true) (hen : (s.regs b x).ccr.en = true) :
    exec (.start b x) (s.goto (.start b x) .e4) = .next (s.goto (.start b x) .e5) := by
  rw [exec_start, execStart, sequenced_goto hu.1 hu.2]
  simp [spinEn, hclk, hen, goOn]

theorem exec_start_e5 (hu : s.unmarked) :
    exec (.start b x) (s.goto (.start b x) .e5) = .next (s.fence.ret .unit) := by
  rw [exec_start, execStart, sequenced_goto hu.1 hu.2]
  rfl

/-- E2 to E5 where the write of E3 is not refused and leaves the channel enabled. -/
theorem start_completes {u : State} (hs : s.unmarked) (hu : u.unmarked) (hsclk : s.clk b = true)
    (huclk : u.clk b = true) (hen : (u.regs b x).ccr.en = true)
    (hw : wrCcr b x (setBit c 0) (s.fence.goto (.start b x) (.e3 c)) = .ok (u.goto (.start b x) (.e3 c))) :
    runAlone 4 (.start b x) (s.goto (.start b x) (.e2 c)) = .next (u.fence.ret .unit) := by
  have e3 := exec_start_e3 (b := b) (x := x) (c := c) (s := s.fence) hs hsclk
  rw [hw, onDone_ok, State.goto_goto] at e3
  rw [runAlone_succ (exec_start_e2 hs), runAlone_succ e3, runAlone_succ (exec_start_e4 hu huclk hen),
    runAlone_succ (exec_start_e5 hu), runAlone_zero]

end

/-- Settles O22: E1 reads CCR, E2 fences, and the write of E3 is one of `wrCcr`'s four cases: the enable of a legal
channel, nothing, the refusal of an illegal one, or that of a stopping one. -/
theorem start : Obligations.Start := by
  unfold Obligations.Start
  intro b x s h i r
  have e1 := exec_start_e1 h
  obtain ⟨⟨hf, hr, -⟩, hclk, -⟩ := h
  have hu : s.unmarked := ⟨hf, hr⟩
  -- the state in which E3 writes; its registers and its engine are those of s
  let s2 := s.fence.goto i (.e3 r.ccr.toWord)
  have e2 : exec i (s.goto i (.e2 r.ccr.toWord)) = .next s2 := exec_start_e2 hu
  have e3 := exec_start_e3 (b := b) (x := x) (c := r.ccr.toWord) (s := s.fence) hu hclk
  refine ⟨fun hen hl => ⟨_, e1, ?_⟩, fun hen hst => ⟨_, e1, ?_⟩, fun hen hl => ?_, fun hen hst => ?_⟩
  · have hw := wrCcr_startEn (s := s2) hen hl
    let u := (s.setRegs b x { r with ccr := { r.ccr with en := true } }).setEngine b x
      { curPa := r.cpar, curMa := r.cmar, ndtReload := r.ndt, stopping := false, unseen := [] }
    exact start_completes (u := u.fence) hu hu hclk hclk (by simp [u]) hw
  · exact start_completes (u := s.fence) hu hu hclk hclk hen (wrCcr_startEn_running (s := s2) hen hst)
  · obtain ⟨reason, hmem, hw⟩ := wrCcr_startEn_illegal (s := s2) hen hl
    refine ⟨s2.refuse reason, ?_, rfl, List.mem_map_of_mem (f := some) hmem⟩
    rw [runAlone_succ e1, runAlone_succ e2, runAlone_succ (e3.trans (congrArg (onDone · _) hw)), runAlone_zero]
  · have hw := wrCcr_stopping (s := s2) hen hst (enOf_setBit_zero r.ccr.toWord)
    exact ⟨_, s2, e1, e2, rfl, e3.trans (congrArg (onDone · _) hw)⟩

/-! ## FENCE -/

/-- An operation of one micro-step returns with the sequencer as it was. -/
theorem State.ret_idle {s : State} (h : s.seq = .idle) (r : Result) : s.ret r = { s with result := some r } := by
  rw [State.ret, ← h]

/-- Settles O25: FENCE is one fence and a return. -/
theorem fence : Obligations.Fence := by
  unfold Obligations.Fence
  intro s h
  have hexec : exec .fence s = .next (s.fence.ret .unit) := single_ready h _ _
  obtain ⟨-, -, hidle⟩ := h
  rw [hexec, State.ret_idle (s := s.fence) hidle]
  rfl

end Sys2Proof.Machine
end

section
/-! PROOF. The decoder and the encoder are inverse to each other on the well-formed instructions (R200 to R211), and no
word that decodes is reserved, so a reserved one is refused (R209). Both say something of every answer of the decoder:
`Answers P`, with one rule for each check that the decoder makes. -/
namespace Sys2Proof

/-! ## The checks of R209 on the fields of an encoded word -/

@[simp] theorem needCh_bits (x : Ch) (k : Ch → Decoded) : needCh x.bits k = k x := by simp [needCh]

@[simp] theorem needEvent_sel (ev : Event) (k : Event → Decoded) : needEvent ev.sel k = k ev := by cases ev <;> rfl

@[simp] theorem needFlag_sel (f : Flag) (k : Flag → Decoded) : needFlag f.sel k = k f := by cases f <;> rfl

@[simp] theorem size_of_sel (pl size : BitVec 2) : (pl ++ size).extractLsb' 0 2 = size := by
  rw [BitVec.extractLsb'_append_eq_of_add_le (by decide), BitVec.extractLsb'_eq_self]

@[simp] theorem priority_of_sel (pl size : BitVec 2) : (pl ++ size).extractLsb' 2 2 = pl := by
  rw [BitVec.extractLsb'_append_eq_of_le (by decide), BitVec.extractLsb'_eq_self]

@[simp] theorem needSize_sel {size : BitVec 2} (h : sizeCodeOk size = true) (pl : BitVec 2)
    (k : BitVec 2 → BitVec 2 → Decoded) : needSize (pl ++ size) k = k size pl := by
  simp [needSize, h]

@[simp] theorem zeroCh_zero (k : Decoded) : zeroCh 0#3 k = k := rfl

@[simp] theorem zeroSel_zero (k : Decoded) : zeroSel 0#4 k = k := rfl

@[simp] theorem zeroImm_zero (k : Decoded) : zeroImm 0#16 k = k := rfl

@[simp] theorem needImm_true (k : Decoded) : needImm true k = k := rfl

@[simp] theorem take1_cons (k : Word → List Word → Decoded) (v : Word) (rest : List Word) :
    take1 k (v :: rest) = k v rest := rfl

@[simp] theorem take2_cons (k : Word → Word → List Word → Decoded) (v1 v2 : Word) (rest : List Word) :
    take2 k (v1 :: v2 :: rest) = k v1 v2 rest := rfl

@[simp] theorem take3_cons (k : Word → Word → Word → List Word → Decoded) (v1 v2 v3 : Word) (rest : List Word) :
    take3 k (v1 :: v2 :: v3 :: rest) = k v1 v2 v3 rest := rfl

/-! ## Decoding an encoded instruction -/

theorem decode_encodeRead (b : Blk) (r : Reg) (rest : List Word) :
    decode (encodeRead b r ++ rest) = .ok (readInstr b r, rest) := by
  simp [encodeRead, decode, decodeBus]

theorem decode_encodeWrite (b : Blk) (v : Word) (r : Reg) (rest : List Word) :
    decode (encodeWrite b v r ++ rest) = .ok (writeInstr b v r, rest) := by
  simp [encodeWrite, decode, decodeBus]

theorem decode_cmdHead (op : BitVec 6) (ch : BitVec 3) (blk : BitVec 1) (sel : BitVec 4) (imm : BitVec 16)
    (rest : List Word) :
    decode (cmdHead op ch blk sel imm :: rest) = decodeCmd (cmdHead op ch blk sel imm) rest := by
  simp [decode]

/-- The head word of an op on a channel alone passes the checks of `plainOp`. -/
@[simp] theorem plainOp_cmdHead (op : BitVec 6) (x : Ch) (b : Blk) (rest : List Word) (mk : Blk → Ch → Instr) :
    plainOp (cmdHead op x.bits b.bit 0#4 0#16) rest mk = .ok (mk b x, rest) := by
  simp [plainOp]

/-- Settles O5: a BUS instruction by its direction, a CMD instruction by its op. -/
theorem decodeOfEncode : Obligations.DecodeOfEncode := by
  unfold Obligations.DecodeOfEncode
  intro i rest h
  cases i with
  | rdIsr b | rdIfcr b | rdCselr b
  | rdCcr1 b | rdCcr2 b | rdCcr3 b | rdCcr4 b | rdCcr5 b | rdCcr6 b | rdCcr7 b
  | rdCndtr1 b | rdCndtr2 b | rdCndtr3 b | rdCndtr4 b | rdCndtr5 b | rdCndtr6 b | rdCndtr7 b
  | rdCpar1 b | rdCpar2 b | rdCpar3 b | rdCpar4 b | rdCpar5 b | rdCpar6 b | rdCpar7 b
  | rdCmar1 b | rdCmar2 b | rdCmar3 b | rdCmar4 b | rdCmar5 b | rdCmar6 b | rdCmar7 b =>
    exact decode_encodeRead b _ rest
  | wrIsr b v | wrIfcr b v | wrCselr b v
  | wrCcr1 b v | wrCcr2 b v | wrCcr3 b v | wrCcr4 b v | wrCcr5 b v | wrCcr6 b v | wrCcr7 b v
  | wrCndtr1 b v | wrCndtr2 b v | wrCndtr3 b v | wrCndtr4 b v | wrCndtr5 b v | wrCndtr6 b v | wrCndtr7 b v
  | wrCpar1 b v | wrCpar2 b v | wrCpar3 b v | wrCpar4 b v | wrCpar5 b v | wrCpar6 b v | wrCpar7 b v
  | wrCmar1 b v | wrCmar2 b v | wrCmar3 b v | wrCmar4 b v | wrCmar5 b v | wrCmar6 b v | wrCmar7 b v =>
    exact decode_encodeWrite b v _ rest
  | split | fence | listen | unlisten | status | clearFlags | clearFlag | remaining | setPaddr | setMaddr | setCount
  | start | stop | getPaddr | getMaddr | readableHalf | peek | partialPeek | answerIsr | isDone | wait | terminate
  | xpeek | restart =>
    simp [encode, decode_cmdHead, decodeCmd]
  | selectRequest | configure | circRead | readExact | writeAll =>
    rw [Instr.wellFormed] at h
    simp [encode, decode_cmdHead, decodeCmd, h]

/-! ## What a check of R209 that passes says of its field -/

/-- Where a decoding answer is an instruction and the words after it, P holds of them. -/
def Answers (P : Instr → List Word → Prop) (d : Decoded) : Prop := ∀ i rest, d = .ok (i, rest) → P i rest

section

variable {P : Instr → List Word → Prop}

@[simp] theorem answers_ok (i : Instr) (rest : List Word) : Answers P (.ok (i, rest)) ↔ P i rest :=
  ⟨fun h => h i rest rfl, fun h j rest' hj => by cases hj; exact h⟩

@[simp] theorem answers_error (e : DecodeError) : Answers P (.error e) := fun _ _ h => by cases h

/-- How the decoder puts a check in front of what follows it. -/
theorem answers_ite (p : Prop) [Decidable p] (k : Decoded) (e : DecodeError) :
    Answers P (if p then k else .error e) ↔ (p → Answers P k) := by
  by_cases hp : p <;> simp [hp]

@[simp] theorem answers_zeroCh (ch : BitVec 3) (k : Decoded) :
    Answers P (zeroCh ch k) ↔ (ch = 0#3 → Answers P k) := answers_ite _ _ _

@[simp] theorem answers_zeroSel (sel : BitVec 4) (k : Decoded) :
    Answers P (zeroSel sel k) ↔ (sel = 0#4 → Answers P k) := answers_ite _ _ _

@[simp] theorem answers_zeroImm (imm : BitVec 16) (k : Decoded) :
    Answers P (zeroImm imm k) ↔ (imm = 0#16 → Answers P k) := answers_ite _ _ _

@[simp] theorem answers_needImm (ok : Bool) (k : Decoded) :
    Answers P (needImm ok k) ↔ (ok = true → Answers P k) := answers_ite _ _ _

@[simp] theorem answers_needCh (ch : BitVec 3) (k : Ch → Decoded) :
    Answers P (needCh ch k) ↔ ∀ x, ch = x.bits → Answers P (k x) := by
  constructor
  · rintro h x rfl
    simpa using h
  · intro h
    unfold needCh
    split
    next x hx => exact h x (chOf_eq_some hx)
    next => exact answers_error _

@[simp] theorem answers_needEvent (sel : BitVec 4) (k : Event → Decoded) :
    Answers P (needEvent sel k) ↔ ∀ ev, sel = ev.sel → Answers P (k ev) := by
  constructor
  · rintro h ev rfl
    simpa using h
  · intro h
    unfold needEvent
    split
    next hs => exact h .tc (BitVec.eq_of_toNat_eq hs)
    next hs => exact h .ht (BitVec.eq_of_toNat_eq hs)
    next hs => exact h .te (BitVec.eq_of_toNat_eq hs)
    next => exact answers_error _

@[simp] theorem answers_needFlag (sel : BitVec 4) (k : Flag → Decoded) :
    Answers P (needFlag sel k) ↔ ∀ f, sel = f.sel → Answers P (k f) := by
  constructor
  · rintro h f rfl
    simpa using h
  · intro h
    unfold needFlag
    split
    next hs => exact h .tc (BitVec.eq_of_toNat_eq hs)
    next hs => exact h .ht (BitVec.eq_of_toNat_eq hs)
    next hs => exact h .te (BitVec.eq_of_toNat_eq hs)
    next hs => exact h .gif (BitVec.eq_of_toNat_eq hs)
    next => exact answers_error _

@[simp] theorem answers_needSize (sel : BitVec 4) (k : BitVec 2 → BitVec 2 → Decoded) :
    Answers P (needSize sel k) ↔
      ∀ size pl, sel = pl ++ size → sizeCodeOk size = true → Answers P (k size pl) := by
  constructor
  · rintro h size pl rfl hs
    simpa [hs] using h
  · intro h
    exact (answers_ite _ _ _).2 (h _ _ (BitVec.extractLsb'_append_extractLsb' (w := 2) (len := 2)).symm)

@[simp] theorem answers_take1 (k : Word → List Word → Decoded) (ops : List Word) :
    Answers P (take1 k ops) ↔ ∀ v rest, ops = v :: rest → Answers P (k v rest) := by
  rcases ops with - | ⟨v, rest⟩ <;> simp [take1]

@[simp] theorem answers_take2 (k : Word → Word → List Word → Decoded) (ops : List Word) :
    Answers P (take2 k ops) ↔ ∀ v1 v2 rest, ops = v1 :: v2 :: rest → Answers P (k v1 v2 rest) := by
  rcases ops with - | ⟨v1, - | ⟨v2, rest⟩⟩ <;> simp [take2]

@[simp] theorem answers_take3 (k : Word → Word → Word → List Word → Decoded) (ops : List Word) :
    Answers P (take3 k ops) ↔ ∀ v1 v2 v3 rest, ops = v1 :: v2 :: v3 :: rest → Answers P (k v1 v2 v3 rest) := by
  rcases ops with - | ⟨v1, - | ⟨v2, - | ⟨v3, rest⟩⟩⟩
  case cons.cons.cons => exact ⟨fun h _ _ _ _ he => by cases he; exact h, fun h => h _ _ _ _ rfl⟩
  all_goals simp [take3]

@[simp] theorem answers_plainOp (w : Word) (rest : List Word) (mk : Blk → Ch → Instr) :
    Answers P (plainOp w rest mk) ↔
      ∀ x, cmdCh w = x.bits → cmdSel w = 0#4 → cmdImm w = 0#16 → Answers P (.ok (mk (blkOf (cmdBlk w)) x, rest)) := by
  simp only [plainOp, answers_needCh, answers_zeroSel, answers_zeroImm]

theorem regOfOff_eq_some {v : BitVec 8} {r : Reg} (h : regOfOff v = some r) : v = r.off := by
  unfold regOfOff at h
  split at h <;> cases h <;> exact BitVec.eq_of_toNat_eq ‹_›

theorem answers_decodeBus {w : Word} {rest : List Word}
    (read : ∀ r, busZero w = 0#20 → busOff w = r.off → busW w = 0#1 → P (readInstr (blkOf (busBlk w)) r) rest)
    (write : ∀ r, busZero w = 0#20 → busOff w = r.off → busW w = 1#1 → ∀ v rest', rest = v :: rest' →
      P (writeInstr (blkOf (busBlk w)) v r) rest') :
    Answers P (decodeBus w rest) := by
  unfold decodeBus
  split
  next => exact answers_error _
  next hz =>
  split
  next => exact answers_error _
  next =>
  split
  next => exact answers_error _
  next r hr =>
  have hoff := regOfOff_eq_some hr
  split
  next hw => simpa using read r (not_not.1 hz) hoff hw
  next hw => simpa using write r (not_not.1 hz) hoff ((BitVec.eq_zero_or_eq_one _).resolve_left hw)

theorem answers_decode {w : Word} {rest : List Word} (bus : wordClass w = 0#2 → Answers P (decodeBus w rest))
    (cmd : wordClass w = 1#2 → Answers P (decodeCmd w rest)) : Answers P (decode (w :: rest)) := by
  rw [decode]
  split
  next h => exact bus h
  next =>
  split
  next h => exact cmd h
  next => exact answers_error _

end

/-! ## Words that decode are the encoding of their instruction -/

/-- The program ws is the encoding of the well-formed instruction i and the words rest. -/
def EncodesAs (ws : List Word) (i : Instr) (rest : List Word) : Prop :=
  ws = encode i ++ rest ∧ i.wellFormed = true

/-- A word is its BUS fields. -/
theorem busFields_append (w : Word) : wordClass w ++ busZero w ++ busBlk w ++ busW w ++ busOff w = w := by
  rw [wordClass, busZero, BitVec.extractLsb'_append_extractLsb'_eq_extractLsb' (by rfl),
    busBlk, BitVec.extractLsb'_append_extractLsb'_eq_extractLsb' (by rfl),
    busW, BitVec.extractLsb'_append_extractLsb'_eq_extractLsb' (by rfl),
    busOff, BitVec.extractLsb'_append_extractLsb'_eq_extractLsb' (by rfl)]
  exact BitVec.extractLsb'_eq_self

theorem busHead_fields {w : Word} {r : Reg} (hc : wordClass w = 0#2) (hz : busZero w = 0#20) (ho : busOff w = r.off) :
    busHead (blkOf (busBlk w)) (busW w) r = w := by
  rw [busHead, bit_blkOf, ← hc, ← hz, ← ho, busFields_append]

theorem encode_readInstr (b : Blk) (r : Reg) :
    encode (readInstr b r) = encodeRead b r ∧ (readInstr b r).wellFormed = true := by
  cases r with
  | isr | ifcr | cselr => exact ⟨rfl, rfl⟩
  | ccr x | cndtr x | cpar x | cmar x => cases x <;> exact ⟨rfl, rfl⟩

theorem encode_writeInstr (b : Blk) (v : Word) (r : Reg) :
    encode (writeInstr b v r) = encodeWrite b v r ∧ (writeInstr b v r).wellFormed = true := by
  cases r with
  | isr | ifcr | cselr => exact ⟨rfl, rfl⟩
  | ccr x | cndtr x | cpar x | cmar x => cases x <;> exact ⟨rfl, rfl⟩

theorem encodesAs_decodeBus {w : Word} (hc : wordClass w = 0#2) (rest : List Word) :
    Answers (EncodesAs (w :: rest)) (decodeBus w rest) := by
  refine answers_decodeBus (fun r hz ho hw => ?_) (fun r hz ho hw v rest' hv => ?_)
  all_goals
    have hfields := busHead_fields hc hz ho
    rw [hw] at hfields
  · simp [EncodesAs, encode_readInstr, encodeRead, hfields]
  · simp [EncodesAs, encode_writeInstr, encodeWrite, hfields, hv]

/-- Each op asks of the other fields what its encoding has in them. -/
theorem encodesAs_decodeCmd {w : Word} (hc : wordClass w = 1#2) (rest : List Word) :
    Answers (EncodesAs (w :: rest)) (decodeCmd w rest) := by
  obtain ⟨op, ch, blk, sel, imm, rfl⟩ : ∃ op ch blk sel imm, w = cmdHead op ch blk sel imm :=
    ⟨_, _, _, _, _, (cmdHead_fields w hc).symm⟩
  simp only [decodeCmd, cmdOp_cmdHead, cmdCh_cmdHead, cmdBlk_cmdHead, cmdSel_cmdHead, cmdImm_cmdHead]
  -- the op is its number n, which each row of the table of R208 then fixes
  obtain ⟨n, hn⟩ : ∃ n, op.toNat = n := ⟨_, rfl⟩
  obtain rfl : op = BitVec.ofNat 6 n := by simp [← hn]
  rw [hn]
  clear hn hc
  split <;> simp +contextual [EncodesAs, encode, Instr.wellFormed, answers_ite]

/-- Settles O6: each check that the decoder makes before it answers an instruction is what the encoding needs. -/
theorem encodeOfDecode : Obligations.EncodeOfDecode := by
  unfold Obligations.EncodeOfDecode
  intro ws i rest h
  cases ws with
  | nil => cases h
  | cons w ops => exact answers_decode (encodesAs_decodeBus · ops) (encodesAs_decodeCmd · ops) i rest h

/-! ## Reserved words (R209) -/

/-- What R209 refuses in a word of class BUS, with the words after it. -/
def BusReserved (w : Word) (rest : List Word) : Prop :=
  let off := (busOff w).toNat
  busZero w ≠ 0#20 ∨ off % 4 ≠ 0 ∨ off ∈ [0x18, 0x2C, 0x40, 0x54, 0x68, 0x7C, 0x90] ∨ (0x94 ≤ off ∧ off ≤ 0xA4) ∨
    0xAC ≤ off ∨ (w.getLsbD 8 = true ∧ rest = [])

/-- What R209 refuses in a word of class CMD, with the words after it. -/
def CmdReserved (w : Word) (rest : List Word) : Prop :=
  let op := (cmdOp w).toNat
  let ch := (cmdCh w).toNat
  let sel := (cmdSel w).toNat
  let imm := (cmdImm w).toNat
  (0x15 ≤ op ∧ op ≤ 0x1F) ∨ (0x27 ≤ op ∧ op ≤ 0x3E) ∨
    (op ≠ 0x00 ∧ op ≠ 0x3F ∧ ch = 0) ∨ ((op = 0x00 ∨ op = 0x3F) ∧ ch ≠ 0) ∨
    (op = 0x3F ∧ w.getLsbD 20 = true) ∨
    ((op = 0x01 ∨ op = 0x02) ∧ 3 ≤ sel) ∨ (op = 0x05 ∧ 4 ≤ sel) ∨
    ((op = 0x10 ∨ op = 0x20 ∨ op = 0x21) ∧ sel % 4 = 3) ∨
    (op ∉ [0x01, 0x02, 0x05, 0x10, 0x20, 0x21] ∧ sel ≠ 0) ∨
    (op = 0x07 ∧ 16 ≤ imm) ∨ (op = 0x0B ∧ 2048 ≤ imm) ∨
    (op ∉ [0x07, 0x0A, 0x0B, 0x10, 0x20, 0x21] ∧ imm ≠ 0) ∨
    ((op = 0x08 ∨ op = 0x09) ∧ rest = []) ∨ (op = 0x10 ∧ rest.length < 2) ∨
    ((op = 0x20 ∨ op = 0x21) ∧ rest.length < 3)

/-- What R209 refuses in a head word, with the words after it. -/
def HeadReserved (w : Word) (rest : List Word) : Prop :=
  (wordClass w).toNat = 2 ∨ (wordClass w).toNat = 3 ∨ ((wordClass w).toNat = 0 ∧ BusReserved w rest) ∨
    ((wordClass w).toNat = 1 ∧ CmdReserved w rest)

theorem off_notReserved (r : Reg) :
    r.off.toNat % 4 = 0 ∧ r.off.toNat ∉ [0x18, 0x2C, 0x40, 0x54, 0x68, 0x7C, 0x90] ∧
      ¬(0x94 ≤ r.off.toNat ∧ r.off.toNat ≤ 0xA4) ∧ ¬0xAC ≤ r.off.toNat := by
  cases r with
  | isr | ifcr | cselr => decide
  | ccr x | cndtr x | cpar x | cmar x => cases x <;> decide

theorem bit8_of_busW {w : Word} (h : busW w = 0#1) : w[8] = false := by
  simpa [busW] using congrArg (·.getLsbD 0) h

theorem not_busReserved_decodeBus (w : Word) (rest : List Word) :
    Answers (fun _ _ => ¬BusReserved w rest) (decodeBus w rest) := by
  refine answers_decodeBus (fun r hz ho hw => ?_) (fun r hz ho hw v rest' hv => ?_)
  all_goals
    obtain ⟨halign, hgap, htail, hend⟩ := off_notReserved r
    unfold BusReserved
    rw [ho]
  · simp [hz, halign, hgap, htail, hend, bit8_of_busW hw]
  · simp [hz, halign, hgap, htail, hend, hv]

theorem bit20_of_cmdBlk {w : Word} (h : cmdBlk w = 0#1) : w[20] = false := by
  simpa [cmdBlk] using congrArg (·.getLsbD 0) h

theorem bits_toNat_ne_zero (x : Ch) : x.bits.toNat ≠ 0 := by cases x <;> decide

theorem event_sel_lt (ev : Event) : ev.sel.toNat < 3 := by cases ev <;> decide

theorem flag_sel_lt (f : Flag) : f.sel.toNat < 4 := by cases f <;> decide

theorem size_of_sel_ne_three {size : BitVec 2} (h : sizeCodeOk size = true) (pl : BitVec 2) :
    (pl ++ size).toNat % 4 ≠ 3 := by
  revert size pl
  decide

/-- The bits of an immediate from k up are zero. -/
theorem toNat_lt_of_high_zero {imm : BitVec 16} {k n : Nat} (hk : k + n = 16) (h : imm.extractLsb' k n = 0#n) :
    imm.toNat < 2 ^ k := by
  have hhigh : imm.toNat / 2 ^ k < 2 ^ n := Nat.div_lt_of_lt_mul (by rw [← pow_add, hk]; exact imm.isLt)
  have hzero := congrArg BitVec.toNat h
  rw [BitVec.extractLsb'_toNat, Nat.shiftRight_eq_div_pow, Nat.mod_eq_of_lt hhigh, BitVec.toNat_zero] at hzero
  exact (Nat.div_eq_zero_iff_lt (Nat.two_pow_pos k)).1 hzero

theorem imm_lt_of_requestImmOk {imm : BitVec 16} (h : requestImmOk imm = true) : imm.toNat < 16 :=
  toNat_lt_of_high_zero (k := 4) rfl (eq_of_beq h)

theorem imm_lt_of_configImmOk {imm : BitVec 16} (h : configImmOk imm = true) : imm.toNat < 2048 :=
  toNat_lt_of_high_zero (k := 11) rfl (eq_of_beq h)

/-- The checks of each op leave no condition that R209 puts on its fields and its operand words. -/
theorem not_cmdReserved_decodeCmd (w : Word) (rest : List Word) :
    Answers (fun _ _ => ¬CmdReserved w rest) (decodeCmd w rest) := by
  unfold decodeCmd
  split <;> simp +contextual [CmdReserved, *, answers_ite, bit20_of_cmdBlk, bits_toNat_ne_zero, event_sel_lt,
    flag_sel_lt, size_of_sel_ne_three, imm_lt_of_requestImmOk, imm_lt_of_configImmOk]

theorem not_headReserved_decode (w : Word) (rest : List Word) :
    Answers (fun _ _ => ¬HeadReserved w rest) (decode (w :: rest)) := by
  refine answers_decode (fun hc i rest' h => ?_) (fun hc i rest' h => ?_)
  · simpa [HeadReserved, hc] using not_busReserved_decodeBus w rest i rest' h
  · simpa [HeadReserved, hc] using not_cmdReserved_decodeCmd w rest i rest' h

theorem decode_error_of_headReserved {w : Word} {rest : List Word} (h : HeadReserved w rest) :
    ∃ e, decode (w :: rest) = .error e := by
  cases hd : decode (w :: rest) with
  | error e => exact ⟨e, rfl⟩
  | ok p => exact absurd h (not_headReserved_decode w rest p.1 p.2 hd)

/-- Settles O7: the conditions are those of `HeadReserved`, and the controller's turn refuses a word that does not
decode. -/
theorem reservedWordsRefused : Obligations.ReservedWordsRefused := by
  unfold Obligations.ReservedWordsRefused
  intro w rest cls off op ch sel imm h
  obtain ⟨e, he⟩ := decode_error_of_headReserved (w := w) (rest := rest) h
  refine ⟨⟨e, he⟩, fun s s' hready hprog hturn => ?_⟩
  obtain ⟨-, -, refusesWord, -⟩ := Machine.stepOfEveryOtherTurn s s'
  exact refusesWord w rest e hready hturn hprog (hprog ▸ he)

end Sys2Proof
end

section
/-! PROOF. The BUS instructions (R250 to R269): a read answers the register's view and changes nothing, a write is the
one register transaction and returns nothing. -/
namespace Sys2Proof.Machine
open Sys2Proof

theorem State.ready.unmarked {s : State} (h : s.ready) : s.unmarked := ⟨h.1, h.2.1⟩

theorem State.ready.idle {s : State} (h : s.ready) : s.seq = .idle := h.2.2

/-! ## Reads -/

section

variable {b : Blk} {s : State}

/-- A read that is no observation (R162) changes only the result. -/
theorem exec_readInstr_quiet (h : s.ready) (hclk : s.clk b = true) {r : Reg} (hr : Reg.observes r = false) :
    exec (readInstr b r) s = .next { s with result := some (.word (regValue s b r)) } := by
  rw [exec_readInstr, busRead_ready h hclk, hr, Bool.or_false]

/-- A read of a flag or a count is noted as an observation (R162). -/
theorem exec_readInstr_observing (h : s.ready) (hclk : s.clk b = true) {r : Reg} (hr : Reg.observes r = true) :
    exec (readInstr b r) s =
      .next { s with unfencedRead := true, result := some (.word (regValue s b r)) } := by
  rw [exec_readInstr, busRead_ready h hclk, hr, Bool.or_true]

end

/-- Settles O8: ISR is the word of the channels' groups, and each group is GIF, TCIF, HTIF, TEIF. -/
theorem readIsr : Obligations.ReadIsr := by
  unfold Obligations.ReadIsr
  intro b s h hclk
  refine ⟨isrWord (s.chan.get b), exec_readInstr_observing (r := .isr) h hclk rfl, fun x => ?_, groupsWord_reserved _⟩
  exact ⟨isrWord_gif _ x, isrWord_tcif _ x, isrWord_htif _ x, isrWord_teif _ x⟩

/-- Settles O9: each register's view, field by field. -/
theorem readRegisters : Obligations.ReadRegisters := by
  unfold Obligations.ReadRegisters
  intro b s h hclk
  refine ⟨exec_readInstr_quiet (r := .ifcr) h hclk rfl, fun x => ?_, fun x => ?_, fun x => ?_, fun x => ?_, ?_⟩
  · exact ⟨(s.regs b x).ccr.toWord, exec_readInstr_quiet (r := .ccr x) h hclk rfl, enOf_toWord _, ieOf_toWord _,
      cfgOf_toWord _, toWord_reserved _⟩
  · exact exec_readInstr_observing h hclk rfl
  · exact exec_readInstr_quiet h hclk rfl
  · exact exec_readInstr_quiet h hclk rfl
  · exact ⟨cselrWord (s.chan.get b), exec_readInstr_quiet (r := .cselr) h hclk rfl,
      groupOf_groupsWord fun x => (s.regs b x).cxs, groupsWord_reserved _⟩

/-! ## Writes -/

section

variable {b : Blk} {s t : State} {v : Word} {r : Reg}

/-- A BUS write whose transaction is done returns nothing. -/
theorem exec_writeInstr_ok (h : s.ready) (hw : wrReg b r v s = .ok t) :
    exec (writeInstr b v r) s = .next (t.ret .nothing) := by
  rw [exec_writeInstr, busWrite_ready h, hw, onDone_ok, retOp]

/-- A BUS write whose transaction is refused leaves the state of the refusal. -/
theorem exec_writeInstr_error (h : s.ready) (hw : wrReg b r v s = .error t) :
    exec (writeInstr b v r) s = .next t := by
  rw [exec_writeInstr, busWrite_ready h, hw, onDone_error]

end

theorem ChanRegs.clearFlags_groupOf (r : ChanRegs) (v : Word) (x : Ch) :
    r.clearFlags (groupOf v x) =
      { r with
        tcif := r.tcif && !v.getLsbD x.group && !v.getLsbD (x.group + 1)
        htif := r.htif && !v.getLsbD x.group && !v.getLsbD (x.group + 2)
        teif := r.teif && !v.getLsbD x.group && !v.getLsbD (x.group + 3) } := by
  simp only [ChanRegs.clearFlags, getLsbD_groupOf, Nat.reduceLT, Nat.add_zero, Bool.not_or, Bool.and_assoc]

/-- Settles O10: WR IFCR clears in each channel what the channel's group of the word names. -/
theorem writeIsrAndIfcr : Obligations.WriteIsrAndIfcr := by
  unfold Obligations.WriteIsrAndIfcr
  intro b v s h hclk
  refine ⟨?_, (s.wrIfcr b v).ret .nothing, exec_writeInstr_ok (r := .ifcr) h (wrReg_on hclk .ifcr v), ?_, fun x => ?_,
    fun c x hc => ?_⟩
  · rw [← State.ret_idle h.idle]
    exact exec_writeInstr_ok (r := .isr) h (wrReg_on hclk .isr v)
  · exact State.ret_idle (s := s.wrIfcr b v) h.idle _
  · rw [State.ret_regs, State.regs_wrIfcr, if_pos rfl]
    exact ChanRegs.clearFlags_groupOf _ v x
  · rw [State.ret_regs, State.regs_wrIfcr, if_neg hc]

/-! ### WR CCR (R256 to R258) -/

theorem Ccr.update_disabled {c : Ccr} (h : c.en = false) (v : Word) : c.update v = ⟨false, ieOf v, cfgOf v⟩ := by
  simp [Ccr.update, h]

theorem Ccr.update_enabled {c : Ccr} (h : c.en = true) (v : Word) : c.update v = { c with ie := ieOf v } := by
  simp [Ccr.update, h]

section

variable {b : Blk} {x : Ch} {v : Word} {s t : State}

/-- EN = 0 written to a stopping channel only updates the fields. -/
theorem wrCcr_clearEn_stopping (he : (s.regs b x).ccr.en = true) (hst : (s.engine b x).stopping = true)
    (hv : enOf v = false) : wrCcr b x v s = .ok (ccrUpdated s b x v) := by
  simp [wrCcr, he, hst, hv]

theorem wrReg_ccr (hclk : s.clk b = true) (v : Word) : wrReg b (.ccr x) v s = wrCcr b x v s := wrReg_on hclk _ v

theorem exec_wrCcr_ok (h : s.ready) (hclk : s.clk b = true) (hw : wrCcr b x v s = .ok t) :
    exec (writeInstr b v (.ccr x)) s = .next (t.ret .nothing) :=
  exec_writeInstr_ok h ((wrReg_ccr hclk v).trans hw)

theorem exec_wrCcr_error (h : s.ready) (hclk : s.clk b = true) (hw : wrCcr b x v s = .error t) :
    exec (writeInstr b v (.ccr x)) s = .next t :=
  exec_writeInstr_error h ((wrReg_ccr hclk v).trans hw)

/-! The checks of an enable in the rule's order (R257). -/

theorem enable_reservedSize (h : (s.regs b x).ccr.psize = 3#2 ∨ (s.regs b x).ccr.msize = 3#2) :
    enable b x s = .error (s.refuse .reservedSize) := by
  simp [enable, h]

theorem enable_sizeMismatch (hp : (s.regs b x).ccr.psize ≠ 3#2) (hm : (s.regs b x).ccr.msize ≠ 3#2)
    (h : (s.regs b x).ccr.psize ≠ (s.regs b x).ccr.msize) : enable b x s = .error (s.refuse .sizeMismatch) := by
  simp [enable, hp, hm, h]

theorem enable_mem2mem (hp : (s.regs b x).ccr.psize ≠ 3#2) (heq : (s.regs b x).ccr.psize = (s.regs b x).ccr.msize)
    (h : (s.regs b x).ccr.mem2mem = true) : enable b x s = .error (s.refuse .mem2mem) := by
  simp [enable, hp, ← heq, h]

theorem enable_misaligned (hp : (s.regs b x).ccr.psize ≠ 3#2) (heq : (s.regs b x).ccr.psize = (s.regs b x).ccr.msize)
    (hm : (s.regs b x).ccr.mem2mem = false)
    (h : ¬((s.regs b x).cpar.toNat % 2 ^ (s.regs b x).ccr.psize.toNat = 0 ∧
      (s.regs b x).cmar.toNat % 2 ^ (s.regs b x).ccr.psize.toNat = 0)) :
    enable b x s = .error (s.refuse .misaligned) := by
  have hal : (aligned (s.regs b x).cpar (s.regs b x).ccr.elemBytes &&
      aligned (s.regs b x).cmar (s.regs b x).ccr.elemBytes) = false := by
    simpa [aligned, Ccr.elemBytes] using h
  simp [enable, hp, ← heq, hm, hal]

end

/-- Settles O11: EN unchanged and nothing stopping, EN = 0 during a stop, EN = 1 during a stop. -/
theorem writeCcrWithoutEdge : Obligations.WriteCcrWithoutEdge := by
  unfold Obligations.WriteCcrWithoutEdge
  intro b x v s h hclk r i
  refine ⟨fun he hv => ?_, fun he hedge => ?_, fun he hst hv => ?_⟩
  · have hw := wrCcr_fields (s := s) (he.trans hv.symm) fun hen => absurd hen (Bool.eq_false_iff.1 he)
    rw [ccrUpdated, Ccr.update_disabled he] at hw
    exact exec_wrCcr_ok h hclk hw
  · have hw : wrCcr b x v s = .ok (ccrUpdated s b x v) := by
      cases hst : (s.engine b x).stopping
      · exact wrCcr_fields (he.trans (hedge.1 hst).symm) fun _ => hst
      · exact wrCcr_clearEn_stopping he hst
          (Bool.eq_false_iff.2 fun hv => Bool.false_ne_true ((hedge.2 hv).symm.trans hst))
    rw [ccrUpdated, Ccr.update_enabled he] at hw
    exact exec_wrCcr_ok h hclk hw
  · exact exec_wrCcr_error h hclk (wrCcr_stopping he hst hv)

/-! The fields of a CCR value that an enable checks (R56). -/

theorem extractLsb'_cfgOf (v : Word) {k n : Nat} (h : k + n ≤ 11) :
    (cfgOf v).extractLsb' k n = v.extractLsb' (4 + k) n := by
  apply BitVec.eq_of_getLsbD_eq
  intro j hj
  have hk : k + j < 11 := by omega
  simp only [cfgOf, BitVec.getLsbD_extractLsb', hj, hk, decide_true, Bool.true_and, Nat.add_assoc]

theorem cfgOf_psize {en : Bool} {ie : BitVec 3} (v : Word) : (Ccr.mk en ie (cfgOf v)).psize = v.extractLsb' 8 2 :=
  extractLsb'_cfgOf v (by decide)

theorem cfgOf_msize {en : Bool} {ie : BitVec 3} (v : Word) : (Ccr.mk en ie (cfgOf v)).msize = v.extractLsb' 10 2 :=
  extractLsb'_cfgOf v (by decide)

theorem cfgOf_mem2mem {en : Bool} {ie : BitVec 3} (v : Word) : (Ccr.mk en ie (cfgOf v)).mem2mem = v.getLsbD 14 := by
  simp [Ccr.mem2mem, cfgOf]

/-- Settles O12: the write is `enable` of the channel with its fields updated, and that makes one check after the
other. -/
theorem writeCcrEnables : Obligations.WriteCcrEnables := by
  unfold Obligations.WriteCcrEnables
  intro b x v s h hclk he hv r i psize msize n isAligned fields
  have hw : wrCcr b x v s = enable b x (fields false) := by
    rw [wrCcr_enable he hv, ccrUpdated, Ccr.update_disabled he]
    rfl
  have hr : (fields false).regs b x = { r with ccr := ⟨false, ieOf v, cfgOf v⟩ } := State.regs_setRegs_self ..
  have hpsize : ((fields false).regs b x).ccr.psize = psize := by rw [hr]; exact cfgOf_psize v
  have hmsize : ((fields false).regs b x).ccr.msize = msize := by rw [hr]; exact cfgOf_msize v
  have hm2m : ((fields false).regs b x).ccr.mem2mem = v.getLsbD 14 := by rw [hr]; exact cfgOf_mem2mem v
  have hal : isAligned ↔ ((fields false).regs b x).cpar.toNat % 2 ^ ((fields false).regs b x).ccr.psize.toNat = 0 ∧
      ((fields false).regs b x).cmar.toNat % 2 ^ ((fields false).regs b x).ccr.psize.toNat = 0 := by
    rw [hpsize, hr]
  rw [← hpsize, ← hmsize, ← hm2m, hal]
  refine ⟨fun hres => ?_, fun hp hm hne => ?_, fun hp heq h2 => ?_, fun hp heq h2 hnal => ?_, fun hp heq h2 hal => ?_⟩
  · exact exec_wrCcr_error h hclk (hw.trans (enable_reservedSize hres))
  · exact exec_wrCcr_error h hclk (hw.trans (enable_sizeMismatch hp hm hne))
  · exact exec_wrCcr_error h hclk (hw.trans (enable_mem2mem hp heq h2))
  · exact exec_wrCcr_error h hclk (hw.trans (enable_misaligned hp heq h2 hnal))
  · refine exec_wrCcr_ok h hclk (hw.trans ((enable_legal ⟨hp, heq, h2, hal.1, hal.2⟩).trans ?_))
    rw [hr]
    simp [fields, ieOf, cfgOf]

/-- Settles O13: the write is `disable` of the channel with its interrupt enables updated. -/
theorem writeCcrDisables : Obligations.WriteCcrDisables := by
  unfold Obligations.WriteCcrDisables
  intro b x v s h hclk he hst hv r i
  have hw := wrCcr_disable he hv hst
  have hccr : r.ccr.update v = ⟨true, ieOf v, r.ccr.cfg⟩ := by rw [Ccr.update_enabled he, ← he]
  rw [ccrUpdated, hccr] at hw
  refine ⟨fun hn => exec_wrCcr_ok h hclk (hw.trans ?_), fun hn => exec_wrCcr_ok h hclk (hw.trans ?_)⟩
  · simp [disable, hn, r, ieOf]
  · simp [disable, hn, r, ieOf]

/-! ### The other registers (R260 to R266) -/

section

variable {b : Blk} {x : Ch} {s : State} (v : Word)

theorem State.wrCndtr_disabled (h : (s.regs b x).ccr.en = false) :
    s.wrCndtr b x v = s.setRegs b x { s.regs b x with ndt := v.setWidth 16 } := by simp [State.wrCndtr, h]

theorem State.wrCndtr_enabled (h : (s.regs b x).ccr.en = true) : s.wrCndtr b x v = s := by simp [State.wrCndtr, h]

theorem wrCpar_disabled (h : (s.regs b x).ccr.en = false) :
    wrCpar b x v s = .ok (s.setRegs b x { s.regs b x with cpar := v }) := by simp [wrCpar, h]

theorem wrCpar_enabled (h : (s.regs b x).ccr.en = true) :
    wrCpar b x v s = .error (s.refuse .addrWriteWhileEnabled) := by simp [wrCpar, h]

theorem wrCmar_disabled (h : (s.regs b x).ccr.en = false) :
    wrCmar b x v s = .ok (s.setRegs b x { s.regs b x with cmar := v }) := by simp [wrCmar, h]

theorem wrCmar_enabled (h : (s.regs b x).ccr.en = true) :
    wrCmar b x v s = .error (s.refuse .addrWriteWhileEnabled) := by simp [wrCmar, h]

end

/-- Settles O14: CNDTR, CPAR and CMAR by EN, CSELR by the groups of the word. -/
theorem writeOtherRegisters : Obligations.WriteOtherRegisters := by
  unfold Obligations.WriteOtherRegisters
  intro b v s h hclk
  refine ⟨fun x => ?_, (s.wrCselr b v).ret .nothing, exec_writeInstr_ok (r := .cselr) h (wrReg_on hclk .cselr v), ?_,
    fun x => ?_, fun c x hc => ?_⟩
  · have hcndtr := exec_writeInstr_ok h (wrReg_on hclk (.cndtr x) v)
    have hcpar := wrReg_on hclk (.cpar x) v
    have hcmar := wrReg_on hclk (.cmar x) v
    refine ⟨fun he => ⟨?_, ?_, ?_⟩, fun he => ⟨?_, ?_, ?_⟩⟩
    · rw [hcndtr, State.wrCndtr_disabled v he, BitVec.setWidth_eq_extractLsb' (by decide)]
    · exact exec_writeInstr_ok h (hcpar.trans (wrCpar_disabled v he))
    · exact exec_writeInstr_ok h (hcmar.trans (wrCmar_disabled v he))
    · rw [hcndtr, State.wrCndtr_enabled v he, State.ret_idle h.idle]
    · exact exec_writeInstr_error h (hcpar.trans (wrCpar_enabled v he))
    · exact exec_writeInstr_error h (hcmar.trans (wrCmar_enabled v he))
  · exact State.ret_idle (s := s.wrCselr b v) h.idle _
  · rw [State.ret_regs, State.regs_wrCselr, if_pos rfl]
    rfl
  · rw [State.ret_regs, State.regs_wrCselr, if_neg hc]

end Sys2Proof.Machine
end

section
/-! PROOF. The operations that clear flags of their channel (R404, R405, R457), and CONFIGURE (R411). -/
namespace Sys2Proof.Machine
open Sys2Proof

section

variable {b : Blk} {x : Ch} {s : State}

/-! ## Clearing flags of one channel (R254) -/

theorem wrIfcr_all (s : State) (b : Blk) (x : Ch) :
    s.wrIfcr b (0xF#32 <<< x.group) = s.setRegs b x { s.regs b x with tcif := false, htif := false, teif := false } := by
  rw [wrIfcr_one s b x _ _ (groupOf_allOnes x)]
  simp [ChanRegs.clearFlags]

/-- The channel's registers after one bit of its group is written to IFCR. -/
def ChanRegs.clearOne (r : ChanRegs) : Flag → ChanRegs
  | .tc => { r with tcif := false }
  | .ht => { r with htif := false }
  | .te => { r with teif := false }
  | .gif => { r with tcif := false, htif := false, teif := false }

theorem wrIfcr_flag (s : State) (b : Blk) (x : Ch) (f : Flag) :
    s.wrIfcr b (bitWord (x.group + f.bit)) = s.setRegs b x ((s.regs b x).clearOne f) := by
  rw [wrIfcr_one s b x _ _ (fun y => groupOf_bitWord x y _ (Flag.bit_lt f))]
  cases f <;> simp [ChanRegs.clearFlags, ChanRegs.clearOne, Flag.bit]

/-- A CMD operation that writes IFCR. -/
theorem writeOp_ifcr (h : s.canUse b x .handle) (op : Instr) (v : Word) :
    writeOp op b x .ifcr v s = .next ((s.wrIfcr b v).ret .unit) := by
  obtain ⟨hready, hclk, hown⟩ := h
  rw [writeOp, single_ready hready, needHandle_handle hown, wrReg_on hclk, onDone_ok, retOp]

theorem exec_clearFlag (h : s.canUse b x .handle) (f : Flag) :
    exec (.clearFlag b x f) s = .next ((s.setRegs b x ((s.regs b x).clearOne f)).ret .unit) := by
  rw [← wrIfcr_flag]
  exact writeOp_ifcr h _ _

theorem exec_answerIsr {cb : CircRec} (h : s.canUse b x (.circ cb)) :
    exec (.answerIsr b x) s = .next ((s.wrIfcr b (bitWord x.group)).ret .unit) := by
  obtain ⟨hready, hclk, hown⟩ := h
  exact (single_ready hready _ _).trans ((needCirc_circ hown _).trans (by rw [wrReg_on hclk, onDone_ok, retOp]))

end

/-- Settles O18: each is one IFCR write whose word names flags of the channel only. -/
theorem clearingOperations : Obligations.ClearingOperations := by
  unfold Obligations.ClearingOperations
  intro b x s r clear
  refine ⟨fun h => ⟨?_, exec_clearFlag h .tc, exec_clearFlag h .ht, exec_clearFlag h .te, exec_clearFlag h .gif⟩,
    fun cb h => ?_⟩
  · have hclear := writeOp_ifcr h (.clearFlags b x) (0xF#32 <<< x.group)
    rwa [wrIfcr_all] at hclear
  · rw [exec_answerIsr h]
    exact congrArg (fun u : State => Host.Outcome.next (u.ret .unit)) (wrIfcr_flag s b x .gif)

/-! ## CONFIGURE -/

theorem configImmOk_of_lt {imm : BitVec 16} (h : imm.toNat < 2048) : configImmOk imm = true := by
  refine beq_iff_eq.2 (BitVec.eq_of_toNat_eq ?_)
  rw [BitVec.extractLsb'_toNat, Nat.shiftRight_eq_div_pow, Nat.div_eq_of_lt h]
  rfl

/-- A CCR value written back with bits 14:4 replaced changes them only, and only while EN = 0. -/
theorem Ccr.update_configureWord (c : Ccr) (imm : BitVec 16) :
    c.update (configureWord c.toWord imm) = { c with cfg := if c.en then c.cfg else imm.extractLsb' 0 11 } := by
  simp [Ccr.update]

section

variable {b : Blk} {x : Ch} {s : State} {imm : BitVec 16}

theorem exec_configure (b : Blk) (x : Ch) (imm : BitVec 16) (s : State) :
    exec (.configure b x imm) s = execConfigure b x imm s := rfl

theorem exec_configure_k1 (h : s.canUse b x .handle) (himm : imm.toNat < 2048) :
    exec (.configure b x imm) s = .next (s.goto (.configure b x imm) (.k2 (s.regs b x).ccr.toWord)) := by
  obtain ⟨hready, hclk, hown⟩ := h
  rw [exec_configure, execConfigure, sequenced_ready hready, configImmOk_of_lt himm, check_true,
    needHandle_handle hown, rdReg_ccr hclk, onRead_ok, goOn]

theorem exec_configure_k2 {c : Word} {t : State} (hu : s.unmarked) (hclk : s.clk b = true)
    (hw : wrCcr b x (configureWord c imm) (s.goto (.configure b x imm) (.k2 c)) = .ok t) :
    exec (.configure b x imm) (s.goto (.configure b x imm) (.k2 c)) = .next (t.ret .unit) := by
  rw [exec_configure, execConfigure, sequenced_goto hu.1 hu.2]
  simp only [wrCcrRet, wrReg_ccr (s := s.goto _ _) hclk, hw, onDone_ok, retOp]

end

/-- Settles O21: K1 reads CCR, and the write of K2 has its EN unchanged. -/
theorem configure : Obligations.Configure := by
  unfold Obligations.Configure
  intro b x imm s h himm hst r
  have ⟨hready, hclk, _⟩ := h
  let i : Instr := .configure b x imm
  have hw : wrCcr b x (configureWord r.ccr.toWord imm) (s.goto i (.k2 r.ccr.toWord)) = .ok _ :=
    wrCcr_fields (by simp [r]) hst
  rw [ccrUpdated, State.goto_regs, Ccr.update_configureWord] at hw
  have k2 := exec_configure_k2 hready.unmarked hclk hw
  exact ⟨_, exec_configure_k1 h himm, k2⟩

end Sys2Proof.Machine
end

section
/-! PROOF. The operations that clear EN and wait for the channel to be off: STOP (R413), WAIT (R504), TERMINATE (R505)
and RESTART (R507). Their two micro-steps "WR CCR with EN = 0, spin until EN = 0" are said once (`PausesAt`): they end
at once, or spin until the engine's stop-completion step (R258, R364). -/
namespace Sys2Proof.Machine
open Sys2Proof

/-! ## Runs -/

theorem runAlone_one {i : Instr} {s t : State} (h : exec i s = .next t) : runAlone 1 i s = .next t := runAlone_succ h 0

section

variable {op : Instr} {b : Blk} {x : Ch} {l : Label} {s t : State}

/-! ## The CCR write and the spin as micro-steps -/

/-- A write that is done goes on at the next label; the label it was done at does not matter to it. -/
theorem wrCcrThen_goto {v : Word} {l₀ : Label} (hclk : s.clk b = true)
    (hw : wrCcr b x v (s.goto op l₀) = .ok (t.goto op l₀)) :
    wrCcrThen op b x v l (s.goto op l₀) = .next (t.goto op l) := by
  rw [wrCcrThen, wrReg_ccr (s := s.goto op l₀) hclk, hw, onDone_ok, goOn, State.goto_goto]

theorem wrCcrThen_error {v : Word} (hclk : s.clk b = true) (hw : wrCcr b x v s = .error t) :
    wrCcrThen op b x v l s = .next t := by
  rw [wrCcrThen, wrReg_ccr hclk, hw, onDone_error]

theorem spinEn_eq {e : Bool} {next : Word → Label} (hclk : s.clk b = true) :
    spinEn op b x e l next s =
      .next (s.goto op (if (s.regs b x).ccr.en = e then next (s.regs b x).ccr.toWord else l)) := by
  rw [spinEn, rdReg_ccr hclk, onRead_ok, enOf_toWord, goOn]

end

/-! ## The states of a pause -/

section

variable (s : State) (b : Blk) (x : Ch)

/-- EN written as 0 takes effect at once: the channel is disabled, or it is idle at NDT = 0 with no stop in progress. -/
abbrev State.stopsAtOnce : Prop :=
  (s.regs b x).ccr.en = false ∨ ((s.regs b x).ndt = 0#16 ∧ (s.engine b x).stopping = false)

/-- EN written as 0 leaves the channel stopping: an element is still due, or a stop is in progress. -/
abbrev State.stopsLater : Prop := (s.regs b x).ndt ≠ 0#16 ∨ (s.engine b x).stopping = true

/-- The channel's EN cleared. -/
def State.switchedOff : State :=
  s.setRegs b x { s.regs b x with ccr := { (s.regs b x).ccr with en := false } }

/-- The channel's engine told to stop. -/
def State.stopBegun : State := s.setEngine b x { s.engine b x with stopping := true }

/-- The channel's EN cleared and its engine no longer stopping. -/
def State.stopDone : State := (s.switchedOff b x).setEngine b x { s.engine b x with stopping := false }

theorem State.switchedOff_regs :
    (s.switchedOff b x).regs b x = { s.regs b x with ccr := { (s.regs b x).ccr with en := false } } :=
  State.regs_setRegs_self ..

theorem State.stopDone_regs : (s.stopDone b x).regs b x = (s.switchedOff b x).regs b x := rfl

theorem State.switchedOff_disabled (h : (s.regs b x).ccr.en = false) : s.switchedOff b x = s := by
  rw [State.switchedOff, ← h]
  exact State.setRegs_self s b x

end

section

variable {b : Blk} {x : Ch} {s : State}

theorem wrCcr_clearEn_atOnce (h : s.stopsAtOnce b x) :
    wrCcr b x (clearBit (s.regs b x).ccr.toWord 0) s = .ok (s.switchedOff b x) := by
  cases he : (s.regs b x).ccr.en with
  | false => rw [wrCcr_clearEn_disabled he, State.switchedOff_disabled s b x he]
  | true =>
    obtain ⟨hn, hst⟩ := h.resolve_left (by simp [he])
    exact wrCcr_clearEn_empty he hst hn

theorem wrCcr_clearEn_later (he : (s.regs b x).ccr.en = true) (h : s.stopsLater b x) :
    wrCcr b x (clearBit (s.regs b x).ccr.toWord 0) s = .ok (s.stopBegun b x) := by
  rcases h with hn | hst
  · exact wrCcr_clearEn_running he hn
  · have hself : s.stopBegun b x = s := by
      rw [State.stopBegun, ← hst]
      exact State.setEngine_self s b x
    rw [wrCcr_clearEn_stopping he hst (enOf_clearBit_zero _), hself]
    simp [ccrUpdated]

/-- The stop-completion step of a stop begun (R364). -/
theorem stopTurn_stopBegun (hclk : s.clk b = true) (i : Instr) (l : Label) :
    stopTurn b x ((s.stopBegun b x).goto i l) = (s.stopDone b x).goto i l := by
  simp [stopTurn, stopEnabled, stopStep, State.stopBegun, State.stopDone, State.switchedOff, hclk]

end

/-! ## The two micro-steps of a pause -/

/-- Operation i, which has read CCR as c, clears EN at label lw and spins until EN = 0 at label ls. -/
structure PausesAt (i : Instr) (b : Blk) (x : Ch) (c : Word) (lw ls : Label) (next : Word → Label) : Prop where
  write : ∀ {s : State}, s.unmarked → exec i (s.goto i lw) = wrCcrThen i b x (clearBit c 0) ls (s.goto i lw)
  spin : ∀ {s : State}, s.unmarked → exec i (s.goto i ls) = spinEn i b x false ls next (s.goto i ls)

namespace PausesAt

variable {i : Instr} {b : Blk} {x : Ch} {lw ls : Label} {next : Word → Label} {s : State}

theorem spin_on {c : Word} (h : PausesAt i b x c lw ls next) (hu : s.unmarked) (hclk : s.clk b = true)
    (he : (s.regs b x).ccr.en = true) : exec i (s.goto i ls) = .next (s.goto i ls) := by
  rw [h.spin hu, spinEn_eq (s := s.goto i ls) hclk, if_neg (by simp [he])]
  rfl

theorem spin_off {c : Word} (h : PausesAt i b x c lw ls next) (hu : s.unmarked) (hclk : s.clk b = true)
    (he : (s.regs b x).ccr.en = false) :
    exec i (s.goto i ls) = .next (s.goto i (next (s.regs b x).ccr.toWord)) := by
  rw [h.spin hu, spinEn_eq (s := s.goto i ls) hclk, if_pos (by simp [he])]
  rfl

variable (h : PausesAt i b x (s.regs b x).ccr.toWord lw ls next) (hu : s.unmarked) (hclk : s.clk b = true)
include h hu hclk

/-- The pause of a channel that stops at once. -/
theorem atOnce (hs : s.stopsAtOnce b x) (k : Nat) :
    runAlone (k + 2) i (s.goto i lw) =
      runAlone k i ((s.switchedOff b x).goto i (next ((s.switchedOff b x).regs b x).ccr.toWord)) := by
  have write : exec i (s.goto i lw) = .next ((s.switchedOff b x).goto i ls) :=
    (h.write hu).trans (wrCcrThen_goto hclk (wrCcr_clearEn_atOnce (s := s.goto i lw) hs))
  have hoff : ((s.switchedOff b x).regs b x).ccr.en = false := by rw [State.switchedOff_regs]
  rw [runAlone_succ write, runAlone_succ (h.spin_off (s := s.switchedOff b x) hu hclk hoff)]

variable (he : (s.regs b x).ccr.en = true)
include he

/-- The write of a pause that begins a stop or finds one in progress. -/
theorem begins (hs : s.stopsLater b x) : exec i (s.goto i lw) = .next ((s.stopBegun b x).goto i ls) :=
  (h.write hu).trans (wrCcrThen_goto hclk (wrCcr_clearEn_later (s := s.goto i lw) he hs))

/-- The pause spins while the stop is in progress. -/
theorem waits : exec i ((s.stopBegun b x).goto i ls) = .next ((s.stopBegun b x).goto i ls) :=
  h.spin_on (s := s.stopBegun b x) hu hclk he

omit he in
/-- The pause ends after the engine's stop-completion step. -/
theorem ends (k : Nat) :
    runAlone (k + 1) i (stopTurn b x ((s.stopBegun b x).goto i ls)) =
      runAlone k i ((s.stopDone b x).goto i (next ((s.switchedOff b x).regs b x).ccr.toWord)) := by
  rw [stopTurn_stopBegun hclk,
    runAlone_succ (h.spin_off (s := s.stopDone b x) hu hclk (by rw [State.stopDone_regs, State.switchedOff_regs])),
    State.stopDone_regs]

end PausesAt

/-! ## STOP (R413) -/

section

variable {b : Blk} {x : Ch} {s : State} {c : Word}

theorem exec_stop (b : Blk) (x : Ch) (s : State) : exec (.stop b x) s = execStop b x s := rfl

theorem exec_stop_k1 (h : s.canUse b x .handle) :
    exec (.stop b x) s = .next (s.goto (.stop b x) (.k2 (s.regs b x).ccr.toWord)) := by
  obtain ⟨hready, hclk, hown⟩ := h
  rw [exec_stop, execStop, sequenced_ready hready, needHandle_handle hown, rdReg_ccr hclk, onRead_ok, goOn]

theorem stop_pauses (b : Blk) (x : Ch) (c : Word) : PausesAt (.stop b x) b x c (.k2 c) .k3 fun _ => .k4 where
  write hu := by rw [exec_stop, execStop, sequenced_goto hu.1 hu.2]
  spin hu := by rw [exec_stop, execStop, sequenced_goto hu.1 hu.2]

theorem exec_stop_k4 (hu : s.unmarked) : exec (.stop b x) (s.goto (.stop b x) .k4) = .next (s.fence.ret .unit) := by
  rw [exec_stop, execStop, sequenced_goto hu.1 hu.2]
  rfl

end

/-- Settles O23: K1 reads CCR, K2 and K3 pause the channel, K4 fences and returns. -/
theorem stop : Obligations.Stop := by
  unfold Obligations.Stop
  intro b x s h i r off
  have k1 := exec_stop_k1 h
  obtain ⟨hready, hclk, -⟩ := h
  have hu := hready.unmarked
  have hp := stop_pauses b x r.ccr.toWord
  refine ⟨fun hs => ⟨_, k1, ?_⟩, fun he hs => ⟨_, _, k1, hp.begins hu hclk he hs, rfl, ?_, hp.waits hu hclk he, ?_⟩⟩
  · exact (hp.atOnce hu hclk hs 1).trans (runAlone_one (exec_stop_k4 hu))
  · exact congrArg Engine.stopping (State.engine_setEngine_self ..)
  · exact (hp.ends hu hclk 1).trans (runAlone_one (exec_stop_k4 hu))

/-! ## WAIT (R504) -/

/-- The state with a flag or count observation noted (R162). -/
abbrev State.observed (s : State) : State := { s with unfencedRead := true }

section

variable {b : Blk} {x : Ch} {s : State} {tr : XferRec}

theorem exec_wait (b : Blk) (x : Ch) (s : State) : exec (.wait b x) s = execWait b x s := rfl

theorem waitPoll_eq (hclk : s.clk b = true) (op : Instr) :
    waitPoll op b x s = .next (s.observed.goto op (if (s.regs b x).tcif then .w2 else .w1)) := by
  rw [waitPoll, rdReg_isr hclk, onRead_ok, isrWord_tcif, goOn]
  rfl

theorem exec_wait_start (h : s.canUse b x (.xfer tr)) :
    exec (.wait b x) s = .next (s.observed.goto (.wait b x) (if (s.regs b x).tcif then .w2 else .w1)) := by
  obtain ⟨hready, hclk, hown⟩ := h
  rw [exec_wait, execWait, sequenced_ready hready, needXfer_xfer hown, waitPoll_eq hclk]

theorem exec_wait_w1 (hu : s.unmarked) (hclk : s.clk b = true) :
    exec (.wait b x) (s.goto (.wait b x) .w1) =
      .next (s.observed.goto (.wait b x) (if (s.regs b x).tcif then .w2 else .w1)) := by
  rw [exec_wait, execWait, sequenced_goto hu.1 hu.2]
  exact waitPoll_eq (s := s.goto _ _) hclk _

theorem exec_wait_w2 (hu : s.unmarked) (hclk : s.clk b = true) :
    exec (.wait b x) (s.goto (.wait b x) .w2) =
      .next ((s.setRegs b x { s.regs b x with tcif := false }).goto (.wait b x) .w3) := by
  rw [exec_wait, execWait, sequenced_goto hu.1 hu.2]
  simp only [wrReg_on (s := s.goto _ _) hclk, onDone_ok, goOn]
  have hw := wrIfcr_flag (s.goto (.wait b x) .w2) b x .tc
  exact (congrArg (fun u : State => Host.Outcome.next (u.goto (.wait b x) .w3)) hw).trans rfl

theorem exec_wait_w3 (hu : s.unmarked) (hclk : s.clk b = true) :
    exec (.wait b x) (s.goto (.wait b x) .w3) =
      .next (s.goto (.wait b x) (.w4 (s.regs b x).ccr.toWord)) := by
  rw [exec_wait, execWait, sequenced_goto hu.1 hu.2]
  simp only [rdReg_ccr (s := s.goto _ _) hclk, onRead_ok, goOn]
  rfl

theorem wait_pauses (b : Blk) (x : Ch) (c : Word) : PausesAt (.wait b x) b x c (.w4 c) .w5 fun _ => .w6 where
  write hu := by rw [exec_wait, execWait, sequenced_goto hu.1 hu.2]
  spin hu := by rw [exec_wait, execWait, sequenced_goto hu.1 hu.2]

theorem exec_wait_w6 (hu : s.unmarked) (hown : s.holder b x = .xfer tr) :
    exec (.wait b x) (s.goto (.wait b x) .w6) =
      .next ((s.fence.setHolder b x .handle).ret (.released tr.base tr.n tr.esize b x tr.payload)) := by
  rw [exec_wait, execWait, sequenced_goto hu.1 hu.2]
  exact (needXfer_xfer (s := s.goto _ _) hown _).trans rfl

end

/-- Settles O33: W1 polls TCIF, W2 clears it, W3 reads CCR, W4 and W5 pause the channel, W6 returns the resources. -/
theorem wait : Obligations.Wait := by
  unfold Obligations.Wait
  intro b x tr s h i r off res
  have start := exec_wait_start h
  obtain ⟨hready, hclk, hown⟩ := h
  have hu := hready.unmarked
  -- the state in which the channel is paused
  let q := s.observed.setRegs b x { r with tcif := false }
  have hq : q.regs b x = { r with tcif := false } := State.regs_setRegs_self ..
  have w2 : exec i (s.observed.goto i .w2) = .next (q.goto i .w3) := exec_wait_w2 (s := s.observed) hu hclk
  have w3 : exec i (q.goto i .w3) = .next (q.goto i (.w4 (q.regs b x).ccr.toWord)) := exec_wait_w3 (s := q) hu hclk
  have hp := wait_pauses b x (q.regs b x).ccr.toWord
  have hoff : q.switchedOff b x = off.observed := by
    rw [State.switchedOff, hq]
    exact State.setRegs_setRegs ..
  refine ⟨fun ht => ?_, fun ht hs => ?_, fun ht he hs => ?_⟩
  · rw [start, if_neg (Bool.eq_false_iff.1 ht)]
    refine ⟨_, rfl, rfl, ?_⟩
    have w1 := exec_wait_w1 (s := s.observed) (x := x) hu hclk
    have ht1 : ¬(s.observed.regs b x).tcif = true := Bool.eq_false_iff.1 ht
    rwa [if_neg ht1] at w1
  · rw [start, if_pos ht]
    refine ⟨_, rfl, ?_⟩
    have w6 := exec_wait_w6 (s := off.observed) hu hown
    rw [runAlone_succ w2, runAlone_succ w3, hp.atOnce (s := q) hu hclk (by rwa [State.stopsAtOnce, hq]) 1, hoff,
      runAlone_one w6]
    rfl
  · rw [start, if_pos ht]
    have heq : (q.regs b x).ccr.en = true := by rwa [hq]
    have w4 := hp.begins (s := q) hu hclk heq (by rwa [State.stopsLater, hq])
    refine ⟨_, (q.stopBegun b x).goto i .w5, rfl, ?_, hp.waits (s := q) hu hclk heq, ?_⟩
    · rw [runAlone_succ w2, runAlone_succ w3, runAlone_one w4]
    · rw [hp.ends (s := q) hu hclk 1, State.stopDone, hoff]
      exact runAlone_one (exec_wait_w6 (s := off.observed.setEngine b x _) hu hown)

/-! ## TERMINATE (R505) -/

/-- The channel enabled and its engine loaded from the registers (R257). -/
def State.started (s : State) (b : Blk) (x : Ch) : State :=
  (s.setRegs b x { s.regs b x with ccr := { (s.regs b x).ccr with en := true } }).setEngine b x
    { curPa := (s.regs b x).cpar, curMa := (s.regs b x).cmar, ndtReload := (s.regs b x).ndt, stopping := false,
      unseen := s.unfencedWrites }

theorem State.started_en (s : State) (b : Blk) (x : Ch) : ((s.started b x).regs b x).ccr.en = true := by
  simp [State.started]

section

variable {b : Blk} {x : Ch} {s : State} {tr : XferRec} {c : Word}

theorem exec_terminate (b : Blk) (x : Ch) (s : State) : exec (.terminate b x) s = execTerminate b x s := rfl

theorem exec_terminate_t1 (h : s.canUse b x (.xfer tr)) :
    exec (.terminate b x) s = .next (s.goto (.terminate b x) (.t2 (s.regs b x).ccr.toWord)) := by
  obtain ⟨hready, hclk, hown⟩ := h
  rw [exec_terminate, execTerminate, sequenced_ready hready, needXfer_xfer hown, rdReg_ccr hclk, onRead_ok, goOn]

/-- Where T1 read EN = 1, T2 and T3 are a pause. -/
theorem terminate_pauses (b : Blk) (x : Ch) (hc : enOf c = true) :
    PausesAt (.terminate b x) b x c (.t2 c) (.t3 false) fun _ => .t4 where
  write hu := by
    rw [exec_terminate, execTerminate, sequenced_goto hu.1 hu.2]
    simp only [hc, if_true, Bool.not_true]
  spin hu := by rw [exec_terminate, execTerminate, sequenced_goto hu.1 hu.2]

/-- Where T1 read EN = 0, T2 is the enabling write. -/
theorem exec_terminate_t2_enables (hu : s.unmarked) (hc : enOf c = false) :
    exec (.terminate b x) (s.goto (.terminate b x) (.t2 c)) =
      wrCcrThen (.terminate b x) b x (setBit c 0) (.t3 true) (s.goto (.terminate b x) (.t2 c)) := by
  rw [exec_terminate, execTerminate, sequenced_goto hu.1 hu.2]
  simp only [hc, Bool.false_eq_true, if_false, Bool.not_false]

theorem exec_terminate_t3_on (hu : s.unmarked) (hclk : s.clk b = true) (he : (s.regs b x).ccr.en = true) :
    exec (.terminate b x) (s.goto (.terminate b x) (.t3 true)) = .next (s.goto (.terminate b x) .t4) := by
  rw [exec_terminate, execTerminate, sequenced_goto hu.1 hu.2]
  simp only [spinEn_eq (s := s.goto _ _) hclk, State.goto_regs, he, if_true, State.goto_goto]

theorem exec_terminate_t4 (hu : s.unmarked) :
    exec (.terminate b x) (s.goto (.terminate b x) .t4) = .next (s.fence.ret .unit) := by
  rw [exec_terminate, execTerminate, sequenced_goto hu.1 hu.2]
  rfl

end

/-- Settles O34: T1 reads CCR; T2 and T3 pause an enabled channel, or enable a disabled one; T4 fences and returns. -/
theorem terminate : Obligations.Terminate := by
  unfold Obligations.Terminate
  intro b x tr s h i r off
  have t1 := exec_terminate_t1 h
  obtain ⟨hready, hclk, -⟩ := h
  have hu := hready.unmarked
  have hp (he : r.ccr.en = true) := terminate_pauses b x ((enOf_toWord r.ccr).trans he)
  have t2 (he : r.ccr.en = false) := exec_terminate_t2_enables (b := b) (x := x) hu ((enOf_toWord r.ccr).trans he)
  let s1 := s.goto i (.t2 r.ccr.toWord)
  refine ⟨fun he hn hst => ⟨_, t1, ?_⟩,
    fun he hs => ⟨_, _, t1, (hp he).begins hu hclk he hs, (hp he).waits hu hclk he, ?_⟩,
    fun he hl => ⟨_, t1, ?_⟩, fun he hl => ?_⟩
  · exact ((hp he).atOnce hu hclk (.inr ⟨hn, hst⟩) 1).trans (runAlone_one (exec_terminate_t4 hu))
  · exact ((hp he).ends hu hclk 1).trans (runAlone_one (exec_terminate_t4 hu))
  · have enables := (t2 he).trans (wrCcrThen_goto (t := s.started b x) hclk (wrCcr_startEn (s := s1) he hl))
    have confirms := exec_terminate_t3_on (s := s.started b x) hu hclk (State.started_en s b x)
    rw [runAlone_succ enables, runAlone_succ confirms, runAlone_one (exec_terminate_t4 (s := s.started b x) hu)]
    rfl
  · obtain ⟨reason, hmem, hw⟩ := wrCcr_startEn_illegal (s := s1) he hl
    refine ⟨s1.refuse reason, ?_, rfl, List.mem_map_of_mem (f := some) hmem⟩
    rw [runAlone_succ t1, runAlone_one ((t2 he).trans (wrCcrThen_error hclk hw))]

end Sys2Proof.Machine
end

section
/-! PROOF. RESTART (R507): S1 reads CCR, S2 and S3 pause the channel, S4 to S7 take the count of what was written
and reload NDT, S8 to S10 enable the channel again. -/
namespace Sys2Proof.Machine
open Sys2Proof

/-- The channel's count set. -/
def State.recounted (s : State) (b : Blk) (x : Ch) (n : BitVec 16) : State :=
  s.setRegs b x { s.regs b x with ndt := n }

theorem State.recounted_regs (s : State) (b : Blk) (x : Ch) (n : BitVec 16) :
    (s.recounted b x n).regs b x = { s.regs b x with ndt := n } := State.regs_setRegs_self ..

/-- What RESTART returns of a Transfer with `written` elements in its buffer. -/
def XferRec.restartResult (tr : XferRec) (written : Nat) : Result :=
  if written = 0 then .noData else .someWindow tr.base tr.esize 0 written

section

variable {b : Blk} {x : Ch} {s : State} {tr : XferRec}

theorem readWritten_eq (hclk : s.clk b = true) (op : Instr) (t : XferRec) (k : Nat → State → Out) :
    readWritten op b x t s k =
      if t.n < (s.regs b x).ndt.toNat then
        .next (s.observed.takeFault (.countBeyondLength (s.regs b x).ndt.toNat t.n) op b x)
      else k (t.n - (s.regs b x).ndt.toNat) s.observed := by
  have hcount : ((s.regs b x).ndt.setWidth 32).setWidth 16 = (s.regs b x).ndt :=
    BitVec.setWidth_setWidth_of_le _ (by decide)
  simp only [readWritten, rdReg_cndtr hclk, onRead_ok, hcount]

/-! ## The micro-steps -/

theorem exec_restart (b : Blk) (x : Ch) (s : State) : exec (.restart b x) s = execRestart b x s := rfl

theorem exec_restart_wrongMode (h : s.canUse b x (.xfer tr)) (hm : tr.mode = .memSrc) :
    exec (.restart b x) s = .next (s.refuse .wrongMode) := by
  obtain ⟨hready, -, hown⟩ := h
  rw [exec_restart, execRestart, sequenced_ready hready, needXfer_xfer hown, hm]
  rfl

theorem exec_restart_s1 (h : s.canUse b x (.xfer tr)) (hm : tr.mode = .memDest) :
    exec (.restart b x) s = .next (s.goto (.restart b x) (.s2 (s.regs b x).ccr.toWord)) := by
  obtain ⟨hready, hclk, hown⟩ := h
  rw [exec_restart, execRestart, sequenced_ready hready, needXfer_xfer hown, hm, rdReg_ccr hclk, onRead_ok, goOn]
  rfl

theorem restart_pauses (b : Blk) (x : Ch) (c : Word) : PausesAt (.restart b x) b x c (.s2 c) .s3 .s4 where
  write hu := by rw [exec_restart, execRestart, sequenced_goto hu.1 hu.2]
  spin hu := by rw [exec_restart, execRestart, sequenced_goto hu.1 hu.2]

section

variable (hu : s.unmarked) (c : Word)
include hu

theorem exec_restart_s4 :
    exec (.restart b x) (s.goto (.restart b x) (.s4 c)) = .next (s.fence.goto (.restart b x) (.s5 c)) := by
  rw [exec_restart, execRestart, sequenced_goto hu.1 hu.2]
  rfl

theorem exec_restart_s5 (hclk : s.clk b = true) (hown : s.holder b x = .xfer tr)
    (hrem : (s.regs b x).ndt.toNat ≤ tr.n) :
    exec (.restart b x) (s.goto (.restart b x) (.s5 c)) =
      .next (s.observed.goto (.restart b x) (.s6 c (tr.n - (s.regs b x).ndt.toNat))) := by
  rw [exec_restart, execRestart, sequenced_goto hu.1 hu.2]
  simp only [needXfer_xfer (s := s.goto _ _) hown, readWritten_eq (s := s.goto _ _) hclk]
  exact (if_neg (Nat.not_lt.2 hrem)).trans rfl

theorem exec_restart_s5_faults (hclk : s.clk b = true) (hown : s.holder b x = .xfer tr)
    (hrem : tr.n < (s.regs b x).ndt.toNat) :
    exec (.restart b x) (s.goto (.restart b x) (.s5 c)) =
      .next ((s.observed.goto (.restart b x) (.s5 c)).takeFault (.countBeyondLength (s.regs b x).ndt.toNat tr.n)
        (.restart b x) b x) := by
  rw [exec_restart, execRestart, sequenced_goto hu.1 hu.2]
  simp only [needXfer_xfer (s := s.goto _ _) hown, readWritten_eq (s := s.goto _ _) hclk]
  exact (if_pos hrem).trans rfl

variable (w : Nat)

theorem exec_restart_s6 (hclk : s.clk b = true) (hown : s.holder b x = .xfer tr) (he : (s.regs b x).ccr.en = false) :
    exec (.restart b x) (s.goto (.restart b x) (.s6 c w)) =
      .next ((s.recounted b x (BitVec.ofNat 16 tr.n)).goto (.restart b x) (.s7 c w)) := by
  rw [exec_restart, execRestart, sequenced_goto hu.1 hu.2]
  simp only [needXfer_xfer (s := s.goto _ _) hown, wrReg_on (s := s.goto _ _) hclk, onDone_ok,
    State.wrCndtr_disabled (s := s.goto _ _) _ he, BitVec.setWidth_ofNat_of_le (by decide : 16 ≤ 32)]
  rfl

theorem exec_restart_s7 :
    exec (.restart b x) (s.goto (.restart b x) (.s7 c w)) = .next (s.fence.goto (.restart b x) (.s8 c w)) := by
  rw [exec_restart, execRestart, sequenced_goto hu.1 hu.2]
  rfl

theorem exec_restart_s8 :
    exec (.restart b x) (s.goto (.restart b x) (.s8 c w)) =
      wrCcrThen (.restart b x) b x (setBit c 0) (.s9 w) (s.goto (.restart b x) (.s8 c w)) := by
  rw [exec_restart, execRestart, sequenced_goto hu.1 hu.2]

omit c in
theorem exec_restart_s8_starts (hclk : s.clk b = true) (he : (s.regs b x).ccr.en = false) (hl : (s.regs b x).legal) :
    exec (.restart b x) (s.goto (.restart b x) (.s8 (s.regs b x).ccr.toWord w)) =
      .next ((s.started b x).goto (.restart b x) (.s9 w)) :=
  (exec_restart_s8 hu _ w).trans (wrCcrThen_goto hclk (wrCcr_startEn (s := s.goto _ _) he hl))

omit c in
theorem exec_restart_s8_refuses (hclk : s.clk b = true) (he : (s.regs b x).ccr.en = false)
    (hl : ¬(s.regs b x).legal) :
    ∃ reason ∈ enableRefusals,
      exec (.restart b x) (s.goto (.restart b x) (.s8 (s.regs b x).ccr.toWord w)) =
        .next ((s.goto (.restart b x) (.s8 (s.regs b x).ccr.toWord w)).refuse reason) := by
  obtain ⟨reason, hmem, hw⟩ := wrCcr_startEn_illegal (s := s.goto _ _) he hl
  exact ⟨reason, hmem, (exec_restart_s8 hu _ w).trans (wrCcrThen_error hclk hw)⟩

theorem exec_restart_s9 (hclk : s.clk b = true) (he : (s.regs b x).ccr.en = true) :
    exec (.restart b x) (s.goto (.restart b x) (.s9 w)) = .next (s.goto (.restart b x) (.s10 w)) := by
  rw [exec_restart, execRestart, sequenced_goto hu.1 hu.2]
  simp only [spinEn_eq (s := s.goto _ _) hclk, State.goto_regs, he, if_true, State.goto_goto]

theorem exec_restart_s10 (hown : s.holder b x = .xfer tr) :
    exec (.restart b x) (s.goto (.restart b x) (.s10 w)) = .next (s.fence.ret (tr.restartResult w)) := by
  rw [exec_restart, execRestart, sequenced_goto hu.1 hu.2]
  exact (needXfer_xfer (s := s.goto _ _) hown _).trans rfl

end

/-! ## S4 to S10 of a channel that is paused -/

section

variable (hu : s.unmarked) (hclk : s.clk b = true) (hown : s.holder b x = .xfer tr)
include hu hclk hown

/-- A count above the length faults at S5. -/
theorem restart_faults (c : Word) (hrem : tr.n < (s.regs b x).ndt.toNat) :
    runAlone 2 (.restart b x) (s.goto (.restart b x) (.s4 c)) =
      .next ((s.fence.observed.goto (.restart b x) (.s5 c)).takeFault
        (.countBeyondLength (s.regs b x).ndt.toNat tr.n) (.restart b x) b x) := by
  rw [runAlone_succ (exec_restart_s4 hu c), runAlone_one (exec_restart_s5_faults (s := s.fence) hu c hclk hown hrem)]
  rfl

variable (he : (s.regs b x).ccr.en = false) (hrem : (s.regs b x).ndt.toNat ≤ tr.n)
include he hrem

/-- S4 to S7 take the count of the written elements and reload NDT. -/
theorem restart_recounts (c : Word) (k : Nat) :
    runAlone (k + 4) (.restart b x) (s.goto (.restart b x) (.s4 c)) =
      runAlone k (.restart b x) ((s.recounted b x (BitVec.ofNat 16 tr.n)).fence.goto (.restart b x)
        (.s8 c (tr.n - (s.regs b x).ndt.toNat))) := by
  rw [runAlone_succ (exec_restart_s4 hu c), runAlone_succ (exec_restart_s5 (s := s.fence) hu c hclk hown hrem),
    runAlone_succ (exec_restart_s6 (s := s.fence.observed) hu c _ hclk hown he),
    runAlone_succ (exec_restart_s7 (s := s.fence.observed.recounted b x _) hu c _)]
  rfl

/-- An illegal configuration is refused at S8. -/
theorem restart_refused (hl : ¬(s.regs b x).legal) :
    ∃ reason ∈ enableRefusals,
      runAlone 5 (.restart b x) (s.goto (.restart b x) (.s4 (s.regs b x).ccr.toWord)) =
        .next (((s.recounted b x (BitVec.ofNat 16 tr.n)).fence.goto (.restart b x)
          (.s8 (s.regs b x).ccr.toWord (tr.n - (s.regs b x).ndt.toNat))).refuse reason) := by
  let u := (s.recounted b x (BitVec.ofNat 16 tr.n)).fence
  have hregs : u.regs b x = { s.regs b x with ndt := BitVec.ofNat 16 tr.n } := State.recounted_regs ..
  obtain ⟨reason, hmem, s8⟩ := exec_restart_s8_refuses (s := u) hu (tr.n - (s.regs b x).ndt.toNat) hclk
    (by rwa [hregs]) (by rwa [hregs])
  rw [hregs] at s8
  rw [restart_recounts hu hclk hown he hrem _ 1]
  exact ⟨reason, hmem, runAlone_one s8⟩

/-- A legal configuration is enabled again with the whole count. -/
theorem restart_completes (hl : (s.regs b x).legal) :
    runAlone 7 (.restart b x) (s.goto (.restart b x) (.s4 (s.regs b x).ccr.toWord)) =
      .next (((s.recounted b x (BitVec.ofNat 16 tr.n)).fence.started b x).fence.ret
        (tr.restartResult (tr.n - (s.regs b x).ndt.toNat))) := by
  let u := (s.recounted b x (BitVec.ofNat 16 tr.n)).fence
  have hregs : u.regs b x = { s.regs b x with ndt := BitVec.ofNat 16 tr.n } := State.recounted_regs ..
  have s8 := exec_restart_s8_starts (s := u) hu (tr.n - (s.regs b x).ndt.toNat) hclk (by rwa [hregs]) (by rwa [hregs])
  rw [hregs] at s8
  rw [restart_recounts hu hclk hown he hrem _ 3, runAlone_succ s8,
    runAlone_succ (exec_restart_s9 (s := u.started b x) hu _ hclk (State.started_en u b x)),
    runAlone_one (exec_restart_s10 (s := u.started b x) hu _ hown)]

end

end

/-! ## RESTART as a whole -/

/-- The channel's EN cleared and its engine left as e: what a pause leaves. -/
def State.pausedWith (s : State) (b : Blk) (x : Ch) (e : Engine) : State := (s.switchedOff b x).setEngine b x e

theorem State.pausedWith_engine (s : State) (b : Blk) (x : Ch) :
    s.pausedWith b x (s.engine b x) = s.switchedOff b x := State.setEngine_self (s.switchedOff b x) b x

theorem State.pausedWith_regs (s : State) (b : Blk) (x : Ch) (e : Engine) :
    (s.pausedWith b x e).regs b x = { s.regs b x with ccr := { (s.regs b x).ccr with en := false } } :=
  State.switchedOff_regs s b x

theorem State.recounted_pausedWith (s : State) (b : Blk) (x : Ch) (e : Engine) (n : BitVec 16) :
    (s.pausedWith b x e).recounted b x n =
      (s.setRegs b x { s.regs b x with ccr := { (s.regs b x).ccr with en := false }, ndt := n }).setEngine b x e := by
  simp [State.recounted, State.pausedWith, State.switchedOff]

theorem State.started_setRegs (s : State) (b : Blk) (x : Ch) (r : ChanRegs) (e : Engine) :
    (((s.setRegs b x r).setEngine b x e).fence.started b x).fence =
      ((s.setRegs b x { r with ccr := { r.ccr with en := true } }).setEngine b x
        { curPa := r.cpar, curMa := r.cmar, ndtReload := r.ndt, stopping := false, unseen := [] }).fence := by
  simp [State.started]

theorem XferRec.restartResult_remaining {tr : XferRec} {rem : Nat} (h : rem ≤ tr.n) :
    tr.restartResult (tr.n - rem) =
      if rem = tr.n then .noData else .someWindow tr.base tr.esize 0 (tr.n - rem) := by
  have hdone : tr.n - rem = 0 ↔ rem = tr.n := by omega
  simp only [XferRec.restartResult, hdone]

/-- Settles O36: what follows the pause is the same for every state the pause leaves the engine in; the pause is at once
or ends with the engine's stop-completion step. -/
theorem restart : Obligations.Restart := by
  unfold Obligations.Restart
  intro b x tr s h i r rem n disabled t faulted refusedAtS8 e stops
  have s1 (hm : tr.mode = .memDest) := exec_restart_s1 h hm
  have wrongMode (hm : tr.mode = .memSrc) := exec_restart_wrongMode h hm
  obtain ⟨hready, hclk, hown⟩ := h
  have hu := hready.unmarked
  have hp := restart_pauses b x r.ccr.toWord
  let paused (e' : Engine) : State := (s.pausedWith b x e').goto i (.s4 disabled.ccr.toWord)
  have hregs (e' : Engine) : (s.pausedWith b x e').regs b x = disabled := State.pausedWith_regs ..
  have faults (e' : Engine) (hrem : tr.n < rem) : ∃ u, runAlone 2 i (paused e') = .next u ∧ faulted e' u := by
    have hrun := restart_faults (s := s.pausedWith b x e') hu hclk hown disabled.ccr.toWord (by rwa [hregs])
    rw [hregs] at hrun
    exact ⟨_, hrun, rfl⟩
  have refuses (e' : Engine) (hrem : rem ≤ tr.n) (hl : ¬r.legal) :
      ∃ u, runAlone 5 i (paused e') = .next u ∧ refusedAtS8 e' u := by
    obtain ⟨reason, hmem, hrun⟩ := restart_refused (s := s.pausedWith b x e') hu hclk hown (by rw [hregs])
      (by rwa [hregs]) (by rwa [hregs])
    rw [hregs, State.recounted_pausedWith] at hrun
    exact ⟨_, hrun, rfl, List.mem_map_of_mem (f := some) hmem⟩
  have completes (e' : Engine) (hrem : rem ≤ tr.n) (hl : r.legal) : runAlone 7 i (paused e') = .next t := by
    have hrun := restart_completes (s := s.pausedWith b x e') hu hclk hown (by rw [hregs])
      (by rwa [hregs]) (by rwa [hregs])
    rwa [hregs, State.recounted_pausedWith, State.started_setRegs, XferRec.restartResult_remaining hrem] at hrun
  have atOnce (hs : stops) (k : Nat) : runAlone (k + 2) i (s.goto i (.s2 r.ccr.toWord)) = runAlone k i (paused e) := by
    have hrun := hp.atOnce hu hclk hs k
    rwa [State.switchedOff_regs, ← State.pausedWith_engine] at hrun
  have ends (k : Nat) : runAlone (k + 1) i (stopTurn b x ((s.stopBegun b x).goto i .s3)) =
      runAlone k i (paused { e with stopping := false }) := by
    have hrun := hp.ends hu hclk k
    rwa [State.switchedOff_regs] at hrun
  refine ⟨wrongMode, fun hm hs hrem => ?_, fun hm hs hrem hl => ?_, fun hm hs hrem hl => ⟨_, s1 hm, ?_⟩,
    fun hm he hs => ⟨_, _, s1 hm, hp.begins hu hclk he hs, hp.waits hu hclk he, fun hrem => ?_, fun hrem hl => ?_,
      fun hrem hl => ?_⟩⟩
  · rw [runAlone_succ (s1 hm), atOnce hs 2]
    exact faults e hrem
  · rw [runAlone_succ (s1 hm), atOnce hs 5]
    exact refuses e hrem hl
  · rw [atOnce hs 7]
    exact completes e hrem hl
  · rw [ends 2]
    exact faults _ hrem
  · rw [ends 5]
    exact refuses _ hrem hl
  · rw [ends 7]
    exact completes _ hrem hl

end Sys2Proof.Machine
end

section
/-! PROOF. The element step and the stop-completion step of a transfer engine (R351 to R369): when a turn is a step, what
an element moves, what it does to its channel, and a pass of a circular channel over both halves. -/
namespace Sys2Proof.Machine
open Sys2Proof

section

variable {b : Blk} {x : Ch} {lines : List Nat} {n : Nat} {v : Word} {vs : List Word} {s t u : State}

/-! ## When a turn is a step -/

theorem elementEnabled_iff :
    elementEnabled b x lines s = true ↔
      s.clk b = true ∧ (s.regs b x).ccr.en = true ∧ 0 < (s.regs b x).ndt.toNat ∧ s.request b x lines = true := by
  have hndt : (s.regs b x).ndt ≠ 0#16 ↔ 0 < (s.regs b x).ndt.toNat := by
    rw [ne_eq, ← BitVec.toNat_inj, Nat.pos_iff_ne_zero]
    rfl
  simp only [elementEnabled, Bool.and_eq_true, decide_eq_true_eq, hndt, and_assoc]

theorem elementTurn_enabled (h : elementEnabled b x lines s = true) : elementTurn b x lines s = elementStep b x s :=
  if_pos h

theorem stopEnabled_iff : stopEnabled b x s = true ↔ s.clk b = true ∧ (s.engine b x).stopping = true := by
  simp only [stopEnabled, Bool.and_eq_true]

/-- Settles O38: the turn tests the four conditions of R352. -/
theorem elementStepEnabled : Obligations.ElementStepEnabled := by
  unfold Obligations.ElementStepEnabled
  intro b x lines s isEnabled
  exact ⟨fun h => elementTurn_enabled (elementEnabled_iff.2 h), fun h => if_neg fun he => h (elementEnabled_iff.1 he)⟩

/-- Settles O44: the turn tests `stopping` and the clock; the step rewrites EN and `stopping` only. -/
theorem stopCompletion : Obligations.StopCompletion := by
  unfold Obligations.StopCompletion
  intro b x s
  refine ⟨fun h => ?_, fun h => if_neg fun he => h (stopEnabled_iff.1 he)⟩
  have hstep : stopTurn b x s = stopStep b x s := if_pos (stopEnabled_iff.2 h)
  rw [hstep]
  refine ⟨rfl, (enOf_toWord _).trans ?_⟩
  simp [stopStep]

/-! ## A channel replaced, and with it whatever a transfer touches -/

/-- u is s with the channel's registers r and engine e, and anything in memory, the record of peripheral accesses and the
environment. -/
def State.WithChannel (s : State) (b : Blk) (x : Ch) (r : ChanRegs) (e : Engine) (u : State) : Prop :=
  ∃ m log env, u = { (s.setRegs b x r).setEngine b x e with mem := m, periphLog := log, env := env }

namespace State.WithChannel

variable {r r' : ChanRegs} {e e' : Engine} (hu : s.WithChannel b x r e u)

theorem self (s : State) (b : Blk) (x : Ch) : s.WithChannel b x (s.regs b x) (s.engine b x) s :=
  ⟨s.mem, s.periphLog, s.env, by simp⟩

include hu

theorem regs : u.regs b x = r := by
  obtain ⟨m, log, env, rfl⟩ := hu
  exact State.regs_setRegs_self s b x r

theorem engine : u.engine b x = e := by
  obtain ⟨m, log, env, rfl⟩ := hu
  exact State.engine_setEngine_self _ b x e

/-- The clock gates and the launch parameters are those of s. -/
theorem plat : u.clkEn = s.clkEn ∧ u.plat = s.plat := by
  obtain ⟨m, log, env, rfl⟩ := hu
  exact ⟨rfl, rfl⟩

theorem trans (ht : u.WithChannel b x r' e' t) : s.WithChannel b x r' e' t := by
  obtain ⟨m, log, env, rfl⟩ := ht
  obtain ⟨m', log', env', rfl⟩ := hu
  refine ⟨m, log, env, ?_⟩
  have hset : (s.setRegs b x r').setEngine b x e' =
      (((s.setRegs b x r).setEngine b x e).setRegs b x r').setEngine b x e' := by simp
  rw [hset]
  rfl

end State.WithChannel

/-! ## What an element moves (R353 to R355) -/

/-- A value's n low bytes are its own bytes. -/
theorem extractLsb'_lowBytes (v : Word) {n k : Nat} (hk : k < n) :
    (lowBytes n v).extractLsb' (8 * k) 8 = v.extractLsb' (8 * k) 8 := by
  apply BitVec.eq_of_getLsbD_eq
  intro i hi
  have hlow : 8 * k + i < 8 * n := by omega
  have hword : 32 ≤ 8 * k + i → v.getLsbD (8 * k + i) = false := BitVec.getLsbD_of_ge v _
  simp only [lowBytes, BitVec.getLsbD_extractLsb', BitVec.getLsbD_setWidth, hi, hlow, decide_true, Bool.true_and]
  by_cases h : 8 * k + i < 32
  · simp [h]
  · simp [hword (by omega)]

@[simp] theorem lowBytes_lowBytes (n : Nat) (v : Word) : lowBytes n (lowBytes n v) = lowBytes n v := by
  apply BitVec.eq_of_getLsbD_eq
  intro i hi
  simp only [lowBytes, BitVec.getLsbD_setWidth]
  cases decide (i < 32) <;> cases decide (i < 8 * n) <;> simp

theorem accessOk_iff :
    accessOk b x n s = true ↔ s.periphAdmit (s.engine b x).curPa n = true ∧ s.memAdmit (s.engine b x).curMa n = true := by
  simp only [accessOk, Bool.and_eq_true]

/-- An element step whose accesses are admitted moves the element, then updates its channel (R353). -/
theorem elementStep_admitted (h : accessOk b x (s.regs b x).ccr.elemBytes s = true) :
    elementStep b x s =
      ((moveElement b x (s.regs b x).ccr.elemBytes s).setRegs b x
        (elementRegs s.htOdd (s.engine b x) (s.regs b x))).setEngine b x
        (elementEngine (s.regs b x) (s.engine b x)) := if_pos h

theorem elementStep_channel (h : accessOk b x (s.regs b x).ccr.elemBytes s = true) :
    s.WithChannel b x (elementRegs s.htOdd (s.engine b x) (s.regs b x)) (elementEngine (s.regs b x) (s.engine b x))
      (elementStep b x s) := by
  obtain ⟨m, log, env, hm⟩ := moveElement_eq b x (s.regs b x).ccr.elemBytes s
  rw [elementStep_admitted h, hm]
  exact ⟨m, log, env, rfl⟩

/-- DIR = 0: the drawn value is recorded as read and stored at the current memory address (R354, R358). -/
theorem moveElement_fromPeriph (hd : (s.regs b x).ccr.dir = false) (hv : s.env.values = v :: vs) :
    moveElement b x n s =
      { s with
        mem := memWrite s.mem (s.engine b x).curMa n (lowBytes n v)
        periphLog := s.periphLog ++ [⟨b, x, false, (s.engine b x).curPa, n, lowBytes n v⟩]
        env := { s.env with values := vs } } := by
  simp [moveElement, hd, periphRead, State.drawValue_cons s hv]

/-- DIR = 1: what the engine's load gives is recorded as written at the current peripheral address (R355). -/
theorem moveElement_toPeriph (hd : (s.regs b x).ccr.dir = true) :
    moveElement b x n s =
      periphWrite b x (s.engine b x).curPa n (engineLoad b x (s.engine b x).curMa n s).1
        (engineLoad b x (s.engine b x).curMa n s).2 := if_pos hd

/-- An engine's load of bytes one of which it need not see, or was disturbed, is open (R163, R75). -/
def State.loadOpen (s : State) (b : Blk) (x : Ch) (a : Word) (n : Nat) : Prop :=
  ∃ k, k < n ∧ ((a + BitVec.ofNat 32 k).toNat ∈ (s.engine b x).unseen ∨
    (a + BitVec.ofNat 32 k).toNat ∈ (s.holder b x).disturbed)

theorem loadOpen_iff {a : Word} :
    (touches a n (s.engine b x).unseen || touches a n (s.holder b x).disturbed) = true ↔ s.loadOpen b x a n := by
  simp only [Bool.or_eq_true, touches_iff, State.loadOpen, and_or_left, exists_or]

theorem engineLoad_memory {a : Word} (h : ¬s.loadOpen b x a n) : engineLoad b x a n s = (memRead s.mem a n, s) :=
  if_neg fun ht => h (loadOpen_iff.1 ht)

theorem engineLoad_draw {a : Word} (h : s.loadOpen b x a n) (hv : s.env.values = v :: vs) :
    engineLoad b x a n s = (lowBytes n v, { s with env := { s.env with values := vs } }) := by
  rw [engineLoad, if_pos (loadOpen_iff.2 h), State.drawValue_cons s hv]

/-- Settles O39: the element's store is one `MemWrite` of the drawn value, at most eight bytes long. -/
theorem elementFromPeripheral : Obligations.ElementFromPeripheral := by
  unfold Obligations.ElementFromPeripheral
  intro b x v vs s r e n hd _ hp hm hv t
  have ht : t.mem = memWrite s.mem e.curMa n (lowBytes n v) ∧
      t.periphLog = s.periphLog ++ [⟨b, x, false, e.curPa, n, lowBytes n v⟩] ∧
      t.env = { s.env with values := vs } := by
    simp only [t, elementStep_admitted (accessOk_iff.2 ⟨hp, hm⟩), moveElement_fromPeriph hd hv]
    exact ⟨rfl, rfl, rfl⟩
  obtain ⟨hmem, hlog, henv⟩ := ht
  have hn : n ≤ 8 := Nat.pow_le_pow_right (n := 2) (by decide) (Nat.le_of_lt_succ r.ccr.psize.isLt)
  refine ⟨fun k hk => ?_, fun a ha => ?_, hlog, henv⟩
  · rw [hmem, memWrite_byteAt_inside n s.mem e.curMa _ k hk hn, setWidth_shiftRight_eq_extractLsb',
      extractLsb'_lowBytes v hk]
  · rw [hmem]
    refine memWrite_byteAt_outside n s.mem e.curMa _ a fun h => ?_
    obtain ⟨k, hk, he⟩ := mem_byteAddrs.1 h
    exact ha k hk he.symm

/-- Settles O40: the value recorded is that of the engine's load: memory's, or a draw where the load is open. -/
theorem elementToPeripheral : Obligations.ElementToPeripheral := by
  unfold Obligations.ElementToPeripheral
  intro b x s r e n written hd hp hm t disturbed unseen
  have hopen : unseen ↔ s.loadOpen b x e.curMa n := by
    have hdist : disturbed = (s.holder b x).disturbed := by
      simp only [disturbed]
      cases s.holder b x <;> rfl
    simp only [unseen, hdist]
    rfl
  have ht : t = (((periphWrite b x e.curPa n (engineLoad b x e.curMa n s).1 (engineLoad b x e.curMa n s).2).setRegs b x
      (elementRegs s.htOdd e r)).setEngine b x (elementEngine r e)) := by
    simp only [t, elementStep_admitted (accessOk_iff.2 ⟨hp, hm⟩), moveElement_toPeriph hd]
    rfl
  refine ⟨?_, fun h => ?_, fun v vs h hv => ?_⟩
  · obtain ⟨env, he⟩ := engineLoad_eq b x e.curMa n s
    rw [ht, he]
    rfl
  · rw [ht, engineLoad_memory (mt hopen.2 h)]
    exact ⟨rfl, rfl⟩
  · rw [ht, engineLoad_draw (hopen.1 h) hv]
    refine ⟨?_, rfl⟩
    change s.periphLog ++ [(⟨b, x, true, e.curPa, n, lowBytes n (lowBytes n v)⟩ : PeriphEvent)] = _
    rw [lowBytes_lowBytes]
    rfl

/-! ## What an element does to its channel (R357 to R365) -/

theorem ndt_sub_one_toNat {ndt : BitVec 16} (h : 0 < ndt.toNat) : (ndt - 1#16).toNat = ndt.toNat - 1 :=
  BitVec.toNat_sub_of_le (show (1#16).toNat ≤ ndt.toNat from h)

theorem ndt_sub_one_eq_zero {ndt : BitVec 16} (h : 0 < ndt.toNat) : ndt - 1#16 = 0#16 ↔ ndt.toNat - 1 = 0 := by
  rw [← BitVec.toNat_inj, ndt_sub_one_toNat h]
  rfl

/-- The next element is the last one before a circular reload (R362). -/
def ChanRegs.reloadsNext (r : ChanRegs) : Prop := r.ndt.toNat - 1 = 0 ∧ r.ccr.circ = true

section

variable {r : ChanRegs} (h : 0 < r.ndt.toNat) (odd : HtOdd) (e : Engine)

include h

theorem reloadsNext_iff : (decide (r.ndt - 1#16 = 0#16) && r.ccr.circ) = true ↔ r.reloadsNext := by
  rw [Bool.and_eq_true, decide_eq_true_eq, ndt_sub_one_eq_zero h, ChanRegs.reloadsNext]

theorem elementRegs_htif :
    (elementRegs odd e r).htif = (r.htif || decide (r.ndt.toNat - 1 = halfPoint odd e.ndtReload.toNat)) := by
  simp only [elementRegs, ndt_sub_one_toNat h]

theorem elementRegs_tcif : (elementRegs odd e r).tcif = (r.tcif || decide (r.ndt.toNat - 1 = 0)) := by
  simp only [elementRegs, ndt_sub_one_eq_zero h]

theorem elementRegs_ndt_reload (hr : r.reloadsNext) : (elementRegs odd e r).ndt = e.ndtReload :=
  if_pos ((reloadsNext_iff h).2 hr)

theorem elementRegs_ndt_down (hr : ¬r.reloadsNext) : (elementRegs odd e r).ndt = r.ndt - 1#16 :=
  if_neg fun hd => hr ((reloadsNext_iff h).1 hd)

theorem elementEngine_reload (hr : r.reloadsNext) :
    elementEngine r e = { e with curPa := r.cpar, curMa := r.cmar, stopping := false } :=
  if_pos ((reloadsNext_iff h).2 hr)

theorem elementEngine_advance (hr : ¬r.reloadsNext) :
    elementEngine r e =
      { e with
        curPa := if r.ccr.pinc then e.curPa + BitVec.ofNat 32 r.ccr.elemBytes else e.curPa
        curMa := if r.ccr.minc then e.curMa + BitVec.ofNat 32 r.ccr.elemBytes else e.curMa
        stopping := false } := if_neg fun hd => hr ((reloadsNext_iff h).1 hd)

end

/-- With no stop in progress an element changes the count, HTIF and TCIF only. -/
theorem elementRegs_running (odd : HtOdd) {e : Engine} (r : ChanRegs) (h : e.stopping = false) :
    elementRegs odd e r =
      { r with
        ndt := (elementRegs odd e r).ndt
        htif := (elementRegs odd e r).htif
        tcif := (elementRegs odd e r).tcif } := by
  simp [elementRegs, h]

/-- The reload count and the unseen bytes outlive an element. -/
theorem elementEngine_kept (r : ChanRegs) (e : Engine) :
    (elementEngine r e).ndtReload = e.ndtReload ∧ (elementEngine r e).unseen = e.unseen := by
  unfold elementEngine
  dsimp only
  split <;> exact ⟨rfl, rfl⟩

/-- Settles O41: the channel after the step is `elementRegs` and `elementEngine`, whose reload is a case of its own. -/
theorem elementCountsAndFlags : Obligations.ElementCountsAndFlags := by
  unfold Obligations.ElementCountsAndFlags
  intro b x s r e n N left half hleft hp hm r' e'
  have hstep := elementStep_channel (accessOk_iff.2 ⟨hp, hm⟩)
  obtain ⟨hkeep, hseen⟩ := elementEngine_kept r e
  rw [show r' = elementRegs s.htOdd e r from hstep.regs, show e' = elementEngine r e from hstep.engine]
  refine ⟨elementRegs_htif hleft _ e, elementRegs_tcif hleft _ e, rfl, rfl, elementEngine_stopping r e, hkeep, hseen,
    fun hr => ?_, fun hr => ?_⟩
  · rw [elementEngine_reload hleft e hr]
    exact ⟨elementRegs_ndt_reload hleft _ e hr, rfl, rfl⟩
  · rw [elementEngine_advance hleft e hr, elementRegs_ndt_down hleft _ e hr]
    exact ⟨ndt_sub_one_toNat hleft, rfl, rfl⟩

/-! ## The frame of an engine's turn (R351) -/

/-- The registers and fields that no engine step writes. -/
theorem EngineRegs.config {r r' : ChanRegs} (h : EngineRegs r r') :
    r'.ccr.ie = r.ccr.ie ∧ r'.ccr.cfg = r.ccr.cfg ∧ r'.cpar = r.cpar ∧ r'.cmar = r.cmar ∧ r'.cxs = r.cxs := by
  cases h <;> exact ⟨rfl, rfl, rfl, rfl, rfl⟩

/-- A turn of another channel's engine leaves this channel alone. -/
theorem engineTurn_other (h : t = elementTurn b x lines s ∨ t = stopTurn b x s) {c : Blk} {y : Ch}
    (hc : ¬(c = b ∧ y = x)) : t.regs c y = s.regs c y ∧ t.engine c y = s.engine c y := by
  obtain ⟨-, hregs⟩ := engineTurn_regs h
  refine ⟨hregs c y hc, ?_⟩
  obtain ⟨r, e, m, log, env, -, rfl⟩ := engineTurn_eq h
  exact State.engine_setEngine_ne _ e hc

/-- Settles O43: an engine's turn sets its own channel's registers, engine, memory, the record and the environment. -/
theorem engineFrame : Obligations.EngineFrame := by
  unfold Obligations.EngineFrame
  intro b x lines s t h
  have hother := fun c y (hc : ¬(c = b ∧ y = x)) => engineTurn_other h hc
  obtain ⟨hconfig, -⟩ := engineTurn_regs h
  obtain ⟨r, e, m, log, env, -, rfl⟩ := engineTurn_eq h
  exact ⟨rfl, rfl, rfl, rfl, rfl, rfl, hother, hconfig.config⟩

end

/-! ## A pass of a circular channel (R369) -/

/-- The registers after k elements of a pass that began with r. -/
def ChanRegs.inPass (r : ChanRegs) (h k : Nat) : ChanRegs :=
  { r with ndt := r.ndt - BitVec.ofNat 16 k, htif := r.htif || decide (h ≤ k) }

/-- The engine after k elements of a pass of a channel with registers r that began with e. -/
def Engine.inPass (e : Engine) (r : ChanRegs) (k : Nat) : Engine :=
  { e with curMa := r.cmar + BitVec.ofNat 32 (k * r.ccr.elemBytes) }

/-- A running CircBuffer channel at the start of a pass over 2h elements. -/
structure PassStart (h : Nat) (r : ChanRegs) (e : Engine) : Prop where
  pos : 0 < h
  en : r.ccr.en = true
  circ : r.ccr.circ = true
  minc : r.ccr.minc = true
  pinc : r.ccr.pinc = false
  ndt : r.ndt.toNat = 2 * h
  reload : e.ndtReload = r.ndt
  curMa : e.curMa = r.cmar
  curPa : e.curPa = r.cpar
  stopping : e.stopping = false

namespace PassStart

variable {h k : Nat} {r : ChanRegs} {e : Engine} (hs : PassStart h r e)

include hs

theorem inPass_zero : r.inPass h 0 = r ∧ e.inPass r 0 = e := by
  have hpos : h ≠ 0 := Nat.pos_iff_ne_zero.1 hs.pos
  exact ⟨by simp [ChanRegs.inPass, hpos], by simp [Engine.inPass, ← hs.curMa]⟩

theorem inPass_ndt (hk : k < 2 * h) : (r.inPass h k).ndt.toNat = 2 * h - k := by
  have hndt := hs.ndt
  have hlt := r.ndt.isLt
  have hof : (BitVec.ofNat 16 k).toNat = k := by
    rw [BitVec.toNat_ofNat, Nat.mod_eq_of_lt (by omega)]
  change (r.ndt - BitVec.ofNat 16 k).toNat = _
  rw [BitVec.toNat_sub_of_le (show (BitVec.ofNat 16 k).toNat ≤ _ by omega), hof, hndt]

theorem inPass_ndt_pos (hk : k < 2 * h) : 0 < (r.inPass h k).ndt.toNat := by
  rw [hs.inPass_ndt hk]
  omega

theorem inPass_reloadsNext (hk : k < 2 * h) : (r.inPass h k).reloadsNext ↔ k + 1 = 2 * h := by
  have hcirc : (r.inPass h k).ccr.circ = true := hs.circ
  rw [ChanRegs.reloadsNext, hs.inPass_ndt hk, and_iff_left hcirc]
  omega

/-- HTIF is set from the h-th element on: h is the half point of 2h (R360). -/
theorem inPass_htif (odd : HtOdd) (hk : k < 2 * h) :
    (elementRegs odd (e.inPass r k) (r.inPass h k)).htif = (r.htif || decide (h ≤ k + 1)) := by
  have hhalf : halfPoint odd (e.inPass r k).ndtReload.toNat = h := by
    simp [halfPoint, Engine.inPass, hs.reload, hs.ndt]
  have hle : decide (h ≤ k + 1) = (decide (h ≤ k) || decide (2 * h - k - 1 = h)) := by
    rw [← Bool.decide_or]
    exact decide_eq_decide.2 (by omega)
  rw [elementRegs_htif (hs.inPass_ndt_pos hk), hs.inPass_ndt hk, hhalf, hle, ← Bool.or_assoc]
  rfl

/-- TCIF is set by the last element only (R361). -/
theorem inPass_tcif (odd : HtOdd) (hk : k < 2 * h) :
    (elementRegs odd (e.inPass r k) (r.inPass h k)).tcif = (r.tcif || decide (k + 1 = 2 * h)) := by
  have hlast : decide (k + 1 = 2 * h) = decide (2 * h - k - 1 = 0) := decide_eq_decide.2 (by omega)
  rw [elementRegs_tcif (hs.inPass_ndt_pos hk), hs.inPass_ndt hk, hlast]
  rfl

/-- An element before the last one takes the registers one further in the pass. -/
theorem elementRegs_next (odd : HtOdd) (hk : k + 1 < 2 * h) :
    elementRegs odd (e.inPass r k) (r.inPass h k) = r.inPass h (k + 1) := by
  have hk' : k < 2 * h := by omega
  have hmid : ¬(r.inPass h k).reloadsNext := mt (hs.inPass_reloadsNext hk').1 hk.ne
  have hst : (e.inPass r k).stopping = false := hs.stopping
  rw [elementRegs_running odd _ hst, elementRegs_ndt_down (hs.inPass_ndt_pos hk') _ _ hmid, hs.inPass_htif odd hk',
    hs.inPass_tcif odd hk', decide_eq_false hk.ne, Bool.or_false]
  simp only [ChanRegs.inPass, BitVec.sub_sub, BitVec.ofNat_add]

theorem elementEngine_next (hk : k + 1 < 2 * h) :
    elementEngine (r.inPass h k) (e.inPass r k) = e.inPass r (k + 1) := by
  have hk' : k < 2 * h := by omega
  have hmid : ¬(r.inPass h k).reloadsNext := mt (hs.inPass_reloadsNext hk').1 hk.ne
  have hpinc : (r.inPass h k).ccr.pinc = false := hs.pinc
  have hminc : (r.inPass h k).ccr.minc = true := hs.minc
  have haddr : r.cmar + BitVec.ofNat 32 (k * r.ccr.elemBytes) + BitVec.ofNat 32 r.ccr.elemBytes =
      r.cmar + BitVec.ofNat 32 ((k + 1) * r.ccr.elemBytes) := by
    rw [BitVec.add_assoc, ← BitVec.ofNat_add, Nat.succ_mul]
  rw [elementEngine_advance (hs.inPass_ndt_pos hk') _ hmid, hpinc, hminc]
  simp only [Engine.inPass, Bool.false_eq_true, if_false, if_true, ← haddr, hs.stopping]
  rfl

end PassStart

section

variable {b : Blk} {x : Ch} {lines : List Nat} {h k : Nat} {s u : State}

/-- In state s the request of the channel is asserted, its block's clock is on, and every access of a pass over 2h
elements from CMAR is admitted. -/
structure PassAdmitted (b : Blk) (x : Ch) (lines : List Nat) (h : Nat) (s : State) : Prop where
  clk : s.clk b = true
  request : s.request b x lines = true
  periph : s.periphAdmit (s.regs b x).cpar (s.regs b x).ccr.elemBytes = true
  mem : ∀ k, k < 2 * h →
    s.memAdmit ((s.regs b x).cmar + BitVec.ofNat 32 (k * (s.regs b x).ccr.elemBytes)) (s.regs b x).ccr.elemBytes = true

namespace PassAdmitted

variable (ha : PassAdmitted b x lines h s) (hs : PassStart h (s.regs b x) (s.engine b x))

include ha hs

/-- The next element of a pass is a step that moves data. -/
theorem elementTurn_inPass (hk : k < 2 * h)
    (hu : s.WithChannel b x ((s.regs b x).inPass h k) ((s.engine b x).inPass (s.regs b x) k) u) :
    s.WithChannel b x (elementRegs s.htOdd ((s.engine b x).inPass (s.regs b x) k) ((s.regs b x).inPass h k))
      (elementEngine ((s.regs b x).inPass h k) ((s.engine b x).inPass (s.regs b x) k)) (elementTurn b x lines u) := by
  obtain ⟨hclk, hplat⟩ := hu.plat
  have hon : elementEnabled b x lines u = true := by
    have hreq := ha.request
    simp only [elementEnabled_iff, State.clk, State.request, State.reqMap, hclk, hplat, hu.regs] at hreq ⊢
    exact ⟨ha.clk, hs.en, hs.inPass_ndt_pos hk, hreq⟩
  have hok : accessOk b x (u.regs b x).ccr.elemBytes u = true := by
    have hp := ha.periph
    have hm := ha.mem k hk
    rw [← hs.curPa] at hp
    simp only [accessOk_iff, State.periphAdmit, State.memAdmit, hplat, hu.regs, hu.engine] at hp hm ⊢
    exact ⟨hp, hm⟩
  have hodd : u.htOdd = s.htOdd := by rw [State.htOdd, hplat, State.htOdd]
  have hstep := elementStep_channel hok
  rw [hu.regs, hu.engine, hodd] at hstep
  rw [elementTurn_enabled hon]
  exact hu.trans hstep

/-- The pass up to its last element. -/
theorem iterate_inPass (hk : k < 2 * h) :
    s.WithChannel b x ((s.regs b x).inPass h k) ((s.engine b x).inPass (s.regs b x) k)
      ((elementTurn b x lines)^[k] s) := by
  induction k with
  | zero =>
    obtain ⟨hregs, hengine⟩ := hs.inPass_zero
    rw [hregs, hengine]
    exact .self s b x
  | succ k ih =>
    have hnext := ha.elementTurn_inPass hs (by omega) (ih (by omega))
    rw [hs.elementRegs_next _ hk, hs.elementEngine_next hk] at hnext
    rwa [Function.iterate_succ_apply']

end PassAdmitted

end

/-- Settles O45: by induction on k the elements before the last walk through the pass; the last one reloads. -/
theorem circularPass : Obligations.CircularPass := by
  unfold Obligations.CircularPass
  intro b x lines h s r e n after hpos hclk hen hcirc hminc hpinc hndt hreload hma hpa hst hreq hp hm
  have hs : PassStart h r e := ⟨hpos, hen, hcirc, hminc, hpinc, hndt, hreload, hma, hpa, hst⟩
  have ha : PassAdmitted b x lines h s := ⟨hclk, hreq, hp, hm⟩
  refine ⟨fun k hk => ?_, ?_⟩
  · have hpass := ha.iterate_inPass hs hk
    rw [hpass.regs, hpass.engine]
    exact ⟨hs.inPass_ndt hk, rfl, rfl, rfl⟩
  · obtain ⟨k, hlast⟩ : ∃ k, k + 1 = 2 * h := ⟨2 * h - 1, by omega⟩
    have hk : k < 2 * h := by omega
    have hreloads := (hs.inPass_reloadsNext hk).2 hlast
    have hend := ha.elementTurn_inPass hs hk (ha.iterate_inPass hs hk)
    rw [← Function.iterate_succ_apply' (elementTurn b x lines), Nat.succ_eq_add_one, hlast] at hend
    rw [hend.regs, hend.engine, elementEngine_reload (hs.inPass_ndt_pos hk) _ hreloads]
    refine ⟨?_, ?_, ?_, ?_, rfl⟩
    · rw [hs.inPass_tcif _ hk, decide_eq_true hlast, Bool.or_true]
    · rw [hs.inPass_htif _ hk, decide_eq_true (by omega), Bool.or_true]
    · exact (elementRegs_ndt_reload (hs.inPass_ndt_pos hk) _ _ hreloads).trans hreload
    · rw [elementRegs_running (e := e.inPass r k) _ _ hst]
      rfl

end Sys2Proof.Machine
end

section
/-! PROOF. A stop ends (R371): until an engine step ends it, every step keeps a channel enabled and stopping and its
clock on, so the stop-completion step stays enabled; the engine step that ends the stop clears EN (R356, R364, R365). -/
namespace Sys2Proof.Machine
open Sys2Proof

/-! ## The clock stays on (R619) -/

section

variable {b : Blk} {s t : State}

/-- No instruction turns a clock off; SPLIT turns one on (R53). -/
theorem exec_clk {i : Instr} (h : exec i s = .next t) (hs : s.clk b = true) : t.clk b = true := by
  refine (exec_edits h).keeps (P := fun u => u.clk b = true) ?_ hs
  intro u v he hu
  cases he with
  | clock c =>
    rw [State.clk, clockOn, ByBlk.get_set]
    split
    · rfl
    · exact hu
  | write _ _ _ _ hr hw =>
    obtain ⟨x, ccr, n, pa, ma, e, f, rfl⟩ := wrReg_config hr hw
    exact hu
  | refuse | fault | goto | ret | fence | observe | draw | clear | select | own | handOut => exact hu

theorem step_clk (h : step s = .next t) (hs : s.clk b = true) : t.clk b = true := by
  obtain ⟨env, ht⟩ := step_taken h
  cases ht with
  | start _ i rest h => exact exec_clk h hs
  | resume i l _ h => exact exec_clk h hs
  | nothing h | word _ h | refusedAccess _ r h | load _ e v h | store _ addrs m h => exact h ▸ hs
  | engine c x lines h =>
    obtain ⟨r, e, m, log, env, -, rfl⟩ := engineTurn_eq h
    exact hs

end

/-! ## A stop in progress -/

section

variable {b c : Blk} {x y : Ch} {lines : List Nat} {s t : State}

/-- The channel is enabled and stopping. -/
def State.stopPending (s : State) (b : Blk) (x : Ch) : Prop :=
  (s.regs b x).ccr.en = true ∧ (s.engine b x).stopping = true

/-- The channel is disabled and not stopping. -/
def State.stopEnded (s : State) (b : Blk) (x : Ch) : Prop :=
  (s.engine b x).stopping = false ∧ (s.regs b x).ccr.en = false

theorem State.stopPending.of_eq (h : s.stopPending b x) (hregs : t.regs b x = s.regs b x)
    (he : t.engine b x = s.engine b x) : t.stopPending b x := by
  rwa [State.stopPending, hregs, he]

/-- A channel's registers replaced by ones with the same EN. -/
theorem State.stopPending.setRegs {r : ChanRegs} (h : s.stopPending b x) (hr : r.ccr.en = (s.regs c y).ccr.en) :
    (s.setRegs c y r).stopPending b x := by
  rw [State.stopPending, State.regs_setRegs]
  split
  next hc =>
    obtain ⟨rfl, rfl⟩ := hc
    exact ⟨hr.trans h.1, h.2⟩
  · exact h

/-! ## Instructions -/

/-- A CCR write of a stopping channel only updates its fields or is refused: it neither ends the stop nor enables the
channel again (R256). -/
theorem wrCcr_stopPending {v : Word} (h : s.stopPending b x)
    (hw : wrCcr c y v s = .ok t ∨ wrCcr c y v s = .error t) : t.stopPending b x := by
  by_cases hc : b = c ∧ x = y
  · obtain ⟨rfl, rfl⟩ := hc
    obtain ⟨hen, hst⟩ := h
    have fields : (ccrUpdated s b x v).stopPending b x := State.stopPending.setRegs ⟨hen, hst⟩ rfl
    rcases hw with hw | hw
    · rcases wrCcr_ok hw with ⟨hoff, -, -⟩ | ⟨-, -, hrun, -⟩ | ⟨-, rfl⟩
      · simp [hen] at hoff
      · simp [hst] at hrun
      · exact fields
    · rcases wrCcr_error hw with rfl | ⟨r, rfl⟩
      · exact ⟨hen, hst⟩
      · exact fields
  · have hout : (Target.channel c y).covers b x = false := by
      rw [← Bool.not_eq_true, covers_channel]
      exact hc
    obtain ⟨hregs, hengine, -⟩ := (Frame.wrCcr covers_self hw).outside b x hout
    exact h.of_eq hregs hengine

theorem Change.stopPending {i : Instr} {s₀ : State} (h : Change i s₀ s t) (hs : s.stopPending b x) :
    t.stopPending b x := by
  cases h with
  | ccr _ _ _ _ _ h => exact wrCcr_stopPending hs h
  | cndtr c y v =>
    unfold State.wrCndtr
    dsimp only
    split
    · exact hs
    · exact hs.setRegs rfl
  | cpar _ _ _ _ _ h | cmar _ _ _ _ _ h =>
    simp only [wrCpar, wrCmar] at h
    split at h <;> cases h
    exact hs.setRegs rfl
  | ifcr c v =>
    rw [State.stopPending, State.regs_wrIfcr]
    split
    next hc => exact hc ▸ hs
    · exact hs
  | cselr c v =>
    rw [State.stopPending, State.regs_wrCselr]
    split
    next hc => exact hc ▸ hs
    · exact hs
  | act =>
    obtain ⟨e, he⟩ := State.drawAct_eq s
    rw [he]
    exact hs
  | load _ _ _ _ h =>
    obtain ⟨-, -, e, v, rfl, -⟩ := ctlLoad_ok h
    exact hs
  | refuse | fault | goto | ret | fence | observe | holder | clock | handOut => exact hs

theorem exec_stopPending {i : Instr} (hs : s.stopPending b x) (h : exec i s = .next t) : t.stopPending b x := by
  have hc := exec_changes h
  clear h
  induction hc with
  | refl => exact hs
  | tail _ hc ih => exact hc.stopPending ih

/-! ## Engines -/

/-- An element step ends its channel's stop and clears EN: by the moved element (R365) or by a transfer error (R356). -/
theorem elementStep_stopEnded (h : s.stopPending b x) : (elementStep b x s).stopEnded b x := by
  obtain ⟨-, hst⟩ := h
  cases hok : accessOk b x (s.regs b x).ccr.elemBytes s
  · simp [elementStep, hok, transferError, State.stopEnded]
  · have hstep := elementStep_channel hok
    rw [State.stopEnded, hstep.regs, hstep.engine]
    exact ⟨elementEngine_stopping _ _, by simp [elementRegs, hst]⟩

/-- An engine's turn leaves the channel stopping or ends its stop. -/
theorem engineTurn_stopPending (hs : s.stopPending b x) (h : t = elementTurn c y lines s ∨ t = stopTurn c y s) :
    t.stopPending b x ∨ t.stopEnded b x := by
  by_cases hc : b = c ∧ x = y
  · obtain ⟨rfl, rfl⟩ := hc
    rcases h with rfl | rfl
    · unfold elementTurn
      split
      · exact .inr (elementStep_stopEnded hs)
      · exact .inl hs
    · unfold stopTurn
      split
      · exact .inr (by simp [stopStep, State.stopEnded])
      · exact .inl hs
  · obtain ⟨hregs, hengine⟩ := engineTurn_other h hc
    exact .inl (hs.of_eq hregs hengine)

/-! ## Every step -/

theorem step_stopPending (hs : s.stopPending b x) (h : step s = .next t) :
    t.stopPending b x ∨ t.stopEnded b x := by
  obtain ⟨env, ht⟩ := step_taken h
  generalize hu : ({ s with env := env } : State) = u at ht
  replace hs : u.stopPending b x := hu ▸ hs
  cases ht with
  | start _ i rest h => exact .inl (exec_stopPending (s := { u with prog := rest }) hs h)
  | resume i l _ h => exact .inl (exec_stopPending hs h)
  | nothing h | word _ h | refusedAccess _ r h | load _ e v h | store _ addrs m h => exact .inl (h ▸ hs)
  | engine c y lines h => exact engineTurn_stopPending hs h

/-- Along a run a stop stays in progress, the clock on, until it has ended. -/
theorem IsRun.stopPending_or_ended {r : Nat → State} {k j : Nat} (hr : IsRun r) (hclk : (r k).clk b = true)
    (hs : (r k).stopPending b x) (hj : k ≤ j) :
    ((r j).clk b = true ∧ (r j).stopPending b x) ∨ ∃ m, k < m ∧ (r m).stopEnded b x := by
  induction j, hj using Nat.le_induction with
  | base => exact .inl ⟨hclk, hs⟩
  | succ j hj ih =>
    rcases ih with ⟨hclk, hs⟩ | hend
    · rcases step_stopPending hs (hr j) with hs | hend
      · exact .inl ⟨step_clk (hr j) hclk, hs⟩
      · exact .inr ⟨j + 1, by omega, hend⟩
    · exact .inr hend

end

/-- Settles O60: fairness gives a point where the stop-completion step is not enabled; the stop is over by then. -/
theorem stopsEventually : Obligations.StopsEventually := by
  unfold Obligations.StopsEventually
  intro r hr hfair b x k hlegal hclk hst
  obtain ⟨-, hen⟩ := hlegal b x
  obtain ⟨j, hj, hoff⟩ := hfair b x k
  rcases hr.stopPending_or_ended hclk ⟨hen hst, hst⟩ hj with ⟨hclk, -, hst⟩ | hend
  · simp [stopEnabled_iff.2 ⟨hclk, hst⟩] at hoff
  · exact hend

end Sys2Proof.Machine
end

section
/-! PROOF. The object that an operation works on holds its channel as long as the operation is in progress (R400, R459,
R500). A micro-step is followed through its meaning: once ownership is checked nothing takes the channel away but the
return of the operation. -/
namespace Sys2Proof.Machine
open Sys2Proof

/-! ## Owners of the kind an operation needs -/

/-- Channel (b, x) is held by an owner of the kind needed. -/
def State.heldFor (s : State) (n : Needs) (b : Blk) (x : Ch) : Prop := n.metBy (s.holder b x) = true

/-- No operation is in progress, or channel (b, x) is held by an owner of the kind needed. -/
def State.idleOrHeld (s : State) (n : Needs) (b : Blk) (x : Ch) : Prop := s.seq = .idle ∨ s.heldFor n b x

theorem State.heldFor.of_owner {s t : State} {n : Needs} {b : Blk} {x : Ch} (h : s.heldFor n b x)
    (ht : t.owner = s.owner) : t.heldFor n b x := by
  rwa [State.heldFor, State.holder, ht]

/-- A store of the program leaves every owner's kind alone (R75). -/
theorem Needs.metBy_disturb (n : Needs) (l : List Nat) (o : Owner) : n.metBy (o.disturb l) = n.metBy o := by
  cases o <;> cases n <;> rfl

/-- A register write leaves every owner alone. -/
theorem wrReg_owner {b : Blk} {r : Reg} {v : Word} {s t : State}
    (h : wrReg b r v s = .ok t ∨ wrReg b r v s = .error t) : t.owner = s.owner := by
  by_cases hr : r ≠ .ifcr ∧ r ≠ .cselr
  · obtain ⟨y, ccr, n, pa, ma, e, f, rfl⟩ := wrReg_config hr h
    rfl
  · obtain rfl | rfl : r = .ifcr ∨ r = .cselr := by tauto
    all_goals
      unfold wrReg clocked at h
      split at h <;> rcases h with h | h <;> cases h <;> rfl

/-! ## Micro-steps that keep the channel held -/

/-- Where this outcome is a next state, the operation has returned or its channel is held by the owner needed. -/
def KeepsHeld (n : Needs) (b : Blk) (x : Ch) (o : Out) : Prop := ∀ t, o = .next t → t.idleOrHeld n b x

namespace KeepsHeld

variable {n : Needs} {b c : Blk} {x : Ch} {u : State} {op : Instr} {l : Label}

theorem next (h : u.idleOrHeld n b x) : KeepsHeld n b x (.next u) := by
  rintro t ⟨⟩
  exact h

theorem stray : KeepsHeld n b x (.refused .strayLabel) := by rintro t ⟨⟩

theorem goOn (h : u.heldFor n b x) : KeepsHeld n b x (goOn u op l) := next (.inr h)

theorem retOp {r : Result} : KeepsHeld n b x (retOp u r) := next (.inl rfl)

theorem refuseOp (h : u.idleOrHeld n b x) (r : RefuseReason) : KeepsHeld n b x (refuseOp u r) := next h

theorem check (h : u.idleOrHeld n b x) {ok : Bool} {r : RefuseReason} {k : Out} (hk : KeepsHeld n b x k) :
    KeepsHeld n b x (check ok r u k) := by
  cases ok
  · exact refuseOp h r
  · exact hk

theorem handle (h : u.idleOrHeld .handle b x) {k : Out} (hk : u.heldFor .handle b x → KeepsHeld .handle b x k) :
    KeepsHeld .handle b x (needHandle b x u k) := by
  intro t ht
  rcases needHandle_next ht with ⟨ho, ht⟩ | rfl
  · exact hk (by simp [State.heldFor, ho, Needs.metBy]) t ht
  · exact h

theorem circ (h : u.idleOrHeld .circ b x) {k : CircRec → Out}
    (hk : ∀ cb, u.heldFor .circ b x → KeepsHeld .circ b x (k cb)) : KeepsHeld .circ b x (needCirc b x u k) := by
  intro t ht
  rcases needCirc_next ht with ⟨cb, ho, ht⟩ | rfl
  · exact hk cb (by simp [State.heldFor, ho, Needs.metBy]) t ht
  · exact h

theorem xfer (h : u.idleOrHeld .xfer b x) {k : XferRec → Out}
    (hk : ∀ r, u.heldFor .xfer b x → KeepsHeld .xfer b x (k r)) : KeepsHeld .xfer b x (needXfer b x u k) := by
  intro t ht
  rcases needXfer_next ht with ⟨r, ho, ht⟩ | rfl
  · exact hk r (by simp [State.heldFor, ho, Needs.metBy]) t ht
  · exact h

theorem read (h : u.heldFor n b x) {r : Reg} {k : Word → State → Out}
    (hk : ∀ v w, w.heldFor n b x → KeepsHeld n b x (k v w)) : KeepsHeld n b x (onRead (rdReg c r u) k) := by
  intro t ht
  rcases onRead_next ht with ⟨v, w, hr, ht⟩ | hr
  · obtain ⟨-, -, rfl⟩ := rdReg_ok hr
    exact hk v _ (by exact h) t ht
  · obtain ⟨-, rfl⟩ := rdReg_error hr
    exact .inr h

theorem write (h : u.heldFor n b x) {r : Reg} {v : Word} {k : State → Out}
    (hk : ∀ w, w.heldFor n b x → KeepsHeld n b x (k w)) : KeepsHeld n b x (onDone (wrReg c r v u) k) := by
  intro t ht
  rcases onDone_next ht with ⟨w, hw, ht⟩ | hw
  · exact hk w (h.of_owner (wrReg_owner (.inl hw))) t ht
  · exact .inr (h.of_owner (wrReg_owner (.inr hw)))

theorem consume (h : u.heldFor n b x) {here : Label} {cb : CircRec} {r : Half} {lo hi : Nat}
    {k : Option (Nat × Word) → State → Out} (hk : ∀ out w, w.heldFor n b x → KeepsHeld n b x (k out w)) :
    KeepsHeld n b x (consume op here cb r lo hi u k) := by
  intro t ht
  rcases consume_next ht with ⟨e, v, rfl | ⟨r, rfl⟩⟩ | ⟨out, e, ht⟩
  · exact .inr h
  · exact .inr h
  · exact hk out { u with env := e } h t ht

theorem sequenced (h : u.idleOrHeld n b x) {start : Out} {resume : Label → Out} (hs : KeepsHeld n b x start)
    (hr : ∀ l, u.heldFor n b x → KeepsHeld n b x (resume l)) : KeepsHeld n b x (sequenced op u start resume) := by
  intro t ht
  obtain ⟨-, ⟨-, ht⟩ | ⟨l, hl, ht⟩⟩ := sequenced_next ht
  · exact hs t ht
  · exact hr l (h.resolve_left (by simp [hl])) t ht

theorem single (h : u.idleOrHeld n b x) {start : Out} (hs : KeepsHeld n b x start) :
    KeepsHeld n b x (single op u start) := sequenced h hs fun _ _ => stray

/-! ### The shapes shared by the meanings -/

theorem readGoOn {r : Reg} {l : Word → Label} (h : u.heldFor n b x) :
    KeepsHeld n b x (onRead (rdReg c r u) fun v s1 => Machine.goOn s1 op (l v)) := read h fun _ _ hw => goOn hw

theorem readRet {r : Reg} {res : Word → Result} (h : u.heldFor n b x) :
    KeepsHeld n b x (onRead (rdReg c r u) fun v s1 => Machine.retOp s1 (res v)) := read h fun _ _ _ => retOp

theorem writeGoOn {r : Reg} {v : Word} (h : u.heldFor n b x) :
    KeepsHeld n b x (onDone (wrReg c r v u) fun s1 => Machine.goOn s1 op l) := write h fun _ hw => goOn hw

theorem writeRet {r : Reg} {v : Word} {res : Result} (h : u.heldFor n b x) :
    KeepsHeld n b x (onDone (wrReg c r v u) fun s1 => Machine.retOp s1 res) := write h fun _ _ => retOp

theorem readOp (h : u.idleOrHeld .handle b x) {r : Reg} {res : Word → Result} :
    KeepsHeld .handle b x (readOp op b x r res u) := single h (handle h readRet)

theorem writeOp (h : u.idleOrHeld .handle b x) {r : Reg} {v : Word} :
    KeepsHeld .handle b x (writeOp op b x r v u) := single h (handle h writeRet)

theorem armStart {es : ESize} {len : Nat} {base paddr : Word} (h : u.heldFor n b x) :
    KeepsHeld n b x (armStart op b x es len base paddr u) := by
  refine check (.inr h) <| check (.inr h) <| check (.inr h) <| read h fun _ _ hw => ?_
  split
  · exact refuseOp (.inr hw) _
  · exact goOn hw

/-- The micro-steps A2 to A9: the owner changes at A9 only, with the return. -/
theorem armResume (h : u.heldFor n b x) {base paddr : Word} {count : BitVec 16} {cfg : BitVec 11} {own : Owner}
    {res : Result} (l : Label) : KeepsHeld n b x (armResume op b x base paddr count cfg own res u l) := by
  cases l
  case a2 | a3 | a4 | a5 | a7 => exact writeGoOn h
  case a6 => exact goOn h
  case a8 => exact readGoOn h
  case a9 => exact retOp
  all_goals exact stray

theorem armOneShot (h : u.idleOrHeld .handle b x) {size pl : BitVec 2} {cnt : BitVec 16} {base paddr payload : Word}
    {mode : XferMode} : KeepsHeld .handle b x (armOneShot op b x size pl cnt base paddr payload mode u) := by
  unfold Machine.armOneShot
  split
  · exact single h (refuseOp h _)
  · exact sequenced h (handle h armStart) fun l hu => armResume hu l

/-- H1: the flags are read, and the operation goes on from what they say. -/
theorem halfRead (h : u.heldFor n b x) {cb : CircRec} {k : HalfChoice → State → Out}
    (hk : ∀ choice w, w.heldFor n b x → KeepsHeld n b x (k choice w)) : KeepsHeld n b x (halfRead b x cb u k) :=
  read h fun _ w hw => hk _ w hw

/-- H2: the half is flipped in a CircBuffer that stays one. -/
theorem halfFlip (h : u.heldFor .circ b x) {cb : CircRec} {r : Half} {k : State → Out}
    (hk : ∀ w, w.heldFor .circ b x → KeepsHeld .circ b x (k w)) : KeepsHeld .circ b x (halfFlip b x cb r u k) :=
  write h fun _ _ => hk _ (by simp [State.heldFor, Needs.metBy])

theorem readWritten (h : u.heldFor n b x) {t : XferRec} {k : Nat → State → Out}
    (hk : ∀ m w, w.heldFor n b x → KeepsHeld n b x (k m w)) : KeepsHeld n b x (readWritten op b x t u k) := by
  refine read h fun v w hw => ?_
  dsimp only
  split
  · exact next (.inr hw)
  · exact hk _ w hw

end KeepsHeld

/-! ## Every operation on a channel -/

section

variable {b : Blk} {x : Ch} {s : State}

theorem execListen_keepsHeld (h : s.idleOrHeld .handle b x) (ev : Event) :
    KeepsHeld .handle b x (execListen b x ev s) := by
  refine .sequenced h (.handle h .readGoOn) fun l hs => ?_
  cases l
  case l2 => exact .writeRet hs
  all_goals exact .stray

theorem execUnlisten_keepsHeld (h : s.idleOrHeld .handle b x) (ev : Event) :
    KeepsHeld .handle b x (execUnlisten b x ev s) := by
  refine .sequenced h (.handle h .readGoOn) fun l hs => ?_
  cases l
  case l2 => exact .writeRet hs
  all_goals exact .stray

theorem execSelectRequest_keepsHeld (h : s.idleOrHeld .handle b x) (imm : BitVec 16) :
    KeepsHeld .handle b x (execSelectRequest b x imm s) := by
  refine .sequenced h (.check h (.handle h .readGoOn)) fun l hs => ?_
  cases l
  case q2 => exact .writeRet hs
  all_goals exact .stray

theorem execConfigure_keepsHeld (h : s.idleOrHeld .handle b x) (imm : BitVec 16) :
    KeepsHeld .handle b x (execConfigure b x imm s) := by
  refine .sequenced h (.check h (.handle h .readGoOn)) fun l hs => ?_
  cases l
  case k2 => exact .writeRet hs
  all_goals exact .stray

theorem execStart_keepsHeld (h : s.idleOrHeld .handle b x) : KeepsHeld .handle b x (execStart b x s) := by
  refine .sequenced h (.handle h .readGoOn) fun l hs => ?_
  cases l
  case e2 => exact .goOn hs
  case e3 => exact .writeGoOn hs
  case e4 => exact .readGoOn hs
  case e5 => exact .retOp
  all_goals exact .stray

theorem execStop_keepsHeld (h : s.idleOrHeld .handle b x) : KeepsHeld .handle b x (execStop b x s) := by
  refine .sequenced h (.handle h .readGoOn) fun l hs => ?_
  cases l
  case k2 => exact .writeGoOn hs
  case k3 => exact .readGoOn hs
  case k4 => exact .retOp
  all_goals exact .stray

theorem execCircRead_keepsHeld (h : s.idleOrHeld .handle b x) (size pl : BitVec 2) (n : BitVec 16)
    (base paddr : Word) : KeepsHeld .handle b x (execCircRead b x size pl n base paddr s) := by
  unfold execCircRead
  dsimp only
  split
  · exact .single h (.refuseOp h _)
  · exact .sequenced h (.handle h fun hs => .check (.inr hs) (.armStart hs)) fun l hs => .armResume hs l

theorem execReadableHalf_keepsHeld (h : s.idleOrHeld .circ b x) : KeepsHeld .circ b x (execReadableHalf b x s) := by
  refine .sequenced h (.circ h fun cb hs => .halfRead hs fun choice w hw => ?_) fun l hs => ?_
  · cases choice
    case flip => exact .goOn hw
    all_goals exact .retOp
  · cases l
    case h2 => exact .circ (.inr hs) fun cb hs => .halfFlip hs fun _ _ => .retOp
    all_goals exact .stray

theorem execPeek_keepsHeld (h : s.idleOrHeld .circ b x) : KeepsHeld .circ b x (execPeek b x s) := by
  refine .sequenced h (.circ h fun cb hs => .halfRead hs fun choice w hw => ?_) fun l hs => ?_
  · cases choice
    case overrun => exact .retOp
    all_goals exact .goOn hw
  · cases l
    case h2 => exact .circ (.inr hs) fun cb hs => .halfFlip hs fun _ hw => .goOn hw
    case p2 => exact .circ (.inr hs) fun cb hs => .goOn hs
    case p3 => exact .circ (.inr hs) fun cb hs => .consume hs fun _ _ hw => .goOn hw
    case p4 => exact .circ (.inr hs) fun cb _ => .retOp
    all_goals exact .stray

theorem execPartialPeek_keepsHeld (h : s.idleOrHeld .circ b x) : KeepsHeld .circ b x (execPartialPeek b x s) := by
  refine .sequenced h (.circ h fun cb hs => .read hs fun v w hw => ?_) fun l hs => ?_
  · dsimp only
    split
    · exact .next (.inr hw)
    · exact .goOn hw
  · cases l
    case r2 => exact .circ (.inr hs) fun cb hs => .goOn hs
    case r3 =>
      refine .circ (.inr hs) fun cb hs => .consume hs fun out w hw => ?_
      split
      · exact .retOp
      · split
        · exact .next (.inr hw)
        · exact .goOn hw
    case r4 => exact .circ (.inr hs) fun cb _ => .retOp
    all_goals exact .stray

/-- WAIT gives its channel back at W6 only, with the return. -/
theorem execWait_keepsHeld (h : s.idleOrHeld .xfer b x) : KeepsHeld .xfer b x (execWait b x s) := by
  refine .sequenced h (.xfer h fun _ hs => .readGoOn hs) fun l hs => ?_
  cases l
  case w1 | w3 | w5 => exact .readGoOn hs
  case w2 | w4 => exact .writeGoOn hs
  case w6 => exact .xfer (.inr hs) fun _ _ => .retOp
  all_goals exact .stray

theorem execTerminate_keepsHeld (h : s.idleOrHeld .xfer b x) : KeepsHeld .xfer b x (execTerminate b x s) := by
  refine .sequenced h (.xfer h fun _ hs => .readGoOn hs) fun l hs => ?_
  cases l
  case t2 => exact .writeGoOn hs
  case t3 => exact .readGoOn hs
  case t4 => exact .retOp
  all_goals exact .stray

theorem execXpeek_keepsHeld (h : s.idleOrHeld .xfer b x) : KeepsHeld .xfer b x (execXpeek b x s) := by
  refine .sequenced h (.xfer h fun _ hs => .check (.inr hs) (.readWritten hs fun _ _ hw => .goOn hw)) fun l hs => ?_
  cases l
  case x2 => exact .xfer (.inr hs) fun _ _ => .retOp
  all_goals exact .stray

theorem execRestart_keepsHeld (h : s.idleOrHeld .xfer b x) : KeepsHeld .xfer b x (execRestart b x s) := by
  refine .sequenced h (.xfer h fun _ hs => .check (.inr hs) (.readGoOn hs)) fun l hs => ?_
  cases l
  case s2 | s8 => exact .writeGoOn hs
  case s3 | s9 => exact .readGoOn hs
  case s4 | s7 => exact .goOn hs
  case s5 => exact .xfer (.inr hs) fun _ hs => .readWritten hs fun _ _ hw => .goOn hw
  case s6 => exact .xfer (.inr hs) fun _ hs => .writeGoOn hs
  case s10 => exact .xfer (.inr hs) fun _ _ => .retOp
  all_goals exact .stray

end

/-- A micro-step of an operation on a channel returns or keeps the channel held by the owner the operation needs. -/
theorem exec_keepsHeld {i : Instr} {b : Blk} {x : Ch} {s : State} (hi : Instr.channel i = some (b, x))
    (h : s.idleOrHeld (Instr.needs i) b x) : KeepsHeld (Instr.needs i) b x (exec i s) := by
  cases i <;> cases hi
  case listen => exact execListen_keepsHeld h _
  case unlisten => exact execUnlisten_keepsHeld h _
  case selectRequest => exact execSelectRequest_keepsHeld h _
  case configure => exact execConfigure_keepsHeld h _
  case start => exact execStart_keepsHeld h
  case stop => exact execStop_keepsHeld h
  case circRead => exact execCircRead_keepsHeld h _ _ _ _ _
  case readExact | writeAll => exact .armOneShot h
  case readableHalf => exact execReadableHalf_keepsHeld h
  case peek => exact execPeek_keepsHeld h
  case partialPeek => exact execPartialPeek_keepsHeld h
  case answerIsr => exact .single h (.circ h fun _ => .writeRet)
  case isDone => exact .single h (.xfer h fun _ => .readRet)
  case wait => exact execWait_keepsHeld h
  case terminate => exact execTerminate_keepsHeld h
  case xpeek => exact execXpeek_keepsHeld h
  case restart => exact execRestart_keepsHeld h
  case status | remaining | getPaddr | getMaddr => exact .readOp h
  case clearFlags | clearFlag | setPaddr | setMaddr | setCount => exact .writeOp h

/-! ## Every step -/

/-- An operation that starts from Idle, or goes on with its channel held, keeps the invariant. -/
theorem exec_holdersKept {i : Instr} {s t : State} (hs : s.holdersKept)
    (hi : s.seq = .idle ∨ ∃ l, s.seq = .busy i l) (h : exec i s = .next t) : t.holdersKept := by
  intro op l b x hl hch
  obtain rfl := exec_busy h hl hi
  have hheld : s.idleOrHeld (Instr.needs op) b x := hi.imp_right fun ⟨l, hl⟩ => hs op l b x hl hch
  exact (exec_keepsHeld hch hheld t h).resolve_left (by simp [hl])

/-- Settles O59: an operation checks ownership before it goes on from Idle, and gives its channel another kind of owner
only as it returns; a store of the program changes no owner's kind, and everything else no owner. -/
theorem holdersKept : Obligations.HoldersKept := by
  unfold Obligations.HoldersKept
  intro s t hs hstep
  obtain ⟨env, ht⟩ := step_taken hstep
  generalize hu : ({ s with env := env } : State) = u at ht
  replace hs : u.holdersKept := hu ▸ hs
  cases ht with
  | start hr i rest h => exact exec_holdersKept (s := { u with prog := rest }) hs (.inl hr.idle) h
  | resume i l hl h => exact exec_holdersKept hs (.inr ⟨l, hl⟩) h
  | nothing h | word _ h | refusedAccess _ r h | load _ e v h => exact h ▸ hs
  | store _ addrs m h =>
    subst h
    intro op l b x hl hch
    rw [noteStore_holder, Needs.metBy_disturb]
    exact hs op l b x hl hch
  | engine b x lines h =>
    obtain ⟨r, e, m, log, env, -, rfl⟩ := engineTurn_eq h
    exact hs

end Sys2Proof.Machine
end

section
/-! PROOF. Every CMD operation checks its encoding, then that the object it works on holds its channel, before anything
else (R400, R451, R459, R500, R610). -/
namespace Sys2Proof.Machine
open Sys2Proof

section

variable {b : Blk} {x : Ch} {s : State}

/-! ## The ownership check that fails -/

theorem needHandle_notOwner (h : Needs.metBy .handle (s.holder b x) = false) (k : Out) :
    needHandle b x s k = .next (s.refuse .notOwner) := by
  cases ho : s.holder b x <;> simp [Needs.metBy, needHandle, refuseOp, ho] at h ⊢

theorem needCirc_notOwner (h : Needs.metBy .circ (s.holder b x) = false) (k : CircRec → Out) :
    needCirc b x s k = .next (s.refuse .notOwner) := by
  cases ho : s.holder b x <;> simp [Needs.metBy, needCirc, refuseOp, ho] at h ⊢

theorem needXfer_notOwner (h : Needs.metBy .xfer (s.holder b x) = false) (k : XferRec → Out) :
    needXfer b x s k = .next (s.refuse .notOwner) := by
  cases ho : s.holder b x <;> simp [Needs.metBy, needXfer, refuseOp, ho] at h ⊢

/-! ## The encoding's check -/

theorem esizeOf_none_iff (size : BitVec 2) : esizeOf size = none ↔ sizeCodeOk size = false := by
  revert size
  decide

theorem esizeOf_of_sizeCodeOk {size : BitVec 2} (h : sizeCodeOk size = true) : ∃ es, esizeOf size = some es := by
  rw [← Option.ne_none_iff_exists', Ne, esizeOf_none_iff, h]
  decide

variable {size pl : BitVec 2} {n : BitVec 16} {base paddr payload : Word}

theorem execCircRead_illegal (hs : s.ready) (h : sizeCodeOk size = false) :
    execCircRead b x size pl n base paddr s = .next (s.refuse .illegalEncoding) := by
  simp only [execCircRead, (esizeOf_none_iff size).2 h, single_ready hs, refuseOp]

theorem armOneShot_illegal (hs : s.ready) (h : sizeCodeOk size = false) (op : Instr) (mode : XferMode) :
    armOneShot op b x size pl n base paddr payload mode s = .next (s.refuse .illegalEncoding) := by
  simp only [armOneShot, (esizeOf_none_iff size).2 h, single_ready hs, refuseOp]

theorem execCircRead_notOwner (hs : s.ready) (h : sizeCodeOk size = true)
    (ho : Needs.metBy .handle (s.holder b x) = false) :
    execCircRead b x size pl n base paddr s = .next (s.refuse .notOwner) := by
  obtain ⟨es, hes⟩ := esizeOf_of_sizeCodeOk h
  simp only [execCircRead, hes, sequenced_ready hs, needHandle_notOwner ho]

theorem armOneShot_notOwner (hs : s.ready) (h : sizeCodeOk size = true)
    (ho : Needs.metBy .handle (s.holder b x) = false) (op : Instr) (mode : XferMode) :
    armOneShot op b x size pl n base paddr payload mode s = .next (s.refuse .notOwner) := by
  obtain ⟨es, hes⟩ := esizeOf_of_sizeCodeOk h
  simp only [armOneShot, hes, sequenced_ready hs, needHandle_notOwner ho]

end

/-! ## Every instruction -/

theorem exec_illegalEncoding {i : Instr} {s : State} (hs : s.ready) (hi : i.wellFormed = false) :
    exec i s = .next (s.refuse .illegalEncoding) := by
  cases i
  case selectRequest b x imm =>
    replace hi : requestImmOk imm = false := hi
    exact (sequenced_ready hs _ _ _).trans (by rw [hi, check_false])
  case configure b x imm =>
    replace hi : configImmOk imm = false := hi
    exact (sequenced_ready hs _ _ _).trans (by rw [hi, check_false])
  case circRead => exact execCircRead_illegal hs hi
  case readExact | writeAll => exact armOneShot_illegal hs hi _ _
  all_goals cases hi

theorem exec_notOwner {i : Instr} {b : Blk} {x : Ch} {s : State} (hs : s.ready) (hi : i.wellFormed = true)
    (hch : Instr.channel i = some (b, x)) (ho : (Instr.needs i).metBy (s.holder b x) = false) :
    exec i s = .next (s.refuse .notOwner) := by
  cases i <;> cases hch
  case selectRequest imm =>
    replace hi : requestImmOk imm = true := hi
    exact (sequenced_ready hs _ _ _).trans (by rw [hi, check_true, needHandle_notOwner ho])
  case configure imm =>
    replace hi : configImmOk imm = true := hi
    exact (sequenced_ready hs _ _ _).trans (by rw [hi, check_true, needHandle_notOwner ho])
  case circRead => exact execCircRead_notOwner hs hi ho
  case readExact | writeAll => exact armOneShot_notOwner hs hi ho _ _
  case listen | unlisten | status | clearFlags | clearFlag | remaining | setPaddr | setMaddr | setCount | start | stop |
      getPaddr | getMaddr =>
    exact (sequenced_ready hs _ _ _).trans (needHandle_notOwner ho _)
  case readableHalf | peek | partialPeek | answerIsr =>
    exact (sequenced_ready hs _ _ _).trans (needCirc_notOwner ho _)
  case isDone | wait | terminate | xpeek | restart =>
    exact (sequenced_ready hs _ _ _).trans (needXfer_notOwner ho _)

/-- Settles O15: the check of the encoding comes first in every operation, that of the ownership next. -/
theorem notOwnerRefused : Obligations.NotOwnerRefused := by
  unfold Obligations.NotOwnerRefused
  exact fun i s hs => ⟨exec_illegalEncoding hs, fun b x => exec_notOwner hs⟩

end Sys2Proof.Machine
end

section
/-! PROOF. The operations of one register transaction (R403, R406, R408 to R410, R416, R417, R503), SELECT_REQUEST
(R407), and the read-modify-writes of CCR with their race (R401, R402, R411, R723). -/
namespace Sys2Proof.Machine
open Sys2Proof

section

variable {b : Blk} {x : Ch} {s t : State}

/-! ## Operations of one micro-step -/

/-- A reading Channel operation changes only the result, and what it observed (R162). -/
theorem readOp_ready (h : s.canUse b x .handle) (op : Instr) (r : Reg) (res : Word → Result) :
    readOp op b x r res s =
      .next { s with
        unfencedRead := s.unfencedRead || Reg.observes r
        result := some (res (regValue s b r)) } := by
  obtain ⟨hready, hclk, hown⟩ := h
  rw [readOp, single_ready hready, needHandle_handle hown, rdReg_on hclk, onRead_ok, retOp,
    State.ret_idle (by exact hready.idle)]

theorem readOp_observing (h : s.canUse b x .handle) (op : Instr) {r : Reg} (hr : Reg.observes r = true)
    (res : Word → Result) :
    readOp op b x r res s = .next { s with unfencedRead := true, result := some (res (regValue s b r)) } := by
  rw [readOp_ready h, hr, Bool.or_true]

theorem readOp_quiet (h : s.canUse b x .handle) (op : Instr) {r : Reg} (hr : Reg.observes r = false)
    (res : Word → Result) : readOp op b x r res s = .next { s with result := some (res (regValue s b r)) } := by
  rw [readOp_ready h, hr, Bool.or_false]

theorem exec_isDone {tr : XferRec} (h : s.canUse b x (.xfer tr)) :
    exec (.isDone b x) s =
      .next { s with unfencedRead := true, result := some (.done (s.regs b x).tcif) } := by
  obtain ⟨hready, hclk, hown⟩ := h
  have hexec : exec (.isDone b x) s = _ := (single_ready hready _ _).trans (needXfer_xfer hown _)
  rw [hexec, rdReg_isr hclk, onRead_ok, isrWord_tcif, retOp, State.ret_idle (by exact hready.idle)]
  rfl

theorem writeOp_ok (h : s.canUse b x .handle) (op : Instr) {r : Reg} {v : Word} (hw : wrReg b r v s = .ok t) :
    writeOp op b x r v s = .next (t.ret .unit) := by
  obtain ⟨hready, -, hown⟩ := h
  rw [writeOp, single_ready hready, needHandle_handle hown, hw, onDone_ok, retOp]

theorem writeOp_error (h : s.canUse b x .handle) (op : Instr) {r : Reg} {v : Word} (hw : wrReg b r v s = .error t) :
    writeOp op b x r v s = .next t := by
  obtain ⟨hready, -, hown⟩ := h
  rw [writeOp, single_ready hready, needHandle_handle hown, hw, onDone_error]

end

/-- Settles O17: each is one register read; the flags are bits of the channel's group of ISR. -/
theorem readingOperations : Obligations.ReadingOperations := by
  unfold Obligations.ReadingOperations
  intro b x s
  refine ⟨fun h => ⟨?_, ?_, readOp_quiet h _ rfl _, readOp_quiet h _ rfl _⟩, fun tr h => exec_isDone h⟩
  · refine (readOp_observing (r := .isr) h _ rfl _).trans ?_
    simp only [regValue, isrWord_htif, isrWord_tcif, isrWord_teif, isrWord_gif]
    rfl
  · refine (readOp_observing (r := .cndtr x) h _ rfl _).trans ?_
    simp [regValue]

/-- Settles O20: each is one register write, which CNDTR ignores and CPAR and CMAR refuse while EN = 1. -/
theorem settingOperations : Obligations.SettingOperations := by
  unfold Obligations.SettingOperations
  intro b x a n s h r
  have ⟨hready, hclk, _⟩ := h
  have hcpar := wrReg_on hclk (.cpar x) a
  have hcmar := wrReg_on hclk (.cmar x) a
  have hcndtr : exec (.setCount b x n) s = _ := writeOp_ok h _ (wrReg_on hclk (.cndtr x) (n.setWidth 32))
  refine ⟨fun he => ⟨?_, ?_, ?_⟩, fun he => ⟨?_, ?_, ?_⟩⟩
  · exact writeOp_ok h _ (hcpar.trans (wrCpar_disabled a he))
  · exact writeOp_ok h _ (hcmar.trans (wrCmar_disabled a he))
  · rw [hcndtr, State.wrCndtr_disabled _ he]
    simp [r]
  · exact writeOp_error h _ (hcpar.trans (wrCpar_enabled a he))
  · exact writeOp_error h _ (hcmar.trans (wrCmar_enabled a he))
  · rw [hcndtr, State.wrCndtr_enabled _ he, State.ret_idle hready.idle]

/-! ## SELECT_REQUEST (R407) -/

theorem requestImmOk_of_lt {imm : BitVec 16} (h : imm.toNat < 16) : requestImmOk imm = true := by
  refine beq_iff_eq.2 (BitVec.eq_of_toNat_eq ?_)
  rw [BitVec.extractLsb'_toNat, Nat.shiftRight_eq_div_pow, Nat.div_eq_of_lt h]
  rfl

section

variable {b : Blk} {x : Ch} {s : State} {imm : BitVec 16}

theorem exec_selectRequest (b : Blk) (x : Ch) (imm : BitVec 16) (s : State) :
    exec (.selectRequest b x imm) s = execSelectRequest b x imm s := rfl

theorem exec_selectRequest_q1 (h : s.canUse b x .handle) (himm : imm.toNat < 16) :
    exec (.selectRequest b x imm) s =
      .next (s.goto (.selectRequest b x imm) (.q2 (cselrWord (s.chan.get b)))) := by
  obtain ⟨hready, hclk, hown⟩ := h
  rw [exec_selectRequest, execSelectRequest, sequenced_ready hready, requestImmOk_of_lt himm, check_true,
    needHandle_handle hown, rdReg_cselr hclk, onRead_ok, goOn]

theorem exec_selectRequest_q2 {v : Word} (hu : s.unmarked) (hclk : s.clk b = true) :
    exec (.selectRequest b x imm) (s.goto (.selectRequest b x imm) (.q2 v)) =
      .next ((s.wrCselr b (selectWord v x (imm.setWidth 4))).ret .unit) := by
  rw [exec_selectRequest, execSelectRequest, sequenced_goto hu.1 hu.2]
  dsimp only
  rw [wrReg_on (by exact hclk), onDone_ok]
  rfl

/-- CSELR written back with one channel's field replaced leaves every other channel's code as it was. -/
theorem wrCselr_selectWord (s : State) (b : Blk) (x : Ch) (code : BitVec 4) :
    s.wrCselr b (selectWord (cselrWord (s.chan.get b)) x code) = s.setRegs b x { s.regs b x with cxs := code } := by
  refine wrCselr_one s b x _ code fun y => ?_
  rw [groupOf_selectWord, cselrWord, groupOf_groupsWord]
  rfl

end

/-- Settles O19: Q1 reads CSELR, Q2 writes it back with the channel's field replaced. -/
theorem selectRequest : Obligations.SelectRequest := by
  unfold Obligations.SelectRequest
  intro b x imm s h himm
  have ⟨hready, hclk, _⟩ := h
  refine ⟨_, exec_selectRequest_q1 h himm, ?_⟩
  rw [exec_selectRequest_q2 hready.unmarked hclk, wrCselr_selectWord, BitVec.setWidth_eq_extractLsb' (by decide)]

/-! ## The read-modify-writes of CCR: LISTEN, UNLISTEN, CONFIGURE (R401, R402, R411) -/

section

variable {b : Blk} {x : Ch} {s t : State} {v : Word}

theorem wrCcrRet_ok (hclk : s.clk b = true) (hw : wrCcr b x v s = .ok t) : wrCcrRet b x v s = .next (t.ret .unit) := by
  rw [wrCcrRet, wrReg_ccr hclk, hw, onDone_ok, retOp]

theorem wrCcrRet_error (hclk : s.clk b = true) (hw : wrCcr b x v s = .error t) : wrCcrRet b x v s = .next t := by
  rw [wrCcrRet, wrReg_ccr hclk, hw, onDone_error]

/-- The first micro-step of a read-modify-write: CCR is read, and the operation goes on with its value. -/
theorem sequenced_readCcr (h : s.canUse b x .handle) (op : Instr) (next : Word → Label) (resume : Label → Out) :
    sequenced op s (needHandle b x s <| onRead (rdReg b (.ccr x) s) fun c s1 => goOn s1 op (next c)) resume =
      .next (s.goto op (next (s.regs b x).ccr.toWord)) := by
  obtain ⟨hready, hclk, hown⟩ := h
  rw [sequenced_ready hready, needHandle_handle hown, rdReg_ccr hclk, onRead_ok, goOn]

/-- Instruction i at label l is at its write-back of CCR, having read c: it writes v. -/
inductive WritesBack (b : Blk) (x : Ch) (c : Word) : Instr → Label → Word → Prop where
  | listen (ev : Event) : WritesBack b x c (.listen b x ev) (.l2 c) (setBit c ev.ieBit)
  | unlisten (ev : Event) : WritesBack b x c (.unlisten b x ev) (.l2 c) (clearBit c ev.ieBit)
  | configure (imm : BitVec 16) : WritesBack b x c (.configure b x imm) (.k2 c) (configureWord c imm)

namespace WritesBack

variable {c : Word} {i : Instr} {l : Label} (h : WritesBack b x c i l v)

include h

/-- The write-back is a CCR write and the return. -/
theorem exec_eq (hu : s.unmarked) (hs : s.seq = .busy i l) : exec i s = wrCcrRet b x v s := by
  obtain ⟨hf, hr⟩ := hu
  cases h <;> exact sequenced_busy hf hr hs _ _

/-- EN is written back as it was read. -/
theorem enOf_eq : enOf v = enOf c := by
  cases h
  · exact enOf_setBit_event c _
  · exact enOf_clearBit_event c _
  · exact enOf_configureWord c _

end WritesBack

/-- The write-back of a CCR value that is still current, on a channel that is not stopping, only updates the fields. -/
theorem exec_writeBack_current {i : Instr} {l : Label} (h : WritesBack b x (s.regs b x).ccr.toWord i l v)
    (hu : s.unmarked) (hclk : s.clk b = true) (hst : (s.regs b x).ccr.en = true → (s.engine b x).stopping = false) :
    exec i (s.goto i l) = .next ((ccrUpdated s b x v).ret .unit) := by
  have hen : (s.regs b x).ccr.en = enOf v := by rw [h.enOf_eq, enOf_toWord]
  have hret := wrCcrRet_ok (s := s.goto i l) hclk (wrCcr_fields hen hst)
  exact (h.exec_eq (s := s.goto i l) hu rfl).trans hret

/-- The interrupt enable of an event set, respectively cleared, in a CCR value written back. -/
theorem Ccr.update_setBit_event (c : Ccr) (ev : Event) :
    c.update (setBit c.toWord ev.ieBit) = { c with ie := c.ie ||| Event.mask ev } := by
  simp [Ccr.update]

theorem Ccr.update_clearBit_event (c : Ccr) (ev : Event) :
    c.update (clearBit c.toWord ev.ieBit) = { c with ie := c.ie &&& ~~~ Event.mask ev } := by
  simp [Ccr.update]

end

/-- Settles O16: L1 reads CCR, L2 writes it back with the event's bit replaced and EN as it was. -/
theorem listenAndUnlisten : Obligations.ListenAndUnlisten := by
  unfold Obligations.ListenAndUnlisten
  intro b x ev s h hst r mask
  have ⟨hready, hclk, _⟩ := h
  have hmask : mask = Event.mask ev := rfl
  have hlisten := exec_writeBack_current (.listen ev) hready.unmarked hclk hst
  have hunlisten := exec_writeBack_current (.unlisten ev) hready.unmarked hclk hst
  rw [ccrUpdated, Ccr.update_setBit_event] at hlisten
  rw [ccrUpdated, Ccr.update_clearBit_event] at hunlisten
  rw [hmask]
  exact ⟨⟨_, sequenced_readCcr h _ .l2 _, hlisten⟩, ⟨_, sequenced_readCcr h _ .l2 _, hunlisten⟩⟩

/-- Settles O24: a write-back of EN = 1 is the enable edge where the engine has cleared EN, and is refused where the
channel is stopping. -/
theorem readModifyWriteRace : Obligations.ReadModifyWriteRace := by
  unfold Obligations.ReadModifyWriteRace
  intro b x i c v l s hwrite hu hclk hseq hc r r'
  have h : WritesBack b x c i l v := by
    rcases hwrite with ⟨ev, rfl, rfl, rfl⟩ | ⟨ev, rfl, rfl, rfl⟩ | ⟨imm, rfl, rfl, rfl⟩
    · exact .listen ev
    · exact .unlisten ev
    · exact .configure imm
  have hv : enOf v = true := h.enOf_eq.trans hc
  rw [h.exec_eq hu hseq]
  refine ⟨fun he hlegal => wrCcrRet_ok hclk ?_, fun he hst => wrCcrRet_error hclk (wrCcr_stopping he hst hv)⟩
  have hregs : (ccrUpdated s b x v).regs b x = { r with ccr := ⟨false, ieOf v, cfgOf v⟩ } := by
    rw [State.regs_setRegs_self, Ccr.update_disabled he]
  rw [wrCcr_enable he hv, enable_legal (by rw [hregs]; exact hlegal), hregs, State.setRegs_setRegs]
  rfl

end Sys2Proof.Machine
end

section
/-! PROOF. CIRC_READ (R451), and the checks that it shares with READ_EXACT and WRITE_ALL, in their order (R451, R501,
R502, R610). -/
namespace Sys2Proof.Machine
open Sys2Proof

section

variable {b : Blk} {x : Ch} {s : State} {es : ESize}

/-! ## A check that passes, a check that fails -/

theorem check_pass {ok : Bool} (h : ok = true) (r : RefuseReason) (s : State) (k : Out) : check ok r s k = k := if_pos h

theorem check_fail {ok : Bool} (h : ¬ok = true) (r : RefuseReason) (s : State) (k : Out) :
    check ok r s k = .next (s.refuse r) := if_neg h

/-! ## The checks of A1 (R451, R501) -/

theorem aligned_both_iff (a c : Word) (n : Nat) :
    (aligned a n && aligned c n) = true ↔ a.toNat % n = 0 ∧ c.toNat % n = 0 := by
  simp only [aligned, Bool.and_eq_true, beq_iff_eq]

section

variable {len : Nat} {base paddr : Word} (op : Instr)

theorem armStart_misaligned (h : ¬(base.toNat % es.bytes = 0 ∧ paddr.toNat % es.bytes = 0)) :
    armStart op b x es len base paddr s = .next (s.refuse .misaligned) :=
  check_fail (mt (aligned_both_iff ..).1 h) ..

variable (haligned : base.toNat % es.bytes = 0 ∧ paddr.toNat % es.bytes = 0)
include haligned

theorem armStart_notAdmitted
    (h : ¬∀ k, k < len → s.memAdmit (base + BitVec.ofNat 32 (k * es.bytes)) es.bytes = true) :
    armStart op b x es len base paddr s = .next (s.refuse .memNotAdmitted) := by
  rw [armStart, check_pass ((aligned_both_iff ..).2 haligned), check_fail (mt (allAdmitted_iff ..).1 h)]

variable (hadmitted : ∀ k, k < len → s.memAdmit (base + BitVec.ofNat 32 (k * es.bytes)) es.bytes = true)
include hadmitted

theorem armStart_illegalEndpoint (h : ¬s.legalEndpoint b x (s.regs b x).cxs paddr = true) :
    armStart op b x es len base paddr s = .next (s.refuse .illegalEndpoint) := by
  rw [armStart, check_pass ((aligned_both_iff ..).2 haligned), check_pass ((allAdmitted_iff ..).2 hadmitted),
    check_fail h]

variable (hlegal : s.legalEndpoint b x (s.regs b x).cxs paddr = true) (hclk : s.clk b = true)
include hlegal hclk

/-- Where the checks pass, A1 reads CCR and tests EN. -/
theorem armStart_readsCcr :
    armStart op b x es len base paddr s =
      if (s.regs b x).ccr.en then .next (s.refuse .channelBusy) else .next (s.goto op (.a2 (s.regs b x).ccr.toWord)) := by
  rw [armStart, check_pass ((aligned_both_iff ..).2 haligned), check_pass ((allAdmitted_iff ..).2 hadmitted),
    check_pass hlegal, rdReg_ccr hclk, onRead_ok, enOf_toWord]
  rfl

theorem armStart_busy (he : (s.regs b x).ccr.en = true) :
    armStart op b x es len base paddr s = .next (s.refuse .channelBusy) :=
  (armStart_readsCcr op haligned hadmitted hlegal hclk).trans (if_pos he)

theorem armStart_free (he : (s.regs b x).ccr.en = false) :
    armStart op b x es len base paddr s = .next (s.goto op (.a2 (s.regs b x).ccr.toWord)) :=
  (armStart_readsCcr op haligned hadmitted hlegal hclk).trans (if_neg (Bool.eq_false_iff.1 he))

end

/-! ## The entry operations up to A1 -/

variable {size pl : BitVec 2} {n : BitVec 16} {base paddr payload : Word}

/-- The count of 2h elements fits in NDT (R451). -/
theorem circLength_ok_iff (h : BitVec 16) :
    (decide (h ≠ 0#16) && decide (2 * h.toNat ≤ 0xFFFF)) = true ↔ h ≠ 0#16 ∧ 2 * h.toNat ≤ 0xFFFF := by
  rw [Bool.and_eq_true, decide_eq_true_iff, decide_eq_true_iff]

theorem exec_circRead (b : Blk) (x : Ch) (size pl : BitVec 2) (n : BitVec 16) (base paddr : Word) (s : State) :
    exec (.circRead b x size pl n base paddr) s = execCircRead b x size pl n base paddr s := rfl

section

variable (h : s.canUse b x .handle) (hes : esizeOf size = some es)
include h hes

theorem exec_circRead_badLength (hn : ¬(n ≠ 0#16 ∧ 2 * n.toNat ≤ 0xFFFF)) :
    exec (.circRead b x size pl n base paddr) s = .next (s.refuse .badLength) := by
  obtain ⟨hready, -, hown⟩ := h
  simp only [exec_circRead, execCircRead, hes, sequenced_ready hready, needHandle_handle hown,
    check_fail (mt (circLength_ok_iff n).1 hn)]

theorem exec_circRead_start (hn : n ≠ 0#16 ∧ 2 * n.toNat ≤ 0xFFFF) :
    exec (.circRead b x size pl n base paddr) s =
      armStart (.circRead b x size pl n base paddr) b x es (2 * n.toNat) base paddr s := by
  obtain ⟨hready, -, hown⟩ := h
  simp only [exec_circRead, execCircRead, hes, sequenced_ready hready, needHandle_handle hown,
    check_pass ((circLength_ok_iff n).2 hn)]

theorem armOneShot_start (op : Instr) (mode : XferMode) :
    armOneShot op b x size pl n base paddr payload mode s = armStart op b x es n.toNat base paddr s := by
  obtain ⟨hready, -, hown⟩ := h
  simp only [armOneShot, hes, sequenced_ready hready, needHandle_handle hown]

end

/-! ## CIRC_READ from A2 on -/

theorem exec_circRead_resume (hes : esizeOf size = some es) (u : State) (l : Label) (hf : u.fault = none)
    (hr : u.refused = none) :
    exec (.circRead b x size pl n base paddr) (u.goto (.circRead b x size pl n base paddr) l) =
      armResume (.circRead b x size pl n base paddr) b x base paddr (BitVec.ofNat 16 (2 * n.toNat))
        (entryCfg pl size true false) (.circ ⟨base, n.toNat, es, .second, 0, []⟩) (.circBuffer b x)
        (u.goto (.circRead b x size pl n base paddr) l) l := by
  simp only [exec_circRead, execCircRead, hes, sequenced_goto hf hr]

end

theorem ofNat_two_mul_toNat (h : BitVec 16) : BitVec.ofNat 16 (2 * h.toNat) = h + h := by
  rw [Nat.two_mul, BitVec.ofNat_add, BitVec.ofNat_toNat, BitVec.setWidth_eq]

/-- Settles O26: the checks pass at A1, and A2 to A9 are the arming sequence. -/
theorem circRead : Obligations.CircRead := by
  unfold Obligations.CircRead
  intro b x size pl h base paddr es s huse hes h0 hmax hb hp hadm hleg hen i r
  have ⟨hready, hclk, _⟩ := huse
  have a1 := (exec_circRead_start (pl := pl) huse hes ⟨h0, hmax⟩).trans
    (armStart_free i ⟨hb, hp⟩ hadm hleg hclk hen)
  have arms := armResume_runs (i := i) hready.1 hready.2.1 hclk hes hb hp hen fun u l => exec_circRead_resume hes u l
  rw [ofNat_two_mul_toNat] at arms
  exact ⟨_, a1, arms⟩

/-- Settles O28: after the length every entry operation is at `armStart`, whose checks are the other four. -/
theorem entryChecksInOrder : Obligations.EntryChecksInOrder := by
  unfold Obligations.EntryChecksInOrder
  intro b x size pl n base paddr payload es s i len huse hes
  refine ⟨fun hn => exec_circRead_badLength huse hes fun ⟨h0, hmax⟩ => hn.elim h0 (Nat.not_lt.2 hmax), fun hi => ?_⟩
  have hstart : exec i s = armStart i b x es len base paddr s := by
    rcases hi with ⟨rfl, h0, hmax, rfl⟩ | ⟨rfl, rfl⟩ | ⟨rfl, rfl⟩
    · exact exec_circRead_start huse hes ⟨h0, hmax⟩
    · exact armOneShot_start huse hes ..
    · exact armOneShot_start huse hes ..
  obtain ⟨-, hclk, -⟩ := huse
  rw [hstart]
  exact ⟨armStart_misaligned i, armStart_notAdmitted i, armStart_illegalEndpoint i,
    fun ha hm hl => armStart_busy i ha hm hl hclk⟩

end Sys2Proof.Machine
end

section
/-! PROOF. The CircBuffer operations: which half is readable (R452, R453), and the consumers of PEEK (R454) and
PARTIAL_PEEK (R455, R456). -/
namespace Sys2Proof.Machine
open Sys2Proof

/-! ## A half and its completion flag (R452) -/

/-- The completion flag of a half: HTIF for First, TCIF for Second. -/
def Half.flag : Half → Flag
  | .first => .ht
  | .second => .tc

theorem Half.flag_bit (w : Half) : w.flag.bit = w.flagBit := by cases w <;> rfl

/-- The channel's flags say that this half is complete. -/
def ChanRegs.completed (r : ChanRegs) : Half → Bool
  | .first => r.htif
  | .second => r.tcif

theorem halfChoice_overrun {r : ChanRegs} (ht : r.htif = true) (tc : r.tcif = true) (w : Half) :
    halfChoice w r.htif r.tcif = .overrun := by
  simp [halfChoice, ht, tc]

theorem halfChoice_keep {r : ChanRegs} {w : Half} (h : r.completed w.other = false) :
    halfChoice w r.htif r.tcif = .keep w := by
  cases w <;> simp_all [halfChoice, ChanRegs.completed, Half.other]

theorem halfChoice_flip {r : ChanRegs} {w : Half} (hnew : r.completed w = true) (hold : r.completed w.other = false) :
    halfChoice w.other r.htif r.tcif = .flip w := by
  cases w <;> simp_all [halfChoice, ChanRegs.completed, Half.other]

/-- What H2 leaves: the flag of half w cleared, w recorded as the readable half. -/
def State.flipped (s : State) (b : Blk) (x : Ch) (cb : CircRec) (w : Half) : State :=
  (s.setRegs b x ((s.regs b x).clearOne w.flag)).setHolder b x (.circ { cb with readableHalf := w })

/-- A consumer's act that ends it, with its outcome (R458). -/
inductive ConsumerEnds : ConsumerAct → Option (Nat × Word) → Prop where
  | done (l : Nat) (v : Word) : ConsumerEnds (.done l v) (some (l, v))
  | fail : ConsumerEnds .fail none

/-- The state with the consumer's next acts announced. -/
abbrev State.withActs (s : State) (acts : List ConsumerAct) : State := { s with env := { s.env with acts := acts } }

/-- What PEEK returns for the consumer's outcome. -/
def peekResult : Option Word → Result
  | some v => .value v
  | none => .err .bufferError

section

variable {b : Blk} {x : Ch} {cb : CircRec} {w : Half} {s : State}

/-! ## The steps that the operations share -/

theorem halfRead_eq (hclk : s.clk b = true) (k : HalfChoice → State → Out) :
    halfRead b x cb s k = k (halfChoice cb.readableHalf (s.regs b x).htif (s.regs b x).tcif) s.observed := by
  rw [halfRead, rdReg_isr hclk, onRead_ok, isrWord_htif, isrWord_tcif]
  rfl

theorem halfFlip_eq (hclk : s.clk b = true) (k : State → Out) :
    halfFlip b x cb w s k = k (s.flipped b x cb w) := by
  rw [halfFlip, wrReg_on hclk, onDone_ok, ← Half.flag_bit, wrIfcr_flag, State.flipped]

theorem consume_ends {op : Instr} {here : Label} {lo hi : Nat} {a : ConsumerAct} {acts : List ConsumerAct}
    {out : Option (Nat × Word)} (hacts : s.env.acts = a :: acts) (ha : ConsumerEnds a out)
    (k : Option (Nat × Word) → State → Out) : consume op here cb w lo hi s k = k out (s.withActs acts) := by
  cases ha <;> simp only [consume, State.drawAct_cons s hacts]

/-! ## READABLE_HALF, micro-step by micro-step (R452) -/

theorem exec_readableHalf (b : Blk) (x : Ch) (s : State) :
    exec (.readableHalf b x) s = execReadableHalf b x s := rfl

section

variable (h : s.canUse b x (.circ cb))
include h

theorem exec_readableHalf_overrun (ht : (s.regs b x).htif = true) (tc : (s.regs b x).tcif = true) :
    exec (.readableHalf b x) s = .next (s.observed.ret (.err .overrun)) := by
  obtain ⟨hready, hclk, hown⟩ := h
  rw [exec_readableHalf, execReadableHalf, sequenced_ready hready, needCirc_circ hown, halfRead_eq hclk,
    halfChoice_overrun ht tc]
  rfl

theorem exec_readableHalf_keep (hw : cb.readableHalf = w) (hnone : (s.regs b x).completed w.other = false) :
    exec (.readableHalf b x) s = .next (s.observed.ret (.half w)) := by
  obtain ⟨hready, hclk, hown⟩ := h
  rw [exec_readableHalf, execReadableHalf, sequenced_ready hready, needCirc_circ hown, halfRead_eq hclk, hw,
    halfChoice_keep hnone]
  rfl

theorem exec_readableHalf_flip (hw : cb.readableHalf = w.other) (hnew : (s.regs b x).completed w = true)
    (hold : (s.regs b x).completed w.other = false) :
    exec (.readableHalf b x) s = .next (s.observed.goto (.readableHalf b x) (.h2 w)) := by
  obtain ⟨hready, hclk, hown⟩ := h
  rw [exec_readableHalf, execReadableHalf, sequenced_ready hready, needCirc_circ hown, halfRead_eq hclk, hw,
    halfChoice_flip hnew hold]
  rfl

end

theorem exec_readableHalf_h2 (hu : s.unmarked) (hclk : s.clk b = true) (hown : s.holder b x = .circ cb) :
    exec (.readableHalf b x) (s.goto (.readableHalf b x) (.h2 w)) = .next ((s.flipped b x cb w).ret (.half w)) := by
  rw [exec_readableHalf, execReadableHalf, sequenced_goto hu.1 hu.2]
  simp only [needCirc_circ (s := s.goto _ _) hown, halfFlip_eq (s := s.goto _ _) hclk]
  rfl

/-! ## PEEK, micro-step by micro-step (R454) -/

theorem exec_peek (b : Blk) (x : Ch) (s : State) : exec (.peek b x) s = execPeek b x s := rfl

section

variable (h : s.canUse b x (.circ cb))
include h

theorem exec_peek_overrun (ht : (s.regs b x).htif = true) (tc : (s.regs b x).tcif = true) :
    exec (.peek b x) s = .next (s.observed.ret (.err .overrun)) := by
  obtain ⟨hready, hclk, hown⟩ := h
  rw [exec_peek, execPeek, sequenced_ready hready, needCirc_circ hown, halfRead_eq hclk, halfChoice_overrun ht tc]
  rfl

theorem exec_peek_keep (hw : cb.readableHalf = w) (hnone : (s.regs b x).completed w.other = false) :
    exec (.peek b x) s = .next (s.observed.goto (.peek b x) (.p2 w)) := by
  obtain ⟨hready, hclk, hown⟩ := h
  rw [exec_peek, execPeek, sequenced_ready hready, needCirc_circ hown, halfRead_eq hclk, hw, halfChoice_keep hnone]
  rfl

theorem exec_peek_flip (hw : cb.readableHalf = w.other) (hnew : (s.regs b x).completed w = true)
    (hold : (s.regs b x).completed w.other = false) :
    exec (.peek b x) s = .next (s.observed.goto (.peek b x) (.h2 w)) := by
  obtain ⟨hready, hclk, hown⟩ := h
  rw [exec_peek, execPeek, sequenced_ready hready, needCirc_circ hown, halfRead_eq hclk, hw,
    halfChoice_flip hnew hold]
  rfl

end

section

variable (hu : s.unmarked) (hown : s.holder b x = .circ cb)
include hu hown

theorem exec_peek_h2 (hclk : s.clk b = true) :
    exec (.peek b x) (s.goto (.peek b x) (.h2 w)) = .next ((s.flipped b x cb w).goto (.peek b x) (.p2 w)) := by
  rw [exec_peek, execPeek, sequenced_goto hu.1 hu.2]
  simp only [needCirc_circ (s := s.goto _ _) hown, halfFlip_eq (s := s.goto _ _) hclk]
  rfl

theorem exec_peek_p2 :
    exec (.peek b x) (s.goto (.peek b x) (.p2 w)) = .next (s.fence.goto (.peek b x) (.p3 w cb.consumedOffset)) := by
  rw [exec_peek, execPeek, sequenced_goto hu.1 hu.2]
  exact (needCirc_circ (s := s.goto _ _) hown _).trans rfl

theorem exec_peek_p3 {lo : Nat} {a : ConsumerAct} {acts : List ConsumerAct} {out : Option (Nat × Word)}
    (hacts : s.env.acts = a :: acts) (ha : ConsumerEnds a out) :
    exec (.peek b x) (s.goto (.peek b x) (.p3 w lo)) =
      .next ((s.withActs acts).goto (.peek b x) (.p4 (out.map (·.2)))) := by
  rw [exec_peek, execPeek, sequenced_goto hu.1 hu.2]
  simp only [needCirc_circ (s := s.goto _ _) hown, consume_ends (s := s.goto _ _) hacts ha]
  rfl

theorem exec_peek_p4 (out : Option Word) :
    exec (.peek b x) (s.goto (.peek b x) (.p4 out)) =
      .next ((s.setHolder b x (.circ { cb with consumedOffset := 0 })).ret (peekResult out)) := by
  rw [exec_peek, execPeek, sequenced_goto hu.1 hu.2]
  exact (needCirc_circ (s := s.goto _ _) hown _).trans (by cases out <;> rfl)

/-- P3 and P4 where the consumer ends at once: the offset is 0 whatever the outcome. -/
theorem peek_ends {lo : Nat} {a : ConsumerAct} {acts : List ConsumerAct} {out : Option (Nat × Word)}
    (hacts : s.env.acts = a :: acts) (ha : ConsumerEnds a out) :
    runAlone 2 (.peek b x) (s.goto (.peek b x) (.p3 w lo)) =
      .next (((s.withActs acts).setHolder b x (.circ { cb with consumedOffset := 0 })).ret
        (peekResult (out.map (·.2)))) := by
  rw [runAlone_succ (exec_peek_p3 hu hown hacts ha), runAlone_one (exec_peek_p4 (s := s.withActs acts) hu hown _)]

end

/-! ## PARTIAL_PEEK, micro-step by micro-step (R455) -/

theorem exec_partialPeek (b : Blk) (x : Ch) (s : State) : exec (.partialPeek b x) s = execPartialPeek b x s := rfl

/-- R1 reads the count and tests the offset against the window's end. -/
theorem exec_partialPeek_r1 (h : s.canUse b x (.circ cb)) :
    exec (.partialPeek b x) s =
      if partialEnd cb.h (s.regs b x).ndt.toNat < cb.consumedOffset then
        .next (s.observed.takeFault (.partialPeekBounds cb.consumedOffset (s.regs b x).ndt.toNat
          (partialEnd cb.h (s.regs b x).ndt.toNat)) (.partialPeek b x) b x)
      else .next (s.observed.goto (.partialPeek b x)
        (.r2 cb.readableHalf.other (partialEnd cb.h (s.regs b x).ndt.toNat))) := by
  obtain ⟨hready, hclk, hown⟩ := h
  have hcount : ((s.regs b x).ndt.setWidth 32).setWidth 16 = (s.regs b x).ndt :=
    BitVec.setWidth_setWidth_of_le _ (by decide)
  rw [exec_partialPeek, execPartialPeek, sequenced_ready hready, needCirc_circ hown, rdReg_cndtr hclk, onRead_ok]
  simp only [hcount]
  rfl

section

variable (hu : s.unmarked) (hown : s.holder b x = .circ cb)
include hu hown

theorem exec_partialPeek_r2 {hi : Nat} :
    exec (.partialPeek b x) (s.goto (.partialPeek b x) (.r2 w hi)) =
      .next (s.fence.goto (.partialPeek b x) (.r3 w cb.consumedOffset hi)) := by
  rw [exec_partialPeek, execPartialPeek, sequenced_goto hu.1 hu.2]
  exact (needCirc_circ (s := s.goto _ _) hown _).trans rfl

theorem exec_partialPeek_r3_fails {lo hi : Nat} {acts : List ConsumerAct} (hacts : s.env.acts = .fail :: acts) :
    exec (.partialPeek b x) (s.goto (.partialPeek b x) (.r3 w lo hi)) =
      .next ((s.withActs acts).ret (.err .bufferError)) := by
  rw [exec_partialPeek, execPartialPeek, sequenced_goto hu.1 hu.2]
  simp only [needCirc_circ (s := s.goto _ _) hown, consume_ends (s := s.goto _ _) hacts .fail]
  rfl

/-- R3 tests the count that the consumer reports against the rest of the window. -/
theorem exec_partialPeek_r3_done {lo hi l : Nat} {v : Word} {acts : List ConsumerAct}
    (hacts : s.env.acts = .done l v :: acts) :
    exec (.partialPeek b x) (s.goto (.partialPeek b x) (.r3 w lo hi)) =
      if hi - cb.consumedOffset < l then
        .next (((s.withActs acts).goto (.partialPeek b x) (.r3 w lo hi)).takeFault
          (.consumeOverflow l cb.consumedOffset hi) (.partialPeek b x) b x)
      else .next ((s.withActs acts).goto (.partialPeek b x) (.r4 l v)) := by
  rw [exec_partialPeek, execPartialPeek, sequenced_goto hu.1 hu.2]
  simp only [needCirc_circ (s := s.goto _ _) hown, consume_ends (s := s.goto _ _) hacts (.done l v)]
  rfl

theorem exec_partialPeek_r4 {l : Nat} {v : Word} :
    exec (.partialPeek b x) (s.goto (.partialPeek b x) (.r4 l v)) =
      .next ((s.setHolder b x (.circ { cb with consumedOffset := cb.consumedOffset + l })).ret (.value v)) := by
  rw [exec_partialPeek, execPartialPeek, sequenced_goto hu.1 hu.2]
  exact (needCirc_circ (s := s.goto _ _) hown _).trans rfl

end

end

/-- Settles O29: H1 decides from the recorded half and the flags; H2, where there is one, is the flip to half w. -/
theorem readableHalf : Obligations.ReadableHalf := by
  unfold Obligations.ReadableHalf
  intro b x cb s h i r s'
  have flips (w : Half) (hw : cb.readableHalf = w.other) (hnew : r.completed w = true)
      (hold : r.completed w.other = false) :
      ∃ s₁, exec i s = .next s₁ ∧ exec i s₁ = .next ((s'.flipped b x cb w).ret (.half w)) := by
    have ⟨hready, hclk, hown⟩ := h
    exact ⟨_, exec_readableHalf_flip h hw hnew hold, exec_readableHalf_h2 (s := s') hready.unmarked hclk hown⟩
  exact ⟨exec_readableHalf_overrun h, fun hw tc => exec_readableHalf_keep h hw tc,
    fun hw ht => exec_readableHalf_keep h hw ht, fun hw ht tc => flips .second hw tc ht,
    fun hw ht tc => flips .first hw ht tc⟩

/-- Settles O30: H1 and H2 as in READABLE_HALF, P2 fences, and P3 and P4 are the same for every half handed over. -/
theorem peek : Obligations.Peek := by
  unfold Obligations.Peek
  intro b x cb a acts res s h hacts hres i r window done
  obtain ⟨out, hend, hres⟩ : ∃ out, ConsumerEnds a out ∧ peekResult (out.map (·.2)) = res := by
    rcases hres with ⟨l, v, rfl, rfl⟩ | ⟨rfl, rfl⟩
    · exact ⟨_, .done l v, rfl⟩
    · exact ⟨_, .fail, rfl⟩
  subst hres
  have ⟨hready, hclk, hown⟩ := h
  have hu := hready.unmarked
  have keeps (w : Half) (hw : cb.readableHalf = w) (hnone : r.completed w.other = false) :
      ∃ s₁, exec i s = .next s₁ ∧ exec i s₁ = .next (window s w) ∧ runAlone 2 i (window s w) = .next (done s w) := by
    refine ⟨_, exec_peek_keep h hw hnone, exec_peek_p2 (s := s.observed) hu hown, ?_⟩
    subst hw
    exact peek_ends (s := s.fence) hu hown hacts hend
  have flips (w : Half) (hw : cb.readableHalf = w.other) (hnew : r.completed w = true)
      (hold : r.completed w.other = false) :
      ∃ s₁, exec i s = .next s₁ ∧ runAlone 2 i s₁ = .next (window (s.flipped b x cb w) w) ∧
        runAlone 2 i (window (s.flipped b x cb w) w) = .next (done (s.flipped b x cb w) w) := by
    have hflipped (u : State) : (u.flipped b x cb w).holder b x = .circ { cb with readableHalf := w } :=
      State.holder_setHolder_self ..
    refine ⟨_, exec_peek_flip h hw hnew hold, ?_,
      peek_ends (s := (s.flipped b x cb w).fence) hu (hflipped s) hacts hend⟩
    rw [runAlone_succ (exec_peek_h2 (s := s.observed) hu hown hclk),
      runAlone_one (exec_peek_p2 (s := s.observed.flipped b x cb w) hu (hflipped s.observed))]
    rfl
  refine ⟨exec_peek_overrun h, fun hkeep => ?_, fun hw ht tc => flips .second hw tc ht,
    fun hw ht tc => flips .first hw ht tc⟩
  rcases hkeep with ⟨hw, tc⟩ | ⟨hw, ht⟩
  · exact keeps _ rfl (by rwa [hw])
  · exact keeps _ rfl (by rwa [hw])

/-- Settles O32: R1 and R3 each test a bound and fault or go on; R2 fences, R4 advances the offset. -/
theorem partialPeek : Obligations.PartialPeek := by
  unfold Obligations.PartialPeek
  intro b x cb a acts s h _ hacts i rem top s'
  have r1 := exec_partialPeek_r1 h
  obtain ⟨hready, hclk, hown⟩ := h
  have hu := hready.unmarked
  let w := cb.readableHalf.other
  have goes (hoff : cb.consumedOffset ≤ top) : exec i s = .next (s.observed.goto i (.r2 w top)) :=
    r1.trans (if_neg (Nat.not_lt.2 hoff))
  have r2 : exec i (s.observed.goto i (.r2 w top)) = .next (s.fence.goto i (.r3 w cb.consumedOffset top)) :=
    exec_partialPeek_r2 (s := s.observed) hu hown
  have r3 (l : Nat) (v : Word) (ha : a = .done l v) :=
    exec_partialPeek_r3_done (s := s.fence) (w := w) (lo := cb.consumedOffset) (hi := top) hu hown
      (hacts.trans (by rw [ha]))
  refine ⟨fun hoff => r1.trans (if_pos hoff), fun hoff => ⟨_, goes hoff, ?_⟩, fun l v hoff ha hl => ⟨_, goes hoff, ?_⟩,
    fun hoff ha => ⟨_, goes hoff, ?_⟩, fun l v hoff ha hl => ?_⟩
  · exact r2
  · have r4 := exec_partialPeek_r4 (s := s.fence.withActs acts) (l := l) (v := v) hu hown
    rw [runAlone_succ r2, runAlone_succ ((r3 l v ha).trans (if_neg (Nat.not_lt.2 hl))), runAlone_one r4]
    rfl
  · subst ha
    rw [runAlone_succ r2, runAlone_one (exec_partialPeek_r3_fails (s := s.fence) hu hown hacts)]
    rfl
  · rw [runAlone_succ (goes hoff), runAlone_succ r2, runAlone_one ((r3 l v ha).trans (if_pos hl))]
    exact ⟨_, rfl, rfl, hown⟩

end Sys2Proof.Machine
end

section
/-! PROOF. A CircBuffer owns its channel until reset (R460): no operation takes it away, and only the flip at H2 changes
its recorded half (R72, R73, R452). -/
namespace Sys2Proof.Machine
open Sys2Proof

/-! ## Who leaves an owner alone -/

theorem wrCcr_owner {b : Blk} {x : Ch} {v : Word} {s t : State}
    (h : wrCcr b x v s = .ok t ∨ wrCcr b x v s = .error t) : t.owner = s.owner := by
  rcases h with h | h
  · rcases wrCcr_ok h with ⟨-, -, h⟩ | ⟨-, -, -, rfl⟩ | ⟨-, rfl⟩
    · obtain ⟨-, rfl⟩ := enable_ok h
      rfl
    · unfold disable
      dsimp only
      split <;> rfl
    · rfl
  · rcases wrCcr_error h with rfl | ⟨r, rfl⟩ <;> rfl

/-- One elementary change leaves an owner alone in the first micro-step of an operation, and in those of an operation
that is neither on the owner's channel nor the SPLIT of its block. -/
theorem Change.holder_eq {i : Instr} {s₀ s t : State} {b : Blk} {x : Ch} (h : Change i s₀ s t)
    (hi : s₀.seq = .idle ∨ (Instr.channel i ≠ some (b, x) ∧ i ≠ .split b)) : t.holder b x = s.holder b x := by
  cases h with
  | refuse | fault | goto | ret | fence | observe | ifcr | cselr | clock => rfl
  | act =>
    obtain ⟨e, he⟩ := State.drawAct_eq s
    rw [he]
    rfl
  | load _ l a size h =>
    obtain ⟨-, -, e, v, rfl, -⟩ := ctlLoad_ok h
    rfl
  | ccr _ c y v ht h => rw [State.holder, wrCcr_owner h, State.holder]
  | cndtr c y v ht =>
    unfold State.wrCndtr
    dsimp only
    split <;> rfl
  | cpar _ c y v ht h | cmar _ c y v ht h =>
    simp only [wrCpar, wrCmar] at h
    split at h <;> cases h
    rfl
  | holder c y o hch hc hs =>
    obtain ⟨hne, -⟩ := hi.resolve_left hs
    exact State.holder_setHolder_ne _ _ fun ⟨hb, hx⟩ => hne (by rw [hch, hb, hx])
  | handOut c hc hs =>
    obtain ⟨-, hne⟩ := hi.resolve_left hs
    have hbc : b ≠ c := fun hb => hne (by rw [hc, hb])
    simp [State.holder, Machine.handOut, ByBlk.get_set_ne _ _ hbc]

theorem exec_holder_eq {i : Instr} {s t : State} {b : Blk} {x : Ch} (h : exec i s = .next t)
    (hi : s.seq = .idle ∨ (Instr.channel i ≠ some (b, x) ∧ i ≠ .split b)) : t.holder b x = s.holder b x := by
  have hc := exec_changes h
  clear h
  induction hc with
  | refl => rfl
  | tail _ hc ih => exact (hc.holder_eq hi).trans ih

/-- With no operation in progress a turn leaves an owner alone, but for the bytes that a store of the program disturbs
(R75). -/
theorem TurnTaken.holder_idle {u t : State} (h : TurnTaken u t) (hs : u.seq = .idle) (b : Blk) (x : Ch) :
    t.holder b x = u.holder b x ∨ ∃ addrs, t.holder b x = (u.holder b x).disturb addrs := by
  cases h with
  | nothing h | word _ h | refusedAccess _ r h | load _ e v h => exact .inl (h ▸ rfl)
  | start hr i rest h => exact .inl (exec_holder_eq (s := { u with prog := rest }) h (.inl hs))
  | resume i l hl h => simp [hs] at hl
  | store _ addrs m h => exact .inr ⟨addrs, by rw [h, noteStore_holder]; rfl⟩
  | engine c y lines h =>
    obtain ⟨r, e, m, log, env, -, rfl⟩ := engineTurn_eq h
    exact .inl rfl

/-- While an operation is in progress only the controller's turn, which is its next micro-step, changes an owner. -/
theorem takeTurn_busy {turn : Turn} {u t : State} {i : Instr} {l : Label} (hs : u.seq = .busy i l)
    (h : takeTurn turn u = .next t) : (turn = .controller ∧ exec i u = .next t) ∨ t.owner = u.owner := by
  cases turn with
  | controller =>
    have ⟨hu, _⟩ := live_next h
    exact .inl ⟨rfl, (controllerTurn_busy hu hs).symm.trans h⟩
  | element b x lines =>
    cases h
    obtain ⟨r, e, m, log, env, -, ht⟩ := engineTurn_eq (t := elementTurn b x lines u) (.inl rfl)
    exact .inr (by rw [ht]; rfl)
  | stopDone b x =>
    cases h
    obtain ⟨r, e, m, log, env, -, ht⟩ := engineTurn_eq (lines := []) (t := stopTurn b x u) (.inr rfl)
    exact .inr (by rw [ht]; rfl)
  | load | store =>
    have ⟨hu, _⟩ := live_next h
    cases (accessTurn_busy hu hs _).symm.trans h
    exact .inr rfl

/-! ## What a CircBuffer operation makes of its CircBuffer -/

/-- READABLE_HALF or PEEK is at its H2, the flip of the recorded half to r. -/
abbrev State.flipsTo (s : State) (b : Blk) (x : Ch) (r : Half) : Prop :=
  s.seq = .busy (.readableHalf b x) (.h2 r) ∨ s.seq = .busy (.peek b x) (.h2 r)

/-- What a micro-step from s can make of the CircBuffer cb of channel (b, x). -/
inductive CircStep (s : State) (b : Blk) (x : Ch) (cb : CircRec) : CircRec → Prop where
  | kept : CircStep s b x cb cb
  | offset (n : Nat) : CircStep s b x cb { cb with consumedOffset := n }
  | flipped (r : Half) (h : s.flipsTo b x r) : CircStep s b x cb { cb with readableHalf := r }

namespace CircStep

variable {s : State} {b : Blk} {x : Ch} {cb cb' : CircRec}

theorem sameBuffer (h : CircStep s b x cb cb') : cb'.base = cb.base ∧ cb'.h = cb.h ∧ cb'.esize = cb.esize := by
  cases h <;> exact ⟨rfl, rfl, rfl⟩

theorem flips (h : CircStep s b x cb cb') (hne : cb'.readableHalf ≠ cb.readableHalf) : ∃ r, s.flipsTo b x r := by
  cases h with
  | flipped r h => exact ⟨r, h⟩
  | kept | offset => exact absurd rfl hne

end CircStep

/-- Where this outcome of a micro-step from s is a next state, channel (b, x) still has its CircBuffer cb, changed as
`CircStep` allows. -/
def CircLives (s : State) (b : Blk) (x : Ch) (cb : CircRec) (o : Out) : Prop :=
  ∀ t, o = .next t → ∃ cb', t.holder b x = .circ cb' ∧ CircStep s b x cb cb'

namespace CircLives

variable {s u : State} {b : Blk} {x : Ch} {cb : CircRec} {op : Instr} {l : Label}

theorem next {cb' : CircRec} (h : u.holder b x = .circ cb') (hstep : CircStep s b x cb cb') :
    CircLives s b x cb (.next u) := by
  rintro t ⟨⟩
  exact ⟨cb', h, hstep⟩

theorem kept (h : u.holder b x = .circ cb) : CircLives s b x cb (.next u) := next h .kept

theorem stray : CircLives s b x cb (.refused .strayLabel) := by rintro t ⟨⟩

theorem resumed (hs : s.seq = .busy op l) {start : Out} {resume : Label → Out}
    (hr : CircLives s b x cb (resume l)) : CircLives s b x cb (sequenced op s start resume) := by
  intro t ht
  obtain ⟨-, ⟨hidle, -⟩ | ⟨l', hl, ht⟩⟩ := sequenced_next ht
  · simp [hs] at hidle
  · obtain ⟨-, rfl⟩ : op = op ∧ l = l' := by simpa [hs] using hl
    exact hr t ht

theorem circ (h : u.holder b x = .circ cb) {k : CircRec → Out} (hk : CircLives s b x cb (k cb)) :
    CircLives s b x cb (needCirc b x u k) := by rwa [needCirc_circ h]

theorem halfFlip (h : u.holder b x = .circ cb) {r : Half} {k : State → Out}
    (hk : ∀ w, w.holder b x = .circ { cb with readableHalf := r } → CircLives s b x cb (k w)) :
    CircLives s b x cb (halfFlip b x cb r u k) := by
  intro t ht
  rcases onDone_next ht with ⟨w, -, ht⟩ | hw
  · exact hk _ (State.holder_setHolder_self ..) t ht
  · exact ⟨cb, by rwa [State.holder, wrReg_owner (.inr hw)], .kept⟩

theorem consume (h : u.holder b x = .circ cb) {here : Label} {r : Half} {lo hi : Nat}
    {k : Option (Nat × Word) → State → Out} (hk : ∀ out w, w.holder b x = .circ cb → CircLives s b x cb (k out w)) :
    CircLives s b x cb (consume op here cb r lo hi u k) := by
  intro t ht
  rcases consume_next ht with ⟨e, v, rfl | ⟨reason, rfl⟩⟩ | ⟨out, e, ht⟩
  · exact ⟨cb, h, .kept⟩
  · exact ⟨cb, h, .kept⟩
  · exact hk out { u with env := e } h t ht

end CircLives

section

variable {s t : State} {b : Blk} {x : Ch} {cb : CircRec} {l : Label}

theorem exec_readableHalf_circLives (hs : s.seq = .busy (.readableHalf b x) l) (h : s.holder b x = .circ cb) :
    CircLives s b x cb (exec (.readableHalf b x) s) := by
  refine .resumed hs ?_
  cases l
  case h2 r => exact .circ h (.halfFlip h fun w hw => .next hw (.flipped r (.inl hs)))
  all_goals exact .stray

theorem exec_peek_circLives (hs : s.seq = .busy (.peek b x) l) (h : s.holder b x = .circ cb) :
    CircLives s b x cb (exec (.peek b x) s) := by
  refine .resumed hs ?_
  cases l
  case h2 r => exact .circ h (.halfFlip h fun w hw => .next hw (.flipped r (.inr hs)))
  case p2 r => exact .circ h (.kept h)
  case p3 r lo => exact .circ h (.consume h fun out w hw => .kept hw)
  case p4 out => exact .circ h (.next (State.holder_setHolder_self s b x _) (.offset 0))
  all_goals exact .stray

theorem exec_partialPeek_circLives (hs : s.seq = .busy (.partialPeek b x) l) (h : s.holder b x = .circ cb) :
    CircLives s b x cb (exec (.partialPeek b x) s) := by
  refine .resumed hs ?_
  cases l
  case r2 w hi => exact .circ h (.kept h)
  case r3 w lo hi =>
    refine .circ h (.consume h fun out u hu => ?_)
    split
    · exact .kept hu
    · split
      · exact .kept hu
      · exact .kept hu
  case r4 n v => exact .circ h (.next (State.holder_setHolder_self s b x _) (.offset _))
  all_goals exact .stray

/-- An operation in progress on a CircBuffer's channel is a CircBuffer operation, and leaves it the CircBuffer. -/
theorem exec_circLives {i : Instr} (hk : s.holdersKept) (hs : s.seq = .busy i l)
    (hi : Instr.channel i = some (b, x)) (h : s.holder b x = .circ cb) : CircLives s b x cb (exec i s) := by
  have hneeds : (Instr.needs i).metBy (.circ cb) = true := h ▸ hk i l b x hs hi
  cases i <;> cases hi
  case readableHalf => exact exec_readableHalf_circLives hs h
  case peek => exact exec_peek_circLives hs h
  case partialPeek => exact exec_partialPeek_circLives hs h
  case answerIsr => exact .resumed hs .stray
  all_goals cases hneeds

end

/-- Settles O54: with no operation in progress an owner is only disturbed by stores; an operation in progress leaves the
owner of another channel alone, and on the CircBuffer's own channel it is one of the CircBuffer operations. -/
theorem circBufferLivesOn : Obligations.CircBufferLivesOn := by
  unfold Obligations.CircBufferLivesOn
  intro s t b x cb hk hsplit hstep hcb
  cases hs : s.seq with
  | idle =>
    obtain ⟨e, ht⟩ := step_taken hstep
    rcases ht.holder_idle (by exact hs) b x with ht | ⟨addrs, ht⟩
    · exact ⟨cb, ht.trans hcb, rfl, rfl, rfl, fun hne => absurd rfl hne⟩
    · exact ⟨_, ht.trans (congrArg (Owner.disturb addrs) hcb), rfl, rfl, rfl, fun hne => absurd rfl hne⟩
  | busy i l =>
    obtain ⟨hdrawn, e, he⟩ := step_drawn (s := s) rfl
    rw [hdrawn, he] at hstep
    rcases takeTurn_busy (u := { s with env := e }) hs hstep with ⟨hturn, hexec⟩ | howner
    · have lives : ∃ cb', t.holder b x = .circ cb' ∧ CircStep { s with env := e } b x cb cb' := by
        by_cases hi : Instr.channel i = some (b, x)
        · exact exec_circLives (s := { s with env := e }) hk hs hi hcb t hexec
        · have hne : i ≠ .split b := fun h => hsplit l (h ▸ hs)
          exact ⟨cb, (exec_holder_eq hexec (.inr ⟨hi, hne⟩)).trans hcb, .kept⟩
      obtain ⟨cb', hcb', hcirc⟩ := lives
      obtain ⟨hbase, hh, hes⟩ := hcirc.sameBuffer
      rw [← hs]
      exact ⟨cb', hcb', hbase, hh, hes, fun hne => ⟨hturn, hcirc.flips hne⟩⟩
    · have hcb' : t.holder b x = .circ cb := by rwa [State.holder, howner]
      exact ⟨cb, hcb', rfl, rfl, rfl, fun hne => absurd rfl hne⟩

end Sys2Proof.Machine
end

section
/-! PROOF. READ_EXACT and WRITE_ALL (R501, R502), and XPEEK (R506), micro-step by micro-step. -/
namespace Sys2Proof.Machine
open Sys2Proof

section

variable {b : Blk} {x : Ch} {s : State}

/-! ## READ_EXACT and WRITE_ALL (R501, R502) -/

section

variable {es : ESize} {size pl : BitVec 2} {n : BitVec 16} {base paddr payload : Word} (hes : esizeOf size = some es)
include hes

theorem armOneShot_resume (op : Instr) (mode : XferMode) (u : State) (l : Label) (hf : u.fault = none)
    (hr : u.refused = none) :
    armOneShot op b x size pl n base paddr payload mode (u.goto op l) =
      armResume op b x base paddr n (entryCfg pl size false (mode == .memSrc))
        (.xfer ⟨mode, base, n.toNat, es, paddr, payload, []⟩) (.transfer b x) (u.goto op l) l := by
  simp only [armOneShot, hes, sequenced_goto hf hr]

/-- Where the checks pass, a one-shot entry is A1 and the arming sequence A2 to A9. -/
theorem armOneShot_runs {i : Instr} {mode : XferMode}
    (hexec : ∀ u, exec i u = armOneShot i b x size pl n base paddr payload mode u) (h : s.canUse b x .handle)
    (haligned : base.toNat % es.bytes = 0 ∧ paddr.toNat % es.bytes = 0)
    (hadmitted : ∀ k, k < n.toNat → s.memAdmit (base + BitVec.ofNat 32 (k * es.bytes)) es.bytes = true)
    (hlegal : s.legalEndpoint b x (s.regs b x).cxs paddr = true) (he : (s.regs b x).ccr.en = false) :
    ∃ s₁, exec i s = .next s₁ ∧ runAlone 8 i s₁ =
      .next (armed b x base paddr n (entryCfg pl size false (mode == .memSrc))
        (.xfer ⟨mode, base, n.toNat, es, paddr, payload, []⟩) (.transfer b x) s) := by
  have ⟨⟨hf, hr, _⟩, hclk, _⟩ := h
  have a1 : exec i s = .next (s.goto i (.a2 (s.regs b x).ccr.toWord)) := by
    rw [hexec, armOneShot_start h hes, armStart_free i haligned hadmitted hlegal hclk he]
  exact ⟨_, a1, armResume_runs hf hr hclk hes haligned.1 haligned.2 he fun u l hf hr =>
    (hexec _).trans (armOneShot_resume hes i mode u l hf hr)⟩

end

/-! ## XPEEK, micro-step by micro-step (R506) -/

variable {tr : XferRec}

theorem exec_xpeek (b : Blk) (x : Ch) (s : State) : exec (.xpeek b x) s = execXpeek b x s := rfl

theorem exec_xpeek_wrongMode (h : s.canUse b x (.xfer tr)) (hm : tr.mode = .memSrc) :
    exec (.xpeek b x) s = .next (s.refuse .wrongMode) := by
  obtain ⟨hready, -, hown⟩ := h
  rw [exec_xpeek, execXpeek, sequenced_ready hready, needXfer_xfer hown, check_fail (by rw [hm]; decide)]

/-- X1 reads the count and tests it against the Transfer's length. -/
theorem exec_xpeek_x1 (h : s.canUse b x (.xfer tr)) (hm : tr.mode = .memDest) :
    exec (.xpeek b x) s =
      if tr.n < (s.regs b x).ndt.toNat then
        .next (s.observed.takeFault (.countBeyondLength (s.regs b x).ndt.toNat tr.n) (.xpeek b x) b x)
      else .next (s.observed.goto (.xpeek b x) (.x2 (tr.n - (s.regs b x).ndt.toNat))) := by
  obtain ⟨hready, hclk, hown⟩ := h
  rw [exec_xpeek, execXpeek, sequenced_ready hready, needXfer_xfer hown, check_pass (by rw [hm]; decide),
    readWritten_eq hclk]
  rfl

theorem exec_xpeek_x2 (hu : s.unmarked) (hown : s.holder b x = .xfer tr) (written : Nat) :
    exec (.xpeek b x) (s.goto (.xpeek b x) (.x2 written)) =
      .next (s.fence.ret (.window tr.base tr.esize 0 written)) := by
  rw [exec_xpeek, execXpeek, sequenced_goto hu.1 hu.2]
  exact (needXfer_xfer (s := s.goto _ _) hown _).trans rfl

end

/-- Settles O27: both operations are `armOneShot`, with DIR = 0 and DIR = 1. -/
theorem readExactAndWriteAll : Obligations.ReadExactAndWriteAll := by
  unfold Obligations.ReadExactAndWriteAll
  intro b x size pl n base paddr payload es s huse hes hb hp hadm hleg hen r armed
  exact ⟨armOneShot_runs hes (mode := .memDest) (fun _ => rfl) huse ⟨hb, hp⟩ hadm hleg hen,
    armOneShot_runs hes (mode := .memSrc) (fun _ => rfl) huse ⟨hb, hp⟩ hadm hleg hen⟩

/-- Settles O35: X1 refuses the wrong mode, faults on a count above the length or goes on; X2 fences and returns. -/
theorem xpeek : Obligations.Xpeek := by
  unfold Obligations.Xpeek
  intro b x tr s h i rem
  refine ⟨exec_xpeek_wrongMode h, fun hm hrem => (exec_xpeek_x1 h hm).trans (if_pos hrem), fun hm hrem => ?_⟩
  have x1 : exec i s = .next (s.observed.goto i (.x2 (tr.n - rem))) :=
    (exec_xpeek_x1 h hm).trans (if_neg (Nat.not_lt.2 hrem))
  obtain ⟨hready, -, hown⟩ := h
  exact ⟨_, x1, exec_xpeek_x2 (s := s.observed) hready.unmarked hown _⟩

end Sys2Proof.Machine
end

section
/-! PROOF. SPLIT (R550), micro-step by micro-step, and that it alone moves an owner out of Unsplit (R552, R70). -/
namespace Sys2Proof.Machine
open Sys2Proof

/-! ## CCRs cleared -/

/-- The channel's CCR cleared, every other register as it was. -/
def State.ccrCleared (s : State) (b : Blk) (x : Ch) : State :=
  s.setRegs b x { s.regs b x with ccr := ⟨false, 0#3, 0#11⟩ }

/-- The CCRs of some channels of the block cleared, one after the other. -/
def State.ccrsCleared (s : State) (b : Blk) : List Ch → State
  | [] => s
  | x :: xs => (s.ccrCleared b x).ccrsCleared b xs

theorem State.ccrsCleared_cons (s : State) (b : Blk) (x : Ch) (xs : List Ch) :
    s.ccrsCleared b (x :: xs) = (s.ccrCleared b x).ccrsCleared b xs := rfl

theorem State.ccrsCleared_eq (s : State) (b : Blk) (xs : List Ch) :
    s.ccrsCleared b xs = { s with chan := (s.ccrsCleared b xs).chan } := by
  induction xs generalizing s with
  | nil => rfl
  | cons x xs ih => exact ih (s.ccrCleared b x)

theorem State.regs_ccrCleared (s : State) (b c : Blk) (x y : Ch) :
    (s.ccrCleared b x).regs c y =
      if c = b ∧ y = x then { s.regs c y with ccr := ⟨false, 0#3, 0#11⟩ } else s.regs c y := by
  rw [State.ccrCleared, State.regs_setRegs]
  split
  next h => rw [h.1, h.2]
  next => rfl

theorem State.regs_ccrsCleared (s : State) (b c : Blk) (xs : List Ch) (y : Ch) :
    (s.ccrsCleared b xs).regs c y =
      if c = b ∧ y ∈ xs then { s.regs c y with ccr := ⟨false, 0#3, 0#11⟩ } else s.regs c y := by
  induction xs generalizing s with
  | nil => simp [State.ccrsCleared]
  | cons x xs ih =>
    rw [State.ccrsCleared_cons, ih, State.regs_ccrCleared]
    by_cases h : c = b ∧ y = x
    · simp [h]
    · have hmem : (c = b ∧ y ∈ x :: xs) ↔ (c = b ∧ y ∈ xs) := by
        rw [List.mem_cons]
        tauto
      simp only [if_neg h, hmem]

section

variable {b : Blk} {x : Ch} {s t : State}

/-- Clearing a disabled channel's CCR keeps every channel of the block disabled. -/
theorem State.ccrCleared_disabled (h : ∀ y, (s.regs b y).ccr.en = false) (x y : Ch) :
    ((s.ccrCleared b x).regs b y).ccr.en = false := by
  rw [State.regs_ccrCleared]
  split
  · rfl
  · exact h y

/-! ## 0 written to CCR (R256, R258) -/

theorem wrCcr_zero_disabled (he : (s.regs b x).ccr.en = false) : wrCcr b x 0#32 s = .ok (s.ccrCleared b x) := by
  rw [wrCcr_fields he (by simp [he]), ccrUpdated, Ccr.update_disabled he]
  rfl

/-- A running channel has its interrupt enables cleared and is left stopping. -/
theorem wrCcr_zero_later (he : (s.regs b x).ccr.en = true) (h : s.stopsLater b x) :
    wrCcr b x 0#32 s = .ok ((ccrUpdated s b x 0#32).stopBegun b x) := by
  cases hst : (s.engine b x).stopping with
  | true =>
    have hself : (ccrUpdated s b x 0#32).stopBegun b x = ccrUpdated s b x 0#32 := by
      rw [State.stopBegun, State.setRegs_engine, ← hst]
      exact State.setEngine_self (ccrUpdated s b x 0#32) b x
    rw [wrCcr_clearEn_stopping he hst rfl, hself]
  | false =>
    have hn : (s.regs b x).ndt ≠ 0#16 := h.resolve_right (by simp [hst])
    rw [wrCcr_disable he rfl hst]
    simp [disable, ccrUpdated, hn, State.stopBegun]

/-! ## SPLIT, micro-step by micro-step (R550) -/

theorem exec_split (b : Blk) (s : State) : exec (.split b) s = execSplit b s := rfl

theorem exec_split_again (h : s.ready) (hdone : s.splitDone.get b = true) :
    exec (.split b) s = .next (s.refuse .alreadySplit) := by
  rw [exec_split, execSplit, sequenced_ready h, check_fail (by simp [hdone])]

theorem exec_split_z0 (h : s.ready) (hdone : s.splitDone.get b = false) :
    exec (.split b) s = .next ((clockOn b s).goto (.split b) (.z1 .c1)) := by
  rw [exec_split, execSplit, sequenced_ready h, check_pass (by simp [hdone]), goOn]

/-- Z1 and Z2 are a pause that writes all of CCR as 0, whatever it was. -/
theorem split_pauses (b : Blk) (x : Ch) : PausesAt (.split b) b x 0#32 (.z1 x) (.z2 x) fun _ => .z3 x where
  write hu := by
    rw [exec_split, execSplit, sequenced_goto hu.1 hu.2]
    rfl
  spin hu := by rw [exec_split, execSplit, sequenced_goto hu.1 hu.2]

theorem exec_split_z1 (hu : s.unmarked) (hclk : s.clk b = true)
    (hw : wrCcr b x 0#32 (s.goto (.split b) (.z1 x)) = .ok (t.goto (.split b) (.z1 x))) :
    exec (.split b) (s.goto (.split b) (.z1 x)) = .next (t.goto (.split b) (.z2 x)) :=
  ((split_pauses b x).write hu).trans (wrCcrThen_goto hclk hw)

/-- What Z3 leaves: SPLIT goes on with the next channel, or hands the channels out and returns. -/
def splitNext (b : Blk) (x : Ch) (s : State) : State :=
  match x.next with
  | some y => s.goto (.split b) (.z1 y)
  | none => (handOut b s).ret (.channelSet b)

theorem splitNext_regs (b : Blk) (x : Ch) (s : State) (c : Blk) (y : Ch) :
    (splitNext b x s).regs c y = s.regs c y := by
  unfold splitNext
  split <;> rfl

theorem splitNext_engine (b : Blk) (x : Ch) (s : State) (c : Blk) (y : Ch) :
    (splitNext b x s).engine c y = s.engine c y := by
  unfold splitNext
  split <;> rfl

theorem exec_split_z3 (hu : s.unmarked) (hclk : s.clk b = true) (he : (s.regs b x).ccr.en = false) :
    exec (.split b) (s.goto (.split b) (.z3 x)) = .next (splitNext b x (s.ccrCleared b x)) := by
  rw [exec_split, execSplit, sequenced_goto hu.1 hu.2]
  simp only [wrReg_ccr (s := s.goto _ _) hclk, wrCcr_zero_disabled (s := s.goto _ _) he, onDone_ok, splitNext]
  cases x.next <;> rfl

/-- Z1 to Z3 of a disabled channel clear its CCR. -/
theorem runAlone_split_channel (hu : s.unmarked) (hclk : s.clk b = true) (he : (s.regs b x).ccr.en = false) (k : Nat) :
    runAlone (k + 3) (.split b) (s.goto (.split b) (.z1 x)) =
      runAlone k (.split b) (splitNext b x (s.ccrCleared b x)) := by
  let u := s.ccrCleared b x
  have hoff : (u.regs b x).ccr.en = false := congrArg (·.ccr.en) (State.regs_setRegs_self ..)
  have z1 : exec (.split b) (s.goto (.split b) (.z1 x)) = .next (u.goto (.split b) (.z2 x)) :=
    exec_split_z1 hu hclk (wrCcr_zero_disabled (s := s.goto _ _) he)
  have z2 : exec (.split b) (u.goto (.split b) (.z2 x)) = .next (u.goto (.split b) (.z3 x)) :=
    (split_pauses b x).spin_off (s := u) hu hclk hoff
  have z3 : exec (.split b) (u.goto (.split b) (.z3 x)) = .next (splitNext b x (s.ccrCleared b x)) := by
    rw [exec_split_z3 (s := u) hu hclk hoff]
    simp [u, State.ccrCleared]
  rw [runAlone_succ z1, runAlone_succ z2, runAlone_succ z3]

/-- Z1 to Z3 of the last channels x, xs of a block, all disabled, clear their CCRs and end SPLIT. -/
theorem runAlone_split_channels (xs : List Ch) (hnext : List.IsChain (fun y z => y.next = some z) (x :: xs))
    (hlast : ((x :: xs).getLast (List.cons_ne_nil x xs)).next = none) (hu : s.unmarked) (hclk : s.clk b = true)
    (he : ∀ y, (s.regs b y).ccr.en = false) :
    runAlone (3 * (xs.length + 1)) (.split b) (s.goto (.split b) (.z1 x)) =
      .next ((handOut b (s.ccrsCleared b (x :: xs))).ret (.channelSet b)) := by
  induction xs generalizing x s with
  | nil =>
    have hlast : x.next = none := hlast
    rw [List.length_nil, runAlone_split_channel hu hclk (he x) 0, splitNext, hlast]
    rfl
  | cons y ys ih =>
    obtain ⟨hxy, hys⟩ := List.isChain_cons_cons.1 hnext
    rw [List.length_cons, Nat.mul_succ, runAlone_split_channel hu hclk (he x), splitNext, hxy]
    exact ih (s := s.ccrCleared b x) hys hlast hu hclk (State.ccrCleared_disabled he x)

/-! ## SPLIT of a block with a running channel (R258, R364) -/

/-- Z1 of a running channel, its spin at Z2, and Z2 and Z3 after the stop-completion step. -/
theorem split_stops (hu : s.unmarked) (hclk : s.clk b = true) (he : (s.regs b x).ccr.en = true)
    (hs : s.stopsLater b x) :
    let stopping := ((ccrUpdated s b x 0#32).stopBegun b x).goto (.split b) (.z2 x)
    exec (.split b) (s.goto (.split b) (.z1 x)) = .next stopping ∧ exec (.split b) stopping = .next stopping ∧
      runAlone 2 (.split b) (stopTurn b x stopping) =
        .next (splitNext b x (((ccrUpdated s b x 0#32).stopDone b x).ccrCleared b x)) := by
  intro stopping
  let u := ccrUpdated s b x 0#32
  have hen : (u.regs b x).ccr.en = true := by simpa [u, ccrUpdated] using he
  have hoff : ((u.stopDone b x).regs b x).ccr.en = false := by rw [State.stopDone_regs, State.switchedOff_regs]
  have hp := split_pauses b x
  refine ⟨exec_split_z1 hu hclk (wrCcr_zero_later (s := s.goto _ _) he hs),
    hp.spin_on (s := u.stopBegun b x) hu hclk hen, ?_⟩
  have stops : stopTurn b x stopping = (u.stopDone b x).goto (.split b) (.z2 x) :=
    stopTurn_stopBegun (s := u) hclk _ _
  rw [stops, runAlone_succ (hp.spin_off (s := u.stopDone b x) hu hclk hoff),
    runAlone_one (exec_split_z3 (s := u.stopDone b x) hu hclk hoff)]

end

/-- Settles O37: Z0 turns the clock on, Z1 to Z3 clear the CCR of one channel after the other, the last Z3 hands the
channels out; a running channel is paused at Z1 and Z2. -/
theorem split : Obligations.Split := by
  unfold Obligations.Split
  refine ⟨fun b s hready => ⟨exec_split_again hready, fun hdone hoff => ?_⟩, fun b x s hu hclk hseq he hs => ?_⟩
  · let all : List Ch := [.c1, .c2, .c3, .c4, .c5, .c6, .c7]
    have hall (y : Ch) : y ∈ all := by cases y <;> decide
    let u := (clockOn b s).ccrsCleared b all
    have hclk : (clockOn b s).clk b = true := ByBlk.get_set_self ..
    have runs : runAlone 21 (.split b) ((clockOn b s).goto (.split b) (.z1 .c1)) =
        .next ((handOut b u).ret (.channelSet b)) :=
      runAlone_split_channels [.c2, .c3, .c4, .c5, .c6, .c7] (by simp [Ch.next]) rfl hready.unmarked hclk hoff
    refine ⟨_, _, exec_split_z0 hready hdone, runs, ?_, fun x => ?_, fun c x hc => ?_⟩
    · have hu : u = { clockOn b s with chan := u.chan } := State.ccrsCleared_eq ..
      rw [hu, hready.idle]
      rfl
    · exact (State.regs_ccrsCleared ..).trans (if_pos ⟨rfl, hall x⟩)
    · exact (State.regs_ccrsCleared ..).trans (if_neg fun h => hc h.1)
  · intro r
    have hz1 : s.goto (.split b) (.z1 x) = s := by rw [State.goto, ← hseq]
    obtain ⟨z1, waits, ends⟩ := split_stops hu hclk he hs
    rw [hz1] at z1
    refine ⟨_, _, z1, ?_, ?_, waits, ends, ?_, ?_⟩
    · exact (State.regs_setRegs_self ..).trans (by rw [Ccr.update_enabled he]; rfl)
    · exact congrArg Engine.stopping (State.engine_setEngine_self ..)
    · rw [splitNext_regs]
      simp [State.ccrCleared, State.stopDone_regs, State.switchedOff_regs, r]
    · rw [splitNext_engine]
      exact congrArg Engine.stopping (State.engine_setEngine_self ..)

/-! ## The root of ownership (R552, R70) -/

/-- An operation on a channel needs it to have an owner. -/
theorem Instr.needs_unsplit {i : Instr} {b : Blk} {x : Ch} (h : Instr.channel i = some (b, x)) :
    (Instr.needs i).metBy .unsplit = false := by
  cases i <;> cases h <;> rfl

section

variable {b : Blk} {s t : State}

theorem onRead_rdReg_owner {r : Reg} {k : Word → State → Out} (h : onRead (rdReg b r s) k = .next t)
    (hk : ∀ v u, k v u = .next t → t.owner = u.owner) : t.owner = s.owner := by
  rcases onRead_next h with ⟨v, u, hr, h⟩ | hr
  · obtain ⟨-, -, hu⟩ := rdReg_ok hr
    rw [hk v u h, hu]
  · obtain ⟨-, rfl⟩ := rdReg_error hr
    rfl

theorem onDone_wrReg_owner {r : Reg} {v : Word} {k : State → Out} (h : onDone (wrReg b r v s) k = .next t)
    (hk : ∀ u, k u = .next t → t.owner = u.owner) : t.owner = s.owner := by
  rcases onDone_next h with ⟨u, hw, h⟩ | hw
  · exact (hk u h).trans (wrReg_owner (.inl hw))
  · exact wrReg_owner (.inr hw)

theorem goOn_owner {op : Instr} {l : Label} (h : goOn s op l = .next t) : t.owner = s.owner := by
  cases h
  rfl

/-- SPLIT changes no owner before its last micro-step. -/
theorem exec_split_owner {l : Label} (hs : s.seq = .busy (.split b) l) (hl : l ≠ .z3 .c7)
    (h : exec (.split b) s = .next t) : t.owner = s.owner := by
  obtain ⟨-, ⟨hidle, -⟩ | ⟨l', hl', h⟩⟩ := sequenced_next h
  · simp [hs] at hidle
  · obtain rfl : l = l' := by simpa [hs] using hl'
    cases l
    case z1 x => exact onDone_wrReg_owner h fun _ => goOn_owner
    case z2 x => exact onRead_rdReg_owner h fun _ _ => goOn_owner
    case z3 x =>
      refine onDone_wrReg_owner h fun u hk => ?_
      cases x
      case c7 => exact absurd rfl hl
      all_goals exact goOn_owner hk
    all_goals cases h

end

/-- Settles O53: with no operation in progress a step leaves Unsplit as it is; an operation in progress that changes the
owner works on the channel, which then is not Unsplit, or is the SPLIT of the block at its last micro-step. -/
theorem splitIsTheRootOfOwnership : Obligations.SplitIsTheRootOfOwnership := by
  unfold Obligations.SplitIsTheRootOfOwnership
  refine ⟨fun s t hk hstep b x hs hne => ?_, fun b s => exec_split_again⟩
  cases hseq : s.seq with
  | idle =>
    obtain ⟨e, ht⟩ := step_taken hstep
    have hsame : t.holder b x = .unsplit := by
      rcases ht.holder_idle (by exact hseq) b x with ht | ⟨addrs, ht⟩
      · exact ht.trans hs
      · exact ht.trans (congrArg (Owner.disturb addrs) hs)
    exact absurd hsame hne
  | busy i l =>
    obtain ⟨hdrawn, e, he⟩ := step_drawn (s := s) rfl
    rw [hdrawn, he] at hstep
    rcases takeTurn_busy (u := { s with env := e }) hseq hstep with ⟨hturn, hexec⟩ | howner
    · have hch : Instr.channel i ≠ some (b, x) := fun hi => by
        have hheld := hk i l b x hseq hi
        rw [hs, Instr.needs_unsplit hi] at hheld
        cases hheld
      have hi : i = .split b := by
        by_contra hi
        exact hne ((exec_holder_eq hexec (.inr ⟨hch, hi⟩)).trans hs)
      subst hi
      have hl : l = .z3 .c7 := by
        by_contra hl
        have howner := exec_split_owner (s := { s with env := e }) hseq hl hexec
        exact hne (by rw [State.holder, howner]; exact hs)
      rw [hl]
      exact ⟨rfl, hturn⟩
    · exact absurd (by rw [State.holder, howner]; exact hs) hne

end Sys2Proof.Machine
end

section
/-! PROOF. The clock gate (R619): with the clock off every transaction of the block is refused and no engine of the block
steps. That no step turns a clock off is `step_clk`. -/
namespace Sys2Proof.Machine
open Sys2Proof

section

variable {b : Blk} {s : State}

theorem clocked_off {α : Type} (h : s.clk b = false) (k : Except State α) :
    clocked b s k = .error (s.refuse .clockOff) :=
  if_neg (Bool.eq_false_iff.1 h)

theorem rdReg_off (h : s.clk b = false) (r : Reg) : rdReg b r s = .error (s.refuse .clockOff) := clocked_off h _

theorem wrReg_off (h : s.clk b = false) (r : Reg) (v : Word) : wrReg b r v s = .error (s.refuse .clockOff) :=
  clocked_off h _

/-- A BUS read whose transaction is refused leaves the state of the refusal. -/
theorem exec_readInstr_error {r : Reg} {t : State} (h : s.ready) (hr : rdReg b r s = .error t) :
    exec (readInstr b r) s = .next t := by
  rw [exec_readInstr, busRead, single_ready h, hr, onRead_error]

theorem elementTurn_off (h : s.clk b = false) (x : Ch) (lines : List Nat) : elementTurn b x lines s = s :=
  if_neg fun he => Bool.eq_false_iff.1 h (elementEnabled_iff.1 he).1

theorem stopTurn_off (h : s.clk b = false) (x : Ch) : stopTurn b x s = s :=
  if_neg fun he => Bool.eq_false_iff.1 h (stopEnabled_iff.1 he).1

end

/-- Settles O52: a refused transaction ends its BUS instruction with the refusal, both engine turns need the clock, and a
step keeps a clock that is on. -/
theorem clockGate : Obligations.ClockGate := by
  unfold Obligations.ClockGate
  refine ⟨fun b s hoff => ⟨fun r => ⟨rdReg_off hoff r, wrReg_off hoff r⟩, fun hready r => ?_, fun x lines => ?_⟩,
    fun s t hstep b hon => step_clk hstep hon⟩
  · exact ⟨exec_readInstr_error hready (rdReg_off hoff r), fun v => exec_writeInstr_error hready (wrReg_off hoff r v)⟩
  · exact ⟨elementTurn_off hoff x lines, stopTurn_off hoff x⟩

end Sys2Proof.Machine
end

section
/-! PROOF. Memory: every step keeps its canonical form (R80), and the byte order of `MemRead` and `MemWrite` (R152). -/
namespace Sys2Proof.Machine
open Sys2Proof

/-! ## How a step can change memory: not at all, or by one `MemWrite` -/

/-- Memory m' is m, or m after one `MemWrite`. -/
def Memory.StoredTo (m m' : Memory) : Prop := m' = m ∨ ∃ a n v, m' = memWrite m a n v

theorem Memory.StoredTo.wf {m m' : Memory} (h : m.StoredTo m') (hm : m.wf = true) : m'.wf = true := by
  rcases h with rfl | ⟨a, n, v, rfl⟩
  · exact hm
  · exact memWrite_wf n m a v hm

/-- What a turn of the program's load or store can do: nothing, the access, or its refusal. -/
theorem accessTurn_next {access : State → Except State State} {u t : State} (h : accessTurn access u = .next t) :
    t = u ∨ access u = .ok t ∨ access u = .error t := by
  obtain ⟨-, h⟩ := live_next h
  split at h
  · rcases onDone_next h with ⟨v, hv, h⟩ | h
    · cases h
      exact .inr (.inl hv)
    · exact .inr (.inr h)
  · exact .inl (by simpa using h.symm)

theorem ctlLoad_mem {l : List Nat} {a : Word} {size : ESize} {u t : State}
    (h : ctlLoad l a size u = .ok t ∨ ctlLoad l a size u = .error t) : t.mem = u.mem := by
  rcases h with h | h
  · obtain ⟨-, -, e, w, rfl, -⟩ := ctlLoad_ok h
    rfl
  · obtain ⟨r, rfl⟩ := ctlLoad_error h
    rfl

theorem ctlStore_storedTo {a v : Word} {size : ESize} {u t : State}
    (h : ctlStore a size v u = .ok t ∨ ctlStore a size v u = .error t) : u.mem.StoredTo t.mem := by
  rcases h with h | h
  · obtain ⟨-, -, rfl⟩ := ctlStore_ok h
    exact .inr ⟨a, size.bytes, v, rfl⟩
  · obtain ⟨r, rfl⟩ := ctlStore_error h
    exact .inl rfl

/-- A turn of the controller leaves memory alone: no instruction stores to it. -/
theorem controllerTurn_mem {u t : State} (h : controllerTurn u = .next t) : t.mem = u.mem := by
  obtain ⟨-, h⟩ := live_next h
  split at h
  · exact (exec_frame h).mem
  · unfold fetchAndRun at h
    split at h
    · cases h
      rfl
    · split at h
      · exact (exec_frame h).mem
      · cases h
        rfl

/-- An element moved to memory is one `MemWrite`; one moved to the peripheral leaves memory alone (R354, R355). -/
theorem moveElement_storedTo (b : Blk) (x : Ch) (n : Nat) (s : State) : s.mem.StoredTo (moveElement b x n s).mem := by
  cases hd : (s.regs b x).ccr.dir with
  | true =>
    obtain ⟨e, he⟩ := engineLoad_eq b x (s.engine b x).curMa n s
    rw [moveElement_toPeriph hd, he]
    exact .inl rfl
  | false =>
    obtain ⟨e, he⟩ := State.drawValue_eq s
    unfold moveElement periphRead
    simp only [hd, Bool.false_eq_true, if_false, he]
    exact .inr ⟨_, _, _, rfl⟩

theorem elementTurn_storedTo (b : Blk) (x : Ch) (lines : List Nat) (s : State) :
    s.mem.StoredTo (elementTurn b x lines s).mem := by
  unfold elementTurn
  split
  · unfold elementStep
    dsimp only
    split
    · exact moveElement_storedTo b x _ s
    · exact .inl rfl
  · exact .inl rfl

theorem stopTurn_mem (b : Blk) (x : Ch) (s : State) : (stopTurn b x s).mem = s.mem := by
  unfold stopTurn
  split <;> rfl

theorem takeTurn_storedTo {turn : Turn} {u t : State} (h : takeTurn turn u = .next t) : u.mem.StoredTo t.mem := by
  cases turn with
  | controller => exact .inl (controllerTurn_mem h)
  | element b x lines =>
    cases h
    exact elementTurn_storedTo b x lines u
  | stopDone b x =>
    cases h
    exact .inl (stopTurn_mem b x u)
  | load a size =>
    rcases accessTurn_next h with rfl | h
    · exact .inl rfl
    · exact .inl (ctlLoad_mem h)
  | store a size v =>
    rcases accessTurn_next h with rfl | h
    · exact .inl rfl
    · exact ctlStore_storedTo h

/-- Settles O56: the draw of the turn leaves memory alone, and what the turn does to it is at most one `MemWrite`. -/
theorem memoryFormKept : Obligations.MemoryFormKept := by
  unfold Obligations.MemoryFormKept
  intro s t hs hstep
  obtain ⟨e, he⟩ := State.drawTurn_eq s
  unfold step at hstep
  rw [he] at hstep
  exact (takeTurn_storedTo hstep).wf hs

/-! ## The bytes of a word, and those of a read (R152) -/

/-- Words with the same four bytes are equal. -/
theorem Word.eq_of_bytes_eq {v w : Word}
    (h : ∀ k, k < 4 → v.extractLsb' (8 * k) 8 = w.extractLsb' (8 * k) 8) : v = w := by
  apply BitVec.eq_of_getLsbD_eq
  intro i hi
  have hbyte := congrArg (fun z : Byte => z.getLsbD (i % 8)) (h (i / 8) (by omega))
  have hmod : i % 8 < 8 := Nat.mod_lt i (by decide)
  simpa [BitVec.getLsbD_extractLsb', hmod, Nat.div_add_mod] using hbyte

/-- The bytes of `lowBytes n v` from byte n on are 0. -/
theorem extractLsb'_lowBytes_ge (v : Word) {n k : Nat} (hk : n ≤ k) :
    (lowBytes n v).extractLsb' (8 * k) 8 = 0#8 := by
  apply BitVec.eq_of_getLsbD_eq
  intro i hi
  have hhigh : ¬8 * k + i < 8 * n := by omega
  simp [lowBytes, BitVec.getLsbD_extractLsb', BitVec.getLsbD_setWidth, hhigh]

/-- The lowest byte of a word put together from a byte and a word above it, as a read does. -/
theorem extractLsb'_byte_or_shiftLeft_zero (c : Byte) (w : Word) :
    (c.setWidth 32 ||| w <<< 8).extractLsb' 0 8 = c := by
  apply BitVec.eq_of_getLsbD_eq
  intro i hi
  have hword : i < 32 := by omega
  simp [hi, hword]

theorem extractLsb'_byte_or_shiftLeft_succ (c : Byte) (w : Word) {k : Nat} (hk : k + 1 < 4) :
    (c.setWidth 32 ||| w <<< 8).extractLsb' (8 * (k + 1)) 8 = w.extractLsb' (8 * k) 8 := by
  apply BitVec.eq_of_getLsbD_eq
  intro i hi
  have hc : c.getLsbD (8 * (k + 1) + i) = false := BitVec.getLsbD_of_ge c _ (by omega)
  have hword : 8 * (k + 1) + i < 32 := by omega
  have habove : ¬8 * (k + 1) + i < 8 := by omega
  have hsub : 8 * (k + 1) + i - 8 = 8 * k + i := by omega
  simp only [BitVec.getLsbD_extractLsb', BitVec.getLsbD_or, BitVec.getLsbD_setWidth, BitVec.getLsbD_shiftLeft, hc,
    hword, habove, hsub, decide_true, decide_false, Bool.true_and, Bool.and_false, Bool.false_or, Bool.not_false]

/-- Byte k of an n-byte read is the byte at `a + k`, or 0 from byte n on. -/
theorem memRead_byte (m : Memory) (a : Word) (n k : Nat) (hk : k < 4) :
    (memRead m a n).extractLsb' (8 * k) 8 = if k < n then m.byteAt (a + BitVec.ofNat 32 k).toNat else 0#8 := by
  induction n generalizing a k with
  | zero => simp [memRead]
  | succ n ih =>
    rw [memRead]
    cases k with
    | zero => simp [extractLsb'_byte_or_shiftLeft_zero]
    | succ k =>
      have hnext : a + 1#32 + BitVec.ofNat 32 k = a + BitVec.ofNat 32 (k + 1) := by
        rw [BitVec.add_assoc, BitVec.add_comm 1#32, BitVec.ofNat_add]
      rw [extractLsb'_byte_or_shiftLeft_succ _ _ hk, ih (a + 1#32) k (by omega), hnext]
      simp only [Nat.add_lt_add_iff_right]

theorem memRead_memWrite (m : Memory) (a v : Word) {n : Nat} (hn : n ≤ 4) :
    memRead (memWrite m a n v) a n = lowBytes n v := by
  refine Word.eq_of_bytes_eq fun k hk => ?_
  rw [memRead_byte _ _ _ _ hk]
  split
  next hkn =>
    rw [memWrite_byteAt_inside n m a v k hkn (by omega), setWidth_shiftRight_eq_extractLsb', extractLsb'_lowBytes v hkn]
  next hkn => rw [extractLsb'_lowBytes_ge v (by omega)]

/-- Settles O48: a read byte by byte, and a read after a write by the bytes that the write stored. -/
theorem memoryLittleEndian : Obligations.MemoryLittleEndian := by
  unfold Obligations.MemoryLittleEndian
  intro m a v n hn
  refine ⟨fun k hk => ?_, fun k hnk hk => ?_, memRead_memWrite m a v hn⟩
  · rw [memRead_byte m a n k (by omega), if_pos hk]
  · rw [memRead_byte m a n k hk, if_neg (by omega)]

end Sys2Proof.Machine
end

section
/-! PROOF. The state after reset: its registers, engines and owners, and the invariants that hold there (R100, R101). -/
namespace Sys2Proof.Machine
open Sys2Proof

/-! ## The accessors at reset -/

@[simp] theorem reset_clk (b : Blk) : State.reset.clk b = false := ByBlk.get_all _ b

@[simp] theorem reset_chan (b : Blk) : State.reset.chan.get b = .all .reset := ByBlk.get_all _ b

@[simp] theorem reset_regs (b : Blk) (x : Ch) : State.reset.regs b x = .reset := by
  rw [State.regs, reset_chan, ByCh.get_all]

@[simp] theorem reset_engine (b : Blk) (x : Ch) : State.reset.engine b x = .reset := by
  simp [State.engine, State.reset]

@[simp] theorem reset_holder (b : Blk) (x : Ch) : State.reset.holder b x = .unsplit := by
  simp [State.holder, State.reset]

/-- Every register reads 0 at reset (R100). -/
theorem reset_regValue (b : Blk) (r : Reg) : regValue State.reset b r = 0#32 := by
  cases r with
  | isr =>
    simp only [regValue, reset_chan]
    decide
  | cselr =>
    simp only [regValue, reset_chan]
    decide
  | ifcr => rfl
  | ccr x | cndtr x | cpar x | cmar x =>
    simp only [regValue, reset_regs]
    decide

/-- Settles O1: each accessor at reset, register by register. -/
theorem resetState : Obligations.ResetState := by
  unfold Obligations.ResetState
  refine ⟨fun b => ⟨reset_clk b, ByBlk.get_all _ b, reset_regValue b⟩, fun b x => ?_, reset_holder, rfl, rfl, rfl,
    fun a => rfl⟩
  rw [reset_engine]
  exact ⟨rfl, rfl, rfl, rfl⟩

/-! ## The invariants at reset -/

theorem reset_channelsLegal : State.reset.channelsLegal := fun b x => by
  rw [reset_regs, reset_engine]
  exact ChanRegs.legalWith_disabled rfl rfl

/-- With no owner there is no CircBuffer whose offset could exceed its half. -/
theorem reset_offsetsBounded : State.reset.offsetsBounded := by
  simp [State.offsetsBounded]

/-- The sequencer is Idle, so no operation in progress needs an owner. -/
theorem reset_holdersKept : State.reset.holdersKept := by
  intro op l b x hs
  cases hs

/-- Settles O55: no memory is listed, no channel is enabled or has an owner, and no operation is in progress. -/
theorem resetMeetsInvariants : Obligations.ResetMeetsInvariants :=
  ⟨rfl, reset_channelsLegal, reset_offsetsBounded, reset_holdersKept⟩

end Sys2Proof.Machine
end

section
/-! PROOF. Words of the spec decoded (R201 to R208), a transfer error (R356) and the interrupt output (R372). -/
namespace Sys2Proof.Machine
open Sys2Proof

/-- Settles O4: the decoder evaluated on the eleven words. -/
theorem decodesSpecWords : Obligations.DecodesSpecWords := by
  unfold Obligations.DecodesSpecWords
  exact ⟨rfl, rfl, rfl, rfl, rfl, rfl, rfl, rfl, rfl, rfl, rfl⟩

/-- An element step with an access that is not admitted is a transfer error (R353). -/
theorem elementStep_notAdmitted {b : Blk} {x : Ch} {s : State}
    (h : ¬accessOk b x (s.regs b x).ccr.elemBytes s = true) : elementStep b x s = transferError b x s := if_neg h

/-- CCR bit k + 1 is interrupt enable k (R56). -/
theorem getLsbD_toWord_ie (c : Ccr) {k : Nat} (hk : k < 3) : c.toWord.getLsbD (k + 1) = c.ie.getLsbD k := by
  have hbit := congrArg (fun v => v.getLsbD k) (ieOf_toWord c)
  simpa [ieOf, BitVec.getLsbD_extractLsb', hk, Nat.add_comm] using hbit

/-- Settles O46: the flags are those of the channel's ISR group, the enables bits 3:1 of its CCR. -/
theorem interruptOutput : Obligations.InterruptOutput := by
  unfold Obligations.InterruptOutput
  intro b x s isr ccr g
  have htc : ccr.getLsbD 1 = (s.regs b x).ccr.tcie := getLsbD_toWord_ie _ (by decide)
  have hht : ccr.getLsbD 2 = (s.regs b x).ccr.htie := getLsbD_toWord_ie _ (by decide)
  have hte : ccr.getLsbD 3 = (s.regs b x).ccr.teie := getLsbD_toWord_ie _ (by decide)
  have htcif : isr.getLsbD (g + 1) = (s.regs b x).tcif := isrWord_tcif _ x
  have hhtif : isr.getLsbD (g + 2) = (s.regs b x).htif := isrWord_htif _ x
  have hteif : isr.getLsbD (g + 3) = (s.regs b x).teif := isrWord_teif _ x
  rw [htc, hht, hte, htcif, hhtif, hteif]
  rfl

end Sys2Proof.Machine

/-! The theorem below has the name of a function of `Machine`, so it stands outside that namespace. -/

namespace Sys2Proof
open Sys2Proof.Machine

/-- Settles O42: the step is `transferError`, which sets TEIF and clears EN and `stopping`. -/
theorem transferError : Obligations.TransferError := by
  unfold Obligations.TransferError
  intro b x s r e n h
  refine elementStep_notAdmitted fun hok => ?_
  obtain ⟨hp, hm⟩ := accessOk_iff.1 hok
  rcases h with h | h
  · exact Bool.eq_false_iff.1 h hp
  · exact Bool.eq_false_iff.1 h hm

end Sys2Proof
end
